-- ==== Sys2Proof/Word.lean ====
section
/-! DEFINITION. The word and byte types of the engine (20_memory.md R50, R54). -/

namespace Sys2Proof

/-- A command word: an abstract 32-bit value (20_memory.md R50). -/
abbrev Word := BitVec 32

/-- The contents of a hardware register or of one place of `BUF` (20_memory.md R54). -/
abbrev Byte := BitVec 8

/-- A 7-bit target address, unshifted (00_scope.md R6, `ADDR_W`). -/
abbrev Addr7 := BitVec 7

end Sys2Proof
end

