-- ==== Sys2Proof/Config.lean ====
section
/-! DEFINITION. The parameters of 00_scope.md R6 and the free values.

Parameters the source or the spec fixes are constants with their value. Open parameters are the fields of the
plain record `Config`; the state carries one such record, no step writes it, and a statement about every state
is a statement about every value of them (log entry 4). -/

namespace Sys2Proof

namespace Config

/-- `MAX_SPEED_HZ`: highest target frequency accepted (41_clock_and_init.md R88). -/
def maxSpeedHz : Nat := 100000

/-- `DEFAULT_SPEED_HZ`: target frequency when the framework gives none (00_scope.md R6, 41 R94). -/
def defaultSpeedHz : Nat := 100000

/-- `DIV_MIN`: smallest divider accepted (R90; conflict C1). -/
def divMin : Nat := 10

/-- `DIV_MAX`: largest divider accepted (R90). -/
def divMax : Nat := 511

/-- `HOLD_HI`, `HOLD_MID`, `HOLD_LO`: the hold-time values (R91). -/
def holdHi : Nat := 17
/-- `HOLD_MID` (R91). -/
def holdMid : Nat := 15
/-- `HOLD_LO` (R91). -/
def holdLo : Nat := 7

/-- `HOLD_T1`: the upper input-clock tier (R91). -/
def holdT1 : Nat := 40000000
/-- `HOLD_T2`: the lower input-clock tier (R91). -/
def holdT2 : Nat := 12500000

/-- `REC_ITER`: at most this many SCL toggle pulses in recovery (44 R126). -/
def recIter : Nat := 27

/-- FREE VALUE (46_line_engine.md R150; log entry 2). The level bits (SCL, SDA) that a read of `BRC` returns while
the engine is bus master, by the number of such reads made before. It has no body: no claim can rest on it. -/
opaque freeLevels : Nat → Bool × Bool

end Config

/-- For each bit of a register's default layout, 0 to 7, the bit of the byte in which a given `LAYOUT` has it
(00_scope.md R6; log entry 3). -/
structure Places where
  b0 : Fin 8
  b1 : Fin 8
  b2 : Fin 8
  b3 : Fin 8
  b4 : Fin 8
  b5 : Fin 8
  b6 : Fin 8
  b7 : Fin 8
  deriving DecidableEq, Repr

/-- Every bit where the default layout has it. -/
def Places.identity : Places := { b0 := 0, b1 := 1, b2 := 2, b3 := 3, b4 := 4, b5 := 5, b6 := 6, b7 := 7 }

/-- No two bits share a place. -/
def Places.wf (p : Places) : Bool := decide [p.b0, p.b1, p.b2, p.b3, p.b4, p.b5, p.b6, p.b7].Nodup

/-- The parameter `LAYOUT`: the bit position of every register field (00_scope.md R6; 92_eei_decisions.md D6; log entry 3).
`DATA` has none: its one field is the whole byte. -/
structure Layout where
  st : Places
  cst : Places
  ctl1 : Places
  ctl2 : Places
  ctl3 : Places
  b0ectl : Places
  b0est : Places
  b0fifctl : Places
  b1fifcts : Places
  brc : Places
  deriving DecidableEq, Repr

/-- The default `LAYOUT`: the positions of 10_state.md R21 to R41. -/
def Layout.default : Layout where
  st := .identity
  cst := .identity
  ctl1 := .identity
  ctl2 := .identity
  ctl3 := .identity
  b0ectl := .identity
  b0est := .identity
  b0fifctl := .identity
  b1fifcts := .identity
  brc := .identity

/-- The open parameters of 00_scope.md R6. -/
structure Config where
  /-- `N_MODULES`. -/
  nModules : Nat
  /-- The answer of `clock_provider()`: `none` is its `error`, otherwise a number of Hz below 2^32 (41 R94). -/
  clock : Option (BitVec 32)
  /-- The target frequency the framework hands to INIT; `none` when it gives none (R6, 41 R94). -/
  frameworkHz : Option Nat
  /-- `T_START`. -/
  tStart : Nat
  /-- `T_STOP` less one: `T_STOP` is greater than 0 (log entry 18). -/
  tStopLessOne : Nat
  /-- `T_SDA`. -/
  tSda : Nat
  /-- `T_ACK`. -/
  tAck : Nat
  /-- `T_STALL`. -/
  tStall : Nat
  /-- `T_REC_START`. -/
  tRecStart : Nat
  /-- `rec_byte`, a function from address to byte: its values where they differ from the default `zext_8(addr)`
  (R6; log entry 13). -/
  recByte : List (Addr7 × Byte)
  /-- `ATOMIC_NACK_LOOKAHEAD`. -/
  atomicNackLookahead : Bool
  /-- `LAYOUT`. -/
  layout : Layout
  /-- DESIGN CHOICE (log entry 25): whether a stall latch that a zero-length WRITE left as message 1 of an exchange outlives the
  `release_stall` of a message 2 that reads one byte (43 R121 (d), 70 R201), or is cleared by it (42 R104; rulings D12, D13). -/
  staleStallHolds : Bool
  deriving DecidableEq, Repr

/-- `T_STOP`, greater than 0 (00_scope.md R6). -/
def Config.tStop (c : Config) : Nat := c.tStopLessOne + 1

/-- `CFG_SPEED_HZ`: what the framework hands to INIT, `DEFAULT_SPEED_HZ` when it gives none (00_scope.md R6). -/
def Config.cfgSpeedHz (c : Config) : Nat := c.frameworkHz.getD Config.defaultSpeedHz

/-- The parameter values of the spec's test vectors (95_test_vectors.md section 0 and section 3), with `rec_byte`,
`ATOMIC_NACK_LOOKAHEAD` and `LAYOUT` at their defaults. DESIGN CHOICE (log entries 4 and 25): what `State.reset` carries. -/
def Config.baseline : Config where
  nModules := 4
  clock := some 50000000
  frameworkHz := some 100000
  tStart := 2
  tStopLessOne := 4
  tSda := 2
  tAck := 2
  tStall := 3
  tRecStart := 4
  recByte := []
  atomicNackLookahead := true
  layout := .default
  staleStallHolds := false

end Sys2Proof
end

