-- ==== Sys2Proof/Machine/State.lean ====
section
/-! DEFINITION. The state of one engine as plain data (10_state.md R13), the reasons a run is refused, power-on. -/

namespace Sys2Proof.Machine

/-! ## Sequencer registers (10_state.md R14) -/

/-- The state chain of one transaction (10_state.md R15). -/
inductive Phase where
  | idle
  | started
  | addressed
  | data
  | stopped
  deriving DecidableEq, Repr

/-- The seven sequencer registers (10_state.md R14). -/
structure SeqRegs where
  /-- `STARTED`, 1 bit. -/
  started : Bool
  /-- `PHASE`, 3 bits, five values. -/
  phase : Phase
  /-- `RESULT`, 4 bits: a code of 60_exceptions.md R161. -/
  result : BitVec 4
  /-- `RDATA`. -/
  rdata : Byte
  /-- `MODIDX`. -/
  modidx : BitVec 8
  /-- `INPUT_CLK`, in Hz. -/
  inputClk : BitVec 32
  /-- `TARGET_HZ`. -/
  targetHz : BitVec 32
  deriving DecidableEq, Repr

/-! ## Hardware registers (10_state.md R20 to R41) -/

/-- The eleven registers the Register Interface recognizes (10_state.md R20). -/
inductive RegId where
  | data | st | cst | ctl1 | ctl2 | ctl3 | b0ectl | b0est | b0fifctl | b1fifcts | brc
  deriving DecidableEq, Repr

/-- The stored bytes of the hardware registers. `B1_FIFCTS` and `BRC` store nothing: their bits are write-1 actions
that read 0, and the two line levels (10_state.md R40, R41; log entry 17). -/
structure HwRegs where
  data : Byte
  st : Byte
  cst : Byte
  ctl1 : Byte
  ctl2 : Byte
  ctl3 : Byte
  b0ectl : Byte
  b0est : Byte
  b0fifctl : Byte
  deriving DecidableEq, Repr

/-! ## Hidden state of the line engine (10_state.md R43) -/

/-- The kind of a byte waiting in `le.txb`. -/
inductive TxKind where
  | addr
  | data
  deriving DecidableEq, Repr

/-- `le.dir`. -/
inductive XferDir where
  | none
  | tx
  | rx
  deriving DecidableEq, Repr

/-- `le.next`: the bus step the line engine owes. -/
inductive Owed where
  | none
  | txReady
  | rxByte
  deriving DecidableEq, Repr

/-- The hidden state (10_state.md R43). -/
structure LeState where
  /-- `le.txb`, oldest first. -/
  txb : List (Byte × TxKind)
  /-- `le.addr_phase`. -/
  addrPhase : Bool
  /-- `le.dir`. -/
  dir : XferDir
  /-- `le.next`. -/
  owed : Owed
  /-- `le.last`. -/
  last : Bool
  /-- `le.pulses`. -/
  pulses : Nat
  deriving DecidableEq, Repr

/-- The level of a bus line (10_state.md R44). -/
inductive Level where
  | low
  | high
  deriving DecidableEq, Repr

/-! ## Message buffers (20_memory.md R48) -/

/-- `BUF`: the bytes that differ from what an unlisted address reads as, by address. -/
abbrev Memory := List Host.Cell

/-- What an address of `BUF` that is not listed reads as. The buffers are the host's and the spec gives them no
contents. DESIGN CHOICE (log entry 12). -/
abbrev Memory.unlisted : Byte := 0

/-- The canonical form: addresses strictly rising and below 2^32, no entry equal to what it would read as anyway. -/
abbrev Memory.wf (m : Memory) : Prop :=
  m.Pairwise (fun c d => c.1 < d.1) ∧ ∀ c ∈ m, c.1 < 2 ^ 32 ∧ c.2 ≠ Memory.unlisted

/-! ## Observation lists -/

/-- Acknowledge or refusal of a byte on the bus (10_state.md R45). -/
inductive Ack where
  | ack
  | nack
  deriving DecidableEq, Repr

/-- The events of `wire` (10_state.md R45). -/
inductive WireEvent where
  | start
  | restart
  | stop
  | addr (byte : Byte) (answer : Ack)
  | tx (byte : Byte) (answer : Ack)
  | rx (byte : Byte) (answer : Ack)
  | pulse
  deriving DecidableEq, Repr

/-- The events of `LOG`, a closed set (10_state.md R19). -/
inductive LogEvent where
  /-- `LOG_INIT(modidx, input_clk, target_hz, divider, hold)`. -/
  | initDone (modidx inputClk targetHz divider hold : Nat)
  /-- `LOG_DUMP(values)`. -/
  | dump (values : List (RegId × Byte))
  /-- `LOG_REC_DONE`. -/
  | recDone
  /-- `LOG_REC_START_FAILED`. -/
  | recStartFailed
  /-- `LOG_REC_SDA_STUCK`. -/
  | recSdaStuck
  deriving DecidableEq, Repr

/-- One Register Interface access, with the byte moved (the mock interface's record of 42_primitives.md R109), its fields at
their default places; `Access.shown` is the access in another layout. -/
inductive Access where
  | rd (r : RegId) (v : Byte)
  | wr (r : RegId) (v : Byte)
  deriving DecidableEq, Repr

/-! ## The environment of the line engine (46_line_engine.md R135, R136) -/

/-- The events of the line engine (46_line_engine.md R139 to R152), each with the values the environment chooses. -/
inductive LeEvent where
  /-- `EV_START_DONE` (R139). -/
  | startDone
  /-- `EV_BER`, with the draw of `ST.MASTER` (R141). -/
  | ber (master : Bool)
  /-- `EV_ADDR_ACK` (R142). -/
  | addrAck
  /-- `EV_ADDR_NACK` (R143). -/
  | addrNack
  /-- `EV_TX_READY` (R144). -/
  | txReady
  /-- `EV_TX_ACK` (R145). -/
  | txAck
  /-- `EV_TX_NACK` (R146). -/
  | txNack
  /-- `EV_RX_BYTE(b)` (R147). -/
  | rxByte (b : Byte)
  /-- `EV_STOP_DONE`, with the draw of `EO_BUSY` (R149). -/
  | stopDone (eoBusy : Bool)
  /-- `EV_LINES`, with the two drawn levels (R150). -/
  | lines (scl sda : Level)
  /-- `EV_FOREIGN`, with the draws of `BB` and `EO_BUSY` (R152). -/
  | foreign (bb eoBusy : Bool)
  deriving DecidableEq, Repr

/-- `ENV_REF(targets, rx, txnack, stuck)` (46_line_engine.md R157) and what it has to remember between events
(log entry 16). -/
structure EnvRef where
  /-- The addresses that acknowledge. -/
  targets : List Addr7
  /-- The bytes each target still has to return. -/
  rx : List (Addr7 × List Byte)
  /-- The index, within one write message, of the data byte the target refuses. -/
  txNack : Option Nat
  /-- `(k, scl_low)`: SDA is low until `le.pulses` reaches `k` (`none` is the k of a line that never rises). -/
  stuck : Option (Option Nat × Bool)
  /-- The address acknowledged last. -/
  current : Addr7
  /-- How many data bytes were sent since the last address. -/
  txIndex : Nat
  deriving DecidableEq, Repr

/-- The environment's choices as plain data (log entry 1): a list with, for each interleaving point to come, the events
to fire there (when it runs out nothing fires); or the reference environment. -/
inductive Env where
  | script (points : List (List LeEvent))
  | ref (e : EnvRef)
  deriving DecidableEq, Repr

/-! ## The state -/

/-- The state of one engine (10_state.md R13), its inputs, its parameters and its observation lists. -/
structure State where
  /-- The sequencer registers (10_state.md R14). -/
  x : SeqRegs
  /-- The hardware registers (10_state.md R20). -/
  reg : HwRegs
  /-- The hidden line-engine state (10_state.md R43). -/
  le : LeState
  /-- The level of SCL (10_state.md R44). -/
  scl : Level
  /-- The level of SDA (10_state.md R44). -/
  sda : Level
  /-- `BUF` (20_memory.md R48). -/
  buf : Memory
  /-- `LOG` (10_state.md R19). -/
  log : List LogEvent
  /-- `wire` (10_state.md R45). -/
  wire : List WireEvent
  /-- `cp`, the index of the next command word (10_state.md R16). -/
  cp : Nat
  /-- The command words the host issues (10_state.md R16, 20_memory.md R50). -/
  program : List Word
  /-- An INIT has returned `OK` (70_reset_and_hazards.md R188; log entry 10). -/
  initialised : Bool
  /-- The module indices `pinmux` was invoked with (41_clock_and_init.md R94). -/
  pinmux : List (BitVec 8)
  /-- The environment's choices still to come (log entry 1). -/
  env : Env
  /-- How many free line-level values have been drawn (log entry 2). -/
  draws : Nat
  /-- The Register Interface accesses made (42_primitives.md R109; log entry 15). -/
  acc : List Access
  /-- The open parameters (00_scope.md R6; log entry 4). -/
  cfg : Config
  deriving DecidableEq, Repr

/-! ## Updates, one field each -/

/-- `x <- x'`. -/
def State.withX (s : State) (x : SeqRegs) : State := { s with x := x }
/-- `reg <- reg'`. -/
def State.withReg (s : State) (reg : HwRegs) : State := { s with reg := reg }
/-- `le <- le'`. -/
def State.withLe (s : State) (le : LeState) : State := { s with le := le }
/-- Both line levels. -/
def State.withLines (s : State) (scl sda : Level) : State := { s with scl := scl, sda := sda }
/-- `BUF <- buf`. -/
def State.withBuf (s : State) (buf : Memory) : State := { s with buf := buf }
/-- Appends to `LOG`. -/
def State.pushLog (s : State) (e : LogEvent) : State := { s with log := s.log ++ [e] }
/-- Appends to `wire`. -/
def State.pushWire (s : State) (e : WireEvent) : State := { s with wire := s.wire ++ [e] }
/-- Records an access. -/
def State.pushAcc (s : State) (a : Access) : State := { s with acc := s.acc ++ [a] }
/-- Moves `cp`. -/
def State.withCp (s : State) (cp : Nat) : State := { s with cp := cp }
/-- Replaces the command stream. -/
def State.withProgram (s : State) (ws : List Word) : State := { s with program := ws }
/-- Whether a Bus Instance exists. -/
def State.withInitialised (s : State) (b : Bool) : State := { s with initialised := b }
/-- Records a `pinmux` invocation. -/
def State.pushPinmux (s : State) (m : BitVec 8) : State := { s with pinmux := s.pinmux ++ [m] }
/-- Replaces the environment's remaining choices. -/
def State.withEnv (s : State) (env : Env) : State := { s with env := env }
/-- Counts a draw. -/
def State.withDraws (s : State) (n : Nat) : State := { s with draws := n }

/-! ## Why a run stops -/

/-- There are no machine faults: register access is infallible (40_register_access.md R81), `BUF` raises no fault
(20_memory.md R48), and every error of the engine is a result code in `x[RESULT]` (60_exceptions.md R161). -/
inductive Fault where
  deriving DecidableEq, Repr

/-- Runs the spec puts outside the model. -/
inductive Refusal where
  /-- `exec` only: the instruction has no meaning yet. Safe. -/
  | notModelled (mnemonic : String)
  /-- A command other than REG_READ, REG_WRITE, REG_SET, REG_CLR, INIT and DUMP issued before an INIT has returned
  `OK` (70_reset_and_hazards.md R189). Raised by those commands' meanings. Safe. -/
  | beforeInit
  /-- An event of 46_line_engine.md R139 to R149 is about to fire while `B0_FIFCTL.FIFO_EN` or `CTL1.INTEN` is 1
  (R138, 40_register_access.md R86). Raised at an interleaving point. Safe. -/
  | fifoOrInterruptMode
  /-- The list of words ends inside a command and so is no program (30_encoding.md R79). Raised by `step`. Safe. -/
  | truncatedProgram
  deriving DecidableEq, Repr

/-! ## Power-on (70_reset_and_hazards.md R186) -/

/-- The values R186 leaves unspecified: each a draw made once at power-on. -/
structure PowerOnDraws where
  stastr : Bool
  negack : Bool
  ber : Bool
  bb : Bool
  eoBusy : Bool
  sclfrqLo : BitVec 7
  ctl3 : Byte
  hldt : BitVec 6
  fifoEn : Bool
  data : Byte
  scl : Level
  sda : Level
  deriving DecidableEq, Repr

/-- `le_idle()` (46_line_engine.md R138); the pulse count stays. -/
def LeState.idle (le : LeState) : LeState :=
  { le with txb := [], addrPhase := false, dir := .none, owed := .none, last := false }

/-- The state after power-on, for given parameters and draws (70_reset_and_hazards.md R186): no command issued, nothing
listed in `BUF`, an environment that lets the line engine idle (log entries 6, 12). -/
def State.powerOn (c : Config) (d : PowerOnDraws) : State where
  x := { started := false, phase := .idle, result := 0, rdata := 0, modidx := 0, inputClk := 0, targetHz := 0 }
  reg :=
    { data := d.data
      st := 0#1 ++ 0#1 ++ BitVec.ofBool d.ber ++ BitVec.ofBool d.negack ++ BitVec.ofBool d.stastr ++ 0#3
      cst := 0#6 ++ BitVec.ofBool d.bb ++ 0#1
      ctl1 := 0
      ctl2 := d.sclfrqLo ++ 0#1
      ctl3 := d.ctl3
      b0ectl := 0#2 ++ d.hldt
      b0est := BitVec.ofBool d.eoBusy ++ 0#7
      b0fifctl := 0#3 ++ BitVec.ofBool d.fifoEn ++ 0#4 }
  le := { txb := [], addrPhase := false, dir := .none, owed := .none, last := false, pulses := 0 }
  scl := d.scl
  sda := d.sda
  buf := []
  log := []
  wire := []
  cp := 0
  program := []
  initialised := false
  pinmux := []
  env := .script []
  draws := 0
  acc := []
  cfg := c

/-- The draws of the spec's baseline state (95_test_vectors.md section 0): every unspecified register bit 0, both lines
high. DESIGN CHOICE (log entry 5). -/
def PowerOnDraws.zero : PowerOnDraws where
  stastr := false
  negack := false
  ber := false
  bb := false
  eoBusy := false
  sclfrqLo := 0
  ctl3 := 0
  hldt := 0
  fifoEn := false
  data := 0
  scl := .high
  sda := .high

/-- The machine right after reset: power-on with the parameters of `Config.baseline` (log entry 4) and the draws of
`PowerOnDraws.zero` (log entry 5). -/
def State.reset : State := State.powerOn Config.baseline PowerOnDraws.zero

end Sys2Proof.Machine
end

