-- ==== Sys2Proof/Machine/Flags.lean ====
section
/-! DEFINITION. The named fields of the hardware registers, at the places of the default layout, and the parameter `LAYOUT`
that says where the bytes on the Register Interface have them (10_state.md R20 to R46; log entry 3). Every other file names
fields, never bit numbers. -/

namespace Sys2Proof.Machine

/-! ## The register file -/

/-- The stored byte of a register; the two registers without storage hold 0 (10_state.md R40, R41). -/
def HwRegs.get (h : HwRegs) : RegId → Byte
  | .data => h.data
  | .st => h.st
  | .cst => h.cst
  | .ctl1 => h.ctl1
  | .ctl2 => h.ctl2
  | .ctl3 => h.ctl3
  | .b0ectl => h.b0ectl
  | .b0est => h.b0est
  | .b0fifctl => h.b0fifctl
  | .b1fifcts => 0
  | .brc => 0

/-- Stores a byte in a register; the two registers without storage keep nothing. -/
def HwRegs.set (h : HwRegs) (r : RegId) (v : Byte) : HwRegs :=
  match r with
  | .data => { h with data := v }
  | .st => { h with st := v }
  | .cst => { h with cst := v }
  | .ctl1 => { h with ctl1 := v }
  | .ctl2 => { h with ctl2 := v }
  | .ctl3 => { h with ctl3 := v }
  | .b0ectl => { h with b0ectl := v }
  | .b0est => { h with b0est := v }
  | .b0fifctl => { h with b0fifctl := v }
  | .b1fifcts => h
  | .brc => h

/-! ## One-bit fields -/

/-- The one-bit fields with storage (10_state.md R22 to R39). -/
inductive Flag where
  | master | stastr | negack | ber | sdast
  | bb
  | start | stop | inten | ack | stastre
  | enable
  | eoBusy
  | fifoEn
  deriving DecidableEq, Repr

/-- The register a field stands in. -/
def Flag.reg : Flag → RegId
  | .master => .st | .stastr => .st | .negack => .st | .ber => .st | .sdast => .st
  | .bb => .cst
  | .start => .ctl1 | .stop => .ctl1 | .inten => .ctl1 | .ack => .ctl1 | .stastre => .ctl1
  | .enable => .ctl2
  | .eoBusy => .b0est
  | .fifoEn => .b0fifctl

/-- The bit of a field in its register (10_state.md R22, R28, R29, R35, R38, R39). -/
def Flag.bit : Flag → Nat
  | .master => 1 | .stastr => 3 | .negack => 4 | .ber => 5 | .sdast => 6
  | .bb => 1
  | .start => 0 | .stop => 1 | .inten => 2 | .ack => 4 | .stastre => 7
  | .enable => 0
  | .eoBusy => 7
  | .fifoEn => 4

/-- The mask of a field: its bit alone. -/
def Flag.mask (f : Flag) : Byte := BitVec.twoPow 8 f.bit

/-- Whether a field is 1 in a byte read from its register (`s.NEGACK` of the pseudocode). -/
def Flag.isSet (f : Flag) (v : Byte) : Bool := v.getLsbD f.bit

/-- A byte with one bit replaced. -/
def putBit (v : Byte) (i : Nat) (b : Bool) : Byte :=
  if b then v ||| BitVec.twoPow 8 i else v &&& ~~~(BitVec.twoPow 8 i)

/-- `reg[r].F`: the stored value of a field (00_scope.md R10). -/
def State.flag (s : State) (f : Flag) : Bool := f.isSet (s.reg.get f.reg)

/-- `reg[r].F <- b`: the field alone changes. -/
def State.setFlag (s : State) (f : Flag) (b : Bool) : State :=
  s.withReg (s.reg.set f.reg (putBit (s.reg.get f.reg) f.bit b))

/-! ## Access types of the bits of each register (10_state.md R42) -/

/-- The bits a read returns as stored. The action bits `CLR_FIFO` and `TGSCL` read 0, the level bits are computed, the
reserved bits read 0. -/
def readMask : RegId → Byte
  | .data => 0xFF
  | .st => 0x7A
  | .cst => 0x02
  | .ctl1 => 0x97
  | .ctl2 => 0xFF
  | .ctl3 => 0xFF
  | .b0ectl => 0x3F
  | .b0est => 0x80
  | .b0fifctl => 0x10
  | .b1fifcts => 0x00
  | .brc => 0x00

/-- The latch bits: a write of 1 clears them (`ST_LATCHES`, `BB`, `EO_BUSY`; 10_state.md R22, R28, R38). -/
def latchMask : RegId → Byte
  | .data => 0x00
  | .st => 0x38
  | .cst => 0x02
  | .ctl1 => 0x00
  | .ctl2 => 0x00
  | .ctl3 => 0x00
  | .b0ectl => 0x00
  | .b0est => 0x80
  | .b0fifctl => 0x00
  | .b1fifcts => 0x00
  | .brc => 0x00

/-! ## `LAYOUT` (00_scope.md R6; log entry 3)

The stored bytes and the bytes of the sequencer's own accesses have each field at its default place; the byte that the host
reads, writes or finds in `LOG` has it where `LAYOUT` says. The two carry the same fields, and no rule names a bit number
(10_state.md R20), so nothing else depends on `LAYOUT`. -/

/-- The place of one bit. -/
def placeOf (p : Places) : Fin 8 → Fin 8
  | 0 => p.b0
  | 1 => p.b1
  | 2 => p.b2
  | 3 => p.b3
  | 4 => p.b4
  | 5 => p.b5
  | 6 => p.b6
  | 7 => p.b7

/-- The places of the bits of a register; the field of `DATA` is the whole byte (10_state.md R21). -/
def placesOf (l : Layout) : RegId → Places
  | .data => .identity
  | .st => l.st
  | .cst => l.cst
  | .ctl1 => l.ctl1
  | .ctl2 => l.ctl2
  | .ctl3 => l.ctl3
  | .b0ectl => l.b0ectl
  | .b0est => l.b0est
  | .b0fifctl => l.b0fifctl
  | .b1fifcts => l.b1fifcts
  | .brc => l.brc

/-- A layout puts no two bits of a register at one place. -/
def wfLayout (l : Layout) : Bool :=
  [l.st, l.cst, l.ctl1, l.ctl2, l.ctl3, l.b0ectl, l.b0est, l.b0fifctl, l.b1fifcts, l.brc].all Places.wf

/-- The byte with given bits. -/
def byteOf (f : Fin 8 → Bool) : Byte :=
  BitVec.ofBool (f 7) ++ BitVec.ofBool (f 6) ++ BitVec.ofBool (f 5) ++ BitVec.ofBool (f 4) ++
    BitVec.ofBool (f 3) ++ BitVec.ofBool (f 2) ++ BitVec.ofBool (f 1) ++ BitVec.ofBool (f 0)

/-- A byte of a register as the Register Interface shows it to the host: each bit at its place. -/
def hostByte (l : Layout) (r : RegId) (v : Byte) : Byte :=
  byteOf (fun j => (List.finRange 8).any (fun i => v.getLsbD i && decide (placeOf (placesOf l r) i = j)))

/-- A byte the host hands to the Register Interface: each bit taken from its place. -/
def fieldByte (l : Layout) (r : RegId) (v : Byte) : Byte := byteOf (fun i => v.getLsbD (placeOf (placesOf l r) i))

/-- An access as a recorder on the Register Interface sees it (42_primitives.md R109). -/
def Access.shown (l : Layout) : Access → Access
  | .rd r v => .rd r (hostByte l r v)
  | .wr r v => .wr r (hostByte l r v)

/-- `ST_LATCHES`: the mask `send_stop` writes to `ST` (10_state.md R22, 42_primitives.md R99). -/
def stLatches : Byte := Flag.mask .stastr ||| Flag.mask .negack ||| Flag.mask .ber

/-- `SCLFRQ_LO_MASK` (41_clock_and_init.md R92). -/
def sclfrqLoMask : Byte := 0xFE
/-- `SCLFRQ_LO_SHIFT` (R92). -/
def sclfrqLoShift : Nat := 1
/-- `SCLFRQ_HI_MASK` (R92). -/
def sclfrqHiMask : Byte := 0x03
/-- `SCLFRQ_HI_SHIFT` (R92). -/
def sclfrqHiShift : Nat := 0

/-- `CLR_FIFO_MASK` (10_state.md R40). -/
def clrFifoMask : Byte := 0x40

/-- The bit of `TGSCL` in `BRC` (10_state.md R41). -/
def tgsclBit : Nat := 5
/-- `TGSCL_MASK` (10_state.md R41). -/
def tgsclMask : Byte := BitVec.twoPow 8 tgsclBit
/-- The bit of `SDA_LVL` in `BRC` (10_state.md R41). -/
def sdaLvlBit : Nat := 6
/-- The bit of `SCL_LVL` in `BRC` (10_state.md R41). -/
def sclLvlBit : Nat := 7

/-- The byte `BRC` reads as, for two level bits: `TGSCL` and the reserved bits read 0 (10_state.md R41). -/
def brcByte (scl sda : Bool) : Byte := putBit (putBit 0 sclLvlBit scl) sdaLvlBit sda

end Sys2Proof.Machine
end

