-- ==== Sys2Proof/Machine/LineEngine.lean ====
section
/-! DEFINITION. The line engine LE: its events, each a guard and an effect in one indivisible step
(46_line_engine.md R137 to R154). -/

namespace Sys2Proof.Machine

/-- `hold`: the stall latch holds the bus (R137). -/
def State.hold (s : State) : Bool := s.flag .stastr

/-- `G0`: the module is enabled (R138). -/
def State.g0 (s : State) : Bool := s.flag .enable

/-- FIFO or interrupt mode, for which the spec gives the line engine no meaning (R138, 40_register_access.md R86). -/
def State.offMode (s : State) : Bool := s.flag .fifoEn || s.flag .inten

/-- The kind of the oldest byte of `le.txb`, if there is one. -/
def State.headKind (s : State) : Option TxKind := s.le.txb.head?.map Prod.snd

/-- `le_idle()` (R138). -/
def State.leIdle (s : State) : State := s.withLe s.le.idle

/-- The guard common to the two answers to an address byte (R142, R143). -/
def addrGuard (s : State) : Bool :=
  s.g0 && s.flag .master && s.le.addrPhase && !s.flag .start && !s.hold && decide (s.headKind = some .addr)

/-- The guard common to the two answers to a data byte (R145, R146). -/
def txGuard (s : State) : Bool :=
  s.g0 && s.flag .master && !s.le.addrPhase && decide (s.le.dir = .tx) && !s.hold && decide (s.headKind = some .data)

/-- The guards of R139 to R152. -/
def LeEvent.guard (e : LeEvent) (s : State) : Bool :=
  match e with
  | .startDone =>
    s.g0 && s.flag .start && !s.flag .stop && !s.hold && (s.le.txb.isEmpty || decide (s.headKind = some .addr)) &&
      (s.flag .master || (decide (s.scl = .high) && decide (s.sda = .high)))
  | .ber _ => s.g0 && (s.flag .start || s.flag .master)
  | .addrAck => addrGuard s
  | .addrNack => addrGuard s
  | .txReady =>
    s.g0 && s.flag .master && decide (s.le.owed = .txReady) && !s.hold && s.le.txb.isEmpty && !s.flag .start && !s.flag .stop
  | .txAck => txGuard s
  | .txNack => txGuard s
  | .rxByte _ =>
    s.g0 && s.flag .master && decide (s.le.owed = .rxByte) && !s.hold && !s.flag .sdast && !s.flag .start && !s.flag .stop
  | .stopDone _ =>
    s.g0 && s.flag .stop && !s.hold &&
      (!s.flag .master || s.le.txb.isEmpty || (s.flag .start && decide (s.headKind = some .addr)))
  | .lines _ _ => !s.flag .master
  | .foreign _ _ => s.g0 && !s.flag .master

/-- `EV_START_DONE` (R139). -/
def effStartDone (s : State) : State :=
  (((s.setFlag .start false).setFlag .master true).setFlag .bb true).withLe
      { s.le with addrPhase := true, dir := .none, owed := .none, last := false }
    |>.pushWire (if s.flag .master then .restart else .start)

/-- `EV_BER`, with the draw of `ST.MASTER` (R141). -/
def effBer (master : Bool) (s : State) : State :=
  (((s.setFlag .ber true).setFlag .start false).leIdle).setFlag .master master

/-- `EV_ADDR_ACK` (R142). -/
def effAddrAck (s : State) : State :=
  match s.le.txb with
  | [] => s
  | (a, _) :: rest =>
    let dir : XferDir := if a.getLsbD 0 then .rx else .tx
    let t := (s.withLe { s.le with
      txb := rest, addrPhase := false, dir := dir, owed := if a.getLsbD 0 then .rxByte else .txReady })
    let t := t.pushWire (.addr a .ack)
    if s.flag .stastre then t.setFlag .stastr true else t

/-- `EV_ADDR_NACK` (R143). -/
def effAddrNack (s : State) : State :=
  match s.le.txb with
  | [] => s
  | (a, _) :: rest =>
    ((s.withLe { s.le with txb := rest, addrPhase := false, dir := .none, owed := .none }).setFlag .negack true).pushWire
      (.addr a .nack)

/-- `EV_TX_READY` (R144). -/
def effTxReady (s : State) : State := (s.setFlag .sdast true).withLe { s.le with owed := .none }

/-- `EV_TX_ACK` (R145). -/
def effTxAck (s : State) : State :=
  match s.le.txb with
  | [] => s
  | (d, _) :: rest => (s.withLe { s.le with txb := rest, owed := .txReady }).pushWire (.tx d .ack)

/-- `EV_TX_NACK` (R146). -/
def effTxNack (s : State) : State :=
  match s.le.txb with
  | [] => s
  | (d, _) :: rest =>
    ((s.withLe { s.le with txb := rest, owed := .none }).setFlag .negack true).pushWire (.tx d .nack)

/-- `EV_RX_BYTE(b)` (R147). -/
def effRxByte (b : Byte) (s : State) : State :=
  let t := (s.withReg { s.reg with data := b }).setFlag .sdast true
  if s.flag .ack then
    ((t.withLe { s.le with owed := .none, last := true }).setFlag .ack false).pushWire (.rx b .nack)
  else
    (t.withLe { s.le with owed := .none }).pushWire (.rx b .ack)

/-- `EV_STOP_DONE`, with the draw of `EO_BUSY` (R149). -/
def effStopDone (eoBusy : Bool) (s : State) : State :=
  let t := s.setFlag .stop false
  if s.flag .master then
    (((t.pushWire .stop).setFlag .master false).setFlag .bb false |>.setFlag .eoBusy eoBusy).leIdle
  else t

/-- `EV_LINES`, with the drawn levels (R150). -/
def effLines (scl sda : Level) (s : State) : State := s.withLines scl sda

/-- `EV_FOREIGN`, with the draws (R152). -/
def effForeign (bb eoBusy : Bool) (s : State) : State := (s.setFlag .bb bb).setFlag .eoBusy eoBusy

/-- The effects of R139 to R152. -/
def LeEvent.effect (e : LeEvent) (s : State) : State :=
  match e with
  | .startDone => effStartDone s
  | .ber m => effBer m s
  | .addrAck => effAddrAck s
  | .addrNack => effAddrNack s
  | .txReady => effTxReady s
  | .txAck => effTxAck s
  | .txNack => effTxNack s
  | .rxByte b => effRxByte b s
  | .stopDone eo => effStopDone eo s
  | .lines c d => effLines c d s
  | .foreign b eo => effForeign b eo s

/-- The events of R139 to R149, which the spec gives no meaning in FIFO or interrupt mode (R138; log entry 11). -/
def LeEvent.isBusEvent : LeEvent → Bool
  | .startDone => true
  | .ber _ => true
  | .addrAck => true
  | .addrNack => true
  | .txReady => true
  | .txAck => true
  | .txNack => true
  | .rxByte _ => true
  | .stopDone _ => true
  | .lines _ _ => false
  | .foreign _ _ => false

/-- One event at an interleaving point: an event that is not enabled does not fire (R135; log entry 1), and a bus event
that would fire in FIFO or interrupt mode ends the run as refused (R138). -/
def fire (e : LeEvent) (s : State) : Except Refusal State :=
  if e.guard s then
    if e.isBusEvent && s.offMode then .error .fifoOrInterruptMode else .ok (e.effect s)
  else .ok s

/-- Several events, one after another, each guard evaluated in the state the previous event left (R135). -/
def fireAll : List LeEvent → State → Except Refusal State
  | [], s => .ok s
  | e :: es, s =>
    match fire e s with
    | .ok t => fireAll es t
    | .error r => .error r

/-! ## Effects that are part of a register write -/

/-- The toggle pulse (R151): one SCL pulse, only with the module enabled. -/
def togglePulse (s : State) : State :=
  if s.g0 then (s.pushWire .pulse).withLe { s.le with pulses := s.le.pulses + 1 } else s

/-- What a change of `ENABLE` from 1 to 0 does besides the write (R153). -/
def moduleDisable (s : State) : State :=
  ((((s.leIdle).setFlag .master false).setFlag .sdast false).setFlag .start false).setFlag .stop false

end Sys2Proof.Machine
end

