-- ==== Sys2Proof/Machine/Environment.lean ====
section
/-! DEFINITION. What the environment does at one interleaving point (46_line_engine.md R135, R157; 20_memory.md R60). -/

namespace Sys2Proof.Machine

/-! ## The reference environment (R157; log entry 16) -/

/-- The address in an address byte, bits [7:1]. -/
def targetOf (a : Byte) : Addr7 := a.extractLsb' 1 7

/-- The level of SCL: low throughout if `stuck` says so. -/
def EnvRef.sclLevel (e : EnvRef) : Level :=
  match e.stuck with
  | none => .high
  | some (_, sclLow) => if sclLow then .low else .high

/-- The level of SDA: low until `le.pulses` reaches `k`. -/
def EnvRef.sdaLevel (e : EnvRef) (pulses : Nat) : Level :=
  match e.stuck with
  | none => .high
  | some (none, _) => .low
  | some (some k, _) => if k ≤ pulses then .high else .low

/-- Its answer to the address byte at the head of the queue. -/
def EnvRef.addrAnswer (e : EnvRef) (s : State) : LeEvent :=
  match s.le.txb with
  | [] => .addrNack
  | (a, _) :: _ => if e.targets.contains (targetOf a) then .addrAck else .addrNack

/-- Its answer to a data byte. -/
def EnvRef.txAnswer (e : EnvRef) : LeEvent :=
  if e.txNack = some e.txIndex then .txNack else .txAck

/-- The bytes the current target still has to return. -/
def EnvRef.remaining (e : EnvRef) : List Byte := (e.rx.lookup e.current).getD []

/-- The next byte the current target returns; 0xFF when the list is used up. -/
def EnvRef.nextRx (e : EnvRef) : Byte := e.remaining.headD 0xFF

/-- The bus events it may fire, at most one of which is enabled (R155). -/
def EnvRef.candidates (e : EnvRef) (s : State) : List LeEvent :=
  [.stopDone true, .startDone, e.addrAnswer s, e.txAnswer, .txReady, .rxByte e.nextRx]

/-- The bus event it fires next, if one is enabled. -/
def EnvRef.choose (e : EnvRef) (s : State) : Option LeEvent := (e.candidates s).find? (fun ev => ev.guard s)

/-- The list of bytes left after one is returned. -/
def EnvRef.dropRx (e : EnvRef) : List (Addr7 × List Byte) :=
  e.rx.map (fun p => if p.1 = e.current then (p.1, p.2.drop 1) else p)

/-- What it remembers after firing an event in state `s`. -/
def EnvRef.after (e : EnvRef) (ev : LeEvent) (s : State) : EnvRef :=
  match ev with
  | .addrAck =>
    match s.le.txb with
    | [] => e
    | (a, _) :: _ => { e with current := targetOf a, txIndex := 0 }
  | .addrNack => { e with txIndex := 0 }
  | .txAck => { e with txIndex := e.txIndex + 1 }
  | .txNack => { e with txIndex := e.txIndex + 1 }
  | .rxByte _ => { e with rx := e.dropRx }
  | .startDone => e
  | .ber _ => e
  | .txReady => e
  | .stopDone _ => e
  | .lines _ _ => e
  | .foreign _ _ => e

/-- Fires enabled bus events one after another, at most `fuel` of them. -/
def refLoop : Nat → EnvRef → State → Except Refusal State
  | 0, e, s => .ok (s.withEnv (.ref e))
  | fuel + 1, e, s =>
    match e.choose s with
    | none => .ok (s.withEnv (.ref e))
    | some ev =>
      match fire ev s with
      | .ok t => refLoop fuel (e.after ev s) t
      | .error r => .error r

/-- More bus events than can follow one another at one point: each takes a byte from the queue, ends a request or pays an
owed step. -/
def refFuel (s : State) : Nat := 2 * s.le.txb.length + 3

/-- `ENV_REF` at an interleaving point (R157): `EV_LINES` first while not master, then eagerly until none is enabled. -/
def refPoint (e : EnvRef) (s : State) : Except Refusal State :=
  let t := if s.flag .master then s else effLines e.sclLevel (e.sdaLevel s.le.pulses) s
  refLoop (refFuel t) e t

/-! ## One interleaving point -/

/-- The line engine at one interleaving point (20_memory.md R60): a script gives the events to fire there and is used up by
one entry; an empty script lets it idle. -/
def lePoint (s : State) : Except Refusal State :=
  match s.env with
  | .script [] => .ok s
  | .script (evs :: rest) => fireAll evs (s.withEnv (.script rest))
  | .ref e => refPoint e s

/-- The level bits a read of `BRC` shows (46_line_engine.md R150): the lines, while not master; while master a draw, which
`ENV_REF` makes 1 and which is otherwise a free value (log entry 2). -/
def brcLevels (s : State) : Bool × Bool :=
  if s.flag .master then
    match s.env with
    | .ref _ => (true, true)
    | .script _ => Config.freeLevels s.draws
  else (decide (s.scl = .high), decide (s.sda = .high))

end Sys2Proof.Machine
end

