-- ==== Sys2Proof/Syntax.lean ====
section
/-! DEFINITION. The twenty commands of 30_encoding.md R76, one constructor each. -/

namespace Sys2Proof

/-- The direction of a Transfer Message (43_transactions.md R111). -/
inductive MsgDir where
  | read
  | write
  deriving DecidableEq, Repr

/-- A Transfer Message as a format M descriptor names it (30_encoding.md R72, 43_transactions.md R111). -/
structure Message where
  dir : MsgDir
  addr : Addr7
  len : BitVec 16
  base : BitVec 32
  deriving DecidableEq, Repr

/-- The commands. Every operand has the width its format gives it (30_encoding.md R65 to R77). -/
inductive Instr where
  /-- REG_READ `reg` (format R). -/
  | regRead (reg : BitVec 4)
  /-- REG_WRITE `reg, imm8` (format R). -/
  | regWrite (reg : BitVec 4) (data : Byte)
  /-- REG_SET `reg, imm8` (format R). -/
  | regSet (reg : BitVec 4) (data : Byte)
  /-- REG_CLR `reg, imm8` (format R). -/
  | regClr (reg : BitVec 4) (data : Byte)
  /-- INIT `module` (format I). -/
  | init (modul : BitVec 8)
  /-- SET_SPEED `hz` (format F). -/
  | setSpeed (freq : BitVec 24)
  /-- SEND_START `timeout` (format T). -/
  | sendStart (timeout : BitVec 24)
  /-- SEND_STOP `timeout` (format T). -/
  | sendStop (timeout : BitVec 24)
  /-- SEND_ADDRESS `byte[, STALL]` (format A). -/
  | sendAddress (stall : Bool) (byte : Byte)
  /-- POLL_DATA_READY `timeout` (format T). -/
  | pollDataReady (timeout : BitVec 24)
  /-- POLL_ACK_CLEARED `timeout` (format T). -/
  | pollAckCleared (timeout : BitVec 24)
  /-- SEND_BYTE `byte` (format B). -/
  | sendByte (byte : Byte)
  /-- RECV_BYTE `[NACKNEXT]` (format N). -/
  | recvByte (nackNext : Bool)
  /-- RECV_LAST `[ACKWAIT]` (format N). -/
  | recvLast (ackWait : Bool)
  /-- READ `addr7, len, @base` (format M). -/
  | read (addr : Addr7) (len : BitVec 16) (base : BitVec 32)
  /-- WRITE `addr7, len, @base` (format M). -/
  | write (addr : Addr7) (len : BitVec 16) (base : BitVec 32)
  /-- EXCHANGE `count` and its descriptors (format X); COUNT is the number of messages. -/
  | exchange (msgs : List Message)
  /-- RECOVER `addr7` (format V). -/
  | recover (addr : Addr7)
  /-- CTRL_RESET (format Z). -/
  | ctrlReset
  /-- DUMP (format Z). -/
  | dump
  deriving DecidableEq, Repr

end Sys2Proof
end

