-- ==== Sys2Proof/Machine/Operands.lean ====
section
/-! DEFINITION. Operand forms: how the rules turn operands into the values they use. -/

namespace Sys2Proof.Machine

/-- The register a `REG` field names; ids 11 to 15 name none (10_state.md R20). -/
def RegId.ofBits (b : BitVec 4) : Option RegId :=
  match b.toNat with
  | 0 => some .data
  | 1 => some .st
  | 2 => some .cst
  | 3 => some .ctl1
  | 4 => some .ctl2
  | 5 => some .ctl3
  | 6 => some .b0ectl
  | 7 => some .b0est
  | 8 => some .b0fifctl
  | 9 => some .b1fifcts
  | 10 => some .brc
  | _ => none

/-- The id of a register (10_state.md R20). -/
def RegId.id : RegId → Nat
  | .data => 0
  | .st => 1
  | .cst => 2
  | .ctl1 => 3
  | .ctl2 => 4
  | .ctl3 => 5
  | .b0ectl => 6
  | .b0est => 7
  | .b0fifctl => 8
  | .b1fifcts => 9
  | .brc => 10

/-- `DUMP_SET` in ascending id: every register but `DATA` (44_recovery_and_diagnostics.md R132). -/
def dumpSet : List RegId := [.st, .cst, .ctl1, .ctl2, .ctl3, .b0ectl, .b0est, .b0fifctl, .b1fifcts, .brc]

/-- The code of a phase in the 3-bit register `PHASE` (10_state.md R15). -/
def Phase.code : Phase → BitVec 3
  | .idle => 0
  | .started => 1
  | .addressed => 2
  | .data => 3
  | .stopped => 4

/-- The address byte `(zext_8(ADDR) << 1) | rw`, with `rw` 1 for a read (20_memory.md R52). -/
def addrByte (a : Addr7) (d : MsgDir) : Byte :=
  let shifted : Byte := (a.setWidth 8) <<< 1
  match d with
  | .read => shifted ||| 1
  | .write => shifted

/-- `rec_byte(a)`, `zext_8(a)` unless the parameter says otherwise (00_scope.md R6, 44_recovery_and_diagnostics.md R127). -/
def recByteOf (f : List (Addr7 × Byte)) (a : Addr7) : Byte := (f.lookup a).getD (a.setWidth 8)

/-- The address of byte `i` of a message buffer, modulo 2^32 (20_memory.md R48). -/
def bufAddr (base : BitVec 32) (i : Nat) : BitVec 32 := base + BitVec.ofNat 32 i

/-! ## Clock arithmetic, on natural numbers (41_clock_and_init.md R87) -/

/-- The divider of R89, rounded half up; only used for `target > 0`. -/
def clockDivider (inputClk target : Nat) : Nat := (inputClk + 2 * target) / (4 * target)

/-- The hold time, by input-clock tier (R91). -/
def holdTime (inputClk : Nat) : Nat :=
  if Config.holdT1 ≤ inputClk then Config.holdHi
  else if Config.holdT2 ≤ inputClk then Config.holdMid
  else Config.holdLo

/-- Whether a divider fits the hardware field (R90). -/
def dividerInRange (div : Nat) : Bool := decide (Config.divMin ≤ div) && decide (div ≤ Config.divMax)

/-- `CTL2` with the low 7 bits of a divider put in (R92). -/
def withDividerLo (c2 : Byte) (div : Nat) : Byte :=
  (c2 &&& ~~~sclfrqLoMask) ||| (((BitVec.ofNat 9 div).extractLsb' 0 7).setWidth 8 <<< sclfrqLoShift)

/-- `CTL3` with the high 2 bits of a divider put in (R92). -/
def withDividerHi (c3 : Byte) (div : Nat) : Byte :=
  (c3 &&& ~~~sclfrqHiMask) ||| (((BitVec.ofNat 9 div).extractLsb' 7 2).setWidth 8 <<< sclfrqHiShift)

/-- The divider the controller uses: `reg[CTL3].SCLFRQ_HI ++ reg[CTL2].SCLFRQ_LO` (10_state.md R36). -/
def HwRegs.divider (h : HwRegs) : BitVec 9 := h.ctl3.extractLsb' 0 2 ++ h.ctl2.extractLsb' 1 7

end Sys2Proof.Machine
end

