-- ==== Sys2Proof/Machine/Ops.lean ====
section
/-! DEFINITION. The named operations every command is written over: the Register Interface, `BUF`, the poll loop, the log,
and how a command ends. -/

namespace Sys2Proof.Machine

/-! ## `BUF` (20_memory.md R48) -/

/-- `MemRead` on the canonical list. -/
def Memory.read : Memory → Nat → Byte
  | [], _ => Memory.unlisted
  | (b, v) :: rest, a => if b = a then v else Memory.read rest a

/-- The entry an address takes in the canonical list: none for what it would read as anyway. -/
def Memory.entry (a : Nat) (v : Byte) (rest : Memory) : Memory :=
  if v = Memory.unlisted then rest else (a, v) :: rest

/-- `MemWrite` on the canonical list. -/
def Memory.write : Memory → Nat → Byte → Memory
  | [], a, v => Memory.entry a v []
  | (b, w) :: rest, a, v =>
    if a < b then Memory.entry a v ((b, w) :: rest)
    else if a = b then Memory.entry a v rest
    else (b, w) :: Memory.write rest a v

/-! ## Sequencer steps -/

/-- A piece of a command: from a state, a result and the state after, or the refusal of the run. -/
abbrev Op (α : Type) := StateT State (Except Refusal) α

/-- An interleaving point (20_memory.md R60). -/
def point : Op Unit := fun s =>
  match lePoint s with
  | .ok t => .ok ((), t)
  | .error r => .error r

/-- `delay(D)`: the line engine may move; no duration is modelled (00_scope.md R10; log entry 20). -/
def delay : Op Unit := point

/-- The parameters of the run. -/
def getCfg : Op Config := fun s => .ok (s.cfg, s)

/-- Reads the sequencer registers. -/
def getX : Op SeqRegs := fun s => .ok (s.x, s)

/-- Writes sequencer registers. -/
def modifyX (f : SeqRegs → SeqRegs) : Op Unit := fun s => .ok ((), s.withX (f s.x))

/-- `x[PHASE] <- p`. -/
def setPhase (p : Phase) : Op Unit := modifyX (fun x => { x with phase := p })

/-- `x[RDATA] <- v`. -/
def setRdata (v : Byte) : Op Unit := modifyX (fun x => { x with rdata := v })

/-- `log(e)` (00_scope.md R10). -/
def logEvent (e : LogEvent) : Op Unit := fun s => .ok ((), s.pushLog e)

/-- `MemRead(a, 1)` (20_memory.md R48). -/
def memRead (a : BitVec 32) : Op Byte := fun s => .ok (s.buf.read a.toNat, s)

/-- `MemWrite(a, 1, v)` (20_memory.md R48). -/
def memWrite (a : BitVec 32) (v : Byte) : Op Unit := fun s => .ok ((), s.withBuf (s.buf.write a.toNat v))

/-! ## The Register Interface (20_memory.md R54 to R57) -/

/-- The byte a read of a register returns (10_state.md R42; R56). -/
def readValue (s : State) (r : RegId) : Byte :=
  match r with
  | .brc => brcByte (brcLevels s).1 (brcLevels s).2
  | .data => s.reg.data
  | .st => s.reg.st &&& readMask .st
  | .cst => s.reg.cst &&& readMask .cst
  | .ctl1 => s.reg.ctl1 &&& readMask .ctl1
  | .ctl2 => s.reg.ctl2
  | .ctl3 => s.reg.ctl3
  | .b0ectl => s.reg.b0ectl &&& readMask .b0ectl
  | .b0est => s.reg.b0est &&& readMask .b0est
  | .b0fifctl => s.reg.b0fifctl &&& readMask .b0fifctl
  | .b1fifcts => 0

/-- Whether a read of `DATA` lets the target send the next byte (R56, 46_line_engine.md R148). -/
def rearms (s : State) : Bool :=
  s.flag .master && decide (s.le.dir = .rx) && !s.le.addrPhase && !s.le.last

/-- The side effect of a read of `DATA` (R56). -/
def afterReadData (s : State) : State :=
  let t := s.setFlag .sdast false
  if rearms s then t.withLe { s.le with owed := .rxByte } else t

/-- The side effects of a read (R56); a read of `BRC` while master uses up one draw. -/
def afterRead (s : State) (r : RegId) : State :=
  match r with
  | .data => afterReadData s
  | .brc => if s.flag .master then s.withDraws (s.draws + 1) else s
  | .st => s
  | .cst => s
  | .ctl1 => s
  | .ctl2 => s
  | .ctl3 => s
  | .b0ectl => s
  | .b0est => s
  | .b0fifctl => s
  | .b1fifcts => s

/-- The kind a byte written to `DATA` is queued with (R57). -/
def txKindOf (s : State) : TxKind :=
  if s.flag .start || s.le.addrPhase || !s.flag .master then .addr else .data

/-- `wr(DATA, v)` (R57). -/
def writeData (s : State) (v : Byte) : State :=
  ((s.withReg { s.reg with data := v }).setFlag .sdast false).withLe { s.le with txb := s.le.txb ++ [(v, txKindOf s)] }

/-- A write to a register of latches: 1 clears, 0 leaves (10_state.md R42). -/
def writeLatches (s : State) (r : RegId) (v : Byte) : State :=
  s.withReg (s.reg.set r (s.reg.get r &&& ~~~(v &&& latchMask r)))

/-- A write to a register of storage fields: the non-reserved bits are stored (10_state.md R42). -/
def writeStorage (s : State) (r : RegId) (v : Byte) : State := s.withReg (s.reg.set r (v &&& readMask r))

/-- `wr(CTL2, v)`: stores both fields, and a change of `ENABLE` from 1 to 0 resets the line engine (R57, 46 R153). -/
def writeCtl2 (s : State) (v : Byte) : State :=
  let t := writeStorage s .ctl2 v
  if s.flag .enable && !Flag.isSet .enable v then moduleDisable t else t

/-- `wr(BRC, v)`: a 1 at `TGSCL` drives one pulse; the level bits are not writable (R57, 46 R151). -/
def writeBrc (s : State) (v : Byte) : State := if v.getLsbD tgsclBit then togglePulse s else s

/-- The effect of a write (R57). -/
def afterWrite (s : State) (r : RegId) (v : Byte) : State :=
  match r with
  | .data => writeData s v
  | .st => writeLatches s .st v
  | .cst => writeLatches s .cst v
  | .ctl1 => writeStorage s .ctl1 v
  | .ctl2 => writeCtl2 s v
  | .ctl3 => writeStorage s .ctl3 v
  | .b0ectl => writeStorage s .b0ectl v
  | .b0est => writeLatches s .b0est v
  | .b0fifctl => writeStorage s .b0fifctl v
  | .b1fifcts => s
  | .brc => writeBrc s v

/-- The access of a read alone, with no interleaving point before it. -/
def rdNow (r : RegId) : Op Byte := fun s =>
  .ok (readValue s r, (afterRead s r).pushAcc (.rd r (readValue s r)))

/-- The access of a write alone, with no interleaving point before it. -/
def wrNow (r : RegId) (v : Byte) : Op Unit := fun s => .ok ((), (afterWrite s r v).pushAcc (.wr r v))

/-- `rd(r)`: one indivisible access, before which the line engine may move (R55, R60; log entry 7). -/
def rd (r : RegId) : Op Byte := do
  point
  rdNow r

/-- `wr(r, v)`: one indivisible access, before which the line engine may move (R55, R60; log entry 7). -/
def wr (r : RegId) (v : Byte) : Op Unit := do
  point
  wrNow r v

/-- `rd(r)` for the host, who finds each field where `LAYOUT` has it (00_scope.md R6). -/
def hostRd (r : RegId) : Op Byte := do
  let v ← rd r
  let c ← getCfg
  pure (hostByte c.layout r v)

/-- `wr(r, v)` for the host, who puts each field where `LAYOUT` has it (00_scope.md R6). -/
def hostWr (r : RegId) (v : Byte) : Op Unit := do
  let c ← getCfg
  wr r (fieldByte c.layout r v)

/-- `setbits(r, m)`: two accesses, a read then a write, not atomic (R54). -/
def setbits (r : RegId) (m : Byte) : Op Unit := do
  let c ← rd r
  wr r (c ||| m)

/-- `clrbits(r, m)`: two accesses, a read then a write, not atomic (R54). -/
def clrbits (r : RegId) (m : Byte) : Op Unit := do
  let c ← rd r
  wr r (c &&& ~~~m)

/-! ## Results (60_exceptions.md R161) -/

/-- `OK` and the nine error kinds. -/
inductive Kind where
  | ok
  | nack
  | busError
  | timeout
  | frequencyOutOfRange
  | unsupportedSpeed
  | clockUnavailable
  | invalidArgument
  | unsupportedMessageCount
  | ioError
  deriving DecidableEq, Repr

/-- The code of a kind in `x[RESULT]` (60_exceptions.md R161). -/
def Kind.code : Kind → BitVec 4
  | .ok => 0
  | .nack => 1
  | .busError => 2
  | .timeout => 3
  | .frequencyOutOfRange => 4
  | .unsupportedSpeed => 5
  | .clockUnavailable => 6
  | .invalidArgument => 7
  | .unsupportedMessageCount => 8
  | .ioError => 9

/-- `r <- m; if r != OK: return r;` and then `k`. -/
def orReturn (m k : Op Kind) : Op Kind := do
  let r ← m
  if r = .ok then k else pure r

/-- The bounded poll loop (42_primitives.md R97): at most `n` samples, each one read of `r` classified by `f`;
`none` is `EXHAUSTED`. -/
def poll : Nat → RegId → (Byte → Option Kind) → Op (Option Kind)
  | 0, _, _ => pure none
  | n + 1, r, f => do
    let v ← rd r
    match f v with
    | some k => pure (some k)
    | none => poll n r f

/-- A wait whose exhaustion is `Timeout` (42_primitives.md R97). -/
def pollOrTimeout (n : Nat) (r : RegId) (f : Byte → Option Kind) : Op Kind := do
  let v ← poll n r f
  match v with
  | some k => pure k
  | none => pure .timeout

/-! ## How a command ends -/

/-- `x[RESULT] <- code(K)` (60_exceptions.md R161). -/
def State.setResult (s : State) (k : Kind) : State := s.withX { s.x with result := k.code }

/-- The engine's form of raising: a host command runs its body and ends with the kind in `x[RESULT]`
(00_scope.md R10, 60_exceptions.md R161). -/
def runBody (body : Op Kind) (s : State) : Host.Outcome State Fault Refusal :=
  match body s with
  | .ok (k, t) => .next (t.setResult k)
  | .error r => .refused r

/-- A command that has a meaning only after an INIT has returned `OK` (70_reset_and_hazards.md R188, R189). -/
def runInitialised (body : Op Kind) (s : State) : Host.Outcome State Fault Refusal :=
  if s.initialised then runBody body s else .refused .beforeInit

/-- A host-issued primitive: refused with `InvalidArgument`, no access, in a phase from which it is not legal
(10_state.md R17). -/
def inPhase (legal : Phase → Bool) (body : Op Kind) : Op Kind := fun s =>
  if legal s.x.phase then body s else .ok (.invalidArgument, s)

end Sys2Proof.Machine
end

