-- ==== Sys2Proof/Machine/Clock.lean ====
section
/-! DEFINITION. The Clock Configurator, SET_SPEED and INIT (41_clock_and_init.md R87 to R96). -/

namespace Sys2Proof.Machine

/-- The checks of `configure`, before any register access: speed (R88), a target of 0 and the divider's range (R89, R90). -/
def configureCheck (inputClk target : Nat) : Kind :=
  if Config.maxSpeedHz < target then .unsupportedSpeed
  else if target = 0 then .frequencyOutOfRange
  else if dividerInRange (clockDivider inputClk target) then .ok
  else .frequencyOutOfRange

/-- The register writes of `configure` (R92). -/
def programSpeed (inputClk target : Nat) : Op Kind := do
  let div := clockDivider inputClk target
  let c2 ← rd .ctl2
  wr .ctl2 (withDividerLo c2 div)
  let c3 ← rd .ctl3
  wr .ctl3 (withDividerHi c3 div)
  wr .b0ectl (BitVec.ofNat 8 (holdTime inputClk))
  modifyX (fun x => { x with targetHz := BitVec.ofNat 32 target })
  pure .ok

/-- `configure(target)` (R87): checks, then writes. -/
def configure (target : Nat) : Op Kind := do
  let x ← getX
  let clk := x.inputClk.toNat
  match configureCheck clk target with
  | .ok => programSpeed clk target
  | k => pure k

/-- SET_SPEED (R93). -/
def execSetSpeed (freq : BitVec 24) (s : State) : Host.Outcome State Fault Refusal :=
  runInitialised (configure freq.toNat) s

/-- Whether a Bus Instance exists (70_reset_and_hazards.md R188, R189; 41 R96; log entry 10). -/
def setInitialised (b : Bool) : Op Unit := fun s => .ok ((), s.withInitialised b)

/-- `pinmux(m)`: no effect on the engine; the model records the invocation (R94). -/
def invokePinmux (m : BitVec 8) : Op Unit := fun s => .ok ((), s.pushPinmux m)

/-- The steps of INIT after a successful `configure`: module enable, single-byte mode, polled mode, log (R95). -/
def initFinish (m : BitVec 8) (clk : Nat) (target : Nat) : Op Kind := do
  setbits .ctl2 (Flag.mask .enable)
  clrbits .b0fifctl (Flag.mask .fifoEn)
  wr .ctl1 0
  logEvent (.initDone m.toNat clk target (clockDivider clk target) (holdTime clk))
  setInitialised true
  pure .ok

/-- The steps of INIT once the clock provider has answered with a usable frequency (R95). -/
def initWithClock (m : BitVec 8) (clk : BitVec 32) (target : Nat) : Op Kind := do
  modifyX (fun x => { x with modidx := m, inputClk := clk })
  invokePinmux m
  orReturn (configure target) (initFinish m clk.toNat target)

/-- INIT (R95, R96). -/
def initBody (m : BitVec 8) : Op Kind := do
  let c ← getCfg
  if c.nModules ≤ m.toNat then
    pure .invalidArgument
  else
    modifyX (fun x => { x with started := false, phase := .idle })
    setInitialised false
    match c.clock with
    | none => pure .clockUnavailable
    | some clk => if clk = 0 then pure .clockUnavailable else initWithClock m clk c.cfgSpeedHz

/-- INIT (R95). -/
def execInit (m : BitVec 8) (s : State) : Host.Outcome State Fault Refusal :=
  runBody (initBody m) s

end Sys2Proof.Machine
end

