-- ==== Sys2Proof/Machine/RegisterAccess.lean ====
section
/-! DEFINITION. REG_READ, REG_WRITE, REG_SET, REG_CLR (40_register_access.md R81 to R86). -/

namespace Sys2Proof.Machine

/-- A register-access command: a `REG` that names no register ends it with `InvalidArgument` and no access (R81). -/
def onRegister (reg : BitVec 4) (body : RegId → Op Kind) : Op Kind :=
  match RegId.ofBits reg with
  | some r => body r
  | none => pure .invalidArgument

/-- `x[RDATA] <- rd(REG); return OK` (R82). -/
def regReadBody (r : RegId) : Op Kind := do
  let v ← hostRd r
  setRdata v
  pure .ok

/-- `wr(REG, DATA); return OK` (R83). -/
def regWriteBody (data : Byte) (r : RegId) : Op Kind := do
  hostWr r data
  pure .ok

/-- `setbits(REG, DATA); return OK`: a read, then a write (R84). -/
def regSetBody (data : Byte) (r : RegId) : Op Kind := do
  let c ← hostRd r
  hostWr r (c ||| data)
  pure .ok

/-- `clrbits(REG, DATA); return OK`: a read, then a write (R85). -/
def regClrBody (data : Byte) (r : RegId) : Op Kind := do
  let c ← hostRd r
  hostWr r (c &&& ~~~data)
  pure .ok

/-- REG_READ (R82). -/
def execRegRead (reg : BitVec 4) (s : State) : Host.Outcome State Fault Refusal :=
  runBody (onRegister reg regReadBody) s

/-- REG_WRITE (R83). -/
def execRegWrite (reg : BitVec 4) (data : Byte) (s : State) : Host.Outcome State Fault Refusal :=
  runBody (onRegister reg (regWriteBody data)) s

/-- REG_SET (R84). -/
def execRegSet (reg : BitVec 4) (data : Byte) (s : State) : Host.Outcome State Fault Refusal :=
  runBody (onRegister reg (regSetBody data)) s

/-- REG_CLR (R85). -/
def execRegClr (reg : BitVec 4) (data : Byte) (s : State) : Host.Outcome State Fault Refusal :=
  runBody (onRegister reg (regClrBody data)) s

end Sys2Proof.Machine
end

