-- ==== Sys2Proof/Machine/Primitives.lean ====
section
/-! DEFINITION. The byte-level primitives, as internal operations and as host commands (42_primitives.md R97 to R108), and
the register dump that a STOP timeout makes (44_recovery_and_diagnostics.md R132). -/

namespace Sys2Proof.Machine

/-! ## The dump (44 R132) -/

/-- Reads registers in a given order. -/
def readAll : List RegId → Op (List (RegId × Byte))
  | [] => pure []
  | r :: rs => do
    let v ← rd r
    let vs ← readAll rs
    pure ((r, v) :: vs)

/-- The values of a dump as `LOG` has them: each byte in the layout of the Register Interface (00_scope.md R6). -/
def shownValues (l : Layout) (vals : List (RegId × Byte)) : List (RegId × Byte) :=
  vals.map (fun p => (p.1, hostByte l p.1 p.2))

/-- `dump()`: ten reads and one `LOG_DUMP` event (44 R132). -/
def dump : Op Unit := do
  let vals ← readAll dumpSet
  let c ← getCfg
  logEvent (.dump (shownValues c.layout vals))

/-- DUMP (44 R132). -/
def execDump (s : State) : Host.Outcome State Fault Refusal :=
  runBody (do dump; pure .ok) s

/-! ## START and STOP -/

/-- One sample of `send_start`: bus error before master (R98). -/
def startSample (v : Byte) : Option Kind :=
  if Flag.isSet .ber v then some .busError
  else if Flag.isSet .master v then some .ok
  else none

/-- A START succeeded: `x[STARTED] <- 1; x[PHASE] <- STARTED` (R98). -/
def markStarted : Op Unit := modifyX (fun x => { x with started := true, phase := .started })

/-- `send_start(timeout)` (R98). -/
def sendStart (n : Nat) : Op Kind := do
  setbits .ctl1 (Flag.mask .start)
  orReturn (pollOrTimeout n .st startSample) (do markStarted; pure .ok)

/-- One sample of the wait of `send_stop`: the STOP-request bit has self-cleared (R99). -/
def stopSample (v : Byte) : Option Kind := if Flag.isSet .stop v then none else some .ok

/-- A STOP is requested: `x[STARTED] <- 0; x[PHASE] <- STOPPED` (R99). -/
def markStopped : Op Unit := modifyX (fun x => { x with started := false, phase := .stopped })

/-- The wait of `send_stop` with a budget above 0: a timeout dumps the registers (R99). -/
def stopWait (n : Nat) : Op Kind := do
  let v ← poll n .ctl1 stopSample
  setPhase .idle
  match v with
  | some k => pure k
  | none => do
    dump
    pure .timeout

/-- `send_stop(timeout)` (R99). -/
def sendStop (n : Nat) : Op Kind := do
  setbits .ctl1 (Flag.mask .stop)
  wr .st stLatches
  markStopped
  if n = 0 then do
    setPhase .idle
    pure .ok
  else stopWait n

/-! ## The address phase -/

/-- One sample of the stall wait: stall acknowledged or bus error (R100). -/
def stallSample (v : Byte) : Option Kind :=
  if Flag.isSet .stastr v || Flag.isSet .ber v then some .ok else none

/-- The inspection read of `send_address`: NACK before bus error (R100). -/
def inspect (v : Byte) : Kind :=
  if Flag.isSet .negack v then .nack
  else if Flag.isSet .ber v then .busError
  else .ok

/-- The inspection of `send_address` and what follows it (R100). -/
def inspectAddress : Op Kind := do
  let v ← rd .st
  match inspect v with
  | .ok => do
    setPhase .addressed
    pure .ok
  | k => pure k

/-- `send_address(b, stall)` (R100); the result of the stall wait is not used. DESIGN CHOICE (log entry 25): a `STASTR` that
was already set ends the stall wait at its first sample, as the pseudocode and ruling D12 have it, beside the outcome that
70_reset_and_hazards.md R201 derives for message 2 of an exchange. -/
def sendAddress (b : Byte) (stall : Bool) : Op Kind :=
  if stall then do
    setbits .ctl1 (Flag.mask .stastre)
    wr .data b
    let c ← getCfg
    let _ ← poll c.tStall .st stallSample
    inspectAddress
  else do
    wr .data b
    inspectAddress

/-! ## The waits of the data phase -/

/-- One sample of `poll_data_ready`: NACK, then bus error, then data ready (R101). -/
def dataReadySample (v : Byte) : Option Kind :=
  if Flag.isSet .negack v then some .nack
  else if Flag.isSet .ber v then some .busError
  else if Flag.isSet .sdast v then some .ok
  else none

/-- `poll_data_ready(timeout)` (R101). -/
def pollDataReady (n : Nat) : Op Kind := do
  setPhase .data
  pollOrTimeout n .st dataReadySample

/-- One sample of `poll_ack_cleared` (R102). -/
def ackClearedSample (v : Byte) : Option Kind := if Flag.isSet .ack v then none else some .ok

/-- `poll_ack_cleared(timeout)` (R102). -/
def pollAckCleared (n : Nat) : Op Kind := do
  setPhase .data
  pollOrTimeout n .ctl1 ackClearedSample

/-! ## Helpers -/

/-- `request_nack()` (R103). -/
def requestNack : Op Unit := setbits .ctl1 (Flag.mask .ack)

/-- `request_nack()` directly after the `rd(DATA)` of the look-ahead (43_transactions.md R117): with
`ATOMIC_NACK_LOOKAHEAD` the line engine takes no step between the three accesses. -/
def requestNackAfterRead : Op Unit := do
  let c ← getCfg
  if c.atomicNackLookahead then do
    let v ← rdNow .ctl1
    wrNow .ctl1 (v ||| Flag.mask .ack)
  else requestNack

/-- `release_stall()`: the enable bit first, the latch second (R104, ruling D13), with `keepLatch` false. DESIGN CHOICE (log
entry 25): with `keepLatch` true the latch stays set and so does the hold; a message 2 that reads one byte runs so, under
`Config.staleStallHolds`, when message 1 left the latch (43_transactions.md R121 (d), 70_reset_and_hazards.md R201). -/
def releaseStall (keepLatch : Bool) : Op Unit := do
  let c ← rd .ctl1
  if Flag.isSet .stastre c then do
    wr .ctl1 (c &&& ~~~(Flag.mask .stastre))
    if keepLatch then pure () else wr .st (Flag.mask .stastr)
  else pure ()

/-- `clear_all_status()` (R105). -/
def clearAllStatus : Op Unit := wr .st 0xFF

/-- `clear_nack_latch()` (R105). -/
def clearNackLatch : Op Unit := wr .st (Flag.mask .negack)

/-! ## Single-byte send and receive -/

/-- The body of SEND_BYTE (R106). -/
def sendByteBody (b : Byte) : Op Kind := do
  let c ← getCfg
  orReturn (pollDataReady c.tSda) (do wr .data b; pure .ok)

/-- The body of RECV_BYTE (R107). -/
def recvByteBody (nackNext : Bool) : Op Kind := do
  let c ← getCfg
  orReturn (pollDataReady c.tSda) (do
    let v ← rd .data
    setRdata v
    if nackNext then requestNackAfterRead
    pure .ok)

/-- The tail of a read: STOP, then the final byte, then the NACK latch (R108, 43_transactions.md R114, R115). -/
def readTail (store : Byte → Op Unit) : Op Kind := do
  let _ ← sendStop 0
  let v ← rd .data
  store v
  clearNackLatch
  pure .ok

/-- The body of RECV_LAST (R108). -/
def recvLastBody (ackWait : Bool) : Op Kind := do
  let c ← getCfg
  orReturn (if ackWait then pollAckCleared c.tAck else pollDataReady c.tSda) (readTail setRdata)

/-! ## Host commands (10_state.md R17) -/

/-- `send_start` is legal from any phase. -/
def legalStart : Phase → Bool := fun _ => true

/-- `send_stop` is legal from STARTED or later (10_state.md R17). -/
def legalStop : Phase → Bool
  | .idle => false
  | .started => true
  | .addressed => true
  | .data => true
  | .stopped => false

/-- `send_address` is legal from STARTED only. -/
def legalAddress : Phase → Bool
  | .idle => false
  | .started => true
  | .addressed => false
  | .data => false
  | .stopped => false

/-- The data-phase steps are legal from ADDRESSED and DATA. -/
def legalData : Phase → Bool
  | .idle => false
  | .started => false
  | .addressed => true
  | .data => true
  | .stopped => false

/-- SEND_START (R98). -/
def execSendStart (timeout : BitVec 24) (s : State) : Host.Outcome State Fault Refusal :=
  runInitialised (inPhase legalStart (sendStart timeout.toNat)) s

/-- SEND_STOP (R99). -/
def execSendStop (timeout : BitVec 24) (s : State) : Host.Outcome State Fault Refusal :=
  runInitialised (inPhase legalStop (sendStop timeout.toNat)) s

/-- SEND_ADDRESS (R100). -/
def execSendAddress (stall : Bool) (byte : Byte) (s : State) : Host.Outcome State Fault Refusal :=
  runInitialised (inPhase legalAddress (sendAddress byte stall)) s

/-- POLL_DATA_READY (R101). -/
def execPollDataReady (timeout : BitVec 24) (s : State) : Host.Outcome State Fault Refusal :=
  runInitialised (inPhase legalData (pollDataReady timeout.toNat)) s

/-- POLL_ACK_CLEARED (R102). -/
def execPollAckCleared (timeout : BitVec 24) (s : State) : Host.Outcome State Fault Refusal :=
  runInitialised (inPhase legalData (pollAckCleared timeout.toNat)) s

/-- SEND_BYTE (R106). -/
def execSendByte (byte : Byte) (s : State) : Host.Outcome State Fault Refusal :=
  runInitialised (inPhase legalData (sendByteBody byte)) s

/-- RECV_BYTE (R107). -/
def execRecvByte (nackNext : Bool) (s : State) : Host.Outcome State Fault Refusal :=
  runInitialised (inPhase legalData (recvByteBody nackNext)) s

/-- RECV_LAST (R108). -/
def execRecvLast (ackWait : Bool) (s : State) : Host.Outcome State Fault Refusal :=
  runInitialised (inPhase legalData (recvLastBody ackWait)) s

end Sys2Proof.Machine
end

