-- ==== Sys2Proof/Machine/Recovery.lean ====
section
/-! DEFINITION. RECOVER and CTRL_RESET (44_recovery_and_diagnostics.md R125 to R131). -/

namespace Sys2Proof.Machine

/-- `ctrl_reset()`: eleven accesses, in the source's order (R130). -/
def ctrlReset : Op Unit := do
  clrbits .ctl2 (Flag.mask .enable)
  setbits .ctl2 (Flag.mask .enable)
  wr .cst (Flag.mask .bb)
  wr .st 0xFF
  wr .b1fifcts clrFifoMask
  wr .b0est (Flag.mask .eoBusy)
  clrbits .b0fifctl (Flag.mask .fifoEn)
  wr .ctl1 0

/-- CTRL_RESET (R130). -/
def execCtrlReset (s : State) : Host.Outcome State Fault Refusal :=
  runInitialised (do ctrlReset; pure .ok) s

/-- The toggle loop, at most `n` iterations: pulse, delay, re-sample; whether SDA was seen high (R126). -/
def toggleLoop : Nat → Op Bool
  | 0 => pure false
  | n + 1 => do
    wr .brc tgsclMask
    delay
    let b ← rd .brc
    if b.getLsbD sdaLvlBit then pure true else toggleLoop n

/-- The forced START and STOP once SDA reads high (R125, R127). -/
def forcedStart (a : Addr7) : Op Unit := do
  let c ← getCfg
  wr .data (recByteOf c.recByte a)
  let r ← sendStart c.tRecStart
  if r = .ok then do
    delay
    let _ ← sendStop 0
    delay
    logEvent .recDone
  else logEvent .recStartFailed

/-- What recovery does about a stuck bus: the toggle loop, then the forced START or the report (R125). -/
def unstick (a : Addr7) : Op Unit := do
  let done ← toggleLoop Config.recIter
  if done then forcedStart a else logEvent .recSdaStuck

/-- `recover(bus, addr)` (R125): unconditionally ends with the controller reset, always `OK`. -/
def recover (a : Addr7) : Op Kind := do
  let b ← rd .brc
  if b.getLsbD sclLvlBit && b.getLsbD sdaLvlBit then pure () else unstick a
  ctrlReset
  pure .ok

/-- RECOVER (R125). -/
def execRecover (a : Addr7) (s : State) : Host.Outcome State Fault Refusal :=
  runInitialised (recover a) s

end Sys2Proof.Machine
end

