-- ==== Sys2Proof/Machine/Transactions.lean ====
section
/-! DEFINITION. READ, WRITE and EXCHANGE (43_transactions.md R111 to R122), with the error path of EXCHANGE
(60_exceptions.md R175, R176). -/

namespace Sys2Proof.Machine

/-! ## READ -/

/-- The single-byte path (R114). -/
def readSingle (keepLatch : Bool) (base : BitVec 32) : Op Kind := do
  requestNack
  releaseStall keepLatch
  let c ← getCfg
  orReturn (pollDataReady c.tSda) (readTail (memWrite base))

/-- The multi-byte path from some index on: `n` bytes are left, the next at address `a` (R115). -/
def readMulti : Nat → BitVec 32 → Op Kind
  | 0, _ => pure .ok
  | 1, a => do
    let c ← getCfg
    orReturn (pollAckCleared c.tAck) (readTail (memWrite a))
  | n + 2, a => do
    let c ← getCfg
    orReturn (pollDataReady c.tSda) (do
      let v ← rd .data
      memWrite a v
      if n = 0 then requestNackAfterRead
      readMulti (n + 1) (a + 1))

/-- The data phase of a read (R113). -/
def readData (keepLatch : Bool) (len : Nat) (base : BitVec 32) : Op Kind :=
  if len = 1 then readSingle keepLatch base else readMulti len base

/-- `read(bus, addr, buffer, length)` (R113). -/
def readMessage (keepLatch : Bool) (a : Addr7) (len : Nat) (base : BitVec 32) : Op Kind :=
  if len = 0 then pure .invalidArgument
  else do
    let c ← getCfg
    orReturn (sendStart c.tStart)
      (orReturn (sendAddress (addrByte a .read) (decide (len = 1))) (readData keepLatch len base))

/-- READ (R113). -/
def execRead (a : Addr7) (len : BitVec 16) (base : BitVec 32) (s : State) : Host.Outcome State Fault Refusal :=
  runInitialised (readMessage false a len.toNat base) s

/-! ## WRITE -/

/-- The write loop: `n` bytes are left, the next at address `a` (R118). -/
def writeLoop : Nat → BitVec 32 → Op Kind
  | 0, _ => pure .ok
  | n + 1, a => do
    let c ← getCfg
    orReturn (pollDataReady c.tSda) (do
      let v ← memRead a
      wr .data v
      writeLoop n (a + 1))

/-- `write(bus, addr, buffer, length)` (R118). -/
def writeMessage (a : Addr7) (len : Nat) (base : BitVec 32) : Op Kind := do
  let c ← getCfg
  orReturn (sendStart c.tStart) (do
    let r ← orReturn (sendAddress (addrByte a .write) (decide (len = 0))) (writeLoop len base)
    if len = 0 then clrbits .ctl1 (Flag.mask .stastre)
    pure r)

/-- WRITE (R118). -/
def execWrite (a : Addr7) (len : BitVec 16) (base : BitVec 32) (s : State) : Host.Outcome State Fault Refusal :=
  runInitialised (writeMessage a len.toNat base) s

/-! ## EXCHANGE -/

/-- One message, by its direction (R120); `keepLatch` is for `releaseStall`. -/
def runMessage (keepLatch : Bool) (m : Message) : Op Kind :=
  match m.dir with
  | .read => readMessage keepLatch m.addr m.len.toNat m.base
  | .write => writeMessage m.addr m.len.toNat m.base

/-- The address-only probe: a WRITE of length 0 (R119 (c)). -/
def isProbe (m : Message) : Bool := decide (m.dir = .write) && decide (m.len = 0)

/-- Whether the next message starts under the stall latch that an address-only probe before it left, and that latch is to hold
the bus until the forced STOP (R121 (d), 70_reset_and_hazards.md R201; log entry 25). -/
def heldOver (before : Option Message) (s : State) : Bool := s.cfg.staleStallHolds && s.hold && before.any isProbe

/-- One message after another (R120, R121). -/
def nextMessage (before : Option Message) (m : Message) : Op Kind := fun s => runMessage (heldOver before s) m s

/-- All messages in order, whatever fails; whether any failed (R120, R121). -/
def runMessages : Option Message → List Message → Op Bool
  | _, [] => pure false
  | before, m :: ms => do
    let r ← nextMessage before m
    let failed ← runMessages (some m) ms
    pure (decide (r ≠ .ok) || failed)

/-- The forced STOP after the last message, if a STOP is still owed; its result is not used (R120, R122). -/
def forcedStop : Op Unit := do
  let x ← getX
  let c ← getCfg
  if x.started then do
    let _ ← sendStop c.tStop
    pure ()
  else pure ()

/-- The error path of EXCHANGE (60_exceptions.md R175, R176): recovery with the last message's address, then `IoError`. -/
def errorPath (last : Addr7) : Op Kind := do
  let _ ← recover last
  pure .ioError

/-- The address of the last message (R120, R121). -/
def lastAddr (ms : List Message) : Addr7 := (ms.getLast?.map Message.addr).getD 0

/-- `exchange(bus, messages)` (R120). -/
def exchange (ms : List Message) : Op Kind :=
  if ms.length = 1 ∨ ms.length = 2 then do
    clearAllStatus
    let failed ← runMessages none ms
    forcedStop
    if failed then errorPath (lastAddr ms) else pure .ok
  else pure .unsupportedMessageCount

/-- EXCHANGE (R120). -/
def execExchange (ms : List Message) (s : State) : Host.Outcome State Fault Refusal :=
  runInitialised (exchange ms) s

end Sys2Proof.Machine
end

