-- ==== Sys2Proof/Machine/Dispatch.lean ====
section
/-! DEFINITION. One arm per command (30_encoding.md R76). -/

namespace Sys2Proof.Machine

/-- The meaning of a command. -/
def exec (i : Instr) (s : State) : Host.Outcome State Fault Refusal :=
  match i with
  | .regRead reg => Sys2Proof.Machine.execRegRead reg s
  | .regWrite reg data => Sys2Proof.Machine.execRegWrite reg data s
  | .regSet reg data => Sys2Proof.Machine.execRegSet reg data s
  | .regClr reg data => Sys2Proof.Machine.execRegClr reg data s
  | .init modul => Sys2Proof.Machine.execInit modul s
  | .setSpeed freq => Sys2Proof.Machine.execSetSpeed freq s
  | .sendStart timeout => Sys2Proof.Machine.execSendStart timeout s
  | .sendStop timeout => Sys2Proof.Machine.execSendStop timeout s
  | .sendAddress stall byte => Sys2Proof.Machine.execSendAddress stall byte s
  | .pollDataReady timeout => Sys2Proof.Machine.execPollDataReady timeout s
  | .pollAckCleared timeout => Sys2Proof.Machine.execPollAckCleared timeout s
  | .sendByte byte => Sys2Proof.Machine.execSendByte byte s
  | .recvByte nackNext => Sys2Proof.Machine.execRecvByte nackNext s
  | .recvLast ackWait => Sys2Proof.Machine.execRecvLast ackWait s
  | .read addr len base => Sys2Proof.Machine.execRead addr len base s
  | .write addr len base => Sys2Proof.Machine.execWrite addr len base s
  | .exchange msgs => Sys2Proof.Machine.execExchange msgs s
  | .recover addr => Sys2Proof.Machine.execRecover addr s
  | .ctrlReset => Sys2Proof.Machine.execCtrlReset s
  | .dump => Sys2Proof.Machine.execDump s

end Sys2Proof.Machine
end

