-- ==== Sys2Proof/WellFormed.lean ====
section
/-! DEFINITION. Which terms of `Instr` an encoding exists for. Operand widths are in the types; the one check left is
that the COUNT of an EXCHANGE fits its 8-bit field (30_encoding.md R73). -/

namespace Sys2Proof

/-- The number of messages an 8-bit COUNT can express (30_encoding.md R73, R79). -/
def maxMessages : Nat := 255

/-- An instruction the command stream can carry. -/
def Instr.wf : Instr → Bool
  | .regRead _ => true
  | .regWrite _ _ => true
  | .regSet _ _ => true
  | .regClr _ _ => true
  | .init _ => true
  | .setSpeed _ => true
  | .sendStart _ => true
  | .sendStop _ => true
  | .sendAddress _ _ => true
  | .pollDataReady _ => true
  | .pollAckCleared _ => true
  | .sendByte _ => true
  | .recvByte _ => true
  | .recvLast _ => true
  | .read _ _ _ => true
  | .write _ _ _ => true
  | .exchange msgs => decide (msgs.length ≤ maxMessages)
  | .recover _ => true
  | .ctrlReset => true
  | .dump => true

end Sys2Proof
end

