-- ==== Sys2Proof/Decode.lean ====
section
/-! DEFINITION. The decoder of the command stream, total on every list of words, and the encoder
(30_encoding.md R63 to R79). -/

namespace Sys2Proof

/-- The rows of the opcode map (30_encoding.md R76), by mnemonic. -/
inductive Opcode where
  | regRead | regWrite | regSet | regClr | init | setSpeed
  | sendStart | sendStop | sendAddress | pollDataReady | pollAckCleared | sendByte | recvByte | recvLast
  | read | write | exchange | recover | ctrlReset | dump
  deriving DecidableEq, Repr

/-- The rows in the table's order. -/
def Opcode.all : List Opcode :=
  [.regRead, .regWrite, .regSet, .regClr, .init, .setSpeed, .sendStart, .sendStop, .sendAddress, .pollDataReady,
   .pollAckCleared, .sendByte, .recvByte, .recvLast, .read, .write, .exchange, .recover, .ctrlReset, .dump]

/-- The column OPC of R76. -/
def Opcode.code : Opcode → BitVec 8
  | .regRead => 0x01 | .regWrite => 0x02 | .regSet => 0x03 | .regClr => 0x04
  | .init => 0x10 | .setSpeed => 0x11
  | .sendStart => 0x20 | .sendStop => 0x21 | .sendAddress => 0x22 | .pollDataReady => 0x23
  | .pollAckCleared => 0x24 | .sendByte => 0x25 | .recvByte => 0x26 | .recvLast => 0x27
  | .read => 0x30 | .write => 0x31 | .exchange => 0x32
  | .recover => 0x40 | .ctrlReset => 0x41 | .dump => 0x42

/-- The column mask of R76. -/
def Opcode.mask : Opcode → Word
  | .regRead => 0xFFF0FFFF | .regWrite => 0xFFF0FF00 | .regSet => 0xFFF0FF00 | .regClr => 0xFFF0FF00
  | .init => 0xFFFFFF00 | .setSpeed => 0xFF000000
  | .sendStart => 0xFF000000 | .sendStop => 0xFF000000 | .sendAddress => 0xFFFFFE00 | .pollDataReady => 0xFF000000
  | .pollAckCleared => 0xFF000000 | .sendByte => 0xFFFFFF00 | .recvByte => 0xFFFFFFFE | .recvLast => 0xFFFFFFFE
  | .read => 0xFF800000 | .write => 0xFF800000 | .exchange => 0xFFFFFF00
  | .recover => 0xFF80FFFF | .ctrlReset => 0xFFFFFFFF | .dump => 0xFFFFFFFF

/-- The column match of R76. -/
def Opcode.pattern : Opcode → Word
  | .regRead => 0x01000000 | .regWrite => 0x02000000 | .regSet => 0x03000000 | .regClr => 0x04000000
  | .init => 0x10000000 | .setSpeed => 0x11000000
  | .sendStart => 0x20000000 | .sendStop => 0x21000000 | .sendAddress => 0x22000000 | .pollDataReady => 0x23000000
  | .pollAckCleared => 0x24000000 | .sendByte => 0x25000000 | .recvByte => 0x26000000 | .recvLast => 0x27000000
  | .read => 0x30000000 | .write => 0x31000000 | .exchange => 0x32000000
  | .recover => 0x40000000 | .ctrlReset => 0x41000000 | .dump => 0x42000000

/-- `w` selects row `o`: `w & mask = match` (R76). -/
def Opcode.selects (o : Opcode) (w : Word) : Bool := (w &&& o.mask) == o.pattern

/-- `OPC`, bits [31:24] of the first word (R63). -/
def opc (w : Word) : BitVec 8 := w.extractLsb' 24 8

/-- `COUNT = w[7:0]` (R77). -/
def countField (w : Word) : Nat := (w.extractLsb' 0 8).toNat

/-- The row with a given OPC, if the table has one. -/
def Opcode.ofCode (c : BitVec 8) : Option Opcode := Opcode.all.find? (fun o => o.code == c)

/-- The length of a command in words, told from its first word alone (R79). -/
def cmdLength (w : Word) : Nat :=
  if opc w = Opcode.read.code then 2
  else if opc w = Opcode.write.code then 2
  else if opc w = Opcode.exchange.code then 1 + 2 * countField w
  else 1

/-- Why a first word, or a descriptor of an EXCHANGE, is illegal (R78). -/
inductive Illegal where
  /-- An opcode not in the table. -/
  | unknownOpcode
  /-- A listed opcode with a must-be-zero bit set. -/
  | mustBeZero (o : Opcode)
  /-- A descriptor of an EXCHANGE that matches neither the READ row nor the WRITE row. -/
  | badDescriptor
  deriving DecidableEq, Repr

/-- What the decoder reads at the head of a list of command words. -/
inductive Decoded where
  /-- There is no word. -/
  | noCommand
  /-- The words end inside the command (R79). -/
  | truncated
  /-- An illegal command of `len` words (R78). -/
  | illegal (why : Illegal) (len : Nat)
  /-- The instruction and how many words it takes. -/
  | command (i : Instr) (len : Nat)
  deriving DecidableEq, Repr

/-- The message of a two-word descriptor whose direction is known: `ADDR = w[22:16]`, `LEN = w[15:0]`, `BASE = w1` (R77). -/
def messageOf (d : MsgDir) (w w1 : Word) : Message where
  dir := d
  addr := w.extractLsb' 16 7
  len := w.extractLsb' 0 16
  base := w1

/-- One descriptor of an EXCHANGE: its first word must match the READ row or the WRITE row (R73, R78). -/
def decodeDescriptor (w w1 : Word) : Option Message :=
  if Opcode.read.selects w then some (messageOf .read w w1)
  else if Opcode.write.selects w then some (messageOf .write w w1)
  else none

/-- `n` descriptors in a row (R73). -/
def decodeDescriptors : Nat → List Word → Option (List Message)
  | 0, _ => some []
  | n + 1, w :: w1 :: rest =>
    match decodeDescriptor w w1, decodeDescriptors n rest with
    | some m, some ms => some (m :: ms)
    | _, _ => none
  | _ + 1, _ => none

/-- The operands of a legal first word `w`, and the words after it (R77). -/
def decodeOperands (o : Opcode) (w : Word) (rest : List Word) : Option Instr :=
  match o with
  | .regRead => some (.regRead (w.extractLsb' 16 4))
  | .regWrite => some (.regWrite (w.extractLsb' 16 4) (w.extractLsb' 0 8))
  | .regSet => some (.regSet (w.extractLsb' 16 4) (w.extractLsb' 0 8))
  | .regClr => some (.regClr (w.extractLsb' 16 4) (w.extractLsb' 0 8))
  | .init => some (.init (w.extractLsb' 0 8))
  | .setSpeed => some (.setSpeed (w.extractLsb' 0 24))
  | .sendStart => some (.sendStart (w.extractLsb' 0 24))
  | .sendStop => some (.sendStop (w.extractLsb' 0 24))
  | .sendAddress => some (.sendAddress (w.getLsbD 8) (w.extractLsb' 0 8))
  | .pollDataReady => some (.pollDataReady (w.extractLsb' 0 24))
  | .pollAckCleared => some (.pollAckCleared (w.extractLsb' 0 24))
  | .sendByte => some (.sendByte (w.extractLsb' 0 8))
  | .recvByte => some (.recvByte (w.getLsbD 0))
  | .recvLast => some (.recvLast (w.getLsbD 0))
  | .read => some (.read (w.extractLsb' 16 7) (w.extractLsb' 0 16) (rest.headD 0))
  | .write => some (.write (w.extractLsb' 16 7) (w.extractLsb' 0 16) (rest.headD 0))
  | .exchange => (decodeDescriptors (countField w) rest).map .exchange
  | .recover => some (.recover (w.extractLsb' 16 7))
  | .ctrlReset => some .ctrlReset
  | .dump => some .dump

/-- The command at the head of a list of words whose command is complete. -/
def decodeWhole (w : Word) (rest : List Word) : Decoded :=
  match Opcode.ofCode (opc w) with
  | none => .illegal .unknownOpcode (cmdLength w)
  | some o =>
    if o.selects w then
      match decodeOperands o w rest with
      | some i => .command i (cmdLength w)
      | none => .illegal .badDescriptor (cmdLength w)
    else .illegal (.mustBeZero o) (cmdLength w)

/-- The decoder: total on every list of words (R76 to R79). -/
def decode : List Word → Decoded
  | [] => .noCommand
  | w :: rest => if rest.length + 1 < cmdLength w then .truncated else decodeWhole w rest

/-- Every command of the list has all its words (R79), tried on at most `fuel` commands. -/
def wholeCommands : Nat → List Word → Bool
  | _, [] => true
  | 0, _ :: _ => false
  | fuel + 1, w :: rest =>
    decide (cmdLength w ≤ rest.length + 1) && wholeCommands fuel ((w :: rest).drop (cmdLength w))

/-- A list of words is a program: every command has all its words (R79). -/
def wholeProgram (ws : List Word) : Bool := wholeCommands ws.length ws

/-! ## The encoder -/

/-- A word of format R (R65). -/
def wordR (o : Opcode) (reg : BitVec 4) (data : Byte) : Word := o.code ++ 0#4 ++ reg ++ 0#8 ++ data

/-- A word of formats I and B: one byte operand (R66, R70). -/
def wordB (o : Opcode) (byte : Byte) : Word := o.code ++ 0#16 ++ byte

/-- A word of formats F and T: one 24-bit operand (R67, R68). -/
def wordT (o : Opcode) (v : BitVec 24) : Word := o.code ++ v

/-- A word of format A (R69). -/
def wordA (o : Opcode) (stall : Bool) (byte : Byte) : Word := o.code ++ 0#15 ++ BitVec.ofBool stall ++ byte

/-- A word of format N (R71). -/
def wordN (o : Opcode) (flag : Bool) : Word := o.code ++ 0#23 ++ BitVec.ofBool flag

/-- The first word of format M (R72). -/
def wordM (o : Opcode) (addr : Addr7) (len : BitVec 16) : Word := o.code ++ 0#1 ++ addr ++ len

/-- A word of format V (R74). -/
def wordV (o : Opcode) (addr : Addr7) : Word := o.code ++ 0#1 ++ addr ++ 0#16

/-- A word of format Z (R75). -/
def wordZ (o : Opcode) : Word := o.code ++ 0#24

/-- The row of a message's direction. -/
def MsgDir.opcode : MsgDir → Opcode
  | .read => .read
  | .write => .write

/-- The two words of a descriptor (R73). -/
def encodeMessage (m : Message) : List Word := [wordM m.dir.opcode m.addr m.len, m.base]

/-- The words of an instruction, from the formats of R65 to R75. -/
def encode : Instr → List Word
  | .regRead reg => [wordR .regRead reg 0]
  | .regWrite reg data => [wordR .regWrite reg data]
  | .regSet reg data => [wordR .regSet reg data]
  | .regClr reg data => [wordR .regClr reg data]
  | .init m => [wordB .init m]
  | .setSpeed f => [wordT .setSpeed f]
  | .sendStart t => [wordT .sendStart t]
  | .sendStop t => [wordT .sendStop t]
  | .sendAddress st b => [wordA .sendAddress st b]
  | .pollDataReady t => [wordT .pollDataReady t]
  | .pollAckCleared t => [wordT .pollAckCleared t]
  | .sendByte b => [wordB .sendByte b]
  | .recvByte f => [wordN .recvByte f]
  | .recvLast f => [wordN .recvLast f]
  | .read a l b => [wordM .read a l, b]
  | .write a l b => [wordM .write a l, b]
  | .exchange ms => wordB .exchange (BitVec.ofNat 8 ms.length) :: ms.flatMap encodeMessage
  | .recover a => [wordV .recover a]
  | .ctrlReset => [wordZ .ctrlReset]
  | .dump => [wordZ .dump]

/-! ## The opcode table's numbering -/

/-- The command words whose bits, the first word's in the low 32, are the low `nbits` bits of `w`; every bit above is 0.
As many words as the first word asks for (R79). -/
def tableWords (nbits w : Nat) : List Word :=
  let v := w % 2 ^ nbits
  (List.range (cmdLength (BitVec.ofNat 32 v))).map (fun k => BitVec.ofNat 32 (v >>> (32 * k)))

/-- The instruction the decoder reads from the words numbered as `spec/opcode_table.json` numbers them. -/
def decodeTableWord (nbits w : Nat) : Option Instr :=
  match decode (tableWords nbits w) with
  | .command i _ => some i
  | .noCommand => none
  | .truncated => none
  | .illegal _ _ => none

end Sys2Proof
end

