-- ==== Sys2Proof/Machine/Sequencer.lean ====
section
/-! DEFINITION. How the host's next command is taken from the command stream and how it completes
(10_state.md R16, 20_memory.md R60, R62, 30_encoding.md R78, R79). `Machine/Step.lean` only calls what stands here. -/

namespace Sys2Proof.Machine

/-- The command words the host has not issued yet (10_state.md R16). -/
def State.pending (s : State) : List Word := s.program.drop s.cp

/-- The interleaving point between two host commands (20_memory.md R60). -/
def betweenCommands (s : State) : Host.Outcome State Fault Refusal :=
  match lePoint s with
  | .ok t => .next t
  | .error r => .refused r

/-- A command of `n` words has completed, whatever its result: `cp <- cp + n`, and the line engine may move before the
next one (10_state.md R16, 20_memory.md R60). -/
def complete (n : Nat) (s : State) : Host.Outcome State Fault Refusal := betweenCommands (s.withCp (s.cp + n))

/-- What follows a command's own effect. -/
def completeAfter (n : Nat) (o : Host.Outcome State Fault Refusal) : Host.Outcome State Fault Refusal :=
  match o with
  | .next t => complete n t
  | .fault f => .fault f
  | .refused r => .refused r

/-- One host command: decode it, run its meaning, complete it. An illegal command ends with `InvalidArgument` and no access
(30_encoding.md R78; log entry 14); a list of words that ends inside a command is no program (R79; log entry 9); with
no command left the engine waits and the line engine may move (log entry 8). -/
def runNext (meaning : Instr → State → Host.Outcome State Fault Refusal) (s : State) :
    Host.Outcome State Fault Refusal :=
  if wholeProgram s.pending then
    match decode s.pending with
    | .noCommand => betweenCommands s
    | .truncated => .refused .truncatedProgram
    | .illegal _ n => complete n (s.setResult .invalidArgument)
    | .command i n => completeAfter n (meaning i s)
  else .refused .truncatedProgram

/-- The command stream in which given words stand at index `cp` and nothing follows them; words already issued stay
(log entry 6). -/
def streamWith (ws : List Word) (cp : Nat) (new : List Word) : List Word :=
  ws.take cp ++ List.replicate (cp - ws.length) 0 ++ new

/-- `s` with the words of one instruction, numbered as the opcode table numbers them, next in the command stream. -/
def placeNext (s : State) (nbits w : Nat) : State :=
  s.withProgram (streamWith s.program s.cp (tableWords nbits w))

end Sys2Proof.Machine
end

