-- ==== Sys2Proof/Machine/Step.lean ====
section
/-! DEFINITION. One step of the machine: one host command. Everything it does is in Machine/Sequencer.lean and the
meanings. -/

namespace Sys2Proof.Machine

/-- One host command from the command stream (00_scope.md R7; log entry 7). -/
def step (s : State) : Host.Outcome State Fault Refusal := runNext exec s

/-- `s` with the instruction whose bits the opcode table numbers `w` next in the command stream. -/
def State.withFetchWord (s : State) (nbits w : Nat) : State := placeNext s nbits w

end Sys2Proof.Machine
end

