-- ==== Sys2Proof/Safety.lean ====
section
/-! DEFINITION. What claims call a consistent state, a polled engine and an idle environment. -/

namespace Sys2Proof.Machine

/-- A START is outstanding in this phase: STARTED, ADDRESSED or DATA (10_state.md R15). -/
def Phase.outstanding : Phase → Bool
  | .idle => false
  | .started => true
  | .addressed => true
  | .data => true
  | .stopped => false

/-- The bits of a register that can be stored: every bit a read returns as stored (10_state.md R42). -/
def storedMask (r : RegId) : Byte := readMask r

/-- No reserved bit of a hardware register is set (10_state.md R42). -/
def HwRegs.reservedZero (h : HwRegs) : Bool :=
  (h.st &&& ~~~storedMask .st == 0) && (h.cst &&& ~~~storedMask .cst == 0) && (h.ctl1 &&& ~~~storedMask .ctl1 == 0) &&
  (h.b0ectl &&& ~~~storedMask .b0ectl == 0) && (h.b0est &&& ~~~storedMask .b0est == 0) &&
  (h.b0fifctl &&& ~~~storedMask .b0fifctl == 0)

/-- `x[STARTED]` is 1 exactly in the phases in which a START is outstanding (10_state.md R15), and `x[RESULT]` holds a
code that exists (60_exceptions.md R161). -/
def SeqRegs.consistent (x : SeqRegs) : Bool :=
  (x.started == x.phase.outstanding) && decide (x.result.toNat ≤ 9)

/-- The hidden line-engine state hangs together: only a bus master has a transfer in progress; in the address phase nothing
else is owed; a byte is owed in the direction of the transfer; a bus master, and a byte reported ready, need an
enabled module (46_line_engine.md R139 to R153). -/
def State.lineConsistent (s : State) : Bool :=
  (s.flag .master || (!s.le.addrPhase && decide (s.le.dir = .none) && decide (s.le.owed = .none) && !s.le.last)) &&
  (!s.le.addrPhase || (decide (s.le.dir = .none) && decide (s.le.owed = .none) && !s.le.last)) &&
  (decide (s.le.owed ≠ .rxByte) || decide (s.le.dir = .rx)) &&
  (decide (s.le.owed ≠ .txReady) || decide (s.le.dir = .tx)) &&
  (!s.le.last || decide (s.le.dir = .rx)) &&
  (!s.flag .master || s.flag .enable) && (!s.flag .sdast || s.flag .enable)

/-- The invariant of the machine between commands. -/
structure State.Inv (s : State) : Prop where
  reserved : s.reg.reservedZero = true
  sequencer : s.x.consistent = true
  notStopped : s.x.phase ≠ .stopped
  line : s.lineConsistent = true
  memory : s.buf.wf

/-- The engine runs polled and byte by byte: neither `FIFO_EN` nor `INTEN` is set, so no line-engine event ends the run as
refused (46_line_engine.md R138). INIT and CTRL_RESET establish it (70_reset_and_hazards.md R187). -/
abbrev State.polled (s : State) : Prop := s.offMode = false

/-- The environment lets the line engine idle: it fires nothing at any interleaving point (46_line_engine.md R158). -/
abbrev State.quiet (s : State) : Prop := s.env = .script []

/-- The environment is the reference environment `e` (46_line_engine.md R157). -/
abbrev State.reference (s : State) (e : EnvRef) : Prop := s.env = .ref e

/-- What the host owns or hands over is as it was: every byte of `BUF`, `LOG`, the command stream and `cp`, the
parameters, and what INIT records. -/
structure HostFrame (s t : State) : Prop where
  memory : ∀ a, t.buf.read a = s.buf.read a
  log : t.log = s.log
  program : t.program = s.program
  cp : t.cp = s.cp
  cfg : t.cfg = s.cfg
  initialised : t.initialised = s.initialised
  pinmux : t.pinmux = s.pinmux

/-- The configuration fields of the controller are as they were: `ENABLE`, the divider, `CTL3.OTHER`, the hold time, and
the FIFO and interrupt enables. -/
structure ConfigFrame (s t : State) : Prop where
  ctl2 : t.reg.ctl2 = s.reg.ctl2
  ctl3 : t.reg.ctl3 = s.reg.ctl3
  b0ectl : t.reg.b0ectl = s.reg.b0ectl
  fifoEn : t.flag .fifoEn = s.flag .fifoEn
  inten : t.flag .inten = s.flag .inten

/-- The baseline the controller reset leaves: enabled, single-byte and polled, not bus master, no request, no latch and no byte
pending, the line engine idle (44_recovery_and_diagnostics.md R130, 46_line_engine.md R138, R153). -/
structure AtBaseline (t : State) : Prop where
  enable : t.flag .enable = true
  ctl1 : t.reg.ctl1 = 0
  fifoEn : t.flag .fifoEn = false
  master : t.flag .master = false
  sdast : t.flag .sdast = false
  stastr : t.flag .stastr = false
  negack : t.flag .negack = false
  ber : t.flag .ber = false
  idle : t.le = { txb := [], addrPhase := false, dir := .none, owed := .none, last := false, pulses := t.le.pulses }

/-- The command that runs one message of EXCHANGE by itself (43_transactions.md R120). -/
def messageCommand (m : Message) : Instr :=
  match m.dir with
  | .read => .read m.addr m.len m.base
  | .write => .write m.addr m.len m.base

/-- The second message of an exchange by itself, after `first`: under a stall latch that `first` left and that holds the bus
(43_transactions.md R121 (d); log entry 25) with that latch kept, otherwise as its command. -/
def secondMessage (first m : Message) (s : State) : Host.Outcome State Fault Refusal :=
  if heldOver (some first) s then runBody (runMessage true m) s else exec (messageCommand m) s

/-- A data-ready wait with budget `n` has failed in an idle environment and nothing else has been done: `Nack` or `BusError` at
its first sample, or `Timeout` after `n` samples (42_primitives.md R101). -/
def State.dataWaitFailed (s : State) (n : Nat) : State :=
  if (s.flag .negack || s.flag .ber) = true ∧ 0 < n then
    { s with
      x := { s.x with phase := .data, result := if s.flag .negack = true then 1 else 2 }
      acc := s.acc ++ [.rd .st (s.reg.st &&& 0x7A)] }
  else
    { s with
      x := { s.x with phase := .data, result := 3 }
      acc := s.acc ++ List.replicate n (.rd .st (s.reg.st &&& 0x7A)) }

/-- A command has ended with `OK`, with the given register contents and after the given accesses; nothing else is changed. -/
def State.ended (u : State) (reg : HwRegs) (accesses : List Access) : State :=
  { u with x := { u.x with result := 0 }, reg := reg, acc := u.acc ++ accesses }

/-- A command has ended with a result and has changed nothing else. -/
def State.endedWith (s : State) (code : BitVec 4) : State := { s with x := { s.x with result := code } }

/-- The commands that need no Bus Instance (70_reset_and_hazards.md R188). -/
def needsNoInit : Instr → Bool
  | .regRead _ => true
  | .regWrite _ _ => true
  | .regSet _ _ => true
  | .regClr _ _ => true
  | .init _ => true
  | .dump => true
  | .setSpeed _ => false
  | .sendStart _ => false
  | .sendStop _ => false
  | .sendAddress _ _ => false
  | .pollDataReady _ => false
  | .pollAckCleared _ => false
  | .sendByte _ => false
  | .recvByte _ => false
  | .recvLast _ => false
  | .read _ _ _ => false
  | .write _ _ _ => false
  | .exchange _ => false
  | .recover _ => false
  | .ctrlReset => false

/-- The causes (a), (c), (d), (e) of `InvalidArgument` (60_exceptions.md R169): a read of length 0, a `REG` above 10, a
primitive issued in a phase from which it is not legal (10_state.md R17), a module index out of range. -/
def misused (i : Instr) (s : State) : Bool :=
  match i with
  | .regRead reg => decide (10 < reg.toNat)
  | .regWrite reg _ => decide (10 < reg.toNat)
  | .regSet reg _ => decide (10 < reg.toNat)
  | .regClr reg _ => decide (10 < reg.toNat)
  | .init m => decide (s.cfg.nModules ≤ m.toNat)
  | .setSpeed _ => false
  | .sendStart _ => false
  | .sendStop _ => decide (s.x.phase = .idle) || decide (s.x.phase = .stopped)
  | .sendAddress _ _ => !decide (s.x.phase = .started)
  | .pollDataReady _ => !(decide (s.x.phase = .addressed) || decide (s.x.phase = .data))
  | .pollAckCleared _ => !(decide (s.x.phase = .addressed) || decide (s.x.phase = .data))
  | .sendByte _ => !(decide (s.x.phase = .addressed) || decide (s.x.phase = .data))
  | .recvByte _ => !(decide (s.x.phase = .addressed) || decide (s.x.phase = .data))
  | .recvLast _ => !(decide (s.x.phase = .addressed) || decide (s.x.phase = .data))
  | .read _ len _ => decide (len = 0)
  | .write _ _ _ => false
  | .exchange _ => false
  | .recover _ => false
  | .ctrlReset => false
  | .dump => false

/-- `LOG`, `wire` and the access record of `t` extend those of `s` (10_state.md R19, R45). -/
def Extends (s t : State) : Prop := s.log <+: t.log ∧ s.wire <+: t.wire ∧ s.acc <+: t.acc

end Sys2Proof.Machine
end

