-- ==== Sys2Proof/Certificates/Slice0/Obligations.lean ====
section
/-! DEFINITION. The statements for the provers. Each docstring names the rules of spec/ it rests on.

Most are about every environment: the environment's choices are data in the state (log entry 1), so a statement about every
state is one about every choice the line engine may make. `s.polled` says that neither `FIFO_EN` nor `INTEN` is set, the
condition under which the spec gives the line engine a meaning (46_line_engine.md R138). `lePoint s` is what the line engine
does at the interleaving point of `s`; what it leaves alone is `Obligations.LineEngineNever`. Stored bytes, and the bytes of
`acc`, have each field at its place in the default layout; `hostByte` and `fieldByte` turn them into the bytes of the host's
layout and back (log entry 3). -/

open Sys2Proof Sys2Proof.Machine

/-! ## Encoding -/

/-- Words of 95_test_vectors.md section 2.1 (V1 to V16), and the word of V60a (42_primitives.md R106) for SEND_BYTE, one or more
per format, and what they stand for (30_encoding.md R65 to R77). -/
def Obligations.DecodesTheWordsOfTheSpec : Prop :=
  decode [0x01010000#32] = .command (.regRead 1) 1 ∧
  decode [0x02010038#32] = .command (.regWrite 1 0x38) 1 ∧
  decode [0x03030010#32] = .command (.regSet 3 0x10) 1 ∧
  decode [0x04030080#32] = .command (.regClr 3 0x80) 1 ∧
  decode [0x10000001#32] = .command (.init 1) 1 ∧
  decode [0x110186A0#32] = .command (.setSpeed 100000) 1 ∧
  decode [0x200003E8#32] = .command (.sendStart 1000) 1 ∧
  decode [0x220001A1#32] = .command (.sendAddress true 0xA1) 1 ∧
  decode [0x25000010#32] = .command (.sendByte 0x10) 1 ∧
  decode [0x26000001#32] = .command (.recvByte true) 1 ∧
  decode [0x30500002#32, 0x00000200#32] = .command (.read 0x50 2 0x200) 2 ∧
  decode [0x317FFFFF#32, 0xFFFFFFFF#32] = .command (.write 0x7F 65535 0xFFFFFFFF) 2 ∧
  decode [0x32000002#32, 0x31500001#32, 0x00000100#32, 0x30500002#32, 0x00000200#32] =
    .command (.exchange [⟨.write, 0x50, 1, 0x100⟩, ⟨.read, 0x50, 2, 0x200⟩]) 5 ∧
  decode [0x40500000#32] = .command (.recover 0x50) 1 ∧
  decode [0x42000000#32] = .command .dump 1

/-- Decoding an encoded well-formed instruction gives it back, with its length, whatever follows (30_encoding.md). -/
def Obligations.DecodeEncodeAgree : Prop :=
  ∀ (i : Instr) (rest : List Word), i.wf = true → decode (encode i ++ rest) = .command i (encode i).length

/-- Every command the decoder accepts is well formed, and its words are the encoding of what was decoded: each instruction
has one encoding and no bit of a word is ignored (30_encoding.md R64, R76, R77). -/
def Obligations.EncodeDecodeAgree : Prop :=
  ∀ (ws : List Word) (i : Instr) (n : Nat), decode ws = .command i n → i.wf = true ∧ n ≤ ws.length ∧ encode i = ws.take n

/-- The rows are disjoint, and a complete command's first word is refused exactly when it matches no row
(30_encoding.md R76, R78). -/
def Obligations.RowsDisjointAndComplete : Prop :=
  (∀ (w : Word) (o p : Opcode), o.selects w = true → p.selects w = true → o = p) ∧
  ∀ (w : Word) (rest : List Word), cmdLength w ≤ rest.length + 1 →
    ((∀ o : Opcode, o.selects w = false) ↔
      ∃ why, decode (w :: rest) = .illegal why (cmdLength w) ∧ why ≠ .badDescriptor)

/-! ## Steps -/

/-- A step runs the decoded instruction: when the words at `cp` are a program whose first command is `i`, of `n` words, the
step is `exec i`, then `cp` moves past the command, then the line engine may move before the next one
(10_state.md R16, 20_memory.md R60). -/
def Obligations.StepRunsDecodedInstruction : Prop :=
  ∀ (s : State) (i : Instr) (n : Nat), wholeProgram (s.program.drop s.cp) = true →
    decode (s.program.drop s.cp) = .command i n →
    (∀ t, exec i s = .next t →
      (∀ u, lePoint { t with cp := t.cp + n } = .ok u → step s = .next u) ∧
      (∀ r, lePoint { t with cp := t.cp + n } = .error r → step s = .refused r)) ∧
    (∀ r, exec i s = .refused r → step s = .refused r)

/-- A program is well formed only if every command has all its words, told from each first word alone; a list of words that
ends inside a command is refused (30_encoding.md R79). -/
def Obligations.TruncatedProgramRefused : Prop :=
  wholeProgram [] = true ∧
  (∀ (w : Word) (rest : List Word), wholeProgram (w :: rest) = true ↔
    cmdLength w ≤ rest.length + 1 ∧ wholeProgram (rest.drop (cmdLength w - 1)) = true) ∧
  (∀ w : Word, cmdLength w =
    if w.toNat / 2 ^ 24 = 0x30 ∨ w.toNat / 2 ^ 24 = 0x31 then 2
    else if w.toNat / 2 ^ 24 = 0x32 then 1 + 2 * (w.toNat % 256) else 1) ∧
  (∀ s : State, wholeProgram (s.program.drop s.cp) = false → step s = .refused .truncatedProgram)

/-- A step moves `cp` by the length of the command it ran, whatever the command's result, and by nothing else
(10_state.md R16). -/
def Obligations.StepAdvancesCp : Prop :=
  ∀ (s t : State) (w : Word) (rest : List Word), s.program.drop s.cp = w :: rest → step s = .next t →
    t.cp = s.cp + cmdLength w ∧ t.program = s.program

/-! ## Which command ends how -/

/-- `InvalidArgument`, its causes, complete: a read of length 0, an illegal encoding, a `REG` above 10, a primitive in a phase
from which it is not legal, a module index out of range; in every case nothing but `x[RESULT]` (and, when the step ends,
`cp`) changes before the line engine's next move; inside EXCHANGE a read of length 0 counts as a failed message
(60_exceptions.md R169; 10_state.md R17; 30_encoding.md R78). That an illegal word ends so before any INIT too is the model's
reading (log entry 14). -/
def Obligations.InvalidArgumentCauses : Prop :=
  (∀ (i : Instr) (s : State), s.initialised = true ∨ needsNoInit i = true → misused i s = true →
    exec i s = .next (s.endedWith 7)) ∧
  (∀ (i : Instr) (s t : State), exec i s = .next t → t.x.result = 7 → misused i s = true) ∧
  (∀ (s : State) (why : Illegal) (n : Nat), wholeProgram (s.program.drop s.cp) = true →
    decode (s.program.drop s.cp) = .illegal why n →
    (∀ u, lePoint { s.endedWith 7 with cp := s.cp + n } = .ok u → step s = .next u) ∧
    (∀ r, lePoint { s.endedWith 7 with cp := s.cp + n } = .error r → step s = .refused r)) ∧
  (∀ (ms : List Message) (s t : State), ms.length = 1 ∨ ms.length = 2 → (∃ m ∈ ms, m.dir = .read ∧ m.len = 0) →
    exec (.exchange ms) s = .next t → t.x.result = 9)

/-- Before an INIT has returned `OK` every command but the register-access commands, INIT and DUMP is refused, and a failed
INIT leaves the engine in that condition (70_reset_and_hazards.md R189). -/
def Obligations.RefusedBeforeInit : Prop :=
  (∀ (i : Instr) (s : State), s.initialised = false → needsNoInit i = false → exec i s = .refused .beforeInit) ∧
  (∀ (m : BitVec 8) (s t : State), s.initialised = false → exec (.init m) s = .next t →
    (t.initialised = true ↔ t.x.result = 0))

/-- Every command ends whatever the line engine does: polled, and with an INIT behind it where it needs one, it gives a next
state, and its result is one of the ten codes (46_line_engine.md R158, 60_exceptions.md R161). -/
def Obligations.EveryCommandCompletes : Prop :=
  ∀ (i : Instr) (s : State), s.polled → s.initialised = true ∨ needsNoInit i = true →
    ∃ t, exec i s = .next t ∧ t.x.result.toNat ≤ 9

/-- `UnsupportedMessageCount`: raised by EXCHANGE only, when COUNT is not 1 or 2; no register is accessed
(60_exceptions.md R170). -/
def Obligations.MessageCountChecked : Prop :=
  (∀ (ms : List Message) (s : State), s.initialised = true → ms.length ≠ 1 → ms.length ≠ 2 →
    exec (.exchange ms) s = .next (s.endedWith 8)) ∧
  (∀ (i : Instr) (s t : State), exec i s = .next t → t.x.result = 8 →
    ∃ ms, i = .exchange ms ∧ ms.length ≠ 1 ∧ ms.length ≠ 2)

/-! ## Register access -/

/-- `REG` 11 to 15: refused, no access; 0 to 10: the command cannot fail, is legal in every phase and changes neither
`PHASE` nor `STARTED` (40_register_access.md R81). -/
def Obligations.RegisterCommandsCannotFail : Prop :=
  ∀ (reg : BitVec 4) (d : Byte) (i : Instr) (s : State),
    i = .regRead reg ∨ i = .regWrite reg d ∨ i = .regSet reg d ∨ i = .regClr reg d →
    (11 ≤ reg.toNat → exec i s = .next (s.endedWith 7)) ∧
    (reg.toNat ≤ 10 → s.polled →
      ∃ t, exec i s = .next t ∧ t.x.result = 0 ∧ t.x.phase = s.x.phase ∧ t.x.started = s.x.started ∧ HostFrame s t)

/-- REG_READ of a register without side effects: one access, `x[RDATA]` is the stored byte with reserved and action bits 0, in
the host's layout; nothing else changes. It holds in every mode in which the line engine's point is not refused, and polled or
in an idle environment it is not. A layout only renames bits, and the default one renames none (40_register_access.md R82,
20_memory.md R56, 10_state.md R20, R42, 00_scope.md R6; log entry 3). -/
def Obligations.RegReadStored : Prop :=
  (∀ (l : Layout) (r : RegId) (v : Byte), wfLayout l = true →
    fieldByte l r (hostByte l r v) = v ∧ hostByte l r (fieldByte l r v) = v) ∧
  (∀ (r : RegId) (v : Byte), hostByte .default r v = v ∧ fieldByte .default r v = v) ∧
  (∀ s : State, s.polled ∨ s.quiet → ∃ u, lePoint s = .ok u) ∧
  ∀ s u : State, lePoint s = .ok u →
    ∀ p ∈ [(1#4, RegId.st, u.reg.st &&& 0x7A), (2#4, RegId.cst, u.reg.cst &&& 0x02), (3#4, RegId.ctl1, u.reg.ctl1 &&& 0x97),
        (4#4, RegId.ctl2, u.reg.ctl2), (5#4, RegId.ctl3, u.reg.ctl3), (6#4, RegId.b0ectl, u.reg.b0ectl &&& 0x3F),
        (7#4, RegId.b0est, u.reg.b0est &&& 0x80), (8#4, RegId.b0fifctl, u.reg.b0fifctl &&& 0x10), (9#4, RegId.b1fifcts, 0)],
      exec (.regRead p.1) s = .next { u with
        x := { u.x with rdata := hostByte s.cfg.layout p.2.1 p.2.2, result := 0 }, acc := u.acc ++ [.rd p.2.1 p.2.2] }

/-- REG_READ of `DATA`: the byte, `SDAST` cleared, and reception re-armed exactly when the engine is bus master in a read
outside the address phase whose last byte has not been received (20_memory.md R56, 46_line_engine.md R148). -/
def Obligations.RegReadData : Prop :=
  ∀ s u : State, lePoint s = .ok u →
    exec (.regRead 0) s = .next { u with
      x := { u.x with rdata := u.reg.data, result := 0 }
      reg := { u.reg with st := u.reg.st &&& 0xBF }
      le := if u.flag .master = true ∧ u.le.dir = .rx ∧ u.le.addrPhase = false ∧ u.le.last = false then
          { u.le with owed := .rxByte } else u.le
      acc := u.acc ++ [.rd .data u.reg.data] }

/-- REG_READ of `BRC`: while not bus master the two level bits are the lines; `TGSCL` and the reserved bits read 0; no register
and no hidden state changes. While bus master the level bits are free (20_memory.md R56, 46_line_engine.md R150; log
entry 2). -/
def Obligations.RegReadLevels : Prop :=
  ∀ s u : State, lePoint s = .ok u → ∃ t b, exec (.regRead 10) s = .next t ∧
    t.x = { u.x with rdata := hostByte s.cfg.layout .brc b, result := 0 } ∧ t.reg = u.reg ∧ t.le = u.le ∧ t.scl = u.scl ∧
    t.sda = u.sda ∧ t.wire = u.wire ∧ t.env = u.env ∧ HostFrame u t ∧ t.acc = u.acc ++ [.rd .brc b] ∧ b &&& 0x3F = 0 ∧
    (u.flag .master = false → (b.getLsbD 7 = true ↔ u.scl = .high) ∧ (b.getLsbD 6 = true ↔ u.sda = .high))

/-- REG_WRITE of the registers without side effects: latches are cleared where a 1 is written, storage fields take the written
bits, reserved and read-only bits ignore the write, `B1_FIFCTS` changes nothing; `v` is the byte the host writes, `w` the same
fields at their default places (40_register_access.md R83, 20_memory.md R57, 10_state.md R42; log entry 3). -/
def Obligations.RegWriteStored : Prop :=
  ∀ (v w : Byte) (s u : State), lePoint s = .ok u →
    ∀ p ∈ [(1#4, RegId.st, { u.reg with st := u.reg.st &&& ~~~(w &&& 0x38) }),
        (2#4, RegId.cst, { u.reg with cst := u.reg.cst &&& ~~~(w &&& 0x02) }),
        (3#4, RegId.ctl1, { u.reg with ctl1 := w &&& 0x97 }),
        (5#4, RegId.ctl3, { u.reg with ctl3 := w }),
        (6#4, RegId.b0ectl, { u.reg with b0ectl := w &&& 0x3F }),
        (7#4, RegId.b0est, { u.reg with b0est := u.reg.b0est &&& ~~~(w &&& 0x80) }),
        (8#4, RegId.b0fifctl, { u.reg with b0fifctl := w &&& 0x10 }),
        (9#4, RegId.b1fifcts, u.reg)],
      w = fieldByte s.cfg.layout p.2.1 v → exec (.regWrite p.1 v) s = .next (u.ended p.2.2 [.wr p.2.1 w])

/-- REG_WRITE of `DATA`: the byte is stored and queued, as an address byte when a START is pending, in the address phase or
while not bus master, as a data byte otherwise; `SDAST` is cleared (20_memory.md R57). -/
def Obligations.RegWriteData : Prop :=
  ∀ (v : Byte) (s u : State), lePoint s = .ok u →
    exec (.regWrite 0 v) s = .next { u.ended { u.reg with data := v, st := u.reg.st &&& 0xBF } [.wr .data v] with
      le := { u.le with txb := u.le.txb ++
        [(v, if u.flag .start = true ∨ u.le.addrPhase = true ∨ u.flag .master = false then TxKind.addr else .data)] } }

/-- REG_WRITE of `CTL2`: both fields are stored; a change of `ENABLE` from 1 to 0 idles the line engine and clears `MASTER`,
`SDAST`, `START` and `STOP`, and puts nothing on the wire; any other write, one that changes `ENABLE` from 0 to 1 among them,
changes nothing else (20_memory.md R57, 46_line_engine.md R153, R154). -/
def Obligations.RegWriteEnable : Prop :=
  ∀ (v w : Byte) (s u : State), lePoint s = .ok u → w = fieldByte s.cfg.layout .ctl2 v →
    exec (.regWrite 4 v) s = .next (
      if u.reg.ctl2.getLsbD 0 = true ∧ w.getLsbD 0 = false then
        { u.ended { u.reg with ctl2 := w, st := u.reg.st &&& 0xBD, ctl1 := u.reg.ctl1 &&& 0xFC } [.wr .ctl2 w] with
          le := { txb := [], addrPhase := false, dir := .none, owed := .none, last := false, pulses := u.le.pulses } }
      else u.ended { u.reg with ctl2 := w } [.wr .ctl2 w])

/-- REG_WRITE of `BRC`: with the `TGSCL` bit written 1 and the module enabled, one pulse on the wire and in `le.pulses`;
otherwise nothing (46_line_engine.md R151). -/
def Obligations.RegWriteToggle : Prop :=
  ∀ (v w : Byte) (s u : State), lePoint s = .ok u → w = fieldByte s.cfg.layout .brc v →
    exec (.regWrite 10 v) s = .next (
      if w.getLsbD 5 = true ∧ u.reg.ctl2.getLsbD 0 = true then
        { u.ended u.reg [.wr .brc w] with
          wire := u.wire ++ [.pulse], le := { u.le with pulses := u.le.pulses + 1 } }
      else u.ended u.reg [.wr .brc w])

/-- REG_SET and REG_CLR are a REG_READ and then a REG_WRITE of the byte read with the mask's bits set or cleared, with the line
engine free to move before each access; `x[RDATA]` is not written; they end as that write ends, and are refused where that
read is (40_register_access.md R84, R85). -/
def Obligations.SetAndClearAreReadThenWrite : Prop :=
  ∀ (reg : BitVec 4) (d : Byte) (s : State), reg.toNat ≤ 10 →
    (∀ r, exec (.regRead reg) s = .next r →
      exec (.regSet reg d) s = exec (.regWrite reg (r.x.rdata ||| d)) { r with x := s.x } ∧
      exec (.regClr reg d) s = exec (.regWrite reg (r.x.rdata &&& ~~~d)) { r with x := s.x }) ∧
    (∀ e, exec (.regRead reg) s = .refused e → exec (.regSet reg d) s = .refused e ∧ exec (.regClr reg d) s = .refused e) ∧
    (s.polled → ∃ r t v, exec (.regRead reg) s = .next r ∧ exec (.regSet reg d) s = .next t ∧ exec (.regClr reg d) s = .next v)

/-! ## Clock and initialisation -/

/-- A successful SET_SPEED: the divider is `round(clock / (4 * target))`, ties up, and is what the two registers recombine
to; the other bits of both are kept; the hold time is 17, 15 or 7 by input-clock tier and is written whole; five accesses
in this order; `x[TARGET_HZ]` is the target (41_clock_and_init.md R89, R91, R92, R93). -/
def Obligations.SetSpeedProgramsDivider : Prop :=
  ∀ (freq : BitVec 24) (s : State) (div hold : Nat), s.polled → s.initialised = true → 0 < freq.toNat →
    freq.toNat ≤ 100000 → div = (s.x.inputClk.toNat + 2 * freq.toNat) / (4 * freq.toNat) → 10 ≤ div → div ≤ 511 →
    hold = (if 40000000 ≤ s.x.inputClk.toNat then 17 else if 12500000 ≤ s.x.inputClk.toNat then 15 else 7) →
    ∃ t, exec (.setSpeed freq) s = .next t ∧
      t.x = { s.x with targetHz := freq.setWidth 32, result := 0 } ∧
      t.reg.ctl2 = (s.reg.ctl2 &&& 0x01) ||| BitVec.ofNat 8 (2 * (div % 128)) ∧
      t.reg.ctl3 = (s.reg.ctl3 &&& 0xFC) ||| BitVec.ofNat 8 (div / 128) ∧
      t.reg.divider.toNat = div ∧ t.reg.b0ectl = BitVec.ofNat 8 hold ∧
      t.acc = s.acc ++ [.rd .ctl2 s.reg.ctl2, .wr .ctl2 t.reg.ctl2, .rd .ctl3 s.reg.ctl3, .wr .ctl3 t.reg.ctl3,
        .wr .b0ectl t.reg.b0ectl] ∧
      HostFrame s t ∧ t.flag .fifoEn = s.flag .fifoEn ∧ t.flag .inten = s.flag .inten

/-- `UnsupportedSpeed` for a target above 100000 Hz, tested first; `FrequencyOutOfRange` for a target of 0 and for a divider
outside 10 to 511; raised by SET_SPEED and INIT, with no register accessed; after INIT the module index and the clock are
recorded and `pinmux` has been invoked (60_exceptions.md R166, R167, 41_clock_and_init.md R96). -/
def Obligations.SpeedErrors : Prop :=
  ∀ (clk target div : Nat) (code : BitVec 4),
    (100000 < target ∧ code = 5) ∨
      (target ≤ 100000 ∧ (target = 0 ∨ div < 10 ∨ 511 < div) ∧ div = (clk + 2 * target) / (4 * target) ∧ code = 4) →
    (∀ (freq : BitVec 24) (s : State), s.initialised = true → s.x.inputClk.toNat = clk → freq.toNat = target →
      exec (.setSpeed freq) s = .next (s.endedWith code)) ∧
    (∀ (m : BitVec 8) (c : BitVec 32) (s : State), m.toNat < s.cfg.nModules → s.cfg.clock = some c → c ≠ 0 →
      c.toNat = clk → s.cfg.cfgSpeedHz = target →
      exec (.init m) s = .next { s with
        x := { s.x with started := false, phase := .idle, modidx := m, inputClk := c, result := code }
        pinmux := s.pinmux ++ [m], initialised := false })

/-- `ClockUnavailable`: raised by INIT only, exactly when the provider returns zero or an error (and the module index is in
range); `x[STARTED]` and `x[PHASE]` are cleared, nothing else is touched (60_exceptions.md R168, 41_clock_and_init.md R96). -/
def Obligations.ClockUnavailable : Prop :=
  (∀ (m : BitVec 8) (s : State), m.toNat < s.cfg.nModules → s.cfg.clock = none ∨ s.cfg.clock = some 0 →
    exec (.init m) s = .next { s with
      x := { s.x with started := false, phase := .idle, result := 6 }, initialised := false }) ∧
  (∀ (i : Instr) (s t : State), exec i s = .next t → t.x.result = 6 →
    ∃ m, i = .init m ∧ (s.cfg.clock = none ∨ s.cfg.clock = some 0))

/-- A successful INIT, polled in every environment: the module enabled, the divider and the hold time programmed for the
configured speed, single-byte mode, `CTL1` cleared, the sequencer registers as INIT writes them, one `LOG_INIT`, `pinmux`
invoked once; `BUF`, `cp` and `CTL3.OTHER` are kept. In an idle environment, whatever `FIFO_EN` and `INTEN` were, exactly: ten
accesses; the status latches, `BB`, `EO_BUSY`, `DATA`, the line engine and the wire are kept (41_clock_and_init.md R92, R95,
70_reset_and_hazards.md R187, R191). -/
def Obligations.InitBringsUp : Prop :=
  ∀ (m : BitVec 8) (s : State) (c : BitVec 32) (div hold : Nat) (lo hi : Byte), m.toNat < s.cfg.nModules →
    s.cfg.clock = some c → c ≠ 0 → 0 < s.cfg.cfgSpeedHz → s.cfg.cfgSpeedHz ≤ 100000 →
    div = (c.toNat + 2 * s.cfg.cfgSpeedHz) / (4 * s.cfg.cfgSpeedHz) → 10 ≤ div → div ≤ 511 →
    hold = (if 40000000 ≤ c.toNat then 17 else if 12500000 ≤ c.toNat then 15 else 7) →
    lo = (s.reg.ctl2 &&& 0x01) ||| BitVec.ofNat 8 (2 * (div % 128)) →
    hi = (s.reg.ctl3 &&& 0xFC) ||| BitVec.ofNat 8 (div / 128) →
    (s.polled → ∃ t, exec (.init m) s = .next t ∧ t.initialised = true ∧
      t.x = { s.x with started := false, phase := .idle, modidx := m, inputClk := c,
                       targetHz := BitVec.ofNat 32 s.cfg.cfgSpeedHz, result := 0 } ∧
      t.flag .enable = true ∧ t.reg.divider.toNat = div ∧ t.reg.b0ectl = BitVec.ofNat 8 hold ∧
      t.reg.ctl1 = 0 ∧ t.flag .fifoEn = false ∧ t.reg.ctl3 &&& 0xFC = s.reg.ctl3 &&& 0xFC ∧
      t.log = s.log ++ [.initDone m.toNat c.toNat s.cfg.cfgSpeedHz div hold] ∧ t.pinmux = s.pinmux ++ [m] ∧
      (∀ a, t.buf.read a = s.buf.read a) ∧ t.cp = s.cp ∧ t.program = s.program ∧ t.cfg = s.cfg) ∧
    (s.quiet → exec (.init m) s = .next { s with
      x := { s.x with started := false, phase := .idle, modidx := m, inputClk := c,
                      targetHz := BitVec.ofNat 32 s.cfg.cfgSpeedHz, result := 0 }
      reg := { s.reg with ctl2 := lo ||| 0x01, ctl3 := hi, b0ectl := BitVec.ofNat 8 hold, b0fifctl := 0, ctl1 := 0 }
      log := s.log ++ [.initDone m.toNat c.toNat s.cfg.cfgSpeedHz div hold]
      pinmux := s.pinmux ++ [m]
      initialised := true
      acc := s.acc ++ [.rd .ctl2 s.reg.ctl2, .wr .ctl2 lo, .rd .ctl3 s.reg.ctl3, .wr .ctl3 hi,
        .wr .b0ectl (BitVec.ofNat 8 hold), .rd .ctl2 lo, .wr .ctl2 (lo ||| 0x01),
        .rd .b0fifctl (s.reg.b0fifctl &&& 0x10), .wr .b0fifctl 0, .wr .ctl1 0] })

/-- INIT is never refused as the first command after power-on, whatever the unspecified bits and the environment are, and
with usable parameters it succeeds and leaves the engine polled (70_reset_and_hazards.md R186, R188). With `FIFO_EN` drawn 1
this rests on the model's reading of 46_line_engine.md R138 and 93_implementation_defined.md U9, that the line and
foreign-master events go on in FIFO mode (log entry 11). -/
def Obligations.InitFromPowerOn : Prop :=
  ∀ (c : Config) (d : PowerOnDraws) (env : Env) (m : BitVec 8) (clk : BitVec 32), m.toNat < c.nModules →
    c.clock = some clk → clk ≠ 0 → 0 < c.cfgSpeedHz → c.cfgSpeedHz ≤ 100000 →
    10 ≤ (clk.toNat + 2 * c.cfgSpeedHz) / (4 * c.cfgSpeedHz) →
    (clk.toNat + 2 * c.cfgSpeedHz) / (4 * c.cfgSpeedHz) ≤ 511 →
    ∃ t, exec (.init m) ((State.powerOn c d).withEnv env) = .next t ∧ t.x.result = 0 ∧ t.initialised = true ∧ t.polled

/-! ## Byte-level primitives -/

/-- SEND_START in every environment: the two accesses that set the request, then at most `timeout` samples of `ST`, all of them
but the last with neither `BER` nor `MASTER`. `OK` marks the START, on a sample that shows `MASTER` and no `BER`; `BusError`, on
one that shows `BER`, and `Timeout`, after exactly `timeout` samples that show neither, leave `x[STARTED]` and `x[PHASE]` alone,
and `Timeout` leaves the request set. Nothing of the host's or of the configuration changes (42_primitives.md R97, R98, R110). -/
def Obligations.SendStartOutcomes : Prop :=
  ∀ (timeout : BitVec 24) (s : State), s.polled → s.initialised = true →
    ∃ (t : State) (c : Byte) (samples : List Byte), exec (.sendStart timeout) s = .next t ∧ HostFrame s t ∧ ConfigFrame s t ∧
      t.acc = s.acc ++ [.rd .ctl1 c, .wr .ctl1 (c ||| 0x01)] ++ samples.map (fun v => .rd .st v) ∧
      samples.length ≤ timeout.toNat ∧ (∀ v ∈ samples.dropLast, v.getLsbD 5 = false ∧ v.getLsbD 1 = false) ∧
      ((t.x = { s.x with started := true, phase := .started, result := 0 } ∧
          ∃ v, samples.getLast? = some v ∧ v.getLsbD 5 = false ∧ v.getLsbD 1 = true) ∨
        (t.x = { s.x with result := 2 } ∧ ∃ v, samples.getLast? = some v ∧ v.getLsbD 5 = true) ∨
        (t.x = { s.x with result := 3 } ∧ samples.length = timeout.toNat ∧
          (∀ v ∈ samples, v.getLsbD 5 = false ∧ v.getLsbD 1 = false) ∧ t.flag .start = true))

/-- SEND_START, exactly, in an idle environment: the START request set and kept. With `BER` set the first sample ends it with
`BusError` (42_primitives.md R98 corner case b); with `MASTER` set and no bus error, a repeated START, the first sample ends it
with `OK` before the line engine has generated anything (corner case a); with neither, or with timeout 0 (corner case c),
`timeout` samples and `Timeout`, after which the request outlives the command (R110, 70_reset_and_hazards.md R200). -/
def Obligations.SendStartExactly : Prop :=
  ∀ (timeout : BitVec 24) (s : State), s.quiet → s.initialised = true →
    exec (.sendStart timeout) s = .next { s with
      x := if timeout = 0 ∨ (s.flag .ber = false ∧ s.flag .master = false) then { s.x with result := 3 }
        else if s.flag .ber = true then { s.x with result := 2 }
        else { s.x with started := true, phase := .started, result := 0 }
      reg := { s.reg with ctl1 := (s.reg.ctl1 &&& 0x97) ||| 0x01 }
      acc := s.acc ++ [.rd .ctl1 (s.reg.ctl1 &&& 0x97), .wr .ctl1 ((s.reg.ctl1 &&& 0x97) ||| 0x01)] ++
        List.replicate (if (s.flag .ber || s.flag .master) = true then min 1 timeout.toNat else timeout.toNat)
          (.rd .st (s.reg.st &&& 0x7A)) }

/-- SEND_STOP from a phase in which a START is outstanding. In every environment: `x[STARTED]` and `x[PHASE]` are cleared
whatever happens; with timeout 0 the result is `OK`; otherwise it is `OK`, or `Timeout` with exactly one dump of the ten
registers in `LOG`. In an idle environment, exactly: three accesses, the STOP request set, the three latches cleared; with
timeout 0 no poll and `OK`; with a budget above 0 the request stays, so `timeout` samples of `CTL1`, the dump and `Timeout`.
When the line engine first moves at the first sample, whatever it does there: if `STOP` then reads 0, one sample and `OK`
(42_primitives.md R97, R99, R109, 44_recovery_and_diagnostics.md R132). -/
def Obligations.SendStopOutcomes : Prop :=
  (∀ (timeout : BitVec 24) (s : State), s.polled → s.initialised = true →
    (s.x.phase = .started ∨ s.x.phase = .addressed ∨ s.x.phase = .data) →
    ∃ t, exec (.sendStop timeout) s = .next t ∧ ConfigFrame s t ∧
      t.x = { s.x with started := false, phase := .idle, result := t.x.result } ∧
      (∀ a, t.buf.read a = s.buf.read a) ∧ t.cp = s.cp ∧ t.program = s.program ∧ t.cfg = s.cfg ∧
      ((t.x.result = 0 ∧ t.log = s.log) ∨
        (t.x.result = 3 ∧ 0 < timeout.toNat ∧ ∃ vals, t.log = s.log ++ [.dump vals] ∧
          vals.map Prod.fst = [.st, .cst, .ctl1, .ctl2, .ctl3, .b0ectl, .b0est, .b0fifctl, .b1fifcts, .brc]))) ∧
  (∀ (timeout : BitVec 24) (s m : State) (vals : List (RegId × Byte)), s.initialised = true →
    (s.x.phase = .started ∨ s.x.phase = .addressed ∨ s.x.phase = .data) →
    m = { s with
      x := { s.x with started := false, phase := .idle }
      reg := { s.reg with ctl1 := (s.reg.ctl1 &&& 0x97) ||| 0x02, st := s.reg.st &&& 0xC7 }
      acc := s.acc ++ [.rd .ctl1 (s.reg.ctl1 &&& 0x97), .wr .ctl1 ((s.reg.ctl1 &&& 0x97) ||| 0x02), .wr .st 0x38] } →
    vals = [RegId.st, .cst, .ctl1, .ctl2, .ctl3, .b0ectl, .b0est, .b0fifctl, .b1fifcts, .brc].map
      (fun r => (r, readValue m r)) →
    (s.quiet → timeout = 0 → exec (.sendStop timeout) s = .next (m.endedWith 0)) ∧
    (s.quiet → 0 < timeout.toNat → exec (.sendStop timeout) s = .next { m.endedWith 3 with
      log := s.log ++ [.dump (vals.map (fun p => (p.1, hostByte s.cfg.layout p.1 p.2)))]
      draws := if s.flag .master = true then s.draws + 1 else s.draws
      acc := m.acc ++ List.replicate timeout.toNat (.rd .ctl1 ((s.reg.ctl1 &&& 0x97) ||| 0x02)) ++
        vals.map (fun p => .rd p.1 p.2) }) ∧
    (∀ (evs : List LeEvent) (rest : List (List LeEvent)) (w : State), s.env = .script ([] :: [] :: [] :: evs :: rest) →
      0 < timeout.toNat → fireAll evs { m with env := .script rest } = .ok w → w.flag .stop = false →
      exec (.sendStop timeout) s = .next { w.endedWith 0 with acc := w.acc ++ [.rd .ctl1 (w.reg.ctl1 &&& 0x97)] }))

/-- SEND_ADDRESS in every environment, from `STARTED`: `OK` moves `x[PHASE]` to `ADDRESSED`; `Nack` and `BusError` leave it;
there is no `Timeout`, whatever the stall wait does; a STOP is still owed (42_primitives.md R100, 60_exceptions.md R165). -/
def Obligations.SendAddressOutcomes : Prop :=
  ∀ (stall : Bool) (byte : Byte) (s : State), s.polled → s.initialised = true → s.x.phase = .started →
    ∃ t, exec (.sendAddress stall byte) s = .next t ∧ HostFrame s t ∧ ConfigFrame s t ∧
      (t.x = { s.x with phase := .addressed, result := 0 } ∨ t.x = { s.x with result := 1 } ∨
        t.x = { s.x with result := 2 })

/-- SEND_ADDRESS, exactly, in an idle environment. Without a stall: the byte is written and queued, `SDAST` is cleared, and one
inspection read decides, `Nack` before `BusError`. With a stall: `STASTRE` is set before the byte is written, the stall wait
takes one sample when the stall or the bus-error latch is set and `T_STALL` samples otherwise, and the same inspection decides;
that a stall latch that was already set ends the wait is R100's text and the model's choice beside 70_reset_and_hazards.md R201
(log entry 25).
With a stall, in every environment: the accesses in that order; every sample of the wait but its last shows neither latch; it
ends before `T_STALL` samples only on one that shows `STASTR` or `BER`; the result is that of the inspection read alone
(42_primitives.md R97, R100, R109). -/
def Obligations.SendAddressExactly : Prop :=
  (∀ (byte : Byte) (s : State) (x : SeqRegs) (le : LeState), s.quiet → s.initialised = true → s.x.phase = .started →
    x = (if s.flag .negack = true then { s.x with result := 1 }
        else if s.flag .ber = true then { s.x with result := 2 }
        else { s.x with phase := .addressed, result := 0 }) →
    le = { s.le with txb := s.le.txb ++
        [(byte, if s.flag .start = true ∨ s.le.addrPhase = true ∨ s.flag .master = false then TxKind.addr else .data)] } →
    exec (.sendAddress false byte) s = .next { s with
      x := x
      reg := { s.reg with data := byte, st := s.reg.st &&& 0xBF }
      le := le
      acc := s.acc ++ [.wr .data byte, .rd .st (s.reg.st &&& 0x3A)] } ∧
    exec (.sendAddress true byte) s = .next { s with
      x := x
      reg := { s.reg with data := byte, st := s.reg.st &&& 0xBF, ctl1 := (s.reg.ctl1 &&& 0x97) ||| 0x80 }
      le := le
      acc := s.acc ++ [.rd .ctl1 (s.reg.ctl1 &&& 0x97), .wr .ctl1 ((s.reg.ctl1 &&& 0x97) ||| 0x80), .wr .data byte] ++
        List.replicate (if (s.flag .stastr || s.flag .ber) = true then min 1 s.cfg.tStall else s.cfg.tStall)
          (.rd .st (s.reg.st &&& 0x3A)) ++ [.rd .st (s.reg.st &&& 0x3A)] }) ∧
  (∀ (byte : Byte) (s : State), s.polled → s.initialised = true → s.x.phase = .started →
    ∃ (t : State) (c : Byte) (waits : List Byte) (v : Byte), exec (.sendAddress true byte) s = .next t ∧
      t.acc = s.acc ++ [.rd .ctl1 c, .wr .ctl1 (c ||| 0x80), .wr .data byte] ++ waits.map (fun w => .rd .st w) ++ [.rd .st v] ∧
      waits.length ≤ s.cfg.tStall ∧
      (∀ w ∈ waits.dropLast, w.getLsbD 3 = false ∧ w.getLsbD 5 = false) ∧
      (waits.length < s.cfg.tStall → ∃ w, waits.getLast? = some w ∧ (w.getLsbD 3 = true ∨ w.getLsbD 5 = true)) ∧
      t.x.result = (if v.getLsbD 4 = true then 1 else if v.getLsbD 5 = true then 2 else 0))

/-- POLL_DATA_READY exactly, in an idle environment: `PHASE` becomes `DATA`; one sample decides when a flag is set, in the
order NACK, bus error, data-ready; with none set it takes `timeout` samples and ends with `Timeout`; with timeout 0 it
takes none (42_primitives.md R97, R101). -/
def Obligations.PollDataReadySamples : Prop :=
  ∀ (timeout : BitVec 24) (s : State), s.quiet → s.initialised = true →
    (s.x.phase = .addressed ∨ s.x.phase = .data) →
    exec (.pollDataReady timeout) s = .next (
      if (s.flag .negack || s.flag .ber || s.flag .sdast) = true ∧ 0 < timeout.toNat then
        { s with
          x := { s.x with phase := .data,
                          result := if s.flag .negack = true then 1 else if s.flag .ber = true then 2 else 0 }
          acc := s.acc ++ [.rd .st (s.reg.st &&& 0x7A)] }
      else { s with
          x := { s.x with phase := .data, result := 3 }
          acc := s.acc ++ List.replicate timeout.toNat (.rd .st (s.reg.st &&& 0x7A)) })

/-- POLL_ACK_CLEARED exactly, in an idle environment: it looks at `CTL1.ACK` alone; `OK` at the first sample when it is 0,
`Timeout` after `timeout` samples when it stays 1, no dump (42_primitives.md R102). -/
def Obligations.PollAckClearedSamples : Prop :=
  ∀ (timeout : BitVec 24) (s : State), s.quiet → s.initialised = true →
    (s.x.phase = .addressed ∨ s.x.phase = .data) →
    exec (.pollAckCleared timeout) s = .next (
      if s.flag .ack = false ∧ 0 < timeout.toNat then
        { s with
          x := { s.x with phase := .data, result := 0 }
          acc := s.acc ++ [.rd .ctl1 (s.reg.ctl1 &&& 0x97)] }
      else { s with
          x := { s.x with phase := .data, result := 3 }
          acc := s.acc ++ List.replicate timeout.toNat (.rd .ctl1 (s.reg.ctl1 &&& 0x97)) })

/-- SEND_BYTE, exactly, in an idle environment. When data-ready is set and no failure latch is: one sample, the byte written and
queued, `SDAST` cleared. Otherwise the wait fails and nothing is written (42_primitives.md R101, R106). -/
def Obligations.SendByteWrites : Prop :=
  ∀ (byte : Byte) (s : State), s.quiet → s.initialised = true → (s.x.phase = .addressed ∨ s.x.phase = .data) →
    exec (.sendByte byte) s = .next (
      if 0 < s.cfg.tSda ∧ s.flag .negack = false ∧ s.flag .ber = false ∧ s.flag .sdast = true then { s with
        x := { s.x with phase := .data, result := 0 }
        reg := { s.reg with data := byte, st := s.reg.st &&& 0xBF }
        le := { s.le with txb := s.le.txb ++
          [(byte, if s.flag .start = true ∨ s.le.addrPhase = true ∨ s.flag .master = false then TxKind.addr else .data)] }
        acc := s.acc ++ [.rd .st (s.reg.st &&& 0x7A), .wr .data byte] }
      else s.dataWaitFailed s.cfg.tSda)

/-- RECV_BYTE, exactly, in an idle environment. When data-ready is set and no failure latch is: the byte to `x[RDATA]`, `SDAST`
cleared, reception re-armed as a read of `DATA` does, and with `NACKNEXT` the NACK request set for the byte after it. Otherwise
the wait fails and `DATA` is not read. In every environment, from the state `u` in which the line engine leaves the engine between
a wait that has succeeded and the read of `DATA`: the read and the two accesses of the NACK request are one step, in which the line
engine does not move, when `ATOMIC_NACK_LOOKAHEAD` is true (42_primitives.md R101, R107, 43_transactions.md R117). -/
def Obligations.RecvByteReads : Prop :=
  (∀ (nackNext : Bool) (s p u : State), s.initialised = true → (s.x.phase = .addressed ∨ s.x.phase = .data) →
    pollDataReady s.cfg.tSda s = .ok (.ok, p) → lePoint p = .ok u → (nackNext = false ∨ s.cfg.atomicNackLookahead = true) →
    exec (.recvByte nackNext) s = .next { u with
      x := { s.x with phase := .data, rdata := u.reg.data, result := 0 }
      reg := { u.reg with st := u.reg.st &&& 0xBF,
                          ctl1 := if nackNext = true then (u.reg.ctl1 &&& 0x97) ||| 0x10 else u.reg.ctl1 }
      le := if u.flag .master = true ∧ u.le.dir = .rx ∧ u.le.addrPhase = false ∧ u.le.last = false then
          { u.le with owed := .rxByte } else u.le
      acc := u.acc ++ [.rd .data u.reg.data] ++
        (if nackNext = true then [.rd .ctl1 (u.reg.ctl1 &&& 0x97), .wr .ctl1 ((u.reg.ctl1 &&& 0x97) ||| 0x10)] else []) }) ∧
  ∀ (nackNext : Bool) (s : State), s.quiet → s.initialised = true → (s.x.phase = .addressed ∨ s.x.phase = .data) →
    exec (.recvByte nackNext) s = .next (
      if 0 < s.cfg.tSda ∧ s.flag .negack = false ∧ s.flag .ber = false ∧ s.flag .sdast = true then { s with
        x := { s.x with phase := .data, rdata := s.reg.data, result := 0 }
        reg := { s.reg with st := s.reg.st &&& 0xBF,
                            ctl1 := if nackNext = true then (s.reg.ctl1 &&& 0x97) ||| 0x10 else s.reg.ctl1 }
        le := if s.flag .master = true ∧ s.le.dir = .rx ∧ s.le.addrPhase = false ∧ s.le.last = false then
            { s.le with owed := .rxByte } else s.le
        acc := s.acc ++ [.rd .st (s.reg.st &&& 0x7A), .rd .data s.reg.data] ++
          (if nackNext = true then [.rd .ctl1 (s.reg.ctl1 &&& 0x97), .wr .ctl1 ((s.reg.ctl1 &&& 0x97) ||| 0x10)] else []) }
      else s.dataWaitFailed s.cfg.tSda)

/-- RECV_LAST, exactly, in an idle environment. When its wait succeeds at the first sample: STOP requested and the latches
cleared, then `DATA` read, then the NACK latch cleared; `x[STARTED]` and `x[PHASE]` are cleared. When its wait fails: no STOP is
requested, `DATA` is not read and `x[STARTED]` keeps its value (42_primitives.md R101, R102, R108). -/
def Obligations.RecvLastStopsThenReads : Prop :=
  ∀ (ackWait : Bool) (s : State), s.quiet → s.initialised = true → (s.x.phase = .addressed ∨ s.x.phase = .data) →
    exec (.recvLast ackWait) s = .next (
      if (ackWait = true ∧ 0 < s.cfg.tAck ∧ s.flag .ack = false) ∨
          (ackWait = false ∧ 0 < s.cfg.tSda ∧ s.flag .negack = false ∧ s.flag .ber = false ∧ s.flag .sdast = true) then
        { s with
          x := { s.x with started := false, phase := .idle, rdata := s.reg.data, result := 0 }
          reg := { s.reg with ctl1 := (s.reg.ctl1 &&& 0x97) ||| 0x02, st := s.reg.st &&& 0x87 }
          le := if s.flag .master = true ∧ s.le.dir = .rx ∧ s.le.addrPhase = false ∧ s.le.last = false then
              { s.le with owed := .rxByte } else s.le
          acc := s.acc ++ [if ackWait = true then .rd .ctl1 (s.reg.ctl1 &&& 0x97) else .rd .st (s.reg.st &&& 0x7A),
            .rd .ctl1 (s.reg.ctl1 &&& 0x97), .wr .ctl1 ((s.reg.ctl1 &&& 0x97) ||| 0x02), .wr .st 0x38,
            .rd .data s.reg.data, .wr .st 0x10] }
      else if ackWait = true then
        { s with
          x := { s.x with phase := .data, result := 3 }
          acc := s.acc ++ List.replicate s.cfg.tAck (.rd .ctl1 (s.reg.ctl1 &&& 0x97)) }
      else s.dataWaitFailed s.cfg.tSda)

/-- The frame of the data-phase primitives, in every environment: they change no byte of `BUF`, no configuration field and no
sequencer register but `PHASE`, `RESULT`, and for the receiving ones `RDATA`; the transfer they are part of still owes its
STOP unless RECV_LAST completed. One that fails has made the samples of its wait and no other access, so it has neither written
nor read `DATA` and has requested no STOP, and `x[RDATA]` is as before (42_primitives.md R101, R102, R106 to R108). -/
def Obligations.DataPhaseFrame : Prop :=
  ∀ (i : Instr) (s t : State), (∃ n, i = .pollDataReady n ∨ i = .pollAckCleared n) ∨ (∃ b, i = .sendByte b) ∨
      (∃ f, i = .recvByte f ∨ i = .recvLast f) →
    s.polled → s.initialised = true → (s.x.phase = .addressed ∨ s.x.phase = .data) → exec i s = .next t →
    HostFrame s t ∧ ConfigFrame s t ∧
      (t.x = { s.x with phase := .data, rdata := t.x.rdata, result := t.x.result } ∨
        ((∃ f, i = .recvLast f) ∧ t.x = { s.x with started := false, phase := .idle, rdata := t.x.rdata, result := 0 })) ∧
      ((∀ f, i ≠ .recvByte f ∧ i ≠ .recvLast f) → t.x.rdata = s.x.rdata) ∧
      (t.x.result ≠ 0 → t.x = { s.x with phase := .data, result := t.x.result } ∧
        ∃ (r : RegId) (samples : List Byte), (r = .ctl1 ↔ (∃ n, i = .pollAckCleared n) ∨ i = .recvLast true) ∧ (r = .st ∨ r = .ctl1) ∧
          t.acc = s.acc ++ samples.map (fun v => .rd r v))

/-! ## Transactions -/

/-- READ in every environment: it completes, the host's bytes outside its buffer are untouched, and its exits are those of
43_transactions.md R116: rejected with nothing touched, START failed with `x[STARTED]` and `x[PHASE]` as before, failed later
with a STOP owed, or complete with `x[STARTED]` and `x[PHASE]` cleared. -/
def Obligations.ReadExits : Prop :=
  ∀ (a : Addr7) (len : BitVec 16) (base : BitVec 32) (s : State), s.polled → s.initialised = true →
    ∃ t, exec (.read a len base) s = .next t ∧ ConfigFrame s t ∧ t.log = s.log ∧ t.cp = s.cp ∧ t.program = s.program ∧
      t.cfg = s.cfg ∧ t.initialised = true ∧ t.pinmux = s.pinmux ∧
      (∀ x, (∀ k < len.toNat, x ≠ (base.toNat + k) % 2 ^ 32) → t.buf.read x = s.buf.read x) ∧
      ((len = 0 ∧ t = s.endedWith 7) ∨
        (len ≠ 0 ∧ (t.x = { s.x with result := 2 } ∨ t.x = { s.x with result := 3 })) ∨
        (len ≠ 0 ∧ (∃ p, (p = Phase.started ∨ p = .data) ∧
          t.x = { s.x with started := true, phase := p, result := t.x.result }) ∧
          (t.x.result = 1 ∨ t.x.result = 2 ∨ t.x.result = 3)) ∨
        (len ≠ 0 ∧ t.x = { s.x with started := false, phase := .idle, result := 0 }))

/-- WRITE in every environment: it completes, it changes no byte of `BUF`, and it issues no STOP: unless its START failed, a
STOP is owed afterwards. A WRITE of length 0 whose START has succeeded leaves the stall enable cleared, whatever its result
(43_transactions.md R118, R119). -/
def Obligations.WriteExits : Prop :=
  ∀ (a : Addr7) (len : BitVec 16) (base : BitVec 32) (s : State), s.polled → s.initialised = true →
    ∃ t, exec (.write a len base) s = .next t ∧ HostFrame s t ∧ ConfigFrame s t ∧
      ((t.x = { s.x with result := 2 } ∨ t.x = { s.x with result := 3 }) ∨
        ((∃ p, (p = Phase.started ∨ p = .addressed ∨ p = .data) ∧
          t.x = { s.x with started := true, phase := p, result := t.x.result }) ∧
          (t.x.result = 0 ∨ t.x.result = 1 ∨ t.x.result = 2 ∨ t.x.result = 3))) ∧
      (len = 0 → (∃ u, sendStart s.cfg.tStart s = .ok (.ok, u)) → t.flag .stastre = false)

/-- EXCHANGE of one or two messages. In every environment: it completes with `OK` or `IoError`, no START is outstanding
afterwards, only the buffers of its read messages change, and after `IoError` an enabled controller is at its baseline. It is
made of its messages as commands: the latches are cleared once, message 2 runs whatever message 1 ended with, a STOP with the
budget `T_STOP` is forced if one is still owed, its result not used; `OK` exactly when no message failed; otherwise RECOVER with
the last message's address and `IoError`. A stall latch that a zero-length WRITE left as message 1 is still set after message 2, and
unless message 2 is such a WRITE too it fails and the exchange ends with `IoError`. A READ of one byte as message 2 is so only where
`Config.staleStallHolds` is true; that, and that a second zero-length WRITE has no wait that can fail, is the model's choice between
R121 (d), R201 and the pseudocode with its rulings (log entry 25) (43_transactions.md R120, R121, R122, 60_exceptions.md R171, R175, R176, 70_reset_and_hazards.md R201). -/
def Obligations.ExchangeOutcomes : Prop :=
  (∀ (ms : List Message) (s : State), s.polled → s.initialised = true → ms.length = 1 ∨ ms.length = 2 →
    s.x.consistent = true → s.x.phase ≠ .stopped →
    ∃ t, exec (.exchange ms) s = .next t ∧ (t.x.result = 0 ∨ t.x.result = 9) ∧
      t.x = { s.x with started := false, phase := .idle, result := t.x.result } ∧
      (∀ x, (∀ m ∈ ms, m.dir = .read → ∀ k < m.len.toNat, x ≠ (m.base.toNat + k) % 2 ^ 32) →
        t.buf.read x = s.buf.read x) ∧
      t.cp = s.cp ∧ t.program = s.program ∧ t.cfg = s.cfg ∧ t.initialised = true ∧ t.pinmux = s.pinmux ∧
      t.reg.divider = s.reg.divider ∧ t.reg.ctl3 = s.reg.ctl3 ∧ t.reg.b0ectl = s.reg.b0ectl ∧
      (t.x.result = 9 → s.flag .enable = true → AtBaseline t)) ∧
  (∀ (ms : List Message) (last : Message) (s u t v w : State) (failed : Prop) (k : Kind), s.initialised = true →
    lePoint s = .ok u →
    (ms = [last] ∧ exec (messageCommand last) (u.ended { u.reg with st := u.reg.st &&& 0xC7 } [.wr .st 0xFF]) = .next t ∧
        (failed ↔ t.x.result ≠ 0)) ∨
      (∃ first t1, ms = [first, last] ∧
        exec (messageCommand first) (u.ended { u.reg with st := u.reg.st &&& 0xC7 } [.wr .st 0xFF]) = .next t1 ∧
        secondMessage first last t1 = .next t ∧ (failed ↔ t1.x.result ≠ 0 ∨ t.x.result ≠ 0)) →
    (t.x.started = true ∧ sendStop s.cfg.tStop t = .ok (k, v)) ∨ (t.x.started = false ∧ v = t) →
    (¬ failed → exec (.exchange ms) s = .next (v.endedWith 0)) ∧
    (failed → exec (.recover last.addr) v = .next w → exec (.exchange ms) s = .next (w.endedWith 9))) ∧
  ∀ (first last : Message) (s u t1 : State), s.polled → s.initialised = true → lePoint s = .ok u →
    first.dir = .write → first.len = 0 →
    exec (messageCommand first) (u.ended { u.reg with st := u.reg.st &&& 0xC7 } [.wr .st 0xFF]) = .next t1 →
    t1.flag .stastr = true →
    (s.cfg.staleStallHolds = true ∨ last.dir = .write ∨ last.len ≠ 1) →
    ∃ t, secondMessage first last t1 = .next t ∧ t.flag .stastr = true ∧
      ((last.dir = .write ∧ last.len = 0) ∨
        (t.x.result ≠ 0 ∧ ∃ v, exec (.exchange [first, last]) s = .next v ∧ v.x.result = 9))

/-- A WRITE to a target that acknowledges, in the reference environment (46_line_engine.md R157, as log entry 16 reads it), from a
free bus. As EXCHANGE of that one message: `OK`, and on the wire exactly START, the address byte, every byte of the buffer in
order, STOP. As the command WRITE, with no stale failure latch: `OK`, the same bytes sent or (the last one) queued, no STOP, and
a STOP is owed. Nothing of `BUF` changes. The length 0 is the address-only probe (43_transactions.md R118, R119, R120,
20_memory.md R51, R52). -/
def Obligations.WriteOnTheWire : Prop :=
  ∀ (a : Addr7) (len : BitVec 16) (base : BitVec 32) (s : State) (e : EnvRef) (bytes : List WireEvent), s.reference e →
    s.polled → s.initialised = true → e.stuck = none → e.txNack = none → a ∈ e.targets → 0 < s.cfg.tStart →
    0 < s.cfg.tSda → s.flag .enable = true → s.flag .master = false → s.reg.ctl1 = 0 → s.le.txb = [] →
    s.x.phase = .idle → s.x.started = false →
    bytes = (List.range len.toNat).map (fun k => .tx (s.buf.read ((base.toNat + k) % 2 ^ 32)) .ack) →
    (∃ t, exec (.exchange [⟨.write, a, len, base⟩]) s = .next t ∧ t.x = { s.x with result := 0 } ∧
      t.wire = s.wire ++ [WireEvent.start, .addr (a.setWidth 8 <<< 1) .ack] ++ bytes ++ [WireEvent.stop] ∧
      HostFrame s t ∧ ConfigFrame s t ∧ t.flag .master = false ∧ t.reg.ctl1 = 0) ∧
    (s.flag .negack = false → s.flag .ber = false → s.flag .stastr = false →
      ∃ t, exec (.write a len base) s = .next t ∧
        t.x = { s.x with started := true, phase := if len = 0 then .addressed else .data, result := 0 } ∧
        t.wire ++ t.le.txb.map (fun p => WireEvent.tx p.1 .ack) =
          s.wire ++ [WireEvent.start, .addr (a.setWidth 8 <<< 1) .ack] ++ bytes ∧
        HostFrame s t ∧ ConfigFrame s t ∧ t.flag .master = true ∧ t.reg.ctl1 = 0)

/-- A READ of at least one byte from a target that answers, in the reference environment (46_line_engine.md R157, as log entry 16
reads it), from a free bus and with the look-ahead step atomic, as EXCHANGE of that one message, or as the command READ with no
stale failure latch: `OK`; byte `k` of the buffer is the `k`-th byte the target returns; on the wire START, the address byte, the
bytes, all acknowledged but the last, and STOP (43_transactions.md R113 to R117, R120; log entry 4 for the parameter). -/
def Obligations.ReadOnTheWire : Prop :=
  ∀ (i : Instr) (a : Addr7) (len : BitVec 16) (base : BitVec 32) (s : State) (e : EnvRef) (byte : Nat → Byte),
    i = .exchange [⟨.read, a, len, base⟩] ∨
      (i = .read a len base ∧ s.flag .negack = false ∧ s.flag .ber = false ∧ s.flag .stastr = false) →
    s.reference e →
    s.polled → s.initialised = true → e.stuck = none → a ∈ e.targets → 0 < len.toNat →
    byte = (fun k => ((e.rx.lookup a).getD []).getD k 0xFF) → s.cfg.atomicNackLookahead = true → s.buf.wf →
    0 < s.cfg.tStart → 0 < s.cfg.tSda → 0 < s.cfg.tAck →
    s.flag .enable = true → s.flag .master = false → s.reg.ctl1 = 0 → s.le.txb = [] → s.x.phase = .idle →
    s.x.started = false →
    ∃ t, exec i s = .next t ∧ t.x = { s.x with result := 0 } ∧
      (∀ k < len.toNat, t.buf.read ((base.toNat + k) % 2 ^ 32) = byte k) ∧
      (∀ x, (∀ k < len.toNat, x ≠ (base.toNat + k) % 2 ^ 32) → t.buf.read x = s.buf.read x) ∧
      t.wire = s.wire ++ [WireEvent.start, .addr (a.setWidth 8 <<< 1 ||| 1) .ack] ++
        (List.range (len.toNat - 1)).map (fun k => WireEvent.rx (byte k) .ack) ++ [WireEvent.rx (byte (len.toNat - 1)) .nack, .stop] ∧
      t.flag .master = false ∧ t.reg.ctl1 = 0 ∧ ConfigFrame s t ∧ t.cp = s.cp ∧ t.log = s.log

/-- STOP before the final read: a READ that completes makes, as its last three accesses, the latch clear of its STOP, the read
of `DATA` and the clear of the NACK latch, right after the write of `CTL1` that requests the STOP
(43_transactions.md R114, R115, 70_reset_and_hazards.md R193). -/
def Obligations.StopBeforeFinalRead : Prop :=
  ∀ (a : Addr7) (len : BitVec 16) (base : BitVec 32) (s t : State), exec (.read a len base) s = .next t →
    t.x.result = 0 →
    ∃ pre c v, t.acc = pre ++ [.rd .ctl1 c, .wr .ctl1 (c ||| 0x02), .wr .st 0x38, .rd .data v, .wr .st 0x10]

/-! ## Recovery, reset, dump -/

/-- RECOVER in every environment: always `OK`; at most 27 pulses; at most one event in `LOG`, one of the three, and only after
`LOG_REC_DONE` have `x[STARTED]` and `x[PHASE]` been cleared; the configured speed and `BUF` untouched. On an enabled module: no
pulse without an event, 27 when SDA was stuck, 1 to 27 otherwise, and at the end the controller's baseline: not bus master, no
request, no latch, no byte ready, the line engine idle (44_recovery_and_diagnostics.md R125, R126, R129, R130). -/
def Obligations.RecoverOutcomes : Prop :=
  ∀ (a : Addr7) (s : State), s.polled → s.initialised = true →
    ∃ t, exec (.recover a) s = .next t ∧ t.x.result = 0 ∧
      ((t.log = s.log ∧ t.x = { s.x with result := 0 } ∧ t.le.pulses = s.le.pulses) ∨
        (t.log = s.log ++ [.recDone] ∧ t.x = { s.x with started := false, phase := .idle, result := 0 } ∧
          (s.flag .enable = true → s.le.pulses < t.le.pulses)) ∨
        (t.log = s.log ++ [.recStartFailed] ∧ t.x = { s.x with result := 0 } ∧
          (s.flag .enable = true → s.le.pulses < t.le.pulses)) ∨
        (t.log = s.log ++ [.recSdaStuck] ∧ t.x = { s.x with result := 0 } ∧
          (s.flag .enable = true → t.le.pulses = s.le.pulses + 27))) ∧
      (∀ x, t.buf.read x = s.buf.read x) ∧ t.cp = s.cp ∧ t.program = s.program ∧ t.cfg = s.cfg ∧
      s.le.pulses ≤ t.le.pulses ∧ t.le.pulses ≤ s.le.pulses + 27 ∧
      t.reg.divider = s.reg.divider ∧ t.reg.ctl3 = s.reg.ctl3 ∧ t.reg.b0ectl = s.reg.b0ectl ∧
      (s.flag .enable = true → AtBaseline t)

/-- RECOVER by the levels of the lines, from an enabled module that is not bus master; `r` is the byte `rec_byte(a)`. In an idle
environment: both high, no pulse and no event; SDA never rising, 27 pulses, `LOG_REC_SDA_STUCK` and no START; SCL low and SDA
high, exactly one pulse, then `r` written to `DATA`, a START request that no START answers, and `LOG_REC_START_FAILED`. In the
reference environment (46_line_engine.md R157, as log entry 16 reads it) with SDA low until its `k`-th pulse from here, SCL high,
no request, byte or latch pending: `k` pulses, `r` written to `DATA` and sent as the address byte of the forced START, a STOP,
and `LOG_REC_DONE` (44_recovery_and_diagnostics.md R126, R127, R128, R129). -/
def Obligations.RecoverByLineLevels : Prop :=
  ∀ (a : Addr7) (s : State) (r : Byte), s.initialised = true → s.flag .master = false → s.flag .enable = true →
    r = (s.cfg.recByte.lookup a).getD (a.setWidth 8) →
    (s.quiet → ∃ t, exec (.recover a) s = .next t ∧ t.x = { s.x with result := 0 } ∧
      (s.scl = .high → s.sda = .high → t.wire = s.wire ∧ t.log = s.log ∧ t.reg.data = s.reg.data ∧
        t.acc.length = s.acc.length + 12) ∧
      (s.sda = .low → t.wire = s.wire ++ List.replicate 27 WireEvent.pulse ∧ t.log = s.log ++ [.recSdaStuck] ∧
        t.reg.data = s.reg.data ∧ t.acc.length = s.acc.length + 66) ∧
      (s.scl = .low → s.sda = .high → t.wire = s.wire ++ [.pulse] ∧ t.log = s.log ++ [.recStartFailed] ∧ t.reg.data = r ∧
        ∃ resets : List Access, t.acc = s.acc ++ [Access.rd .brc 0x40, .wr .brc 0x20, .rd .brc 0x40, .wr .data r,
            .rd .ctl1 (s.reg.ctl1 &&& 0x97), .wr .ctl1 ((s.reg.ctl1 &&& 0x97) ||| 0x01)] ++
          List.replicate (if s.flag .ber = true then min 1 s.cfg.tRecStart else s.cfg.tRecStart)
            (Access.rd .st (s.reg.st &&& 0x3A)) ++ resets ∧ resets.length = 11)) ∧
    (∀ (e : EnvRef) (k : Nat), s.reference e → s.polled → e.stuck = some (some (s.le.pulses + k), false) → 1 ≤ k → k ≤ 27 →
      0 < s.cfg.tRecStart → s.reg.ctl1 = 0 → s.le.txb = [] → s.flag .stastr = false → s.flag .ber = false →
      ∃ (t : State) (rest : List WireEvent) (pre post : List Access), exec (.recover a) s = .next t ∧ t.x = { s.x with started := false, phase := .idle, result := 0 } ∧
        t.log = s.log ++ [.recDone] ∧ t.le.pulses = s.le.pulses + k ∧ t.acc = pre ++ [.wr .data r] ++ post ∧
        t.wire = s.wire ++ List.replicate k WireEvent.pulse ++
          [WireEvent.start, .addr r (if r.extractLsb' 1 7 ∈ e.targets then Ack.ack else .nack)] ++ rest ++ [.stop] ∧
        (r.getLsbD 0 = false → rest = []))

/-- CTRL_RESET on an enabled module. In an idle environment, exactly: eleven accesses; the divider, `CTL3`, the hold time and
the sequencer registers survive, everything else is cleared and the line engine is idle. In every environment: `OK`, the
configured speed and the sequencer registers survive, and the controller is at its baseline, not bus master, with no
request, no latch and no byte pending (44_recovery_and_diagnostics.md R130, R131). -/
def Obligations.ControllerReset : Prop :=
  (∀ s : State, s.quiet → s.initialised = true → s.flag .enable = true → s.reg.reservedZero = true →
    exec .ctrlReset s = .next { s with
      x := { s.x with result := 0 }
      reg := { s.reg with st := 0, cst := 0, ctl1 := 0, b0est := 0, b0fifctl := 0 }
      le := { txb := [], addrPhase := false, dir := .none, owed := .none, last := false, pulses := s.le.pulses }
      acc := s.acc ++ [.rd .ctl2 s.reg.ctl2, .wr .ctl2 (s.reg.ctl2 &&& 0xFE), .rd .ctl2 (s.reg.ctl2 &&& 0xFE),
        .wr .ctl2 s.reg.ctl2, .wr .cst 0x02, .wr .st 0xFF, .wr .b1fifcts 0x40, .wr .b0est 0x80,
        .rd .b0fifctl s.reg.b0fifctl, .wr .b0fifctl 0, .wr .ctl1 0] }) ∧
  (∀ s : State, s.polled → s.initialised = true → s.flag .enable = true →
    ∃ t, exec .ctrlReset s = .next t ∧ t.x = { s.x with result := 0 } ∧ HostFrame s t ∧
      t.reg.ctl2 = s.reg.ctl2 ∧ t.reg.ctl3 = s.reg.ctl3 ∧ t.reg.b0ectl = s.reg.b0ectl ∧ t.reg.ctl1 = 0 ∧
      t.flag .master = false ∧ t.flag .sdast = false ∧ t.flag .stastr = false ∧ t.flag .negack = false ∧
      t.flag .ber = false ∧ t.flag .fifoEn = false ∧
      t.le.txb = [] ∧ t.le.addrPhase = false ∧ t.le.dir = .none ∧ t.le.owed = .none ∧ t.le.last = false)

/-- DUMP in every environment: ten reads in ascending register id, one `LOG_DUMP` event with exactly the values read, in the
host's layout, nothing else changed by the sequencer; in an idle environment no register and no hidden state changes
(44_recovery_and_diagnostics.md R132). -/
def Obligations.DumpReadsTen : Prop :=
  ∀ s : State, s.polled → ∃ (t : State) (vals : List (RegId × Byte)), exec .dump s = .next t ∧ t.x = { s.x with result := 0 } ∧
    vals.map Prod.fst = [.st, .cst, .ctl1, .ctl2, .ctl3, .b0ectl, .b0est, .b0fifctl, .b1fifcts, .brc] ∧
    t.log = s.log ++ [.dump (vals.map (fun p => (p.1, hostByte s.cfg.layout p.1 p.2)))] ∧
    t.acc = s.acc ++ vals.map (fun p => .rd p.1 p.2) ∧
    (∀ a, t.buf.read a = s.buf.read a) ∧ t.cp = s.cp ∧ t.program = s.program ∧ t.cfg = s.cfg ∧
    t.initialised = s.initialised ∧ ConfigFrame s t ∧
    (s.quiet → t.reg = s.reg ∧ t.le = s.le ∧ t.wire = s.wire ∧ t.scl = s.scl ∧ t.sda = s.sda)

/-! ## The line engine -/

/-- Hold: while the stall latch is set no event that moves the bus fires; the bus error, the line and the foreign-master
events are not blocked by it. The line event fires exactly when the engine is not bus master and sets the two levels; the
foreign-master event exactly when, besides, the module is enabled, and it sets the two busy bits; nothing else changes
(46_line_engine.md R137, R150, R152). That these two events go on firing with `FIFO_EN` or `INTEN` set, as the last clause says, is
the model's reading of R138 beside 40_register_access.md R86 and 93_implementation_defined.md U9 (log entry 11). -/
def Obligations.HoldBlocksBus : Prop :=
  (∀ (ev : LeEvent) (s : State), s.flag .stastr = true → (∀ m, ev ≠ .ber m) → (∀ c d, ev ≠ .lines c d) →
    (∀ b eo, ev ≠ .foreign b eo) → fire ev s = .ok s) ∧
  (∀ (m : Bool) (s : State), s.polled → s.flag .enable = true → (s.flag .start = true ∨ s.flag .master = true) →
      ∃ t, fire (.ber m) s = .ok t ∧ t.flag .ber = true) ∧
  ∀ (c eo : Bool) (scl sda : Level) (s : State),
    fire (.lines scl sda) s = .ok (if s.flag .master = false then { s with scl := scl, sda := sda } else s) ∧
    fire (.foreign c eo) s = .ok (if s.flag .enable = true ∧ s.flag .master = false then { s with
        reg := { s.reg with cst := if c = true then s.reg.cst ||| 0x02 else s.reg.cst &&& 0xFD,
                            b0est := if eo = true then s.reg.b0est ||| 0x80 else s.reg.b0est &&& 0x7F } }
      else s)

/-- START and STOP generation, guards and effects, and the bus error, which needs an enabled module with a START pending or bus
mastership, idles the line engine and leaves `SDAST`, `STOP`, `ACK` and `BB` alone (46_line_engine.md R139, R141, R149). -/
def Obligations.ConditionEvents : Prop :=
  (∀ s : State, s.polled → s.flag .enable = true → s.flag .start = true → s.flag .stop = false → s.flag .stastr = false →
    (s.le.txb = [] ∨ ∃ b rest, s.le.txb = (b, .addr) :: rest) →
    (s.flag .master = true ∨ (s.scl = .high ∧ s.sda = .high)) →
    fire .startDone s = .ok { s with
      reg := { s.reg with ctl1 := s.reg.ctl1 &&& 0xFE, st := s.reg.st ||| 0x02, cst := s.reg.cst ||| 0x02 }
      le := { s.le with addrPhase := true, dir := .none, owed := .none, last := false }
      wire := s.wire ++ [if s.flag .master = true then .restart else .start] }) ∧
  (∀ s : State, s.flag .enable = false ∨ s.flag .start = false ∨ s.flag .stop = true ∨ s.flag .stastr = true ∨
      (∃ b rest, s.le.txb = (b, .data) :: rest) ∨ (s.flag .master = false ∧ (s.scl = .low ∨ s.sda = .low)) →
    fire .startDone s = .ok s) ∧
  (∀ (s : State) (eo : Bool), s.polled → s.flag .enable = true → s.flag .stop = true → s.flag .stastr = false →
    (s.flag .master = false ∨ s.le.txb = [] ∨ (s.flag .start = true ∧ ∃ b rest, s.le.txb = (b, .addr) :: rest)) →
    fire (.stopDone eo) s = .ok (
      if s.flag .master = true then { s with
        reg := { s.reg with ctl1 := s.reg.ctl1 &&& 0xFD, st := s.reg.st &&& 0xFD, cst := s.reg.cst &&& 0xFD,
                            b0est := if eo = true then s.reg.b0est ||| 0x80 else s.reg.b0est &&& 0x7F }
        le := { txb := [], addrPhase := false, dir := .none, owed := .none, last := false, pulses := s.le.pulses }
        wire := s.wire ++ [.stop] }
      else { s with reg := { s.reg with ctl1 := s.reg.ctl1 &&& 0xFD } })) ∧
  (∀ (s : State) (eo : Bool), s.flag .enable = false ∨ s.flag .stop = false ∨ s.flag .stastr = true ∨
      (s.flag .master = true ∧ s.le.txb ≠ [] ∧ (s.flag .start = false ∨ ∃ b rest, s.le.txb = (b, .data) :: rest)) →
    fire (.stopDone eo) s = .ok s) ∧
  (∀ (s : State) (m : Bool), s.polled →
    fire (.ber m) s = .ok (
      if s.flag .enable = true ∧ (s.flag .start = true ∨ s.flag .master = true) then { s with
        reg := { s.reg with ctl1 := s.reg.ctl1 &&& 0xFE,
                            st := if m = true then s.reg.st ||| 0x22 else (s.reg.st ||| 0x20) &&& 0xFD }
        le := { txb := [], addrPhase := false, dir := .none, owed := .none, last := false, pulses := s.le.pulses } }
      else s))

/-- The byte events: the two answers to an address byte; a data byte asked for, sent and acknowledged, sent and refused,
received and answered as `CTL1.ACK` says at that moment. None of them fires when any part of its guard is false: the module
disabled, not bus master, held, the wrong phase or direction, nothing to send or a byte of the other kind, nothing owed, a byte
not yet read, or a START or STOP pending (46_line_engine.md R142 to R147). -/
def Obligations.ByteEvents : Prop :=
  (∀ (s : State) (b : Byte) (rest : List (Byte × TxKind)), s.polled → s.flag .enable = true → s.flag .master = true →
    s.le.addrPhase = true → s.flag .start = false → s.flag .stastr = false → s.le.txb = (b, .addr) :: rest →
    fire .addrAck s = .ok { s with
      reg := { s.reg with st := if s.flag .stastre = true then s.reg.st ||| 0x08 else s.reg.st }
      le := { s.le with txb := rest, addrPhase := false, dir := if b.getLsbD 0 = true then .rx else .tx,
                        owed := if b.getLsbD 0 = true then .rxByte else .txReady }
      wire := s.wire ++ [.addr b .ack] } ∧
    fire .addrNack s = .ok { s with
      reg := { s.reg with st := s.reg.st ||| 0x10 }
      le := { s.le with txb := rest, addrPhase := false, dir := .none, owed := .none }
      wire := s.wire ++ [.addr b .nack] }) ∧
  (∀ s : State, s.polled → s.flag .enable = true → s.flag .master = true → s.flag .stastr = false → s.le.owed = .txReady →
    s.le.txb = [] → s.flag .start = false → s.flag .stop = false →
    fire .txReady s = .ok { s with reg := { s.reg with st := s.reg.st ||| 0x40 }, le := { s.le with owed := .none } }) ∧
  (∀ (s : State) (d : Byte) (rest : List (Byte × TxKind)), s.polled → s.flag .enable = true → s.flag .master = true →
    s.flag .stastr = false → s.le.addrPhase = false → s.le.dir = .tx → s.le.txb = (d, .data) :: rest →
    fire .txAck s = .ok { s with
      le := { s.le with txb := rest, owed := .txReady }, wire := s.wire ++ [.tx d .ack] } ∧
    fire .txNack s = .ok { s with
      reg := { s.reg with st := s.reg.st ||| 0x10 }
      le := { s.le with txb := rest, owed := .none }, wire := s.wire ++ [.tx d .nack] }) ∧
  (∀ (s : State) (b : Byte), s.polled → s.flag .enable = true → s.flag .master = true → s.flag .stastr = false →
    s.le.owed = .rxByte → s.flag .sdast = false → s.flag .start = false → s.flag .stop = false →
    fire (.rxByte b) s = .ok (
      if s.flag .ack = true then { s with
        reg := { s.reg with data := b, st := s.reg.st ||| 0x40, ctl1 := s.reg.ctl1 &&& 0xEF }
        le := { s.le with owed := .none, last := true }, wire := s.wire ++ [.rx b .nack] }
      else { s with
        reg := { s.reg with data := b, st := s.reg.st ||| 0x40 }
        le := { s.le with owed := .none }, wire := s.wire ++ [.rx b .ack] })) ∧
  (∀ (e : LeEvent) (s : State), e = .addrAck ∨ e = .addrNack →
    (s.flag .enable = false ∨ s.flag .master = false ∨ s.le.addrPhase = false ∨ s.flag .start = true ∨ s.flag .stastr = true ∨
      s.le.txb = [] ∨ ∃ b rest, s.le.txb = (b, .data) :: rest) →
    fire e s = .ok s) ∧
  (∀ s : State,
    (s.flag .enable = false ∨ s.flag .master = false ∨ s.flag .stastr = true ∨ s.le.owed ≠ .txReady ∨ s.le.txb ≠ [] ∨
      s.flag .start = true ∨ s.flag .stop = true) →
    fire .txReady s = .ok s) ∧
  (∀ (e : LeEvent) (s : State), e = .txAck ∨ e = .txNack →
    (s.flag .enable = false ∨ s.flag .master = false ∨ s.flag .stastr = true ∨ s.le.addrPhase = true ∨ s.le.dir ≠ .tx ∨
      s.le.txb = [] ∨ ∃ b rest, s.le.txb = (b, .addr) :: rest) →
    fire e s = .ok s) ∧
  (∀ (b : Byte) (s : State),
    (s.flag .enable = false ∨ s.flag .master = false ∨ s.flag .stastr = true ∨ s.le.owed ≠ .rxByte ∨ s.flag .sdast = true ∨
      s.flag .start = true ∨ s.flag .stop = true) →
    fire (.rxByte b) s = .ok s)

/-- A START request is never dropped by the line engine other than by a generated START or a bus error: however many events
fire, if the request is gone one of those two has been among them (46_line_engine.md R140). -/
def Obligations.StartNeverDropped : Prop :=
  ∀ (evs : List LeEvent) (s t : State), fireAll evs s = .ok t → s.flag .start = true → t.flag .start = false →
    LeEvent.startDone ∈ evs ∨ ∃ m, LeEvent.ber m ∈ evs

/-- At most one bus event is enabled at a time, apart from the environment's choice between acknowledge and refusal
(46_line_engine.md R155), in every state of the invariant. -/
def Obligations.OneBusEventAtATime : Prop :=
  ∀ (s : State) (e f : LeEvent), s.Inv → e.isBusEvent = true → f.isBusEvent = true → (∀ m, e ≠ .ber m) → (∀ m, f ≠ .ber m) →
    e.guard s = true → f.guard s = true →
    (e = f ∨ (e = .addrAck ∧ f = .addrNack) ∨ (e = .addrNack ∧ f = .addrAck) ∨ (e = .txAck ∧ f = .txNack) ∨
      (e = .txNack ∧ f = .txAck) ∨ (∃ b c, e = .rxByte b ∧ f = .rxByte c) ∨ (∃ b c, e = .stopDone b ∧ f = .stopDone c))

/-- What the line engine never does, at any interleaving point of any environment: it never sets `START`, `STOP`, `ACK`,
`STASTRE` or `INTEN`; it never writes `CTL2`, `CTL3`, `B0_ECTL`, `B0_FIFCTL`; it never clears `STASTR`, `NEGACK`, `BER`; it
never touches a sequencer register, `BUF` or `LOG`; it only appends to `wire` (46_line_engine.md R156). -/
def Obligations.LineEngineNever : Prop :=
  ∀ s t : State, lePoint s = .ok t →
    (∀ f ∈ [Flag.start, .stop, .ack, .stastre, .inten], s.flag f = false → t.flag f = false) ∧
    t.reg.ctl2 = s.reg.ctl2 ∧ t.reg.ctl3 = s.reg.ctl3 ∧ t.reg.b0ectl = s.reg.b0ectl ∧ t.reg.b0fifctl = s.reg.b0fifctl ∧
    (∀ f ∈ [Flag.stastr, .negack, .ber], s.flag f = true → t.flag f = true) ∧
    t.x = s.x ∧ HostFrame s t ∧ t.acc = s.acc ∧ s.wire <+: t.wire

/-- In FIFO or interrupt mode a bus event that would fire ends the run as refused (46_line_engine.md R138,
40_register_access.md R86, 93_implementation_defined.md U9). That nothing else does, the line and foreign-master events going on
in these modes, is the model's reading (log entry 11). -/
def Obligations.FifoAndInterruptModesRefused : Prop :=
  ∀ (e : LeEvent) (s : State),
    (s.flag .fifoEn = true ∨ s.flag .inten = true → e.isBusEvent = true → e.guard s = true →
      fire e s = .error .fifoOrInterruptMode) ∧
    (∀ r, fire e s = .error r → r = .fifoOrInterruptMode ∧ e.isBusEvent = true ∧ e.guard s = true ∧
      (s.flag .fifoEn = true ∨ s.flag .inten = true))

/-! ## The whole machine -/

/-- Power-on, for every parameter record and every draw: the values 70_reset_and_hazards.md R186 fixes; what it calls
unspecified is the draw, whichever it is. -/
def Obligations.PowerOnValues : Prop :=
  ∀ (c : Config) (d : PowerOnDraws) (s : State), s = State.powerOn c d →
    s.x = { started := false, phase := .idle, result := 0, rdata := 0, modidx := 0, inputClk := 0, targetHz := 0 } ∧
    s.cp = 0 ∧ s.flag .enable = false ∧ s.reg.ctl1 = 0 ∧ s.flag .master = false ∧ s.flag .sdast = false ∧
    s.le = { txb := [], addrPhase := false, dir := .none, owed := .none, last := false, pulses := 0 } ∧
    s.log = [] ∧ s.wire = [] ∧ s.reg.reservedZero = true ∧
    readValue s .b1fifcts = 0 ∧ (readValue s .brc).getLsbD 5 = false ∧
    ((readValue s .brc).getLsbD 7 = true ↔ s.scl = .high) ∧ ((readValue s .brc).getLsbD 6 = true ↔ s.sda = .high) ∧
    s.flag .stastr = d.stastr ∧ s.flag .negack = d.negack ∧ s.flag .ber = d.ber ∧ s.flag .bb = d.bb ∧
    s.flag .eoBusy = d.eoBusy ∧ s.flag .fifoEn = d.fifoEn ∧ s.reg.ctl2.extractLsb' 1 7 = d.sclfrqLo ∧ s.reg.ctl3 = d.ctl3 ∧
    s.reg.b0ectl.extractLsb' 0 6 = d.hldt ∧ s.reg.data = d.data ∧ s.scl = d.scl ∧ s.sda = d.sda

/-- The invariant holds after power-on, whatever the parameters and whatever the unspecified bits are drawn as
(70_reset_and_hazards.md R186), and so at `State.reset`, which is one such state (log entries 4 and 5); a memory with nothing
listed is in canonical form whatever an unlisted byte reads as (log entry 12). -/
def Obligations.ResetInv : Prop := (∀ (c : Config) (d : PowerOnDraws), (State.powerOn c d).Inv) ∧ State.reset.Inv

/-- Every step keeps the invariant: `x[STARTED]` is 1 exactly in the phases `STARTED`, `ADDRESSED` and `DATA` (10_state.md
R15), no command ends in `STOPPED`, `x[RESULT]` holds a code that exists (60_exceptions.md R161), reserved bits stay 0
(10_state.md R42), the line engine's hidden state hangs together with the registers, and `BUF` keeps its canonical form. -/
def Obligations.StepKeepsInv : Prop := ∀ s t : State, s.Inv → step s = .next t → t.Inv

/-- `LOG`, `wire` and the access record only grow; the parameters and the command stream never change
(10_state.md R13, R19, R45). -/
def Obligations.StepOnlyAppends : Prop :=
  ∀ s t : State, step s = .next t → Extends s t ∧ t.cfg = s.cfg ∧ t.program = s.program

/-- `BUF` is written by READ and by the read messages of EXCHANGE alone (20_memory.md R47, R48). -/
def Obligations.BufWrittenByReadsOnly : Prop :=
  ∀ (i : Instr) (s t : State), exec i s = .next t → (∀ a l b, i ≠ .read a l b) →
    (∀ ms, i = .exchange ms → ∀ m ∈ ms, m.dir = .write) → ∀ x, t.buf.read x = s.buf.read x

/-- `x[STARTED]` is set only by commands that issue a START, and cleared only by INIT and by commands that issue a STOP; the
controller reset does not write it (10_state.md R18). -/
def Obligations.StartedWrittenBy : Prop :=
  ∀ (i : Instr) (s t : State), exec i s = .next t →
    (s.x.started = false → t.x.started = true →
      (∃ n, i = .sendStart n) ∨ (∃ a l b, i = .read a l b) ∨ (∃ a l b, i = .write a l b)) ∧
    (s.x.started = true → t.x.started = false →
      (∃ m, i = .init m) ∨ (∃ n, i = .sendStop n) ∨ (∃ f, i = .recvLast f) ∨ (∃ a l b, i = .read a l b) ∨
        (∃ ms, i = .exchange ms) ∨ (∃ a, i = .recover a)) ∧
    (i = .ctrlReset → t.x.started = s.x.started ∧ t.x.phase = s.x.phase)

/-- The configured speed changes only by INIT, SET_SPEED and register writes of the host; once enabled the module stays
enabled, and a polled engine stays polled, except by register writes of the host (60_exceptions.md R178, R184,
44_recovery_and_diagnostics.md R131). -/
def Obligations.ConfigurationSurvives : Prop :=
  ∀ (i : Instr) (s t : State), exec i s = .next t → (∀ r d, i ≠ .regWrite r d ∧ i ≠ .regSet r d ∧ i ≠ .regClr r d) →
    (s.flag .enable = true → t.flag .enable = true) ∧ (s.polled → t.polled) ∧
    ((∀ m, i ≠ .init m) → (∀ f, i ≠ .setSpeed f) →
      t.reg.divider = s.reg.divider ∧ t.reg.ctl3 = s.reg.ctl3 ∧ t.reg.b0ectl = s.reg.b0ectl ∧
      t.x.modidx = s.x.modidx ∧ t.x.inputClk = s.x.inputClk ∧ t.x.targetHz = s.x.targetHz)
end

