-- ==== Sys2Proof/Laws/State.lean ====
section
/-! SUPPORT. One lemma per field per update of `State`, each true by `rfl`. -/

namespace Sys2Proof.Machine

section withX
variable (s : State) (v : SeqRegs)
@[simp] theorem State.withX_x : (s.withX v).x = v := rfl
@[simp] theorem State.withX_reg : (s.withX v).reg = s.reg := rfl
@[simp] theorem State.withX_le : (s.withX v).le = s.le := rfl
@[simp] theorem State.withX_scl : (s.withX v).scl = s.scl := rfl
@[simp] theorem State.withX_sda : (s.withX v).sda = s.sda := rfl
@[simp] theorem State.withX_buf : (s.withX v).buf = s.buf := rfl
@[simp] theorem State.withX_log : (s.withX v).log = s.log := rfl
@[simp] theorem State.withX_wire : (s.withX v).wire = s.wire := rfl
@[simp] theorem State.withX_cp : (s.withX v).cp = s.cp := rfl
@[simp] theorem State.withX_program : (s.withX v).program = s.program := rfl
@[simp] theorem State.withX_initialised : (s.withX v).initialised = s.initialised := rfl
@[simp] theorem State.withX_pinmux : (s.withX v).pinmux = s.pinmux := rfl
@[simp] theorem State.withX_env : (s.withX v).env = s.env := rfl
@[simp] theorem State.withX_draws : (s.withX v).draws = s.draws := rfl
@[simp] theorem State.withX_acc : (s.withX v).acc = s.acc := rfl
@[simp] theorem State.withX_cfg : (s.withX v).cfg = s.cfg := rfl
end withX

section withReg
variable (s : State) (v : HwRegs)
@[simp] theorem State.withReg_x : (s.withReg v).x = s.x := rfl
@[simp] theorem State.withReg_reg : (s.withReg v).reg = v := rfl
@[simp] theorem State.withReg_le : (s.withReg v).le = s.le := rfl
@[simp] theorem State.withReg_scl : (s.withReg v).scl = s.scl := rfl
@[simp] theorem State.withReg_sda : (s.withReg v).sda = s.sda := rfl
@[simp] theorem State.withReg_buf : (s.withReg v).buf = s.buf := rfl
@[simp] theorem State.withReg_log : (s.withReg v).log = s.log := rfl
@[simp] theorem State.withReg_wire : (s.withReg v).wire = s.wire := rfl
@[simp] theorem State.withReg_cp : (s.withReg v).cp = s.cp := rfl
@[simp] theorem State.withReg_program : (s.withReg v).program = s.program := rfl
@[simp] theorem State.withReg_initialised : (s.withReg v).initialised = s.initialised := rfl
@[simp] theorem State.withReg_pinmux : (s.withReg v).pinmux = s.pinmux := rfl
@[simp] theorem State.withReg_env : (s.withReg v).env = s.env := rfl
@[simp] theorem State.withReg_draws : (s.withReg v).draws = s.draws := rfl
@[simp] theorem State.withReg_acc : (s.withReg v).acc = s.acc := rfl
@[simp] theorem State.withReg_cfg : (s.withReg v).cfg = s.cfg := rfl
end withReg

section withLe
variable (s : State) (v : LeState)
@[simp] theorem State.withLe_x : (s.withLe v).x = s.x := rfl
@[simp] theorem State.withLe_reg : (s.withLe v).reg = s.reg := rfl
@[simp] theorem State.withLe_le : (s.withLe v).le = v := rfl
@[simp] theorem State.withLe_scl : (s.withLe v).scl = s.scl := rfl
@[simp] theorem State.withLe_sda : (s.withLe v).sda = s.sda := rfl
@[simp] theorem State.withLe_buf : (s.withLe v).buf = s.buf := rfl
@[simp] theorem State.withLe_log : (s.withLe v).log = s.log := rfl
@[simp] theorem State.withLe_wire : (s.withLe v).wire = s.wire := rfl
@[simp] theorem State.withLe_cp : (s.withLe v).cp = s.cp := rfl
@[simp] theorem State.withLe_program : (s.withLe v).program = s.program := rfl
@[simp] theorem State.withLe_initialised : (s.withLe v).initialised = s.initialised := rfl
@[simp] theorem State.withLe_pinmux : (s.withLe v).pinmux = s.pinmux := rfl
@[simp] theorem State.withLe_env : (s.withLe v).env = s.env := rfl
@[simp] theorem State.withLe_draws : (s.withLe v).draws = s.draws := rfl
@[simp] theorem State.withLe_acc : (s.withLe v).acc = s.acc := rfl
@[simp] theorem State.withLe_cfg : (s.withLe v).cfg = s.cfg := rfl
end withLe

section withLines
variable (s : State) (c d : Level)
@[simp] theorem State.withLines_x : (s.withLines c d).x = s.x := rfl
@[simp] theorem State.withLines_reg : (s.withLines c d).reg = s.reg := rfl
@[simp] theorem State.withLines_le : (s.withLines c d).le = s.le := rfl
@[simp] theorem State.withLines_scl : (s.withLines c d).scl = c := rfl
@[simp] theorem State.withLines_sda : (s.withLines c d).sda = d := rfl
@[simp] theorem State.withLines_buf : (s.withLines c d).buf = s.buf := rfl
@[simp] theorem State.withLines_log : (s.withLines c d).log = s.log := rfl
@[simp] theorem State.withLines_wire : (s.withLines c d).wire = s.wire := rfl
@[simp] theorem State.withLines_cp : (s.withLines c d).cp = s.cp := rfl
@[simp] theorem State.withLines_program : (s.withLines c d).program = s.program := rfl
@[simp] theorem State.withLines_initialised : (s.withLines c d).initialised = s.initialised := rfl
@[simp] theorem State.withLines_pinmux : (s.withLines c d).pinmux = s.pinmux := rfl
@[simp] theorem State.withLines_env : (s.withLines c d).env = s.env := rfl
@[simp] theorem State.withLines_draws : (s.withLines c d).draws = s.draws := rfl
@[simp] theorem State.withLines_acc : (s.withLines c d).acc = s.acc := rfl
@[simp] theorem State.withLines_cfg : (s.withLines c d).cfg = s.cfg := rfl
end withLines

section withBuf
variable (s : State) (v : Memory)
@[simp] theorem State.withBuf_x : (s.withBuf v).x = s.x := rfl
@[simp] theorem State.withBuf_reg : (s.withBuf v).reg = s.reg := rfl
@[simp] theorem State.withBuf_le : (s.withBuf v).le = s.le := rfl
@[simp] theorem State.withBuf_scl : (s.withBuf v).scl = s.scl := rfl
@[simp] theorem State.withBuf_sda : (s.withBuf v).sda = s.sda := rfl
@[simp] theorem State.withBuf_buf : (s.withBuf v).buf = v := rfl
@[simp] theorem State.withBuf_log : (s.withBuf v).log = s.log := rfl
@[simp] theorem State.withBuf_wire : (s.withBuf v).wire = s.wire := rfl
@[simp] theorem State.withBuf_cp : (s.withBuf v).cp = s.cp := rfl
@[simp] theorem State.withBuf_program : (s.withBuf v).program = s.program := rfl
@[simp] theorem State.withBuf_initialised : (s.withBuf v).initialised = s.initialised := rfl
@[simp] theorem State.withBuf_pinmux : (s.withBuf v).pinmux = s.pinmux := rfl
@[simp] theorem State.withBuf_env : (s.withBuf v).env = s.env := rfl
@[simp] theorem State.withBuf_draws : (s.withBuf v).draws = s.draws := rfl
@[simp] theorem State.withBuf_acc : (s.withBuf v).acc = s.acc := rfl
@[simp] theorem State.withBuf_cfg : (s.withBuf v).cfg = s.cfg := rfl
end withBuf

section pushLog
variable (s : State) (v : LogEvent)
@[simp] theorem State.pushLog_x : (s.pushLog v).x = s.x := rfl
@[simp] theorem State.pushLog_reg : (s.pushLog v).reg = s.reg := rfl
@[simp] theorem State.pushLog_le : (s.pushLog v).le = s.le := rfl
@[simp] theorem State.pushLog_scl : (s.pushLog v).scl = s.scl := rfl
@[simp] theorem State.pushLog_sda : (s.pushLog v).sda = s.sda := rfl
@[simp] theorem State.pushLog_buf : (s.pushLog v).buf = s.buf := rfl
@[simp] theorem State.pushLog_log : (s.pushLog v).log = s.log ++ [v] := rfl
@[simp] theorem State.pushLog_wire : (s.pushLog v).wire = s.wire := rfl
@[simp] theorem State.pushLog_cp : (s.pushLog v).cp = s.cp := rfl
@[simp] theorem State.pushLog_program : (s.pushLog v).program = s.program := rfl
@[simp] theorem State.pushLog_initialised : (s.pushLog v).initialised = s.initialised := rfl
@[simp] theorem State.pushLog_pinmux : (s.pushLog v).pinmux = s.pinmux := rfl
@[simp] theorem State.pushLog_env : (s.pushLog v).env = s.env := rfl
@[simp] theorem State.pushLog_draws : (s.pushLog v).draws = s.draws := rfl
@[simp] theorem State.pushLog_acc : (s.pushLog v).acc = s.acc := rfl
@[simp] theorem State.pushLog_cfg : (s.pushLog v).cfg = s.cfg := rfl
end pushLog

section pushWire
variable (s : State) (v : WireEvent)
@[simp] theorem State.pushWire_x : (s.pushWire v).x = s.x := rfl
@[simp] theorem State.pushWire_reg : (s.pushWire v).reg = s.reg := rfl
@[simp] theorem State.pushWire_le : (s.pushWire v).le = s.le := rfl
@[simp] theorem State.pushWire_scl : (s.pushWire v).scl = s.scl := rfl
@[simp] theorem State.pushWire_sda : (s.pushWire v).sda = s.sda := rfl
@[simp] theorem State.pushWire_buf : (s.pushWire v).buf = s.buf := rfl
@[simp] theorem State.pushWire_log : (s.pushWire v).log = s.log := rfl
@[simp] theorem State.pushWire_wire : (s.pushWire v).wire = s.wire ++ [v] := rfl
@[simp] theorem State.pushWire_cp : (s.pushWire v).cp = s.cp := rfl
@[simp] theorem State.pushWire_program : (s.pushWire v).program = s.program := rfl
@[simp] theorem State.pushWire_initialised : (s.pushWire v).initialised = s.initialised := rfl
@[simp] theorem State.pushWire_pinmux : (s.pushWire v).pinmux = s.pinmux := rfl
@[simp] theorem State.pushWire_env : (s.pushWire v).env = s.env := rfl
@[simp] theorem State.pushWire_draws : (s.pushWire v).draws = s.draws := rfl
@[simp] theorem State.pushWire_acc : (s.pushWire v).acc = s.acc := rfl
@[simp] theorem State.pushWire_cfg : (s.pushWire v).cfg = s.cfg := rfl
end pushWire

section pushAcc
variable (s : State) (v : Access)
@[simp] theorem State.pushAcc_x : (s.pushAcc v).x = s.x := rfl
@[simp] theorem State.pushAcc_reg : (s.pushAcc v).reg = s.reg := rfl
@[simp] theorem State.pushAcc_le : (s.pushAcc v).le = s.le := rfl
@[simp] theorem State.pushAcc_scl : (s.pushAcc v).scl = s.scl := rfl
@[simp] theorem State.pushAcc_sda : (s.pushAcc v).sda = s.sda := rfl
@[simp] theorem State.pushAcc_buf : (s.pushAcc v).buf = s.buf := rfl
@[simp] theorem State.pushAcc_log : (s.pushAcc v).log = s.log := rfl
@[simp] theorem State.pushAcc_wire : (s.pushAcc v).wire = s.wire := rfl
@[simp] theorem State.pushAcc_cp : (s.pushAcc v).cp = s.cp := rfl
@[simp] theorem State.pushAcc_program : (s.pushAcc v).program = s.program := rfl
@[simp] theorem State.pushAcc_initialised : (s.pushAcc v).initialised = s.initialised := rfl
@[simp] theorem State.pushAcc_pinmux : (s.pushAcc v).pinmux = s.pinmux := rfl
@[simp] theorem State.pushAcc_env : (s.pushAcc v).env = s.env := rfl
@[simp] theorem State.pushAcc_draws : (s.pushAcc v).draws = s.draws := rfl
@[simp] theorem State.pushAcc_acc : (s.pushAcc v).acc = s.acc ++ [v] := rfl
@[simp] theorem State.pushAcc_cfg : (s.pushAcc v).cfg = s.cfg := rfl
end pushAcc

section withCp
variable (s : State) (v : Nat)
@[simp] theorem State.withCp_x : (s.withCp v).x = s.x := rfl
@[simp] theorem State.withCp_reg : (s.withCp v).reg = s.reg := rfl
@[simp] theorem State.withCp_le : (s.withCp v).le = s.le := rfl
@[simp] theorem State.withCp_scl : (s.withCp v).scl = s.scl := rfl
@[simp] theorem State.withCp_sda : (s.withCp v).sda = s.sda := rfl
@[simp] theorem State.withCp_buf : (s.withCp v).buf = s.buf := rfl
@[simp] theorem State.withCp_log : (s.withCp v).log = s.log := rfl
@[simp] theorem State.withCp_wire : (s.withCp v).wire = s.wire := rfl
@[simp] theorem State.withCp_cp : (s.withCp v).cp = v := rfl
@[simp] theorem State.withCp_program : (s.withCp v).program = s.program := rfl
@[simp] theorem State.withCp_initialised : (s.withCp v).initialised = s.initialised := rfl
@[simp] theorem State.withCp_pinmux : (s.withCp v).pinmux = s.pinmux := rfl
@[simp] theorem State.withCp_env : (s.withCp v).env = s.env := rfl
@[simp] theorem State.withCp_draws : (s.withCp v).draws = s.draws := rfl
@[simp] theorem State.withCp_acc : (s.withCp v).acc = s.acc := rfl
@[simp] theorem State.withCp_cfg : (s.withCp v).cfg = s.cfg := rfl
end withCp

section withProgram
variable (s : State) (v : List Word)
@[simp] theorem State.withProgram_x : (s.withProgram v).x = s.x := rfl
@[simp] theorem State.withProgram_reg : (s.withProgram v).reg = s.reg := rfl
@[simp] theorem State.withProgram_le : (s.withProgram v).le = s.le := rfl
@[simp] theorem State.withProgram_scl : (s.withProgram v).scl = s.scl := rfl
@[simp] theorem State.withProgram_sda : (s.withProgram v).sda = s.sda := rfl
@[simp] theorem State.withProgram_buf : (s.withProgram v).buf = s.buf := rfl
@[simp] theorem State.withProgram_log : (s.withProgram v).log = s.log := rfl
@[simp] theorem State.withProgram_wire : (s.withProgram v).wire = s.wire := rfl
@[simp] theorem State.withProgram_cp : (s.withProgram v).cp = s.cp := rfl
@[simp] theorem State.withProgram_program : (s.withProgram v).program = v := rfl
@[simp] theorem State.withProgram_initialised : (s.withProgram v).initialised = s.initialised := rfl
@[simp] theorem State.withProgram_pinmux : (s.withProgram v).pinmux = s.pinmux := rfl
@[simp] theorem State.withProgram_env : (s.withProgram v).env = s.env := rfl
@[simp] theorem State.withProgram_draws : (s.withProgram v).draws = s.draws := rfl
@[simp] theorem State.withProgram_acc : (s.withProgram v).acc = s.acc := rfl
@[simp] theorem State.withProgram_cfg : (s.withProgram v).cfg = s.cfg := rfl
end withProgram

section withInitialised
variable (s : State) (v : Bool)
@[simp] theorem State.withInitialised_x : (s.withInitialised v).x = s.x := rfl
@[simp] theorem State.withInitialised_reg : (s.withInitialised v).reg = s.reg := rfl
@[simp] theorem State.withInitialised_le : (s.withInitialised v).le = s.le := rfl
@[simp] theorem State.withInitialised_scl : (s.withInitialised v).scl = s.scl := rfl
@[simp] theorem State.withInitialised_sda : (s.withInitialised v).sda = s.sda := rfl
@[simp] theorem State.withInitialised_buf : (s.withInitialised v).buf = s.buf := rfl
@[simp] theorem State.withInitialised_log : (s.withInitialised v).log = s.log := rfl
@[simp] theorem State.withInitialised_wire : (s.withInitialised v).wire = s.wire := rfl
@[simp] theorem State.withInitialised_cp : (s.withInitialised v).cp = s.cp := rfl
@[simp] theorem State.withInitialised_program : (s.withInitialised v).program = s.program := rfl
@[simp] theorem State.withInitialised_initialised : (s.withInitialised v).initialised = v := rfl
@[simp] theorem State.withInitialised_pinmux : (s.withInitialised v).pinmux = s.pinmux := rfl
@[simp] theorem State.withInitialised_env : (s.withInitialised v).env = s.env := rfl
@[simp] theorem State.withInitialised_draws : (s.withInitialised v).draws = s.draws := rfl
@[simp] theorem State.withInitialised_acc : (s.withInitialised v).acc = s.acc := rfl
@[simp] theorem State.withInitialised_cfg : (s.withInitialised v).cfg = s.cfg := rfl
end withInitialised

section pushPinmux
variable (s : State) (v : BitVec 8)
@[simp] theorem State.pushPinmux_x : (s.pushPinmux v).x = s.x := rfl
@[simp] theorem State.pushPinmux_reg : (s.pushPinmux v).reg = s.reg := rfl
@[simp] theorem State.pushPinmux_le : (s.pushPinmux v).le = s.le := rfl
@[simp] theorem State.pushPinmux_scl : (s.pushPinmux v).scl = s.scl := rfl
@[simp] theorem State.pushPinmux_sda : (s.pushPinmux v).sda = s.sda := rfl
@[simp] theorem State.pushPinmux_buf : (s.pushPinmux v).buf = s.buf := rfl
@[simp] theorem State.pushPinmux_log : (s.pushPinmux v).log = s.log := rfl
@[simp] theorem State.pushPinmux_wire : (s.pushPinmux v).wire = s.wire := rfl
@[simp] theorem State.pushPinmux_cp : (s.pushPinmux v).cp = s.cp := rfl
@[simp] theorem State.pushPinmux_program : (s.pushPinmux v).program = s.program := rfl
@[simp] theorem State.pushPinmux_initialised : (s.pushPinmux v).initialised = s.initialised := rfl
@[simp] theorem State.pushPinmux_pinmux : (s.pushPinmux v).pinmux = s.pinmux ++ [v] := rfl
@[simp] theorem State.pushPinmux_env : (s.pushPinmux v).env = s.env := rfl
@[simp] theorem State.pushPinmux_draws : (s.pushPinmux v).draws = s.draws := rfl
@[simp] theorem State.pushPinmux_acc : (s.pushPinmux v).acc = s.acc := rfl
@[simp] theorem State.pushPinmux_cfg : (s.pushPinmux v).cfg = s.cfg := rfl
end pushPinmux

section withEnv
variable (s : State) (v : Env)
@[simp] theorem State.withEnv_x : (s.withEnv v).x = s.x := rfl
@[simp] theorem State.withEnv_reg : (s.withEnv v).reg = s.reg := rfl
@[simp] theorem State.withEnv_le : (s.withEnv v).le = s.le := rfl
@[simp] theorem State.withEnv_scl : (s.withEnv v).scl = s.scl := rfl
@[simp] theorem State.withEnv_sda : (s.withEnv v).sda = s.sda := rfl
@[simp] theorem State.withEnv_buf : (s.withEnv v).buf = s.buf := rfl
@[simp] theorem State.withEnv_log : (s.withEnv v).log = s.log := rfl
@[simp] theorem State.withEnv_wire : (s.withEnv v).wire = s.wire := rfl
@[simp] theorem State.withEnv_cp : (s.withEnv v).cp = s.cp := rfl
@[simp] theorem State.withEnv_program : (s.withEnv v).program = s.program := rfl
@[simp] theorem State.withEnv_initialised : (s.withEnv v).initialised = s.initialised := rfl
@[simp] theorem State.withEnv_pinmux : (s.withEnv v).pinmux = s.pinmux := rfl
@[simp] theorem State.withEnv_env : (s.withEnv v).env = v := rfl
@[simp] theorem State.withEnv_draws : (s.withEnv v).draws = s.draws := rfl
@[simp] theorem State.withEnv_acc : (s.withEnv v).acc = s.acc := rfl
@[simp] theorem State.withEnv_cfg : (s.withEnv v).cfg = s.cfg := rfl
end withEnv

section withDraws
variable (s : State) (v : Nat)
@[simp] theorem State.withDraws_x : (s.withDraws v).x = s.x := rfl
@[simp] theorem State.withDraws_reg : (s.withDraws v).reg = s.reg := rfl
@[simp] theorem State.withDraws_le : (s.withDraws v).le = s.le := rfl
@[simp] theorem State.withDraws_scl : (s.withDraws v).scl = s.scl := rfl
@[simp] theorem State.withDraws_sda : (s.withDraws v).sda = s.sda := rfl
@[simp] theorem State.withDraws_buf : (s.withDraws v).buf = s.buf := rfl
@[simp] theorem State.withDraws_log : (s.withDraws v).log = s.log := rfl
@[simp] theorem State.withDraws_wire : (s.withDraws v).wire = s.wire := rfl
@[simp] theorem State.withDraws_cp : (s.withDraws v).cp = s.cp := rfl
@[simp] theorem State.withDraws_program : (s.withDraws v).program = s.program := rfl
@[simp] theorem State.withDraws_initialised : (s.withDraws v).initialised = s.initialised := rfl
@[simp] theorem State.withDraws_pinmux : (s.withDraws v).pinmux = s.pinmux := rfl
@[simp] theorem State.withDraws_env : (s.withDraws v).env = s.env := rfl
@[simp] theorem State.withDraws_draws : (s.withDraws v).draws = v := rfl
@[simp] theorem State.withDraws_acc : (s.withDraws v).acc = s.acc := rfl
@[simp] theorem State.withDraws_cfg : (s.withDraws v).cfg = s.cfg := rfl
end withDraws

end Sys2Proof.Machine
end

