-- ==== Sys2Proof/Laws/Flags.lean ====
section
/-! SUPPORT. Small lemmas of the register file and of the one-bit fields. -/

namespace Sys2Proof.Machine

/-- A register with storage. -/
def RegId.stored : RegId → Bool
  | .b1fifcts => false
  | .brc => false
  | _ => true

theorem HwRegs.get_set (h : HwRegs) (r q : RegId) (v : Byte) :
    (h.set r v).get q = if r = q ∧ r.stored = true then v else h.get q := by
  cases r <;> cases q <;> rfl

@[simp] theorem HwRegs.get_data (h : HwRegs) : h.get .data = h.data := rfl
@[simp] theorem HwRegs.get_st (h : HwRegs) : h.get .st = h.st := rfl
@[simp] theorem HwRegs.get_cst (h : HwRegs) : h.get .cst = h.cst := rfl
@[simp] theorem HwRegs.get_ctl1 (h : HwRegs) : h.get .ctl1 = h.ctl1 := rfl
@[simp] theorem HwRegs.get_ctl2 (h : HwRegs) : h.get .ctl2 = h.ctl2 := rfl
@[simp] theorem HwRegs.get_ctl3 (h : HwRegs) : h.get .ctl3 = h.ctl3 := rfl
@[simp] theorem HwRegs.get_b0ectl (h : HwRegs) : h.get .b0ectl = h.b0ectl := rfl
@[simp] theorem HwRegs.get_b0est (h : HwRegs) : h.get .b0est = h.b0est := rfl
@[simp] theorem HwRegs.get_b0fifctl (h : HwRegs) : h.get .b0fifctl = h.b0fifctl := rfl

/-- The byte with one bit replaced, bit by bit. -/
theorem getLsbD_putBit (v : Byte) (i j : Nat) (b : Bool) (hi : i < 8) :
    (putBit v i b).getLsbD j = if i = j then b else v.getLsbD j := by
  unfold putBit
  by_cases hj : j < 8
  · cases b <;> by_cases h : i = j <;> simp [h, hj]
    all_goals omega
  · have : i ≠ j := by omega
    cases b <;> simp [this, BitVec.getLsbD_of_ge _ _ (Nat.le_of_not_lt hj)]

theorem Flag.bit_lt (f : Flag) : f.bit < 8 := by cases f <;> decide

theorem Flag.reg_stored (f : Flag) : f.reg.stored = true := by cases f <;> rfl

/-- A field stands at one place: two fields with the same register and bit are the same. -/
theorem Flag.eq_of_place {f g : Flag} (hr : f.reg = g.reg) (hb : f.bit = g.bit) : f = g := by
  revert hr hb; cases f <;> cases g <;> decide

/-- Writing a field changes that field and no other. -/
@[simp] theorem State.flag_setFlag (s : State) (f g : Flag) (b : Bool) :
    (s.setFlag f b).flag g = if f = g then b else s.flag g := by
  unfold State.flag State.setFlag Flag.isSet
  rw [State.withReg_reg, HwRegs.get_set]
  by_cases hr : f.reg = g.reg
  · rw [if_pos ⟨hr, f.reg_stored⟩, getLsbD_putBit _ _ _ _ f.bit_lt, hr]
    by_cases hb : f.bit = g.bit
    · rw [if_pos hb, if_pos (Flag.eq_of_place hr hb)]
    · rw [if_neg hb, if_neg (fun h => hb (by rw [h]))]
  · rw [if_neg (fun h => hr h.1), if_neg (fun h => hr (by rw [h]))]

/-- Writing a field leaves every other register alone. -/
theorem State.setFlag_get (s : State) (f : Flag) (b : Bool) (r : RegId) (h : f.reg ≠ r) :
    (s.setFlag f b).reg.get r = s.reg.get r := by
  unfold State.setFlag
  rw [State.withReg_reg, HwRegs.get_set, if_neg (fun hh => h hh.1)]

/-- A field depends on the registers alone. -/
theorem State.flag_congr {s t : State} (h : t.reg = s.reg) (f : Flag) : t.flag f = s.flag f := by
  unfold State.flag; rw [h]

section FlagUpdates
variable (s : State) (f g : Flag) (b : Bool)
@[simp] theorem State.flag_withX (v : SeqRegs) : (s.withX v).flag f = s.flag f := rfl
@[simp] theorem State.flag_withLe (v : LeState) : (s.withLe v).flag f = s.flag f := rfl
@[simp] theorem State.flag_withLines (c d : Level) : (s.withLines c d).flag f = s.flag f := rfl
@[simp] theorem State.flag_withBuf (v : Memory) : (s.withBuf v).flag f = s.flag f := rfl
@[simp] theorem State.flag_pushLog (v : LogEvent) : (s.pushLog v).flag f = s.flag f := rfl
@[simp] theorem State.flag_pushWire (v : WireEvent) : (s.pushWire v).flag f = s.flag f := rfl
@[simp] theorem State.flag_pushAcc (v : Access) : (s.pushAcc v).flag f = s.flag f := rfl
@[simp] theorem State.flag_withCp (v : Nat) : (s.withCp v).flag f = s.flag f := rfl
@[simp] theorem State.flag_withProgram (v : List Word) : (s.withProgram v).flag f = s.flag f := rfl
@[simp] theorem State.flag_withInitialised (v : Bool) : (s.withInitialised v).flag f = s.flag f := rfl
@[simp] theorem State.flag_pushPinmux (v : BitVec 8) : (s.pushPinmux v).flag f = s.flag f := rfl
@[simp] theorem State.flag_withEnv (v : Env) : (s.withEnv v).flag f = s.flag f := rfl
@[simp] theorem State.flag_withDraws (v : Nat) : (s.withDraws v).flag f = s.flag f := rfl
end FlagUpdates

section SetFlag
variable (s : State) (f : Flag) (b : Bool)
@[simp] theorem State.setFlag_x : (s.setFlag f b).x = s.x := rfl
@[simp] theorem State.setFlag_le : (s.setFlag f b).le = s.le := rfl
@[simp] theorem State.setFlag_scl : (s.setFlag f b).scl = s.scl := rfl
@[simp] theorem State.setFlag_sda : (s.setFlag f b).sda = s.sda := rfl
@[simp] theorem State.setFlag_buf : (s.setFlag f b).buf = s.buf := rfl
@[simp] theorem State.setFlag_log : (s.setFlag f b).log = s.log := rfl
@[simp] theorem State.setFlag_wire : (s.setFlag f b).wire = s.wire := rfl
@[simp] theorem State.setFlag_cp : (s.setFlag f b).cp = s.cp := rfl
@[simp] theorem State.setFlag_program : (s.setFlag f b).program = s.program := rfl
@[simp] theorem State.setFlag_initialised : (s.setFlag f b).initialised = s.initialised := rfl
@[simp] theorem State.setFlag_pinmux : (s.setFlag f b).pinmux = s.pinmux := rfl
@[simp] theorem State.setFlag_env : (s.setFlag f b).env = s.env := rfl
@[simp] theorem State.setFlag_draws : (s.setFlag f b).draws = s.draws := rfl
@[simp] theorem State.setFlag_acc : (s.setFlag f b).acc = s.acc := rfl
@[simp] theorem State.setFlag_cfg : (s.setFlag f b).cfg = s.cfg := rfl
@[simp] theorem State.setFlag_data : (s.setFlag f b).reg.data = s.reg.data := by cases f <;> rfl
@[simp] theorem State.setFlag_ctl3 : (s.setFlag f b).reg.ctl3 = s.reg.ctl3 := by cases f <;> rfl
@[simp] theorem State.setFlag_b0ectl : (s.setFlag f b).reg.b0ectl = s.reg.b0ectl := by cases f <;> rfl
end SetFlag

/-- Storing `DATA` changes no one-bit field. -/
@[simp] theorem State.flag_setData (s : State) (v : Byte) (f : Flag) :
    (s.withReg { s.reg with data := v }).flag f = s.flag f := by cases f <;> rfl

end Sys2Proof.Machine
end

