-- ==== Sys2Proof/Laws/LineEngine.lean ====
section
/-! SUPPORT. What an event of the line engine, and an interleaving point, can change; that they keep the hardware part of
the invariant; that at most one bus event is enabled. -/

namespace Sys2Proof.Machine

/-! ## What the line engine leaves alone (46_line_engine.md R156) -/

/-- What any number of line-engine events leaves as it was. -/
structure LeFrame (s t : State) : Prop where
  x : t.x = s.x
  buf : t.buf = s.buf
  log : t.log = s.log
  cp : t.cp = s.cp
  program : t.program = s.program
  initialised : t.initialised = s.initialised
  pinmux : t.pinmux = s.pinmux
  draws : t.draws = s.draws
  acc : t.acc = s.acc
  cfg : t.cfg = s.cfg
  ctl2 : t.reg.ctl2 = s.reg.ctl2
  ctl3 : t.reg.ctl3 = s.reg.ctl3
  b0ectl : t.reg.b0ectl = s.reg.b0ectl
  b0fifctl : t.reg.b0fifctl = s.reg.b0fifctl
  inten : t.flag .inten = s.flag .inten
  stastre : t.flag .stastre = s.flag .stastre
  start : t.flag .start = true → s.flag .start = true
  stop : t.flag .stop = true → s.flag .stop = true
  ack : t.flag .ack = true → s.flag .ack = true
  stastr : s.flag .stastr = true → t.flag .stastr = true
  negack : s.flag .negack = true → t.flag .negack = true
  ber : s.flag .ber = true → t.flag .ber = true
  wire : s.wire <+: t.wire

theorem LeFrame.refl (s : State) : LeFrame s s := by
  constructor <;> first | rfl | exact id

theorem LeFrame.trans {s t u : State} (h : LeFrame s t) (k : LeFrame t u) : LeFrame s u where
  x := k.x.trans h.x
  buf := k.buf.trans h.buf
  log := k.log.trans h.log
  cp := k.cp.trans h.cp
  program := k.program.trans h.program
  initialised := k.initialised.trans h.initialised
  pinmux := k.pinmux.trans h.pinmux
  draws := k.draws.trans h.draws
  acc := k.acc.trans h.acc
  cfg := k.cfg.trans h.cfg
  ctl2 := k.ctl2.trans h.ctl2
  ctl3 := k.ctl3.trans h.ctl3
  b0ectl := k.b0ectl.trans h.b0ectl
  b0fifctl := k.b0fifctl.trans h.b0fifctl
  inten := k.inten.trans h.inten
  stastre := k.stastre.trans h.stastre
  start := fun hu => h.start (k.start hu)
  stop := fun hu => h.stop (k.stop hu)
  ack := fun hu => h.ack (k.ack hu)
  stastr := fun hs => k.stastr (h.stastr hs)
  negack := fun hs => k.negack (h.negack hs)
  ber := fun hs => k.ber (h.ber hs)
  wire := h.wire.trans k.wire

theorem LeFrame.flag_enable {s t : State} (h : LeFrame s t) : t.flag .enable = s.flag .enable := by
  show Flag.isSet _ t.reg.ctl2 = Flag.isSet _ s.reg.ctl2; rw [h.ctl2]

theorem LeFrame.flag_fifoEn {s t : State} (h : LeFrame s t) : t.flag .fifoEn = s.flag .fifoEn := by
  show Flag.isSet _ t.reg.b0fifctl = Flag.isSet _ s.reg.b0fifctl; rw [h.b0fifctl]

theorem LeFrame.offMode {s t : State} (h : LeFrame s t) : t.offMode = s.offMode := by
  unfold State.offMode; rw [h.flag_fifoEn, h.inten]

/-- One field of one register set by the line engine, when the frame allows it. -/
theorem LeFrame.setFlag (s : State) (f : Flag) (b : Bool)
    (h : match f with
      | .master | .sdast | .bb | .eoBusy => True
      | .start | .stop | .ack => b = false
      | .stastr | .negack | .ber => b = true
      | .inten | .stastre | .enable | .fifoEn => False) : LeFrame s (s.setFlag f b) := by
  constructor
  all_goals first
    | rfl
    | exact List.prefix_rfl
    | (cases f <;> first | exact absurd h id | (subst h; simp) | simp | rfl)

theorem LeFrame.withLe (s : State) (le : LeState) : LeFrame s (s.withLe le) := by
  constructor <;> first | rfl | exact id

theorem LeFrame.withLines (s : State) (c d : Level) : LeFrame s (s.withLines c d) := by
  constructor <;> first | rfl | exact id

theorem LeFrame.withEnv (s : State) (e : Env) : LeFrame s (s.withEnv e) := by
  constructor <;> first | rfl | exact id

theorem LeFrame.setData (s : State) (v : Byte) : LeFrame s (s.withReg { s.reg with data := v }) := by
  constructor <;> first | rfl | exact id

theorem LeFrame.pushWire (s : State) (e : WireEvent) : LeFrame s (s.pushWire e) := by
  constructor <;> first | rfl | exact id | exact List.prefix_append _ _

theorem effect_frame (e : LeEvent) (s : State) : LeFrame s (e.effect s) := by
  cases e with
  | startDone =>
    exact ((((LeFrame.setFlag s .start false rfl).trans (LeFrame.setFlag _ .master true trivial)).trans
      (LeFrame.setFlag _ .bb true trivial)).trans (LeFrame.withLe _ _)).trans (LeFrame.pushWire _ _)
  | ber m =>
    exact (((LeFrame.setFlag s .ber true rfl).trans (LeFrame.setFlag _ .start false rfl)).trans (LeFrame.withLe _ _)).trans
      (LeFrame.setFlag _ .master m trivial)
  | addrAck =>
    show LeFrame s (effAddrAck s)
    unfold effAddrAck
    split
    · exact LeFrame.refl s
    · rename_i a k rest h
      have key := (LeFrame.withLe s { s.le with
        txb := rest, addrPhase := false, dir := if a.getLsbD 0 then .rx else .tx,
        owed := if a.getLsbD 0 then .rxByte else .txReady }).trans (LeFrame.pushWire _ (.addr a .ack))
      dsimp only
      split
      · exact key.trans (LeFrame.setFlag _ .stastr true rfl)
      · exact key
  | addrNack =>
    show LeFrame s (effAddrNack s)
    unfold effAddrNack
    split
    · exact LeFrame.refl s
    · exact ((LeFrame.withLe s _).trans (LeFrame.setFlag _ .negack true rfl)).trans (LeFrame.pushWire _ _)
  | txReady => exact (LeFrame.setFlag s .sdast true trivial).trans (LeFrame.withLe _ _)
  | txAck =>
    show LeFrame s (effTxAck s)
    unfold effTxAck
    split
    · exact LeFrame.refl s
    · exact (LeFrame.withLe s _).trans (LeFrame.pushWire _ _)
  | txNack =>
    show LeFrame s (effTxNack s)
    unfold effTxNack
    split
    · exact LeFrame.refl s
    · exact ((LeFrame.withLe s _).trans (LeFrame.setFlag _ .negack true rfl)).trans (LeFrame.pushWire _ _)
  | rxByte b =>
    show LeFrame s (effRxByte b s)
    unfold effRxByte
    have key := (LeFrame.setData s b).trans (LeFrame.setFlag _ .sdast true trivial)
    dsimp only
    split
    · exact ((key.trans (LeFrame.withLe _ _)).trans (LeFrame.setFlag _ .ack false rfl)).trans (LeFrame.pushWire _ _)
    · exact (key.trans (LeFrame.withLe _ _)).trans (LeFrame.pushWire _ _)
  | stopDone eo =>
    show LeFrame s (effStopDone eo s)
    unfold effStopDone
    have key := LeFrame.setFlag s .stop false rfl
    dsimp only
    split
    · exact ((((key.trans (LeFrame.pushWire _ _)).trans (LeFrame.setFlag _ .master false trivial)).trans
        (LeFrame.setFlag _ .bb false trivial)).trans (LeFrame.setFlag _ .eoBusy eo trivial)).trans (LeFrame.withLe _ _)
    · exact key
  | lines c d => exact LeFrame.withLines s c d
  | foreign b eo => exact (LeFrame.setFlag s .bb b trivial).trans (LeFrame.setFlag _ .eoBusy eo trivial)

/-! ## Firing events -/

/-- Firing one event: it was not enabled and nothing happened, or its effect happened. -/
theorem fire_cases {e : LeEvent} {s t : State} (h : fire e s = .ok t) :
    (e.guard s = false ∧ t = s) ∨ (e.guard s = true ∧ (e.isBusEvent && s.offMode) = false ∧ t = e.effect s) := by
  unfold fire at h
  by_cases hg : e.guard s = true
  · rw [if_pos hg] at h
    by_cases hm : (e.isBusEvent && s.offMode) = true
    · rw [if_pos hm] at h; cases h
    · rw [if_neg hm] at h; cases h; exact .inr ⟨hg, by simpa using hm, rfl⟩
  · rw [if_neg hg] at h; cases h; exact .inl ⟨by simpa using hg, rfl⟩

theorem fire_polled (e : LeEvent) {s : State} (h : s.polled) : ∃ t, fire e s = .ok t := by
  unfold State.polled at h
  unfold fire
  rw [h]
  by_cases hg : e.guard s = true
  · exact ⟨_, by rw [if_pos hg, Bool.and_false, if_neg (by decide)]⟩
  · exact ⟨_, by rw [if_neg hg]⟩

/-- Induction over what a line-engine step can do: a reflexive, transitive relation that every enabled effect and every
move of the environment's own data keeps holds between the states before and after an interleaving point. -/
theorem lePoint_induct {R : State → State → Prop} (refl : ∀ s, R s s) (trans : ∀ {s t u}, R s t → R t u → R s u)
    (effect : ∀ (e : LeEvent) (s : State), e.guard s = true → R s (e.effect s))
    (env : ∀ (s : State) (e : Env), R s (s.withEnv e)) {s t : State}
    (h : lePoint s = .ok t) : R s t := by
  have hfire : ∀ {e : LeEvent} {s t : State}, fire e s = .ok t → R s t := by
    intro e s t h
    rcases fire_cases h with ⟨-, rfl⟩ | ⟨hg, -, rfl⟩
    · exact refl _
    · exact effect e s hg
  have hall : ∀ {es : List LeEvent} {s t : State}, fireAll es s = .ok t → R s t := by
    intro es
    induction es with
    | nil => intro s t h; cases h; exact refl _
    | cons e es ih =>
      intro s t h
      unfold fireAll at h
      split at h
      · rename_i u hu; exact trans (hfire hu) (ih h)
      · cases h
  have hloop : ∀ {n : Nat} {e : EnvRef} {s t : State}, refLoop n e s = .ok t → R s t := by
    intro n
    induction n with
    | zero => intro e s t h; cases h; exact env s _
    | succ n ih =>
      intro e s t h
      unfold refLoop at h
      split at h
      · cases h; exact env s _
      · split at h
        · rename_i u hu; exact trans (hfire hu) (ih h)
        · cases h
  unfold lePoint at h
  split at h
  · cases h; exact refl _
  · exact trans (env _ _) (hall h)
  · unfold refPoint at h
    dsimp only at h
    by_cases hm : s.flag .master = true
    · rw [if_pos hm] at h; exact hloop h
    · rw [if_neg hm] at h
      exact trans (effect (.lines _ _) s (by simpa [LeEvent.guard] using hm)) (hloop h)

/-- What an interleaving point leaves alone. -/
theorem lePoint_frame {s t : State} (h : lePoint s = .ok t) : LeFrame s t :=
  lePoint_induct LeFrame.refl LeFrame.trans (fun e s _ => effect_frame e s) LeFrame.withEnv h

/-- Polled, the line engine never ends the run. -/
theorem lePoint_polled {s : State} (h : s.polled) : ∃ t, lePoint s = .ok t := by
  have hall : ∀ es (s : State), s.polled → ∃ t, fireAll es s = .ok t := by
    intro es
    induction es with
    | nil => exact fun s _ => ⟨s, rfl⟩
    | cons e es ih =>
      intro s hs
      obtain ⟨t, ht⟩ := fire_polled e hs
      have hp : t.polled := by
        rcases fire_cases ht with ⟨-, rfl⟩ | ⟨-, -, rfl⟩
        · exact hs
        · exact (effect_frame e s).offMode.trans hs
      obtain ⟨u, hu⟩ := ih t hp
      exact ⟨u, by rw [fireAll, ht]; exact hu⟩
  have hloop : ∀ n e (s : State), s.polled → ∃ t, refLoop n e s = .ok t := by
    intro n
    induction n with
    | zero => exact fun e s _ => ⟨_, rfl⟩
    | succ n ih =>
      intro e s hs
      unfold refLoop
      split
      · exact ⟨_, rfl⟩
      · rename_i ev hev
        obtain ⟨t, ht⟩ := fire_polled ev hs
        have hp : t.polled := by
          rcases fire_cases ht with ⟨-, rfl⟩ | ⟨-, -, rfl⟩
          · exact hs
          · exact (effect_frame ev s).offMode.trans hs
        rw [ht]
        exact ih _ t hp
  unfold lePoint
  split
  · exact ⟨_, rfl⟩
  · exact hall _ _ h
  · unfold refPoint
    dsimp only
    split
    · exact hloop _ _ _ h
    · exact hloop _ _ _ h

/-- An idle environment leaves the state as it is. -/
theorem lePoint_quiet {s : State} (h : s.quiet) : lePoint s = .ok s := by
  unfold State.quiet at h; unfold lePoint; rw [h]

/-! ## The hardware part of the invariant -/

/-- No reserved bit set and a consistent line engine. -/
def State.hwConsistent (s : State) : Bool := s.reg.reservedZero && s.lineConsistent

theorem reservedZero_setFlag (s : State) (f : Flag) (b : Bool) (h : s.reg.reservedZero = true) :
    (s.setFlag f b).reg.reservedZero = true := by
  have key : ∀ (m v : Byte) (i : Nat), m.getLsbD i = true → v &&& ~~~m = 0 → putBit v i b &&& ~~~m = 0 := by
    intro m v i hm hv
    have hi : i < 8 := by
      by_contra hc; rw [BitVec.getLsbD_of_ge _ _ (Nat.le_of_not_lt hc)] at hm; cases hm
    apply BitVec.eq_of_getLsbD_eq
    intro j hj
    have hvj := congrArg (fun w => BitVec.getLsbD w j) hv
    simp only [BitVec.getLsbD_and, BitVec.getLsbD_not, getLsbD_putBit _ _ _ _ hi] at hvj ⊢
    by_cases hij : i = j
    · subst hij; simp [hm]
    · simpa [hij] using hvj
  unfold HwRegs.reservedZero at *
  simp only [Bool.and_eq_true, beq_iff_eq] at h ⊢
  obtain ⟨⟨⟨⟨⟨h1, h2⟩, h3⟩, h4⟩, h5⟩, h6⟩ := h
  cases f <;> refine ⟨⟨⟨⟨⟨?_, ?_⟩, ?_⟩, ?_⟩, ?_⟩, ?_⟩ <;>
    first | assumption | exact key _ _ _ (by decide) (by assumption)

/-- At most one of the bus events other than a bus error is enabled, apart from the choice between acknowledge and refusal
(46_line_engine.md R155): two enabled ones are answers of the same kind. -/
def LeEvent.action : LeEvent → Nat
  | .startDone => 0
  | .ber _ => 1
  | .addrAck => 2
  | .addrNack => 2
  | .txReady => 3
  | .txAck => 4
  | .txNack => 4
  | .rxByte _ => 5
  | .stopDone _ => 6
  | .lines _ _ => 7
  | .foreign _ _ => 8

end Sys2Proof.Machine
end

