-- ==== Sys2Proof/Laws/Ops.lean ====
section
/-! SUPPORT. How pieces of a command are run, what one register access can change, and two ways to reason about a whole
command: relations every access keeps, and completion while the engine is polled. -/

namespace Sys2Proof.Machine

/-! ## Running pieces of a command -/

section Run
variable {α β : Type}

theorem Op.bind_run (m : Op α) (f : α → Op β) (s : State) :
    (m >>= f) s = match m s with
      | .ok (a, t) => f a t
      | .error r => .error r := by
  show StateT.bind m f s = _
  unfold StateT.bind
  cases m s <;> rfl

@[simp] theorem Op.pure_run (a : α) (s : State) : (pure a : Op α) s = .ok (a, s) := rfl

/-- The second piece runs where the first one left off. -/
theorem Op.bind_eq {m : Op α} {f : α → Op β} {s t : State} {a : α} (h : m s = .ok (a, t)) : (m >>= f) s = f a t := by
  rw [Op.bind_run, h]

theorem Op.bind_ok {m : Op α} {f : α → Op β} {s u : State} {b : β} :
    (m >>= f) s = .ok (b, u) ↔ ∃ a t, m s = .ok (a, t) ∧ f a t = .ok (b, u) := by
  rw [Op.bind_run]
  cases h : m s with
  | error r => simp
  | ok p => obtain ⟨a, t⟩ := p; simp

end Run

@[simp] theorem getCfg_run (s : State) : getCfg s = .ok (s.cfg, s) := rfl
@[simp] theorem getX_run (s : State) : getX s = .ok (s.x, s) := rfl
@[simp] theorem modifyX_run (f : SeqRegs → SeqRegs) (s : State) : modifyX f s = .ok ((), s.withX (f s.x)) := rfl
@[simp] theorem setPhase_run (p : Phase) (s : State) :
    setPhase p s = .ok ((), s.withX { s.x with phase := p }) := rfl
@[simp] theorem setRdata_run (v : Byte) (s : State) : setRdata v s = .ok ((), s.withX { s.x with rdata := v }) := rfl
@[simp] theorem logEvent_run (e : LogEvent) (s : State) : logEvent e s = .ok ((), s.pushLog e) := rfl
@[simp] theorem memRead_run (a : BitVec 32) (s : State) : memRead a s = .ok (s.buf.read a.toNat, s) := rfl
@[simp] theorem memWrite_run (a : BitVec 32) (v : Byte) (s : State) :
    memWrite a v s = .ok ((), s.withBuf (s.buf.write a.toNat v)) := rfl
@[simp] theorem rdNow_run (r : RegId) (s : State) :
    rdNow r s = .ok (readValue s r, (afterRead s r).pushAcc (.rd r (readValue s r))) := rfl
@[simp] theorem wrNow_run (r : RegId) (v : Byte) (s : State) :
    wrNow r v s = .ok ((), (afterWrite s r v).pushAcc (.wr r v)) := rfl

theorem point_ok {s t : State} {a : Unit} : point s = .ok (a, t) ↔ lePoint s = .ok t := by
  unfold point
  cases h : lePoint s <;> simp

/-- A read, once the line engine's moves before it are known. -/
theorem rd_eq {s u : State} (h : lePoint s = .ok u) (r : RegId) :
    rd r s = .ok (readValue u r, (afterRead u r).pushAcc (.rd r (readValue u r))) := by
  unfold rd; rw [Op.bind_eq (point_ok (a := ()).2 h)]; rfl

/-- A write, once the line engine's moves before it are known. -/
theorem wr_eq {s u : State} (h : lePoint s = .ok u) (r : RegId) (v : Byte) :
    wr r v s = .ok ((), (afterWrite u r v).pushAcc (.wr r v)) := by
  unfold wr; rw [Op.bind_eq (point_ok (a := ()).2 h)]; rfl

theorem rd_ok {r : RegId} {s t : State} {v : Byte} :
    rd r s = .ok (v, t) ↔
      ∃ u, lePoint s = .ok u ∧ v = readValue u r ∧ t = (afterRead u r).pushAcc (.rd r (readValue u r)) := by
  unfold rd
  rw [Op.bind_ok]
  constructor
  · rintro ⟨_, u, hu, h⟩; rw [rdNow_run] at h; cases h; exact ⟨u, point_ok.1 hu, rfl, rfl⟩
  · rintro ⟨u, hu, rfl, rfl⟩; exact ⟨(), u, point_ok.2 hu, rfl⟩

theorem wr_ok {r : RegId} {v : Byte} {s t : State} {a : Unit} :
    wr r v s = .ok (a, t) ↔ ∃ u, lePoint s = .ok u ∧ t = (afterWrite u r v).pushAcc (.wr r v) := by
  unfold wr
  rw [Op.bind_ok]
  constructor
  · rintro ⟨_, u, hu, h⟩; rw [wrNow_run] at h; cases h; exact ⟨u, point_ok.1 hu, rfl⟩
  · rintro ⟨u, hu, rfl⟩; exact ⟨(), u, point_ok.2 hu, rfl⟩

theorem orReturn_ok {m k : Op Kind} {s u : State} {b : Kind} :
    orReturn m k s = .ok (b, u) ↔
      ∃ r t, m s = .ok (r, t) ∧ ((r = .ok ∧ k t = .ok (b, u)) ∨ (r ≠ .ok ∧ b = r ∧ u = t)) := by
  unfold orReturn
  rw [Op.bind_ok]
  refine exists_congr fun r => exists_congr fun t => and_congr_right fun _ => ?_
  by_cases hr : r = .ok
  · simp [hr]
  · simp [hr, Prod.ext_iff, eq_comm]

/-! ## An idle environment -/

theorem rd_quiet {s : State} (h : s.quiet) (r : RegId) :
    rd r s = .ok (readValue s r, (afterRead s r).pushAcc (.rd r (readValue s r))) := rd_eq (lePoint_quiet h) r

theorem wr_quiet {s : State} (h : s.quiet) (r : RegId) (v : Byte) :
    wr r v s = .ok ((), (afterWrite s r v).pushAcc (.wr r v)) := wr_eq (lePoint_quiet h) r v

/-! ## What one access can change -/

/-- What every register access leaves as it was. -/
structure AccessFrame (s t : State) : Prop where
  x : t.x = s.x
  scl : t.scl = s.scl
  sda : t.sda = s.sda
  buf : t.buf = s.buf
  log : t.log = s.log
  cp : t.cp = s.cp
  program : t.program = s.program
  initialised : t.initialised = s.initialised
  pinmux : t.pinmux = s.pinmux
  env : t.env = s.env
  cfg : t.cfg = s.cfg
  wire : s.wire <+: t.wire
  acc : s.acc <+: t.acc

theorem AccessFrame.refl (s : State) : AccessFrame s s := by constructor <;> rfl

theorem AccessFrame.trans {s t u : State} (h : AccessFrame s t) (k : AccessFrame t u) : AccessFrame s u where
  x := k.x.trans h.x
  scl := k.scl.trans h.scl
  sda := k.sda.trans h.sda
  buf := k.buf.trans h.buf
  log := k.log.trans h.log
  cp := k.cp.trans h.cp
  program := k.program.trans h.program
  initialised := k.initialised.trans h.initialised
  pinmux := k.pinmux.trans h.pinmux
  env := k.env.trans h.env
  cfg := k.cfg.trans h.cfg
  wire := h.wire.trans k.wire
  acc := h.acc.trans k.acc

theorem AccessFrame.withReg (s : State) (h : HwRegs) : AccessFrame s (s.withReg h) := by
  constructor <;> rfl

theorem AccessFrame.setFlag (s : State) (f : Flag) (b : Bool) : AccessFrame s (s.setFlag f b) := AccessFrame.withReg s _

theorem AccessFrame.withLe (s : State) (le : LeState) : AccessFrame s (s.withLe le) := by
  constructor <;> rfl

theorem AccessFrame.withDraws (s : State) (n : Nat) : AccessFrame s (s.withDraws n) := by
  constructor <;> rfl

theorem AccessFrame.pushAcc (s : State) (a : Access) : AccessFrame s (s.pushAcc a) := by
  constructor <;> first | rfl | exact List.prefix_append _ _

theorem AccessFrame.pushWire (s : State) (e : WireEvent) : AccessFrame s (s.pushWire e) := by
  constructor <;> first | rfl | exact List.prefix_append _ _

theorem afterRead_frame (s : State) (r : RegId) : AccessFrame s (afterRead s r) := by
  cases r
  case data =>
    show AccessFrame s (afterReadData s)
    unfold afterReadData
    dsimp only
    split
    · exact (AccessFrame.setFlag s _ _).trans (AccessFrame.withLe _ _)
    · exact AccessFrame.setFlag s _ _
  case brc =>
    show AccessFrame s (if s.flag .master then s.withDraws (s.draws + 1) else s)
    split
    · exact AccessFrame.withDraws s _
    · exact AccessFrame.refl s
  all_goals exact AccessFrame.refl s

theorem moduleDisable_frame (s : State) : AccessFrame s (moduleDisable s) :=
  ((((AccessFrame.withLe s _).trans (AccessFrame.setFlag _ _ _)).trans (AccessFrame.setFlag _ _ _)).trans
    (AccessFrame.setFlag _ _ _)).trans (AccessFrame.setFlag _ _ _)

theorem afterWrite_frame (s : State) (r : RegId) (v : Byte) : AccessFrame s (afterWrite s r v) := by
  cases r
  case data =>
    exact ((AccessFrame.withReg s _).trans (AccessFrame.setFlag _ _ _)).trans (AccessFrame.withLe _ _)
  case ctl2 =>
    show AccessFrame s (writeCtl2 s v)
    unfold writeCtl2
    dsimp only
    split
    · exact (AccessFrame.withReg s _).trans (moduleDisable_frame _)
    · exact AccessFrame.withReg s _
  case brc =>
    show AccessFrame s (writeBrc s v)
    unfold writeBrc togglePulse
    split
    · split
      · exact (AccessFrame.pushWire s _).trans (AccessFrame.withLe _ _)
      · exact AccessFrame.refl s
    · exact AccessFrame.refl s
  case b1fifcts => exact AccessFrame.refl s
  all_goals exact AccessFrame.withReg s _

/-! ## Relations every piece of a command keeps -/

/-- Whatever the piece does, the states before and after it are related. -/
def Op.Keeps {α : Type} (R : State → State → Prop) (m : Op α) : Prop := ∀ s a t, m s = .ok (a, t) → R s t

/-- A relation that can be followed along a run. -/
structure Along (R : State → State → Prop) : Prop where
  refl : ∀ s, R s s
  trans : ∀ {s t u}, R s t → R t u → R s u

section Keeps
variable {α β : Type} {R : State → State → Prop}

theorem Op.Keeps.pure (h : Along R) (a : α) : Op.Keeps R (pure a) := by
  intro s b t e; cases e; exact h.refl s

theorem Op.Keeps.bind (h : Along R) {m : Op α} {f : α → Op β} (hm : Op.Keeps R m) (hf : ∀ a, Op.Keeps R (f a)) :
    Op.Keeps R (m >>= f) := by
  intro s b u e
  obtain ⟨a, t, h1, h2⟩ := Op.bind_ok.1 e
  exact h.trans (hm s a t h1) (hf a t b u h2)

theorem Op.Keeps.orReturn (h : Along R) {m k : Op Kind} (hm : Op.Keeps R m) (hk : Op.Keeps R k) :
    Op.Keeps R (orReturn m k) := by
  intro s b u e
  obtain ⟨r, t, h1, ⟨-, h2⟩ | ⟨-, -, rfl⟩⟩ := orReturn_ok.1 e
  · exact h.trans (hm s r t h1) (hk t b u h2)
  · exact hm s r u h1

theorem Op.Keeps.poll (h : Along R) {r : RegId} (hr : Op.Keeps R (rd r)) (f : Byte → Option Kind) (n : Nat) :
    Op.Keeps R (poll n r f) := by
  induction n with
  | zero => exact Op.Keeps.pure h _
  | succ n ih =>
    unfold Sys2Proof.Machine.poll
    refine Op.Keeps.bind h hr (fun v => ?_)
    split
    · exact Op.Keeps.pure h _
    · exact ih

theorem Op.Keeps.pollOrTimeout (h : Along R) {r : RegId} (hr : Op.Keeps R (rd r)) (f : Byte → Option Kind) (n : Nat) :
    Op.Keeps R (pollOrTimeout n r f) := by
  unfold Sys2Proof.Machine.pollOrTimeout
  refine Op.Keeps.bind h (Op.Keeps.poll h hr f n) (fun v => ?_)
  split <;> exact Op.Keeps.pure h _

theorem Op.Keeps.setbits (h : Along R) {r : RegId} (hr : Op.Keeps R (rd r)) (hw : ∀ v, Op.Keeps R (wr r v)) (m : Byte) :
    Op.Keeps R (setbits r m) := Op.Keeps.bind h hr (fun _ => hw _)

theorem Op.Keeps.clrbits (h : Along R) {r : RegId} (hr : Op.Keeps R (rd r)) (hw : ∀ v, Op.Keeps R (wr r v)) (m : Byte) :
    Op.Keeps R (clrbits r m) := Op.Keeps.bind h hr (fun _ => hw _)

theorem Op.Keeps.rd (h : Along R) (hp : ∀ {s t}, lePoint s = .ok t → R s t)
    (ha : ∀ s r v, R s ((afterRead s r).pushAcc (.rd r v))) (r : RegId) : Op.Keeps R (rd r) := by
  intro s v t e
  obtain ⟨u, hu, -, rfl⟩ := rd_ok.1 e
  exact h.trans (hp hu) (ha u r _)

theorem Op.Keeps.wr (h : Along R) (hp : ∀ {s t}, lePoint s = .ok t → R s t)
    (ha : ∀ s r v, R s ((afterWrite s r v).pushAcc (.wr r v))) (r : RegId) (v : Byte) : Op.Keeps R (wr r v) := by
  intro s w t e
  obtain ⟨u, hu, rfl⟩ := wr_ok.1 e
  exact h.trans (hp hu) (ha u r v)

end Keeps

/-! ## Completion while the engine is polled -/

/-- Polled, the piece ends, and the engine is polled afterwards. -/
def Op.Ends {α : Type} (m : Op α) : Prop := ∀ s, s.polled → ∃ a t, m s = .ok (a, t) ∧ t.polled

/-- Only `CTL1` and `B0_FIFCTL` decide whether the engine is polled. -/
theorem State.polled_congr {s t : State} (h1 : t.flag .inten = s.flag .inten) (h2 : t.flag .fifoEn = s.flag .fifoEn)
    (h : s.polled) : t.polled := by
  unfold State.polled State.offMode at *; rw [h1, h2]; exact h

theorem State.polled_iff (s : State) : s.polled ↔ s.flag .fifoEn = false ∧ s.flag .inten = false := by
  unfold State.polled State.offMode; simp

theorem afterRead_inten (s : State) (r : RegId) : (afterRead s r).flag .inten = s.flag .inten := by
  cases r
  case data =>
    show (afterReadData s).flag .inten = _
    unfold afterReadData; dsimp only; split <;> simp
  case brc =>
    show State.flag (if s.flag .master then s.withDraws (s.draws + 1) else s) .inten = _
    split <;> simp
  all_goals rfl

theorem afterRead_fifoEn (s : State) (r : RegId) : (afterRead s r).flag .fifoEn = s.flag .fifoEn := by
  cases r
  case data =>
    show (afterReadData s).flag .fifoEn = _
    unfold afterReadData; dsimp only; split <;> simp
  case brc =>
    show State.flag (if s.flag .master then s.withDraws (s.draws + 1) else s) .fifoEn = _
    split <;> simp
  all_goals rfl

theorem afterWrite_inten (s : State) (r : RegId) (v : Byte) (h : r ≠ .ctl1) :
    (afterWrite s r v).flag .inten = s.flag .inten := by
  cases r
  case ctl1 => exact absurd rfl h
  case data =>
    show State.flag (((s.withReg { s.reg with data := v }).setFlag .sdast false).withLe _) .inten = _
    simp
  case ctl2 =>
    show (writeCtl2 s v).flag .inten = _
    unfold writeCtl2; dsimp only; split
    · simp only [moduleDisable, State.leIdle, State.flag_setFlag, State.flag_withLe]; rfl
    · rfl
  case brc =>
    show (writeBrc s v).flag .inten = _
    unfold writeBrc togglePulse; split
    · split <;> simp
    · rfl
  all_goals rfl

theorem afterWrite_fifoEn (s : State) (r : RegId) (v : Byte) (h : r ≠ .b0fifctl) :
    (afterWrite s r v).flag .fifoEn = s.flag .fifoEn := by
  cases r
  case b0fifctl => exact absurd rfl h
  case data =>
    show State.flag (((s.withReg { s.reg with data := v }).setFlag .sdast false).withLe _) .fifoEn = _
    simp
  case ctl2 =>
    show (writeCtl2 s v).flag .fifoEn = _
    unfold writeCtl2; dsimp only; split
    · simp only [moduleDisable, State.leIdle, State.flag_setFlag, State.flag_withLe]; rfl
    · rfl
  case brc =>
    show (writeBrc s v).flag .fifoEn = _
    unfold writeBrc togglePulse; split
    · split <;> simp
    · rfl
  all_goals rfl

/-- A one-bit field of `CTL1` after a write of `CTL1`. -/
theorem writeStorage_ctl1_flag (s : State) (v : Byte) (f : Flag) (hf : f.reg = .ctl1) :
    (writeStorage s .ctl1 v).flag f = f.isSet v := by
  have hm : (readMask .ctl1).getLsbD f.bit = true := by revert hf; cases f <;> decide
  unfold State.flag Flag.isSet writeStorage
  rw [hf, State.withReg_reg, HwRegs.get_set, if_pos ⟨rfl, rfl⟩, BitVec.getLsbD_and, hm, Bool.and_true]

theorem writeStorage_b0fifctl_fifoEn (s : State) (v : Byte) :
    (writeStorage s .b0fifctl v).flag .fifoEn = Flag.isSet .fifoEn v := by
  unfold State.flag Flag.isSet writeStorage
  simp only [Flag.reg, State.withReg_reg, HwRegs.get_set, Flag.bit, readMask]
  simp [RegId.stored]

/-- A write that turns on neither interrupts nor the FIFO. -/
def staysPolled (r : RegId) (v : Byte) : Bool :=
  match r with
  | .ctl1 => !Flag.isSet .inten v
  | .b0fifctl => !Flag.isSet .fifoEn v
  | _ => true

theorem afterWrite_polled {s : State} (h : s.polled) {r : RegId} {v : Byte} (hv : staysPolled r v = true) :
    (afterWrite s r v).polled := by
  obtain ⟨hf, hi⟩ := (State.polled_iff s).1 h
  refine (State.polled_iff _).2 ⟨?_, ?_⟩
  · by_cases hr : r = .b0fifctl
    · subst hr
      show (writeStorage s .b0fifctl v).flag .fifoEn = false
      rw [writeStorage_b0fifctl_fifoEn]; simpa [staysPolled] using hv
    · rw [afterWrite_fifoEn s r v hr]; exact hf
  · by_cases hr : r = .ctl1
    · subst hr
      show (writeStorage s .ctl1 v).flag .inten = false
      rw [writeStorage_ctl1_flag s v .inten rfl]; simpa [staysPolled] using hv
    · rw [afterWrite_inten s r v hr]; exact hi

theorem afterRead_polled {s : State} (h : s.polled) (r : RegId) : (afterRead s r).polled :=
  State.polled_congr (afterRead_inten s r) (afterRead_fifoEn s r) h

theorem lePoint_keeps_polled {s t : State} (h : s.polled) (ht : lePoint s = .ok t) : t.polled :=
  (lePoint_frame ht).offMode.trans h

section Ends
variable {α β : Type}

theorem Op.Ends.pure (a : α) : Op.Ends (pure a) := fun s h => ⟨a, s, rfl, h⟩

theorem Op.Ends.bind {m : Op α} {f : α → Op β} (hm : Op.Ends m) (hf : ∀ a, Op.Ends (f a)) : Op.Ends (m >>= f) := by
  intro s h
  obtain ⟨a, t, ht, hp⟩ := hm s h
  rw [Op.bind_eq ht]
  exact hf a t hp

theorem Op.Ends.ite {c : Prop} [Decidable c] {m k : Op α} (hm : Op.Ends m) (hk : Op.Ends k) :
    Op.Ends (if c then m else k) := by
  split
  · exact hm
  · exact hk

theorem Op.Ends.rd (r : RegId) : Op.Ends (rd r) := by
  intro s h
  obtain ⟨u, hu⟩ := lePoint_polled h
  exact ⟨_, _, rd_eq hu r, afterRead_polled (lePoint_keeps_polled h hu) r⟩

theorem Op.Ends.wr {r : RegId} {v : Byte} (hv : staysPolled r v = true) : Op.Ends (wr r v) := by
  intro s h
  obtain ⟨u, hu⟩ := lePoint_polled h
  exact ⟨_, _, wr_eq hu r v, afterWrite_polled (lePoint_keeps_polled h hu) hv⟩

theorem Op.Ends.point : Op.Ends point := by
  intro s h
  obtain ⟨u, hu⟩ := lePoint_polled h
  exact ⟨(), u, point_ok.2 hu, lePoint_keeps_polled h hu⟩

/-- Polled, a read of `CTL1` shows no `INTEN` and a read of `B0_FIFCTL` shows no `FIFO_EN`. -/
theorem readValue_staysPolled {s : State} (h : s.polled) (r : RegId) : staysPolled r (readValue s r) = true := by
  obtain ⟨hf, hi⟩ := (State.polled_iff s).1 h
  cases r
  case ctl1 =>
    have h0 : s.reg.ctl1.getLsbD 2 = false := hi
    show (!(s.reg.ctl1 &&& readMask .ctl1).getLsbD 2) = true
    rw [BitVec.getLsbD_and, h0]; rfl
  case b0fifctl =>
    have h0 : s.reg.b0fifctl.getLsbD 4 = false := hf
    show (!(s.reg.b0fifctl &&& readMask .b0fifctl).getLsbD 4) = true
    rw [BitVec.getLsbD_and, h0]; rfl
  all_goals rfl

theorem Op.Ends.setbits {r : RegId} {m : Byte} (hm : staysPolled r m = true) : Op.Ends (setbits r m) := by
  intro s h
  obtain ⟨u, hu⟩ := lePoint_polled h
  have hp := lePoint_keeps_polled h hu
  unfold Sys2Proof.Machine.setbits
  rw [Op.bind_eq (rd_eq hu r)]
  refine Op.Ends.wr ?_ _ (afterRead_polled hp r)
  have hr := readValue_staysPolled hp r
  revert hr hm
  cases r <;> simp +contextual [staysPolled, Flag.isSet, Flag.bit]

theorem Op.Ends.clrbits {r : RegId} (m : Byte) : Op.Ends (clrbits r m) := by
  intro s h
  obtain ⟨u, hu⟩ := lePoint_polled h
  have hp := lePoint_keeps_polled h hu
  unfold Sys2Proof.Machine.clrbits
  rw [Op.bind_eq (rd_eq hu r)]
  refine Op.Ends.wr ?_ _ (afterRead_polled hp r)
  have hr := readValue_staysPolled hp r
  revert hr
  cases r <;> simp +contextual [staysPolled, Flag.isSet, Flag.bit]

theorem Op.Ends.poll (r : RegId) (f : Byte → Option Kind) (n : Nat) : Op.Ends (poll n r f) := by
  induction n with
  | zero => exact Op.Ends.pure _
  | succ n ih =>
    unfold Sys2Proof.Machine.poll
    refine Op.Ends.bind (Op.Ends.rd r) (fun v => ?_)
    split
    · exact Op.Ends.pure _
    · exact ih

theorem Op.Ends.pollOrTimeout (r : RegId) (f : Byte → Option Kind) (n : Nat) : Op.Ends (pollOrTimeout n r f) := by
  unfold Sys2Proof.Machine.pollOrTimeout
  refine Op.Ends.bind (Op.Ends.poll r f n) (fun v => ?_)
  split <;> exact Op.Ends.pure _

theorem Op.Ends.orReturn {m k : Op Kind} (hm : Op.Ends m) (hk : Op.Ends k) : Op.Ends (orReturn m k) :=
  Op.Ends.bind hm (fun _ => Op.Ends.ite hk (Op.Ends.pure _))

theorem Op.Ends.modifyX (f : SeqRegs → SeqRegs) : Op.Ends (modifyX f) := fun _ h => ⟨(), _, rfl, h⟩
theorem Op.Ends.getX : Op.Ends getX := fun s h => ⟨s.x, s, rfl, h⟩
theorem Op.Ends.getCfg : Op.Ends getCfg := fun s h => ⟨s.cfg, s, rfl, h⟩
theorem Op.Ends.logEvent (e : LogEvent) : Op.Ends (logEvent e) := fun _ h => ⟨(), _, rfl, h⟩
theorem Op.Ends.memRead (a : BitVec 32) : Op.Ends (memRead a) := fun s h => ⟨_, s, rfl, h⟩
theorem Op.Ends.memWrite (a : BitVec 32) (v : Byte) : Op.Ends (memWrite a v) := fun _ h => ⟨(), _, rfl, h⟩

/-- A body that ends while polled gives a next state. -/
theorem Op.Ends.runBody {m : Op Kind} (hm : Op.Ends m) {s : State} (h : s.polled) :
    ∃ k t, m s = .ok (k, t) ∧ runBody m s = .next (t.setResult k) := by
  obtain ⟨k, t, ht, -⟩ := hm s h
  exact ⟨k, t, ht, by unfold Sys2Proof.Machine.runBody; rw [ht]⟩

end Ends

theorem runBody_next {m : Op Kind} {s t : State} (h : runBody m s = .next t) :
    ∃ k u, m s = .ok (k, u) ∧ t = u.setResult k := by
  unfold runBody at h
  split at h
  · rename_i k u hk; cases h; exact ⟨k, u, hk, rfl⟩
  · cases h

theorem runInitialised_next {m : Op Kind} {s t : State} (h : runInitialised m s = .next t) :
    s.initialised = true ∧ ∃ k u, m s = .ok (k, u) ∧ t = u.setResult k := by
  unfold runInitialised at h
  split at h
  · rename_i hi; exact ⟨hi, runBody_next h⟩
  · cases h

end Sys2Proof.Machine
end

