-- ==== Sys2Proof/Laws/Blind.lean ====
section
/-! SUPPORT. Nothing reads `x[RESULT]`: the line engine does not look at the sequencer registers at all, and an operation does
the same whatever an earlier command has left in `x[RESULT]`. So a command made of others, as EXCHANGE is, runs as they do. -/

namespace Sys2Proof.Machine

/-! ## The line engine does not look at the sequencer registers -/

section LineEngine
variable (s : State) (x : SeqRegs)

@[simp] theorem setFlag_withX (f : Flag) (b : Bool) : (s.withX x).setFlag f b = (s.setFlag f b).withX x := rfl

@[simp] theorem guard_withX (e : LeEvent) : e.guard (s.withX x) = e.guard s := by cases e <;> rfl

theorem effect_withX (e : LeEvent) : e.effect (s.withX x) = (e.effect s).withX x := by
  cases e with
  | addrAck =>
    show effAddrAck (s.withX x) = (effAddrAck s).withX x
    unfold effAddrAck
    rw [State.withX_le]
    split
    · rfl
    · show (if s.flag .stastre then _ else _) = (if s.flag .stastre then _ else _ : State).withX x
      split <;> rfl
  | addrNack =>
    show effAddrNack (s.withX x) = (effAddrNack s).withX x
    unfold effAddrNack; rw [State.withX_le]; split <;> rfl
  | txAck =>
    show effTxAck (s.withX x) = (effTxAck s).withX x
    unfold effTxAck; rw [State.withX_le]; split <;> rfl
  | txNack =>
    show effTxNack (s.withX x) = (effTxNack s).withX x
    unfold effTxNack; rw [State.withX_le]; split <;> rfl
  | rxByte b =>
    show (if s.flag .ack then _ else _) = (if s.flag .ack then _ else _ : State).withX x
    split <;> rfl
  | stopDone eo =>
    show (if s.flag .master then _ else _) = (if s.flag .master then _ else _ : State).withX x
    split <;> rfl
  | startDone => rfl
  | ber m => rfl
  | txReady => rfl
  | lines c d => rfl
  | foreign b eo => rfl

theorem fire_withX (e : LeEvent) : fire e (s.withX x) = (fire e s).map (·.withX x) := by
  unfold fire
  rw [guard_withX, effect_withX]
  show (if e.guard s then (if e.isBusEvent && s.offMode then _ else _) else _) = _
  split
  · split <;> rfl
  · rfl

end LineEngine

theorem fireAll_withX (es : List LeEvent) (s : State) (x : SeqRegs) :
    fireAll es (s.withX x) = (fireAll es s).map (·.withX x) := by
  induction es generalizing s with
  | nil => rfl
  | cons e es ih =>
    unfold fireAll
    rw [fire_withX]
    cases fire e s with
    | ok t => exact ih t
    | error r => rfl

theorem choose_withX (e : EnvRef) (s : State) (x : SeqRegs) : e.choose (s.withX x) = e.choose s := by
  unfold EnvRef.choose
  simp only [guard_withX]
  rfl

theorem refLoop_withX (n : Nat) (e : EnvRef) (s : State) (x : SeqRegs) :
    refLoop n e (s.withX x) = (refLoop n e s).map (·.withX x) := by
  induction n generalizing e s with
  | zero => rfl
  | succ n ih =>
    unfold refLoop
    rw [choose_withX]
    cases e.choose s with
    | none => rfl
    | some ev =>
      have ha : e.after ev (s.withX x) = e.after ev s := by cases ev <;> rfl
      simp only [ha, fire_withX]
      cases fire ev s with
      | ok t => exact ih (e.after ev s) t
      | error r => rfl

/-- An interleaving point does the same whatever the sequencer registers hold, and leaves them (46_line_engine.md R156). -/
theorem lePoint_withX (s : State) (x : SeqRegs) : lePoint (s.withX x) = (lePoint s).map (·.withX x) := by
  unfold lePoint
  rw [State.withX_env]
  split
  · rfl
  · exact fireAll_withX _ (s.withEnv _) x
  · next e _ =>
    have h : (if (s.withX x).flag .master then s.withX x else effLines e.sclLevel (e.sdaLevel (s.withX x).le.pulses) (s.withX x)) =
        (if s.flag .master then s else effLines e.sclLevel (e.sdaLevel s.le.pulses) s : State).withX x := by
      show (if s.flag .master then _ else _) = _
      split <;> rfl
    unfold refPoint
    rw [h]
    exact refLoop_withX _ e _ x

/-! ## Operations -/

/-- The operation does the same whatever stands in `x[RESULT]`. -/
def Op.Blind {α : Type} (m : Op α) : Prop :=
  ∀ (s : State) (c : BitVec 4), m (s.endedWith c) = (m s).map (fun p => (p.1, p.2.endedWith c))

namespace Op.Blind

theorem ok {α : Type} {m : Op α} (h : m.Blind) {s t : State} {a : α} (e : m s = .ok (a, t)) (c : BitVec 4) :
    m (s.endedWith c) = .ok (a, t.endedWith c) := by rw [h, e]; rfl

theorem pure {α : Type} (a : α) : (Pure.pure a : Op α).Blind := fun _ _ => rfl

theorem bind {α β : Type} {m : Op α} {f : α → Op β} (hm : m.Blind) (hf : ∀ a, (f a).Blind) : (m >>= f).Blind := by
  intro s c
  rw [Op.bind_run, Op.bind_run, hm]
  cases m s with
  | ok p => exact hf p.1 p.2 c
  | error r => rfl

theorem ite {α : Type} {p : Prop} [Decidable p] {m k : Op α} (hm : m.Blind) (hk : k.Blind) :
    (if p then m else k).Blind := by split <;> assumption

theorem orReturn {m k : Op Kind} (hm : m.Blind) (hk : k.Blind) : (orReturn m k).Blind :=
  hm.bind (fun _ => .ite hk (.pure _))

theorem getCfg : Op.Blind getCfg := fun _ _ => rfl

/-- A use of the sequencer registers that does not look at `RESULT`. -/
theorem getX {α : Type} {f : SeqRegs → Op α} (hr : ∀ x c, f { x with result := c } = f x) (hf : ∀ x, (f x).Blind) :
    (getX >>= f).Blind := by
  intro s c
  rw [Op.bind_eq (getX_run _), Op.bind_eq (getX_run _)]
  show f { s.x with result := c } _ = _
  rw [hr]
  exact hf s.x s c

theorem modifyX {f : SeqRegs → SeqRegs} (h : ∀ x c, f { x with result := c } = { f x with result := c }) :
    (modifyX f).Blind := by
  intro s c
  show Except.ok ((), s.withX (f { s.x with result := c })) = _
  rw [h]
  rfl

theorem logEvent (e : LogEvent) : (logEvent e).Blind := fun _ _ => rfl
theorem memRead (a : BitVec 32) : (memRead a).Blind := fun _ _ => rfl
theorem memWrite (a : BitVec 32) (v : Byte) : (memWrite a v).Blind := fun _ _ => rfl

theorem point : point.Blind := by
  intro s c
  show (match lePoint (s.withX { s.x with result := c }) with | .ok t => _ | .error r => _) = _
  unfold Sys2Proof.Machine.point
  rw [lePoint_withX]
  cases h : lePoint s with
  | ok t =>
    show Except.ok ((), t.withX { s.x with result := c }) = Except.ok ((), t.withX { t.x with result := c })
    rw [(lePoint_frame h).x]
  | error r => rfl

theorem rdNow (r : RegId) : (rdNow r).Blind := by
  intro s c
  have h1 : readValue (s.endedWith c) r = readValue s r := by cases r <;> rfl
  have h2 : afterRead (s.endedWith c) r = (afterRead s r).endedWith c := by
    cases r <;> try rfl
    · show (if rearms s then _ else _) = State.endedWith (if rearms s then _ else _) c
      split <;> rfl
    · show (if s.flag .master then _ else _) = State.endedWith (if s.flag .master then _ else _) c
      split <;> rfl
  show Except.ok (_, (afterRead (s.endedWith c) r).pushAcc (.rd r (readValue (s.endedWith c) r))) = _
  rw [h1, h2]
  rfl

theorem wrNow (r : RegId) (v : Byte) : (wrNow r v).Blind := by
  intro s c
  have h : afterWrite (s.endedWith c) r v = (afterWrite s r v).endedWith c := by
    cases r <;> try rfl
    · show (if s.flag .enable && !Flag.isSet .enable v then _ else _) =
        State.endedWith (if s.flag .enable && !Flag.isSet .enable v then _ else _) c
      split <;> rfl
    · show (if v.getLsbD tgsclBit then (if s.g0 then _ else _) else _) =
        State.endedWith (if v.getLsbD tgsclBit then (if s.g0 then _ else _) else _) c
      split
      · split <;> rfl
      · rfl
  show Except.ok ((), (afterWrite (s.endedWith c) r v).pushAcc (.wr r v)) = _
  rw [h]
  rfl

theorem rd (r : RegId) : (rd r).Blind := point.bind (fun _ => rdNow r)
theorem wr (r : RegId) (v : Byte) : (wr r v).Blind := point.bind (fun _ => wrNow r v)
theorem setbits (r : RegId) (m : Byte) : (setbits r m).Blind := (rd r).bind (fun _ => wr r _)
theorem clrbits (r : RegId) (m : Byte) : (clrbits r m).Blind := (rd r).bind (fun _ => wr r _)

theorem poll (n : Nat) (r : RegId) (f : Byte → Option Kind) : (poll n r f).Blind := by
  induction n with
  | zero => exact .pure _
  | succ n ih =>
    refine (rd r).bind (fun v => ?_)
    split
    · exact .pure _
    · exact ih

theorem pollOrTimeout (n : Nat) (r : RegId) (f : Byte → Option Kind) : (pollOrTimeout n r f).Blind := by
  refine (poll n r f).bind (fun v => ?_)
  split <;> exact .pure _

theorem readAll (rs : List RegId) : (readAll rs).Blind := by
  induction rs with
  | nil => exact .pure _
  | cons r rs ih => exact (rd r).bind (fun _ => ih.bind (fun _ => .pure _))

theorem dump : dump.Blind := (readAll _).bind (fun _ => getCfg.bind (fun _ => logEvent _))

theorem sendStart (n : Nat) : (sendStart n).Blind :=
  (setbits _ _).bind (fun _ => (pollOrTimeout _ _ _).orReturn ((modifyX (fun _ _ => rfl)).bind (fun _ => .pure _)))

theorem setPhase (p : Phase) : (setPhase p).Blind := modifyX (fun _ _ => rfl)

theorem stopWait (n : Nat) : (stopWait n).Blind := by
  refine (poll _ _ _).bind (fun v => (setPhase _).bind (fun _ => ?_))
  split
  · exact .pure _
  · exact dump.bind (fun _ => .pure _)

theorem sendStop (n : Nat) : (sendStop n).Blind :=
  (setbits _ _).bind (fun _ => (wr _ _).bind (fun _ => (modifyX (fun _ _ => rfl)).bind (fun _ =>
    .ite ((setPhase _).bind (fun _ => .pure _)) (stopWait n))))

theorem inspectAddress : inspectAddress.Blind := by
  refine (rd _).bind (fun v => ?_)
  split
  · exact (setPhase _).bind (fun _ => .pure _)
  · exact .pure _

theorem sendAddress (b : Byte) (stall : Bool) : (sendAddress b stall).Blind :=
  .ite ((setbits _ _).bind (fun _ => (wr _ _).bind (fun _ => getCfg.bind (fun _ => (poll _ _ _).bind (fun _ =>
    inspectAddress))))) ((wr _ _).bind (fun _ => inspectAddress))

theorem pollDataReady (n : Nat) : (pollDataReady n).Blind := (setPhase _).bind (fun _ => pollOrTimeout _ _ _)
theorem pollAckCleared (n : Nat) : (pollAckCleared n).Blind := (setPhase _).bind (fun _ => pollOrTimeout _ _ _)

theorem requestNackAfterRead : requestNackAfterRead.Blind :=
  getCfg.bind (fun _ => .ite ((rdNow _).bind (fun _ => wrNow _ _)) (setbits _ _))

theorem releaseStall (keep : Bool) : (releaseStall keep).Blind :=
  (rd _).bind (fun _ => .ite ((wr _ _).bind (fun _ => .ite (.pure _) (wr _ _))) (.pure _))

theorem readTail {store : Byte → Op Unit} (h : ∀ v, (store v).Blind) : (readTail store).Blind :=
  (sendStop 0).bind (fun _ => (rd _).bind (fun v => (h v).bind (fun _ => (wr _ _).bind (fun _ => .pure _))))

theorem readMulti (n : Nat) (a : BitVec 32) : (readMulti n a).Blind := by
  induction n generalizing a with
  | zero => exact .pure _
  | succ n ih =>
    cases n with
    | zero => exact getCfg.bind (fun _ => (pollAckCleared _).orReturn (readTail (fun v => memWrite a v)))
    | succ n =>
      exact getCfg.bind (fun _ => (pollDataReady _).orReturn ((rd _).bind (fun v => (memWrite a v).bind (fun _ =>
        .ite (requestNackAfterRead.bind (fun _ => ih _)) (ih _)))))

theorem readMessage (keep : Bool) (a : Addr7) (len : Nat) (base : BitVec 32) : (readMessage keep a len base).Blind :=
  .ite (.pure _) (getCfg.bind (fun _ => (sendStart _).orReturn ((sendAddress _ _).orReturn (.ite
    ((setbits _ _).bind (fun _ => (releaseStall keep).bind (fun _ => getCfg.bind (fun _ => (pollDataReady _).orReturn
      (readTail (fun v => memWrite base v))))))
    (readMulti len base)))))

theorem writeLoop (n : Nat) (a : BitVec 32) : (writeLoop n a).Blind := by
  induction n generalizing a with
  | zero => exact .pure _
  | succ n ih =>
    exact getCfg.bind (fun _ => (pollDataReady _).orReturn ((memRead a).bind (fun _ => (wr _ _).bind (fun _ => ih _))))

theorem writeMessage (a : Addr7) (len : Nat) (base : BitVec 32) : (writeMessage a len base).Blind :=
  getCfg.bind (fun _ => (sendStart _).orReturn (((sendAddress _ _).orReturn (writeLoop len base)).bind (fun _ =>
    .ite ((clrbits _ _).bind (fun _ => .pure _)) (.pure _))))

theorem runMessage (keep : Bool) (m : Message) : (runMessage keep m).Blind := by
  unfold Sys2Proof.Machine.runMessage
  split
  · exact readMessage _ _ _ _
  · exact writeMessage _ _ _

theorem ctrlReset : ctrlReset.Blind :=
  (clrbits _ _).bind (fun _ => (setbits _ _).bind (fun _ => (wr _ _).bind (fun _ => (wr _ _).bind (fun _ =>
    (wr _ _).bind (fun _ => (wr _ _).bind (fun _ => (clrbits _ _).bind (fun _ => wr _ _)))))))

theorem toggleLoop (n : Nat) : (toggleLoop n).Blind := by
  induction n with
  | zero => exact .pure _
  | succ n ih => exact (wr _ _).bind (fun _ => point.bind (fun _ => (rd _).bind (fun _ => .ite (.pure _) ih)))

theorem forcedStart (a : Addr7) : (forcedStart a).Blind :=
  getCfg.bind (fun _ => (wr _ _).bind (fun _ => (sendStart _).bind (fun _ =>
    .ite (point.bind (fun _ => (sendStop 0).bind (fun _ => point.bind (fun _ => logEvent _)))) (logEvent _))))

theorem recover (a : Addr7) : (recover a).Blind :=
  (rd _).bind (fun _ => .ite (ctrlReset.bind (fun _ => .pure _))
    (Op.Blind.bind ((toggleLoop _).bind (fun _ => .ite (forcedStart a) (logEvent _)))
      (fun _ => ctrlReset.bind (fun _ => .pure _))))

theorem forcedStop : forcedStop.Blind :=
  getX (fun _ _ => rfl) (fun _ => getCfg.bind (fun _ => .ite ((sendStop _).bind (fun _ => .pure _)) (.pure _)))

end Op.Blind

end Sys2Proof.Machine
end

