-- ==== Sys2Proof/Laws/Commands.lean ====
section
/-! SUPPORT. For each operation: it keeps every relation that register accesses, interleaving points, writes of sequencer
registers and log events keep; and, polled, it ends. -/

namespace Sys2Proof.Machine

/-- A relation kept by everything a command does except writes of `BUF` and the book-keeping of INIT. -/
structure Kept (R : State → State → Prop) : Prop where
  along : Along R
  point : ∀ {s t}, lePoint s = .ok t → R s t
  read : ∀ s r, R s ((afterRead s r).pushAcc (.rd r (readValue s r)))
  write : ∀ s r v, R s ((afterWrite s r v).pushAcc (.wr r v))
  seq : ∀ s x, R s (s.withX x)
  log : ∀ s e, R s (s.pushLog e)

section Keeps
variable {R : State → State → Prop} (h : Kept R)
include h

theorem Kept.rd (r : RegId) : Op.Keeps R (rd r) := by
  intro s v t e
  obtain ⟨u, hu, -, rfl⟩ := rd_ok.1 e
  exact h.along.trans (h.point hu) (h.read u r)

theorem Kept.wr (r : RegId) (v : Byte) : Op.Keeps R (wr r v) := Op.Keeps.wr h.along h.point h.write r v

theorem Kept.rdNow (r : RegId) : Op.Keeps R (rdNow r) := by
  intro s v t e; rw [rdNow_run] at e; cases e; exact h.read s r

theorem Kept.wrNow (r : RegId) (v : Byte) : Op.Keeps R (wrNow r v) := by
  intro s a t e; rw [wrNow_run] at e; cases e; exact h.write s r v

theorem Kept.pointOp : Op.Keeps R Sys2Proof.Machine.point := by
  intro s a t e; exact h.point (point_ok.1 e)

theorem Kept.pure {α : Type} (a : α) : Op.Keeps R (pure a) := Op.Keeps.pure h.along a

theorem Kept.modifyX (f : SeqRegs → SeqRegs) : Op.Keeps R (modifyX f) := by
  intro s a t e; rw [modifyX_run] at e; cases e; exact h.seq s _

theorem Kept.logEvent (e : LogEvent) : Op.Keeps R (logEvent e) := by
  intro s a t k; rw [logEvent_run] at k; cases k; exact h.log s e

theorem Kept.getCfg : Op.Keeps R getCfg := by
  intro s a t e; rw [getCfg_run] at e; cases e; exact h.along.refl s

theorem Kept.getX : Op.Keeps R getX := by
  intro s a t e; rw [getX_run] at e; cases e; exact h.along.refl s

theorem Kept.memRead (a : BitVec 32) : Op.Keeps R (memRead a) := by
  intro s v t e; rw [memRead_run] at e; cases e; exact h.along.refl s

theorem Kept.bind {α β : Type} {m : Op α} {f : α → Op β} (hm : Op.Keeps R m) (hf : ∀ a, Op.Keeps R (f a)) :
    Op.Keeps R (m >>= f) := Op.Keeps.bind h.along hm hf

theorem Kept.orReturn {m k : Op Kind} (hm : Op.Keeps R m) (hk : Op.Keeps R k) : Op.Keeps R (orReturn m k) :=
  Op.Keeps.orReturn h.along hm hk

theorem Kept.setbits (r : RegId) (m : Byte) : Op.Keeps R (setbits r m) := h.bind (h.rd r) (fun _ => h.wr r _)

theorem Kept.clrbits (r : RegId) (m : Byte) : Op.Keeps R (clrbits r m) := h.bind (h.rd r) (fun _ => h.wr r _)

theorem Kept.hostRd (r : RegId) : Op.Keeps R (hostRd r) :=
  h.bind (h.rd r) (fun _ => h.bind h.getCfg (fun _ => h.pure _))

theorem Kept.hostWr (r : RegId) (v : Byte) : Op.Keeps R (hostWr r v) := h.bind h.getCfg (fun _ => h.wr r _)

theorem Kept.poll (n : Nat) (r : RegId) (f : Byte → Option Kind) : Op.Keeps R (poll n r f) :=
  Op.Keeps.poll h.along (h.rd r) f n

theorem Kept.pollOrTimeout (n : Nat) (r : RegId) (f : Byte → Option Kind) : Op.Keeps R (pollOrTimeout n r f) :=
  Op.Keeps.pollOrTimeout h.along (h.rd r) f n

theorem readAll_keeps (rs : List RegId) : Op.Keeps R (readAll rs) := by
  induction rs with
  | nil => exact h.pure _
  | cons r rs ih => exact h.bind (h.rd r) (fun _ => h.bind ih (fun _ => h.pure _))

theorem dump_keeps : Op.Keeps R dump := h.bind (readAll_keeps h _) (fun _ => h.bind h.getCfg (fun _ => h.logEvent _))

theorem sendStart_keeps (n : Nat) : Op.Keeps R (sendStart n) :=
  h.bind (h.setbits _ _) (fun _ => h.orReturn (h.pollOrTimeout _ _ _) (h.bind (h.modifyX _) (fun _ => h.pure _)))

theorem stopWait_keeps (n : Nat) : Op.Keeps R (stopWait n) := by
  refine h.bind (h.poll _ _ _) (fun v => h.bind (h.modifyX _) (fun _ => ?_))
  split
  · exact h.pure _
  · exact h.bind (dump_keeps h) (fun _ => h.pure _)

theorem sendStop_keeps (n : Nat) : Op.Keeps R (sendStop n) := by
  refine h.bind (h.setbits _ _) (fun _ => h.bind (h.wr _ _) (fun _ => h.bind (h.modifyX _) (fun _ => ?_)))
  split
  · exact h.bind (h.modifyX _) (fun _ => h.pure _)
  · exact stopWait_keeps h n

theorem inspectAddress_keeps : Op.Keeps R inspectAddress := by
  refine h.bind (h.rd _) (fun v => ?_)
  split
  · exact h.bind (h.modifyX _) (fun _ => h.pure _)
  · exact h.pure _

theorem sendAddress_keeps (b : Byte) (stall : Bool) : Op.Keeps R (sendAddress b stall) := by
  unfold sendAddress
  split
  · exact h.bind (h.setbits _ _) (fun _ => h.bind (h.wr _ _) (fun _ => h.bind h.getCfg (fun _ =>
      h.bind (h.poll _ _ _) (fun _ => inspectAddress_keeps h))))
  · exact h.bind (h.wr _ _) (fun _ => inspectAddress_keeps h)

theorem pollDataReady_keeps (n : Nat) : Op.Keeps R (pollDataReady n) :=
  h.bind (h.modifyX _) (fun _ => h.pollOrTimeout _ _ _)

theorem pollAckCleared_keeps (n : Nat) : Op.Keeps R (pollAckCleared n) :=
  h.bind (h.modifyX _) (fun _ => h.pollOrTimeout _ _ _)

theorem requestNackAfterRead_keeps : Op.Keeps R requestNackAfterRead := by
  refine h.bind h.getCfg (fun c => ?_)
  split
  · exact h.bind (h.rdNow _) (fun _ => h.wrNow _ _)
  · exact h.setbits _ _

theorem releaseStall_keeps (keep : Bool) : Op.Keeps R (releaseStall keep) := by
  refine h.bind (h.rd _) (fun c => ?_)
  split
  · refine h.bind (h.wr _ _) (fun _ => ?_)
    split
    · exact h.pure _
    · exact h.wr _ _
  · exact h.pure _

theorem readTail_keeps {store : Byte → Op Unit} (hs : ∀ v, Op.Keeps R (store v)) : Op.Keeps R (readTail store) :=
  h.bind (sendStop_keeps h 0) (fun _ => h.bind (h.rd _) (fun v => h.bind (hs v) (fun _ => h.bind (h.wr _ _) (fun _ => h.pure _))))

theorem sendByteBody_keeps (b : Byte) : Op.Keeps R (sendByteBody b) :=
  h.bind h.getCfg (fun _ => h.orReturn (pollDataReady_keeps h _) (h.bind (h.wr _ _) (fun _ => h.pure _)))

theorem recvByteBody_keeps (f : Bool) : Op.Keeps R (recvByteBody f) := by
  refine h.bind h.getCfg (fun _ => h.orReturn (pollDataReady_keeps h _)
    (h.bind (h.rd _) (fun v => h.bind (h.modifyX _) (fun _ => ?_))))
  split
  · exact h.bind (requestNackAfterRead_keeps h) (fun _ => h.pure _)
  · exact h.pure _

theorem recvLastBody_keeps (f : Bool) : Op.Keeps R (recvLastBody f) := by
  refine h.bind h.getCfg (fun _ => h.orReturn ?_ (readTail_keeps h (fun _ => h.modifyX _)))
  split
  · exact pollAckCleared_keeps h _
  · exact pollDataReady_keeps h _

theorem ctrlReset_keeps : Op.Keeps R ctrlReset :=
  h.bind (h.clrbits _ _) (fun _ => h.bind (h.setbits _ _) (fun _ => h.bind (h.wr _ _) (fun _ => h.bind (h.wr _ _) (fun _ =>
    h.bind (h.wr _ _) (fun _ => h.bind (h.wr _ _) (fun _ => h.bind (h.clrbits _ _) (fun _ => h.wr _ _)))))))

theorem toggleLoop_keeps (n : Nat) : Op.Keeps R (toggleLoop n) := by
  induction n with
  | zero => exact h.pure _
  | succ n ih =>
    refine h.bind (h.wr _ _) (fun _ => h.bind h.pointOp (fun _ => h.bind (h.rd _) (fun b => ?_)))
    split
    · exact h.pure _
    · exact ih

theorem forcedStart_keeps (a : Addr7) : Op.Keeps R (forcedStart a) := by
  refine h.bind h.getCfg (fun _ => h.bind (h.wr _ _) (fun _ => h.bind (sendStart_keeps h _) (fun r => ?_)))
  split
  · exact h.bind h.pointOp (fun _ => h.bind (sendStop_keeps h _) (fun _ => h.bind h.pointOp (fun _ => h.logEvent _)))
  · exact h.logEvent _

theorem unstick_keeps (a : Addr7) : Op.Keeps R (unstick a) := by
  refine h.bind (toggleLoop_keeps h _) (fun d => ?_)
  split
  · exact forcedStart_keeps h a
  · exact h.logEvent _

theorem recover_keeps (a : Addr7) : Op.Keeps R (recover a) := by
  have tail : Op.Keeps R (do ctrlReset; pure Kind.ok) := h.bind (ctrlReset_keeps h) (fun _ => h.pure _)
  refine h.bind (h.rd _) (fun b => ?_)
  dsimp only
  split
  · exact tail
  · exact h.bind (unstick_keeps h a) (fun _ => tail)

theorem programSpeed_keeps (clk target : Nat) : Op.Keeps R (programSpeed clk target) :=
  h.bind (h.rd _) (fun _ => h.bind (h.wr _ _) (fun _ => h.bind (h.rd _) (fun _ => h.bind (h.wr _ _) (fun _ =>
    h.bind (h.wr _ _) (fun _ => h.bind (h.modifyX _) (fun _ => h.pure _))))))

theorem configure_keeps (target : Nat) : Op.Keeps R (configure target) := by
  refine h.bind h.getX (fun x => ?_)
  dsimp only
  split
  · exact programSpeed_keeps h _ _
  · exact h.pure _

theorem writeLoop_keeps (n : Nat) (a : BitVec 32) : Op.Keeps R (writeLoop n a) := by
  induction n generalizing a with
  | zero => exact h.pure _
  | succ n ih =>
    exact h.bind h.getCfg (fun _ => h.orReturn (pollDataReady_keeps h _) (h.bind (h.memRead a) (fun _ =>
      h.bind (h.wr _ _) (fun _ => ih _))))

theorem writeMessage_keeps (a : Addr7) (len : Nat) (base : BitVec 32) : Op.Keeps R (writeMessage a len base) := by
  refine h.bind h.getCfg (fun _ => h.orReturn (sendStart_keeps h _)
    (h.bind (h.orReturn (sendAddress_keeps h _ _) (writeLoop_keeps h _ _)) (fun _ => ?_)))
  split
  · exact h.bind (h.clrbits _ _) (fun _ => h.pure _)
  · exact h.pure _

theorem forcedStop_keeps : Op.Keeps R forcedStop := by
  refine h.bind h.getX (fun x => h.bind h.getCfg (fun c => ?_))
  split
  · exact h.bind (sendStop_keeps h _) (fun _ => h.pure _)
  · exact h.pure _

section WithMemory
variable (hm : ∀ a v, Op.Keeps R (memWrite a v))
include hm

theorem readSingle_keeps (keep : Bool) (base : BitVec 32) : Op.Keeps R (readSingle keep base) :=
  h.bind (h.setbits _ _) (fun _ => h.bind (releaseStall_keeps h keep) (fun _ => h.bind h.getCfg (fun _ =>
    h.orReturn (pollDataReady_keeps h _) (readTail_keeps h (hm base)))))

theorem readMulti_keeps (n : Nat) (a : BitVec 32) : Op.Keeps R (readMulti n a) := by
  induction n generalizing a with
  | zero => exact h.pure _
  | succ n ih =>
    cases n with
    | zero =>
      exact h.bind h.getCfg (fun _ => h.orReturn (pollAckCleared_keeps h _) (readTail_keeps h (hm a)))
    | succ n =>
      refine h.bind h.getCfg (fun _ => h.orReturn (pollDataReady_keeps h _) (h.bind (h.rd _) (fun v =>
        h.bind (hm a v) (fun _ => ?_))))
      split
      · exact h.bind (requestNackAfterRead_keeps h) (fun _ => ih _)
      · exact ih _

theorem readMessage_keeps (keep : Bool) (a : Addr7) (len : Nat) (base : BitVec 32) :
    Op.Keeps R (readMessage keep a len base) := by
  unfold readMessage
  split
  · exact h.pure _
  · refine h.bind h.getCfg (fun _ => h.orReturn (sendStart_keeps h _) (h.orReturn (sendAddress_keeps h _ _) ?_))
    unfold readData
    split
    · exact readSingle_keeps h hm keep base
    · exact readMulti_keeps h hm len base

theorem runMessage_keeps (keep : Bool) (m : Message) : Op.Keeps R (runMessage keep m) := by
  unfold runMessage
  split
  · exact readMessage_keeps h hm _ _ _ _
  · exact writeMessage_keeps h _ _ _

theorem nextMessage_keeps (before : Option Message) (m : Message) : Op.Keeps R (nextMessage before m) :=
  fun s k t e => runMessage_keeps h hm _ m s k t e

theorem runMessages_keeps (before : Option Message) (ms : List Message) : Op.Keeps R (runMessages before ms) := by
  induction ms generalizing before with
  | nil => exact h.pure _
  | cons m ms ih => exact h.bind (nextMessage_keeps h hm before m) (fun r => h.bind (ih _) (fun f => h.pure _))

theorem exchange_keeps (ms : List Message) : Op.Keeps R (exchange ms) := by
  unfold exchange
  split
  · refine h.bind (h.wr _ _) (fun _ => h.bind (runMessages_keeps h hm none ms) (fun f => h.bind (forcedStop_keeps h) (fun _ => ?_)))
    split
    · exact h.bind (recover_keeps h _) (fun _ => h.pure _)
    · exact h.pure _
  · exact h.pure _

end WithMemory

section WithInit
variable (hi : ∀ b, Op.Keeps R (setInitialised b)) (hp : ∀ m, Op.Keeps R (invokePinmux m))
include hi hp

theorem initBody_keeps (m : BitVec 8) : Op.Keeps R (initBody m) := by
  refine h.bind h.getCfg (fun c => ?_)
  split
  · exact h.pure _
  · refine h.bind (h.modifyX _) (fun _ => h.bind (hi _) (fun _ => ?_))
    split
    · exact h.pure _
    · split
      · exact h.pure _
      · exact h.bind (h.modifyX _) (fun _ => h.bind (hp _) (fun _ => h.orReturn (configure_keeps h _)
          (h.bind (h.setbits _ _) (fun _ => h.bind (h.clrbits _ _) (fun _ => h.bind (h.wr _ _) (fun _ =>
            h.bind (h.logEvent _) (fun _ => h.bind (hi _) (fun _ => h.pure _))))))))

end WithInit

/-- A body under the phase check. -/
theorem inPhase_keeps {legal : Phase → Bool} {m : Op Kind} (hm : Op.Keeps R m) : Op.Keeps R (inPhase legal m) := by
  intro s k t e
  unfold inPhase at e
  split at e
  · exact hm s k t e
  · cases e; exact h.along.refl s

theorem onRegister_keeps {reg : BitVec 4} {m : RegId → Op Kind} (hm : ∀ r, Op.Keeps R (m r)) :
    Op.Keeps R (onRegister reg m) := by
  unfold onRegister
  split
  · exact hm _
  · exact h.pure _

theorem runBody_keeps {m : Op Kind} (hm : Op.Keeps R m) {s t : State} (e : runBody m s = .next t) : R s t := by
  obtain ⟨k, u, hu, rfl⟩ := runBody_next e
  exact h.along.trans (hm s k u hu) (h.seq u _)

theorem runInitialised_keeps {m : Op Kind} (hm : Op.Keeps R m) {s t : State} (e : runInitialised m s = .next t) :
    R s t := by
  obtain ⟨-, k, u, hu, rfl⟩ := runInitialised_next e
  exact h.along.trans (hm s k u hu) (h.seq u _)

/-- Every command keeps a relation that its pieces keep. -/
theorem exec_keeps (hm : ∀ a v, Op.Keeps R (memWrite a v)) (hi : ∀ b, Op.Keeps R (setInitialised b))
    (hp : ∀ m, Op.Keeps R (invokePinmux m)) {i : Instr} {s t : State} (e : exec i s = .next t) : R s t := by
  cases i with
  | regRead reg =>
    exact runBody_keeps h (onRegister_keeps h (fun r => h.bind (h.hostRd r) (fun _ => h.bind (h.modifyX _) (fun _ => h.pure _)))) e
  | regWrite reg d => exact runBody_keeps h (onRegister_keeps h (fun r => h.bind (h.hostWr r d) (fun _ => h.pure _))) e
  | regSet reg d =>
    exact runBody_keeps h (onRegister_keeps h (fun r => h.bind (h.hostRd r) (fun _ => h.bind (h.hostWr r _) (fun _ => h.pure _)))) e
  | regClr reg d =>
    exact runBody_keeps h (onRegister_keeps h (fun r => h.bind (h.hostRd r) (fun _ => h.bind (h.hostWr r _) (fun _ => h.pure _)))) e
  | init m => exact runBody_keeps h (initBody_keeps h hi hp m) e
  | setSpeed f => exact runInitialised_keeps h (configure_keeps h _) e
  | sendStart n => exact runInitialised_keeps h (inPhase_keeps h (sendStart_keeps h _)) e
  | sendStop n => exact runInitialised_keeps h (inPhase_keeps h (sendStop_keeps h _)) e
  | sendAddress st b => exact runInitialised_keeps h (inPhase_keeps h (sendAddress_keeps h b st)) e
  | pollDataReady n => exact runInitialised_keeps h (inPhase_keeps h (pollDataReady_keeps h _)) e
  | pollAckCleared n => exact runInitialised_keeps h (inPhase_keeps h (pollAckCleared_keeps h _)) e
  | sendByte b => exact runInitialised_keeps h (inPhase_keeps h (sendByteBody_keeps h b)) e
  | recvByte f => exact runInitialised_keeps h (inPhase_keeps h (recvByteBody_keeps h f)) e
  | recvLast f => exact runInitialised_keeps h (inPhase_keeps h (recvLastBody_keeps h f)) e
  | read a l b => exact runInitialised_keeps h (readMessage_keeps h hm false a _ b) e
  | write a l b => exact runInitialised_keeps h (writeMessage_keeps h a _ b) e
  | exchange ms => exact runInitialised_keeps h (exchange_keeps h hm ms) e
  | recover a => exact runInitialised_keeps h (recover_keeps h a) e
  | ctrlReset => exact runInitialised_keeps h (h.bind (ctrlReset_keeps h) (fun _ => h.pure _)) e
  | dump => exact runBody_keeps h (h.bind (dump_keeps h) (fun _ => h.pure _)) e

end Keeps

end Sys2Proof.Machine
end

