-- ==== Sys2Proof/Laws/Completion.lean ====
section
/-! SUPPORT. Polled, every operation ends, whatever the line engine does, and leaves the engine polled
(42_primitives.md R97, 46_line_engine.md R158). -/

namespace Sys2Proof.Machine

theorem readAll_ends (rs : List RegId) : Op.Ends (readAll rs) := by
  induction rs with
  | nil => exact .pure _
  | cons r rs ih => exact .bind (.rd r) (fun _ => .bind ih (fun _ => .pure _))

theorem dump_ends : Op.Ends dump := .bind (readAll_ends _) (fun _ => .bind .getCfg (fun _ => .logEvent _))

theorem sendStart_ends (n : Nat) : Op.Ends (sendStart n) :=
  .bind (.setbits rfl) (fun _ => .orReturn (.pollOrTimeout _ _ _) (.bind (.modifyX _) (fun _ => .pure _)))

theorem stopWait_ends (n : Nat) : Op.Ends (stopWait n) := by
  refine .bind (.poll _ _ _) (fun v => .bind (.modifyX _) (fun _ => ?_))
  split
  · exact .pure _
  · exact .bind dump_ends (fun _ => .pure _)

theorem sendStop_ends (n : Nat) : Op.Ends (sendStop n) :=
  .bind (.setbits rfl) (fun _ => .bind (.wr rfl) (fun _ => .bind (.modifyX _) (fun _ =>
    .ite (.bind (.modifyX _) (fun _ => .pure _)) (stopWait_ends n))))

theorem inspectAddress_ends : Op.Ends inspectAddress := by
  refine .bind (.rd _) (fun v => ?_)
  split
  · exact .bind (.modifyX _) (fun _ => .pure _)
  · exact .pure _

theorem sendAddress_ends (b : Byte) (stall : Bool) : Op.Ends (sendAddress b stall) := by
  unfold sendAddress
  split
  · exact .bind (.setbits rfl) (fun _ => .bind (.wr rfl) (fun _ => .bind .getCfg (fun _ =>
      .bind (.poll _ _ _) (fun _ => inspectAddress_ends))))
  · exact .bind (.wr rfl) (fun _ => inspectAddress_ends)

theorem pollDataReady_ends (n : Nat) : Op.Ends (pollDataReady n) := .bind (.modifyX _) (fun _ => .pollOrTimeout _ _ _)

theorem pollAckCleared_ends (n : Nat) : Op.Ends (pollAckCleared n) := .bind (.modifyX _) (fun _ => .pollOrTimeout _ _ _)

theorem requestNackAfterRead_ends : Op.Ends requestNackAfterRead := by
  intro s h
  unfold requestNackAfterRead
  rw [Op.bind_eq (getCfg_run s)]
  split
  · rw [Op.bind_eq (rdNow_run _ s), wrNow_run]
    have hr := readValue_staysPolled h .ctl1
    have hv : staysPolled .ctl1 (readValue s .ctl1 ||| Flag.mask .ack) = true := by
      revert hr
      simp +contextual [staysPolled, Flag.isSet, Flag.bit, Flag.mask]
    have hp : ((afterRead s .ctl1).pushAcc (.rd .ctl1 (readValue s .ctl1))).polled := afterRead_polled h .ctl1
    exact ⟨(), _, rfl, afterWrite_polled hp hv⟩
  · exact Op.Ends.setbits (by decide) s h

theorem releaseStall_ends (keep : Bool) : Op.Ends (releaseStall keep) := by
  intro s h
  obtain ⟨u, hu⟩ := lePoint_polled h
  have hp := lePoint_keeps_polled h hu
  unfold releaseStall
  rw [Op.bind_eq (rd_eq hu .ctl1)]
  have hr := readValue_staysPolled hp .ctl1
  refine Op.Ends.ite (.bind (.wr ?_) (fun _ => .ite (.pure _) (.wr rfl))) (.pure _) _ (afterRead_polled hp .ctl1)
  revert hr
  simp +contextual [staysPolled, Flag.isSet, Flag.bit, Flag.mask]

theorem readTail_ends {store : Byte → Op Unit} (hs : ∀ v, Op.Ends (store v)) : Op.Ends (readTail store) :=
  .bind (sendStop_ends 0) (fun _ => .bind (.rd _) (fun v => .bind (hs v) (fun _ => .bind (.wr rfl) (fun _ => .pure _))))

theorem sendByteBody_ends (b : Byte) : Op.Ends (sendByteBody b) :=
  .bind .getCfg (fun _ => .orReturn (pollDataReady_ends _) (.bind (.wr rfl) (fun _ => .pure _)))

theorem recvByteBody_ends (f : Bool) : Op.Ends (recvByteBody f) := by
  refine .bind .getCfg (fun _ => .orReturn (pollDataReady_ends _)
    (.bind (.rd _) (fun v => .bind (.modifyX _) (fun _ => ?_))))
  split
  · exact .bind requestNackAfterRead_ends (fun _ => .pure _)
  · exact .pure _

theorem recvLastBody_ends (f : Bool) : Op.Ends (recvLastBody f) :=
  .bind .getCfg (fun _ => .orReturn (.ite (pollAckCleared_ends _) (pollDataReady_ends _)) (readTail_ends (fun _ => .modifyX _)))

theorem ctrlReset_ends : Op.Ends ctrlReset :=
  .bind (.clrbits _) (fun _ => .bind (.setbits rfl) (fun _ => .bind (.wr rfl) (fun _ => .bind (.wr rfl) (fun _ =>
    .bind (.wr rfl) (fun _ => .bind (.wr rfl) (fun _ => .bind (.clrbits _) (fun _ => .wr (by decide))))))))

theorem toggleLoop_ends (n : Nat) : Op.Ends (toggleLoop n) := by
  induction n with
  | zero => exact .pure _
  | succ n ih => exact .bind (.wr rfl) (fun _ => .bind .point (fun _ => .bind (.rd _) (fun _ => .ite (.pure _) ih)))

theorem forcedStart_ends (a : Addr7) : Op.Ends (forcedStart a) :=
  .bind .getCfg (fun _ => .bind (.wr rfl) (fun _ => .bind (sendStart_ends _) (fun _ =>
    .ite (.bind .point (fun _ => .bind (sendStop_ends 0) (fun _ => .bind .point (fun _ => .logEvent _)))) (.logEvent _))))

theorem unstick_ends (a : Addr7) : Op.Ends (unstick a) :=
  .bind (toggleLoop_ends _) (fun _ => .ite (forcedStart_ends a) (.logEvent _))

theorem recover_ends (a : Addr7) : Op.Ends (recover a) := by
  have tail : Op.Ends (do ctrlReset; pure Kind.ok) := .bind ctrlReset_ends (fun _ => .pure _)
  refine .bind (.rd _) (fun b => ?_)
  dsimp only
  exact .ite tail (.bind (unstick_ends a) (fun _ => tail))

theorem programSpeed_ends (clk target : Nat) : Op.Ends (programSpeed clk target) :=
  .bind (.rd _) (fun _ => .bind (.wr rfl) (fun _ => .bind (.rd _) (fun _ => .bind (.wr rfl) (fun _ =>
    .bind (.wr rfl) (fun _ => .bind (.modifyX _) (fun _ => .pure _))))))

theorem configure_ends (target : Nat) : Op.Ends (configure target) := by
  refine .bind .getX (fun x => ?_)
  dsimp only
  split
  · exact programSpeed_ends _ _
  · exact .pure _

theorem setInitialised_ends (b : Bool) : Op.Ends (setInitialised b) := fun _ h => ⟨(), _, rfl, h⟩

theorem invokePinmux_ends (m : BitVec 8) : Op.Ends (invokePinmux m) := fun _ h => ⟨(), _, rfl, h⟩

theorem initBody_ends (m : BitVec 8) : Op.Ends (initBody m) := by
  refine .bind .getCfg (fun c => .ite (.pure _) (.bind (.modifyX _) (fun _ => .bind (setInitialised_ends _) (fun _ => ?_))))
  split
  · exact .pure _
  · exact .ite (.pure _) (.bind (.modifyX _) (fun _ => .bind (invokePinmux_ends _) (fun _ => .orReturn (configure_ends _)
      (.bind (.setbits rfl) (fun _ => .bind (.clrbits _) (fun _ => .bind (.wr (by decide)) (fun _ =>
        .bind (.logEvent _) (fun _ => .bind (setInitialised_ends _) (fun _ => .pure _)))))))))

theorem readSingle_ends (keep : Bool) (base : BitVec 32) : Op.Ends (readSingle keep base) :=
  .bind (.setbits (by decide)) (fun _ => .bind (releaseStall_ends keep) (fun _ => .bind .getCfg (fun _ =>
    .orReturn (pollDataReady_ends _) (readTail_ends (fun _ => .memWrite _ _)))))

theorem readMulti_ends (n : Nat) (a : BitVec 32) : Op.Ends (readMulti n a) := by
  induction n generalizing a with
  | zero => exact .pure _
  | succ n ih =>
    cases n with
    | zero => exact .bind .getCfg (fun _ => .orReturn (pollAckCleared_ends _) (readTail_ends (fun _ => .memWrite _ _)))
    | succ n =>
      refine .bind .getCfg (fun _ => .orReturn (pollDataReady_ends _) (.bind (.rd _) (fun v =>
        .bind (.memWrite a v) (fun _ => ?_))))
      split
      · exact .bind requestNackAfterRead_ends (fun _ => ih _)
      · exact ih _

theorem readMessage_ends (keep : Bool) (a : Addr7) (len : Nat) (base : BitVec 32) :
    Op.Ends (readMessage keep a len base) :=
  .ite (.pure _) (.bind .getCfg (fun _ => .orReturn (sendStart_ends _) (.orReturn (sendAddress_ends _ _)
    (.ite (readSingle_ends keep base) (readMulti_ends len base)))))

theorem writeLoop_ends (n : Nat) (a : BitVec 32) : Op.Ends (writeLoop n a) := by
  induction n generalizing a with
  | zero => exact .pure _
  | succ n ih =>
    exact .bind .getCfg (fun _ => .orReturn (pollDataReady_ends _) (.bind (.memRead a) (fun _ =>
      .bind (.wr rfl) (fun _ => ih _))))

theorem writeMessage_ends (a : Addr7) (len : Nat) (base : BitVec 32) : Op.Ends (writeMessage a len base) := by
  refine .bind .getCfg (fun _ => .orReturn (sendStart_ends _)
    (.bind (.orReturn (sendAddress_ends _ _) (writeLoop_ends _ _)) (fun _ => ?_)))
  split
  · exact .bind (.clrbits _) (fun _ => .pure _)
  · exact .pure _

theorem runMessage_ends (keep : Bool) (m : Message) : Op.Ends (runMessage keep m) := by
  unfold runMessage
  split
  · exact readMessage_ends _ _ _ _
  · exact writeMessage_ends _ _ _

theorem nextMessage_ends (before : Option Message) (m : Message) : Op.Ends (nextMessage before m) :=
  fun s h => runMessage_ends _ m s h

theorem runMessages_ends (before : Option Message) (ms : List Message) : Op.Ends (runMessages before ms) := by
  induction ms generalizing before with
  | nil => exact .pure _
  | cons m ms ih => exact .bind (nextMessage_ends before m) (fun _ => .bind (ih _) (fun _ => .pure _))

theorem forcedStop_ends : Op.Ends forcedStop := by
  refine .bind .getX (fun x => .bind .getCfg (fun c => ?_))
  split
  · exact .bind (sendStop_ends _) (fun _ => .pure _)
  · exact .pure _

theorem exchange_ends (ms : List Message) : Op.Ends (exchange ms) :=
  .ite (.bind (.wr rfl) (fun _ => .bind (runMessages_ends none ms) (fun _ => .bind forcedStop_ends (fun _ =>
    .ite (.bind (recover_ends _) (fun _ => .pure _)) (.pure _))))) (.pure _)

/-- A body under the phase check. -/
theorem inPhase_ends {legal : Phase → Bool} {m : Op Kind} (hm : Op.Ends m) : Op.Ends (inPhase legal m) := by
  intro s h
  unfold inPhase
  split
  · exact hm s h
  · exact ⟨_, s, rfl, h⟩

/-- A refused phase: `InvalidArgument` and nothing else (10_state.md R17). -/
theorem inPhase_illegal {legal : Phase → Bool} {m : Op Kind} {s : State} (h : legal s.x.phase = false) :
    inPhase legal m s = .ok (.invalidArgument, s) := by
  unfold inPhase; rw [if_neg (by simp [h])]

theorem inPhase_legal {legal : Phase → Bool} {m : Op Kind} {s : State} (h : legal s.x.phase = true) :
    inPhase legal m s = m s := by
  unfold inPhase; rw [if_pos h]

/-- A command that needs an INIT, after one, from the body's run. -/
theorem runInitialised_eq {m : Op Kind} {s t : State} {k : Kind} (hi : s.initialised = true) (h : m s = .ok (k, t)) :
    runInitialised m s = .next (t.setResult k) := by
  unfold runInitialised runBody; rw [if_pos hi, h]

theorem runBody_eq {m : Op Kind} {s t : State} {k : Kind} (h : m s = .ok (k, t)) : runBody m s = .next (t.setResult k) := by
  unfold runBody; rw [h]

end Sys2Proof.Machine
end

