-- ==== Sys2Proof/Laws/Decode.lean ====
section
/-! SUPPORT. The fields of the words the encoder builds, and that such a word selects its own row (30_encoding.md R65 to
R77). -/

namespace Sys2Proof

/-! ## The opcode -/

section Opc
variable (o : Opcode)

theorem opc_wordR (reg : BitVec 4) (d : Byte) : opc (wordR o reg d) = o.code := by
  apply BitVec.eq_of_getLsbD_eq; intro i hi
  simp only [opc, wordR, BitVec.getLsbD_extractLsb', BitVec.getLsbD_append]
  interval_cases i <;> simp

theorem opc_wordB (b : Byte) : opc (wordB o b) = o.code := by
  apply BitVec.eq_of_getLsbD_eq; intro i hi
  simp only [opc, wordB, BitVec.getLsbD_extractLsb', BitVec.getLsbD_append]
  interval_cases i <;> simp

theorem opc_wordT (v : BitVec 24) : opc (wordT o v) = o.code := by
  apply BitVec.eq_of_getLsbD_eq; intro i hi
  simp only [opc, wordT, BitVec.getLsbD_extractLsb', BitVec.getLsbD_append]
  interval_cases i <;> simp

theorem opc_wordA (st : Bool) (b : Byte) : opc (wordA o st b) = o.code := by
  apply BitVec.eq_of_getLsbD_eq; intro i hi
  simp only [opc, wordA, BitVec.getLsbD_extractLsb', BitVec.getLsbD_append]
  interval_cases i <;> simp

theorem opc_wordN (f : Bool) : opc (wordN o f) = o.code := by
  apply BitVec.eq_of_getLsbD_eq; intro i hi
  simp only [opc, wordN, BitVec.getLsbD_extractLsb', BitVec.getLsbD_append]
  interval_cases i <;> simp

theorem opc_wordM (a : Addr7) (l : BitVec 16) : opc (wordM o a l) = o.code := by
  apply BitVec.eq_of_getLsbD_eq; intro i hi
  simp only [opc, wordM, BitVec.getLsbD_extractLsb', BitVec.getLsbD_append]
  interval_cases i <;> simp

theorem opc_wordV (a : Addr7) : opc (wordV o a) = o.code := by
  apply BitVec.eq_of_getLsbD_eq; intro i hi
  simp only [opc, wordV, BitVec.getLsbD_extractLsb', BitVec.getLsbD_append]
  interval_cases i <;> simp

theorem opc_wordZ : opc (wordZ o) = o.code := by
  apply BitVec.eq_of_getLsbD_eq; intro i hi
  simp only [opc, wordZ, BitVec.getLsbD_extractLsb', BitVec.getLsbD_append]
  interval_cases i <;> simp

/-- A row is found by its code. -/
theorem Opcode.ofCode_code : Opcode.ofCode o.code = some o := by cases o <;> rfl

end Opc

/-! ## A word built for a row selects it -/

section Selects

theorem selects_regRead (reg : BitVec 4) : Opcode.regRead.selects (wordR .regRead reg 0) = true := by
  rw [Opcode.selects, beq_iff_eq]
  apply BitVec.eq_of_getLsbD_eq; intro i hi
  simp only [wordR, BitVec.getLsbD_and, BitVec.getLsbD_append]
  interval_cases i <;> simp [Opcode.mask, Opcode.pattern, Opcode.code]

theorem selects_wordR (o : Opcode) (h : o = .regWrite ∨ o = .regSet ∨ o = .regClr) (reg : BitVec 4) (d : Byte) :
    o.selects (wordR o reg d) = true := by
  rw [Opcode.selects, beq_iff_eq]
  apply BitVec.eq_of_getLsbD_eq; intro i hi
  simp only [wordR, BitVec.getLsbD_and, BitVec.getLsbD_append]
  rcases h with rfl | rfl | rfl <;> interval_cases i <;> simp [Opcode.mask, Opcode.pattern, Opcode.code]

theorem selects_wordB (o : Opcode) (h : o = .init ∨ o = .sendByte ∨ o = .exchange) (b : Byte) :
    o.selects (wordB o b) = true := by
  rw [Opcode.selects, beq_iff_eq]
  apply BitVec.eq_of_getLsbD_eq; intro i hi
  simp only [wordB, BitVec.getLsbD_and, BitVec.getLsbD_append]
  rcases h with rfl | rfl | rfl <;> interval_cases i <;> simp [Opcode.mask, Opcode.pattern, Opcode.code]

theorem selects_wordT (o : Opcode)
    (h : o = .setSpeed ∨ o = .sendStart ∨ o = .sendStop ∨ o = .pollDataReady ∨ o = .pollAckCleared) (v : BitVec 24) :
    o.selects (wordT o v) = true := by
  rw [Opcode.selects, beq_iff_eq]
  apply BitVec.eq_of_getLsbD_eq; intro i hi
  simp only [wordT, BitVec.getLsbD_and, BitVec.getLsbD_append]
  rcases h with rfl | rfl | rfl | rfl | rfl <;> interval_cases i <;> simp [Opcode.mask, Opcode.pattern, Opcode.code]

theorem selects_wordA (st : Bool) (b : Byte) : Opcode.sendAddress.selects (wordA .sendAddress st b) = true := by
  rw [Opcode.selects, beq_iff_eq]
  apply BitVec.eq_of_getLsbD_eq; intro i hi
  simp only [wordA, BitVec.getLsbD_and, BitVec.getLsbD_append]
  interval_cases i <;> simp [Opcode.mask, Opcode.pattern, Opcode.code]

theorem selects_wordN (o : Opcode) (h : o = .recvByte ∨ o = .recvLast) (f : Bool) : o.selects (wordN o f) = true := by
  rw [Opcode.selects, beq_iff_eq]
  apply BitVec.eq_of_getLsbD_eq; intro i hi
  simp only [wordN, BitVec.getLsbD_and, BitVec.getLsbD_append]
  rcases h with rfl | rfl <;> interval_cases i <;> simp [Opcode.mask, Opcode.pattern, Opcode.code]

theorem selects_wordM (o : Opcode) (h : o = .read ∨ o = .write) (a : Addr7) (l : BitVec 16) :
    o.selects (wordM o a l) = true := by
  rw [Opcode.selects, beq_iff_eq]
  apply BitVec.eq_of_getLsbD_eq; intro i hi
  simp only [wordM, BitVec.getLsbD_and, BitVec.getLsbD_append]
  rcases h with rfl | rfl <;> interval_cases i <;> simp [Opcode.mask, Opcode.pattern, Opcode.code]

theorem selects_wordV (a : Addr7) : Opcode.recover.selects (wordV .recover a) = true := by
  rw [Opcode.selects, beq_iff_eq]
  apply BitVec.eq_of_getLsbD_eq; intro i hi
  simp only [wordV, BitVec.getLsbD_and, BitVec.getLsbD_append]
  interval_cases i <;> simp [Opcode.mask, Opcode.pattern, Opcode.code]

theorem selects_wordZ (o : Opcode) (h : o = .ctrlReset ∨ o = .dump) : o.selects (wordZ o) = true := by
  rcases h with rfl | rfl <;> decide

/-- A row is selected only by words with its code: the mask covers `OPC` (R76). -/
theorem opc_of_selects {o : Opcode} {w : Word} (h : o.selects w = true) : opc w = o.code := by
  rw [Opcode.selects, beq_iff_eq] at h
  have key : (w &&& o.mask).extractLsb' 24 8 = o.pattern.extractLsb' 24 8 := by rw [h]
  rw [BitVec.extractLsb'_and] at key
  have hm : o.mask.extractLsb' 24 8 = BitVec.allOnes 8 := by cases o <;> rfl
  have hp : o.pattern.extractLsb' 24 8 = o.code := by cases o <;> rfl
  rw [hm, hp, BitVec.and_allOnes] at key
  exact key

/-- No word selects two rows (R76). -/
theorem selects_unique {o p : Opcode} {w : Word} (h : o.selects w = true) (k : p.selects w = true) : o = p := by
  have := (opc_of_selects h).symm.trans (opc_of_selects k)
  have hc := congrArg Opcode.ofCode this
  rw [Opcode.ofCode_code, Opcode.ofCode_code] at hc
  exact Option.some.inj hc

end Selects

/-! ## The operand fields -/

section Fields
variable (o : Opcode)

theorem reg_wordR (reg : BitVec 4) (d : Byte) : (wordR o reg d).extractLsb' 16 4 = reg := by
  apply BitVec.eq_of_getLsbD_eq; intro i hi
  simp only [wordR, BitVec.getLsbD_extractLsb', BitVec.getLsbD_append]
  interval_cases i <;> simp

theorem data_wordR (reg : BitVec 4) (d : Byte) : (wordR o reg d).extractLsb' 0 8 = d := by
  apply BitVec.eq_of_getLsbD_eq; intro i hi
  simp only [wordR, BitVec.getLsbD_extractLsb', BitVec.getLsbD_append]
  interval_cases i <;> simp

theorem byte_wordB (b : Byte) : (wordB o b).extractLsb' 0 8 = b := by
  apply BitVec.eq_of_getLsbD_eq; intro i hi
  simp only [wordB, BitVec.getLsbD_extractLsb', BitVec.getLsbD_append]
  interval_cases i <;> simp

theorem value_wordT (v : BitVec 24) : (wordT o v).extractLsb' 0 24 = v := by
  apply BitVec.eq_of_getLsbD_eq; intro i hi
  simp only [wordT, BitVec.getLsbD_extractLsb', BitVec.getLsbD_append]
  interval_cases i <;> simp

theorem byte_wordA (st : Bool) (b : Byte) : (wordA o st b).extractLsb' 0 8 = b := by
  apply BitVec.eq_of_getLsbD_eq; intro i hi
  simp only [wordA, BitVec.getLsbD_extractLsb', BitVec.getLsbD_append]
  interval_cases i <;> simp

theorem stall_wordA (st : Bool) (b : Byte) : (wordA o st b).getLsbD 8 = st := by
  simp only [wordA, BitVec.getLsbD_append]
  simp

theorem flag_wordN (f : Bool) : (wordN o f).getLsbD 0 = f := by
  simp only [wordN, BitVec.getLsbD_append]
  simp

theorem addr_wordM (a : Addr7) (l : BitVec 16) : (wordM o a l).extractLsb' 16 7 = a := by
  apply BitVec.eq_of_getLsbD_eq; intro i hi
  simp only [wordM, BitVec.getLsbD_extractLsb', BitVec.getLsbD_append]
  interval_cases i <;> simp

theorem len_wordM (a : Addr7) (l : BitVec 16) : (wordM o a l).extractLsb' 0 16 = l := by
  apply BitVec.eq_of_getLsbD_eq; intro i hi
  simp only [wordM, BitVec.getLsbD_extractLsb', BitVec.getLsbD_append]
  interval_cases i <;> simp

theorem addr_wordV (a : Addr7) : (wordV o a).extractLsb' 16 7 = a := by
  apply BitVec.eq_of_getLsbD_eq; intro i hi
  simp only [wordV, BitVec.getLsbD_extractLsb', BitVec.getLsbD_append]
  interval_cases i <;> simp

end Fields

/-! ## Descriptors and lengths -/

/-- A descriptor built for a message is read as that message (R73). -/
theorem decodeDescriptor_encode (m : Message) :
    decodeDescriptor (wordM m.dir.opcode m.addr m.len) m.base = some m := by
  obtain ⟨d, a, l, b⟩ := m
  cases d
  · simp only [decodeDescriptor, MsgDir.opcode, selects_wordM .read (.inl rfl), if_true, messageOf, addr_wordM, len_wordM]
  · have hn : Opcode.read.selects (wordM .write a l) = false := by
      by_contra h
      have := selects_unique (selects_wordM .write (.inr rfl) a l) (by simpa using h)
      cases this
    simp [decodeDescriptor, MsgDir.opcode, selects_wordM .write (.inr rfl), hn, messageOf, addr_wordM, len_wordM]

theorem decodeDescriptors_encode (ms : List Message) (rest : List Word) :
    decodeDescriptors ms.length (ms.flatMap encodeMessage ++ rest) = some ms := by
  induction ms with
  | nil => rfl
  | cons m ms ih =>
    show decodeDescriptors (ms.length + 1) (wordM m.dir.opcode m.addr m.len :: m.base :: (ms.flatMap encodeMessage ++ rest)) = _
    unfold decodeDescriptors
    rw [decodeDescriptor_encode, ih]

theorem length_flatMap_encode (ms : List Message) : (ms.flatMap encodeMessage).length = 2 * ms.length := by
  induction ms with
  | nil => rfl
  | cons m ms ih =>
    show (wordM m.dir.opcode m.addr m.len :: m.base :: ms.flatMap encodeMessage).length = _
    simp only [List.length_cons, ih]; omega

/-- The rows other than READ, WRITE and EXCHANGE are one word long (R79). -/
theorem cmdLength_one {w : Word} {o : Opcode} (h : opc w = o.code) (h1 : o ≠ .read) (h2 : o ≠ .write) (h3 : o ≠ .exchange) :
    cmdLength w = 1 := by
  have inj : ∀ p : Opcode, o ≠ p → ¬o.code = p.code := fun p hp hc => hp (by
    have := congrArg Opcode.ofCode hc
    rw [Opcode.ofCode_code, Opcode.ofCode_code] at this
    exact Option.some.inj this)
  unfold cmdLength
  rw [h, if_neg (inj _ h1), if_neg (inj _ h2), if_neg (inj _ h3)]

theorem cmdLength_read {w : Word} (h : opc w = Opcode.read.code) : cmdLength w = 2 := by
  unfold cmdLength; rw [if_pos h]

theorem cmdLength_write {w : Word} (h : opc w = Opcode.write.code) : cmdLength w = 2 := by
  unfold cmdLength; rw [h, if_neg (by decide), if_pos rfl]

theorem cmdLength_exchange {w : Word} (h : opc w = Opcode.exchange.code) : cmdLength w = 1 + 2 * countField w := by
  unfold cmdLength; rw [h, if_neg (by decide), if_neg (by decide), if_pos rfl]

/-- A complete command whose first word selects a row is read by that row's operands (R76, R77). -/
theorem decode_of_selects {o : Opcode} {w : Word} {rest : List Word} {i : Instr} (h : o.selects w = true)
    (hl : cmdLength w ≤ rest.length + 1) (hi : decodeOperands o w rest = some i) :
    decode (w :: rest) = .command i (cmdLength w) := by
  have hn : ¬rest.length + 1 < cmdLength w := by omega
  have hw : decodeWhole w rest = .command i (cmdLength w) := by
    unfold decodeWhole; rw [opc_of_selects h, Opcode.ofCode_code]; dsimp only; rw [if_pos h, hi]
  unfold decode; dsimp only; rw [if_neg hn, hw]

/-! ## Whole programs (R79) -/

theorem cmdLength_pos (w : Word) : 0 < cmdLength w := by
  unfold cmdLength; split
  · decide
  · split
    · decide
    · split
      · omega
      · decide

/-- More fuel than words changes nothing. -/
theorem wholeCommands_fuel (n m : Nat) (ws : List Word) (hn : ws.length ≤ n) (hm : ws.length ≤ m) :
    wholeCommands n ws = wholeCommands m ws := by
  induction n generalizing m ws with
  | zero =>
    have : ws = [] := List.eq_nil_of_length_eq_zero (by omega)
    subst this; cases m <;> rfl
  | succ n ih =>
    cases ws with
    | nil => cases m <;> rfl
    | cons w rest =>
      obtain ⟨k, rfl⟩ : ∃ k, m = k + 1 := ⟨m - 1, by simp only [List.length_cons] at hm; omega⟩
      unfold wholeCommands
      have hp := cmdLength_pos w
      have hd : ((w :: rest).drop (cmdLength w)).length ≤ rest.length := by
        rw [List.length_drop, List.length_cons]; omega
      simp only [List.length_cons] at hn hm
      rw [ih k _ (by omega) (by omega)]

/-- A list of words is a program exactly when its first command is complete and what follows it is a program. -/
theorem wholeProgram_cons (w : Word) (rest : List Word) :
    wholeProgram (w :: rest) =
      (decide (cmdLength w ≤ rest.length + 1) && wholeProgram ((w :: rest).drop (cmdLength w))) := by
  unfold wholeProgram
  rw [List.length_cons, wholeCommands]
  congr 1
  have hp := cmdLength_pos w
  apply wholeCommands_fuel
  · rw [List.length_drop, List.length_cons]; omega
  · exact Nat.le_refl _

end Sys2Proof
end

