-- ==== Sys2Proof/Laws/Memory.lean ====
section
/-! SUPPORT. The laws of `BUF`: reads after writes, and that a write keeps the canonical form. -/

namespace Sys2Proof.Machine

theorem Memory.read_entry (a : Nat) (v : Byte) (m : Memory) (b : Nat) (h : m.read a = Memory.unlisted) :
    (Memory.entry a v m).read b = if a = b then v else m.read b := by
  unfold Memory.entry
  split
  · rename_i hv; split
    · rename_i hab; rw [← hab, h, hv]
    · rfl
  · rfl

/-- An address below every listed one reads as unlisted. -/
theorem Memory.read_of_lt (m : Memory) (a : Nat) (h : ∀ c ∈ m, a < c.1) : m.read a = Memory.unlisted := by
  induction m with
  | nil => rfl
  | cons c m ih =>
    obtain ⟨b, w⟩ := c
    have hb : a < b := h (b, w) List.mem_cons_self
    have : b ≠ a := by omega
    simp only [Memory.read, if_neg this]
    exact ih (fun d hd => h d (List.mem_cons_of_mem _ hd))

/-- A read after a write: the written byte at the written address, what was there everywhere else. -/
theorem Memory.read_write (m : Memory) (hm : m.wf) (a : Nat) (v : Byte) (b : Nat) :
    (m.write a v).read b = if a = b then v else m.read b := by
  induction m with
  | nil => exact Memory.read_entry a v [] b rfl
  | cons c m ih =>
    obtain ⟨d, w⟩ := c
    have hp := List.pairwise_cons.1 hm.1
    have htl : Memory.wf m := ⟨hp.2, fun e he => hm.2 e (List.mem_cons_of_mem _ he)⟩
    unfold Memory.write
    split
    · rename_i hlt
      refine Memory.read_entry a v _ b (Memory.read_of_lt _ _ ?_)
      intro e he
      rcases List.mem_cons.1 he with rfl | he
      · exact hlt
      · exact lt_trans hlt (hp.1 e he)
    · split
      · rename_i hnlt hda
        subst hda
        rw [Memory.read_entry a v m b (Memory.read_of_lt _ _ hp.1)]
        split
        · rfl
        · rename_i hne; simp [Memory.read, hne]
      · rename_i hnlt hne
        simp only [Memory.read, ih htl]
        by_cases hdb : d = b
        · have : a ≠ b := by omega
          simp [hdb, this]
        · simp [hdb]

theorem Memory.read_entry_ne (a : Nat) (v : Byte) (m : Memory) (b : Nat) (h : a ≠ b) :
    (Memory.entry a v m).read b = m.read b := by
  unfold Memory.entry
  split
  · rfl
  · simp [Memory.read, h]

/-- A write leaves every other address as it was, whatever the list. -/
theorem Memory.read_write_ne (m : Memory) (a : Nat) (v : Byte) (b : Nat) (h : a ≠ b) :
    (m.write a v).read b = m.read b := by
  induction m with
  | nil => exact Memory.read_entry_ne a v [] b h
  | cons c m ih =>
    obtain ⟨d, w⟩ := c
    unfold Memory.write
    split
    · exact Memory.read_entry_ne a v _ b h
    · split
      · rename_i hd; subst hd
        rw [Memory.read_entry_ne a v m b h]; simp [Memory.read, h]
      · simp [Memory.read, ih]

theorem Memory.entry_mem {a : Nat} {v : Byte} {m : Memory} {c : Host.Cell} (h : c ∈ Memory.entry a v m) :
    c = (a, v) ∧ v ≠ Memory.unlisted ∨ c ∈ m := by
  unfold Memory.entry at h
  split at h
  · exact .inr h
  · rename_i hv; rcases List.mem_cons.1 h with h | h
    · exact .inl ⟨h, hv⟩
    · exact .inr h

theorem Memory.write_mem {m : Memory} {a : Nat} {v : Byte} {c : Host.Cell} (h : c ∈ m.write a v) :
    c = (a, v) ∧ v ≠ Memory.unlisted ∨ c ∈ m := by
  induction m with
  | nil => exact Memory.entry_mem h
  | cons d m ih =>
    obtain ⟨b, w⟩ := d
    unfold Memory.write at h
    split at h
    · exact Memory.entry_mem h
    · split at h
      · rcases Memory.entry_mem h with h | h
        · exact .inl h
        · exact .inr (List.mem_cons_of_mem _ h)
      · rcases List.mem_cons.1 h with h | h
        · exact .inr (h ▸ List.mem_cons_self)
        · rcases ih h with h | h
          · exact .inl h
          · exact .inr (List.mem_cons_of_mem _ h)

theorem Memory.entry_pairwise {a : Nat} {v : Byte} {m : Memory} (hm : m.Pairwise (fun c d => c.1 < d.1))
    (h : ∀ c ∈ m, a < c.1) : (Memory.entry a v m).Pairwise (fun c d => c.1 < d.1) := by
  unfold Memory.entry
  split
  · exact hm
  · exact List.pairwise_cons.2 ⟨h, hm⟩

/-- A write keeps the canonical form. -/
theorem Memory.write_wf (m : Memory) (hm : m.wf) (a : Nat) (ha : a < 2 ^ 32) (v : Byte) : (m.write a v).wf := by
  refine ⟨?_, fun c hc => ?_⟩
  · have hm1 := hm.1
    clear hm
    induction m with
    | nil => exact Memory.entry_pairwise List.Pairwise.nil (fun _ h => absurd h List.not_mem_nil)
    | cons d m ih =>
      obtain ⟨b, w⟩ := d
      have hp := List.pairwise_cons.1 hm1
      unfold Memory.write
      split
      · rename_i hlt
        refine Memory.entry_pairwise hm1 (fun c hc => ?_)
        rcases List.mem_cons.1 hc with rfl | hc
        · exact hlt
        · exact lt_trans hlt (hp.1 c hc)
      · split
        · rename_i hab; subst hab
          exact Memory.entry_pairwise hp.2 hp.1
        · refine List.pairwise_cons.2 ⟨fun c hc => ?_, ih hp.2⟩
          rcases Memory.write_mem hc with ⟨rfl, -⟩ | hc
          · show b < a; omega
          · exact hp.1 c hc
  · rcases Memory.write_mem hc with ⟨rfl, hv⟩ | hc
    · exact ⟨ha, hv⟩
    · exact hm.2 c hc

end Sys2Proof.Machine
end

