-- ==== Sys2Proof/Laws/Invariant.lean ====
section
/-! SUPPORT. The hardware part of the invariant (no reserved bit set, a line engine that hangs together) and the canonical
form of `BUF` are kept by everything a command does. -/

namespace Sys2Proof.Machine

/-! ## No reserved bit is set -/

theorem reservedZero_data (h : HwRegs) (v : Byte) : ({ h with data := v } : HwRegs).reservedZero = h.reservedZero := rfl

theorem reservedZero_effect (e : LeEvent) (s : State) (h : s.reg.reservedZero = true) :
    (e.effect s).reg.reservedZero = true := by
  have key : ∀ (t : State) (f : Flag) (b : Bool), t.reg.reservedZero = true → (t.setFlag f b).reg.reservedZero = true :=
    reservedZero_setFlag
  cases e with
  | startDone => exact key _ _ _ (key _ _ _ (key _ _ _ h))
  | ber m => exact key _ _ _ (key _ _ _ (key _ _ _ h))
  | addrAck =>
    show (effAddrAck s).reg.reservedZero = true
    unfold effAddrAck; split
    · exact h
    · dsimp only; split
      · exact key _ _ _ h
      · exact h
  | addrNack =>
    show (effAddrNack s).reg.reservedZero = true
    unfold effAddrNack; split
    · exact h
    · exact key _ _ _ h
  | txReady => exact key _ _ _ h
  | txAck =>
    show (effTxAck s).reg.reservedZero = true
    unfold effTxAck; split <;> exact h
  | txNack =>
    show (effTxNack s).reg.reservedZero = true
    unfold effTxNack; split
    · exact h
    · exact key _ _ _ h
  | rxByte b =>
    have hd : (s.withReg { s.reg with data := b }).reg.reservedZero = true := h
    show (effRxByte b s).reg.reservedZero = true
    unfold effRxByte; dsimp only; split
    · exact key _ _ _ (key _ _ _ hd)
    · exact key _ _ _ hd
  | stopDone eo =>
    show (effStopDone eo s).reg.reservedZero = true
    unfold effStopDone; dsimp only; split
    · exact key _ _ _ (key _ _ _ (key _ _ _ (key _ _ _ h)))
    · exact key _ _ _ h
  | lines c d => exact h
  | foreign b eo => exact key _ _ _ (key _ _ _ h)

theorem and_not_self (v m : Byte) : v &&& m &&& ~~~m = 0 := by
  apply BitVec.eq_of_getLsbD_eq; intro i hi; simp [hi]

theorem and_not_of_and (v w m : Byte) (h : v &&& ~~~m = 0) : v &&& w &&& ~~~m = 0 := by
  rw [BitVec.and_assoc, BitVec.and_comm w, ← BitVec.and_assoc, h]; simp

theorem reservedZero_afterRead (s : State) (r : RegId) (h : s.reg.reservedZero = true) :
    (afterRead s r).reg.reservedZero = true := by
  cases r
  case data =>
    show (afterReadData s).reg.reservedZero = true
    unfold afterReadData; dsimp only
    have := reservedZero_setFlag s .sdast false h
    split <;> exact this
  case brc =>
    show (if s.flag .master then s.withDraws (s.draws + 1) else s).reg.reservedZero = true
    split <;> exact h
  all_goals exact h

theorem reservedZero_afterWrite (s : State) (r : RegId) (v : Byte) (h : s.reg.reservedZero = true) :
    (afterWrite s r v).reg.reservedZero = true := by
  have hh := h
  unfold HwRegs.reservedZero at hh
  simp only [Bool.and_eq_true, beq_iff_eq] at hh
  obtain ⟨⟨⟨⟨⟨h1, h2⟩, h3⟩, h4⟩, h5⟩, h6⟩ := hh
  cases r
  case data =>
    have hd : (s.withReg { s.reg with data := v }).reg.reservedZero = true := h
    exact reservedZero_setFlag _ _ _ hd
  case ctl2 =>
    have hs : (writeStorage s .ctl2 v).reg.reservedZero = true := h
    show (writeCtl2 s v).reg.reservedZero = true
    unfold writeCtl2; dsimp only; split
    · exact reservedZero_setFlag _ _ _ (reservedZero_setFlag _ _ _ (reservedZero_setFlag _ _ _ (reservedZero_setFlag _ _ _ hs)))
    · exact hs
  case brc =>
    show (writeBrc s v).reg.reservedZero = true
    unfold writeBrc togglePulse; split
    · split <;> exact h
    · exact h
  case b1fifcts => exact h
  case ctl3 => exact h
  all_goals
    show HwRegs.reservedZero _ = true
    unfold HwRegs.reservedZero
    simp only [Bool.and_eq_true, beq_iff_eq]
    refine ⟨⟨⟨⟨⟨?_, ?_⟩, ?_⟩, ?_⟩, ?_⟩, ?_⟩ <;>
      first | assumption | exact and_not_self _ _ | exact and_not_of_and _ _ _ (by assumption)

/-! ## The line engine hangs together -/

theorem headKind_addr {s : State} (h : s.headKind = some .addr) : ∃ a rest, s.le.txb = (a, .addr) :: rest := by
  unfold State.headKind at h
  cases ht : s.le.txb with
  | nil => rw [ht] at h; cases h
  | cons p rest =>
    obtain ⟨a, k⟩ := p
    rw [ht] at h
    cases h
    exact ⟨a, rest, rfl⟩

theorem headKind_data {s : State} (h : s.headKind = some .data) : ∃ d rest, s.le.txb = (d, .data) :: rest := by
  unfold State.headKind at h
  cases ht : s.le.txb with
  | nil => rw [ht] at h; cases h
  | cons p rest =>
    obtain ⟨a, k⟩ := p
    rw [ht] at h
    cases h
    exact ⟨a, rest, rfl⟩

/-- What the line-engine part of the invariant looks at. -/
theorem lineConsistent_congr {s t : State} (hl : t.le = s.le) (hm : t.flag .master = s.flag .master)
    (he : t.flag .enable = s.flag .enable) (hd : t.flag .sdast = s.flag .sdast) :
    t.lineConsistent = s.lineConsistent := by
  unfold State.lineConsistent; rw [hl, hm, he, hd]

/-- Clearing data-ready, or enabling the module, keeps the line engine consistent. -/
theorem lineConsistent_mono {s t : State} (hl : t.le = s.le) (hm : t.flag .master = s.flag .master)
    (he : s.flag .enable = true → t.flag .enable = true) (hd : t.flag .sdast = true → s.flag .sdast = true)
    (h : s.lineConsistent = true) : t.lineConsistent = true := by
  unfold State.lineConsistent at *
  rw [hl, hm]
  clear hl hm
  cases h0 : s.flag .master <;> cases h1 : s.flag .enable <;> cases h2 : s.flag .sdast <;> cases h3 : t.flag .enable <;> cases h4 : t.flag .sdast <;>
    simp_all

theorem lineConsistent_effect (e : LeEvent) (s : State) (hg : e.guard s = true) (h : s.lineConsistent = true) :
    (e.effect s).lineConsistent = true := by
  cases e with
  | startDone =>
    have he : s.flag .enable = true := by
      simp only [LeEvent.guard, State.g0, Bool.and_eq_true] at hg; tauto
    simp only [State.lineConsistent, LeEvent.effect, effStartDone] at h ⊢
    simp [he] at h ⊢
  | ber m =>
    have he : s.flag .enable = true := by
      simp only [LeEvent.guard, State.g0, Bool.and_eq_true] at hg; tauto
    simp only [State.lineConsistent, LeEvent.effect, effBer, State.leIdle, LeState.idle] at h ⊢
    simp [he] at h ⊢
  | addrAck =>
    simp only [LeEvent.guard, addrGuard, State.g0, Bool.and_eq_true, decide_eq_true_eq] at hg
    obtain ⟨a, rest, ht⟩ := headKind_addr hg.2
    have he : s.flag .enable = true := by tauto
    have hm : s.flag .master = true := by tauto
    have hp : s.le.addrPhase = true := by tauto
    simp only [State.lineConsistent, LeEvent.effect, effAddrAck, ht] at h ⊢
    simp [he, hm, hp] at h ⊢
    obtain ⟨h1, h2⟩ := h
    by_cases hr : a.getLsbD 0 = true
    · split <;> simp_all
    · split <;> simp_all
  | addrNack =>
    simp only [LeEvent.guard, addrGuard, State.g0, Bool.and_eq_true, decide_eq_true_eq] at hg
    obtain ⟨a, rest, ht⟩ := headKind_addr hg.2
    have he : s.flag .enable = true := by tauto
    have hm : s.flag .master = true := by tauto
    have hp : s.le.addrPhase = true := by tauto
    simp only [State.lineConsistent, LeEvent.effect, effAddrNack, ht] at h ⊢
    simp_all
  | txReady =>
    simp only [LeEvent.guard, State.g0, Bool.and_eq_true, decide_eq_true_eq] at hg
    have he : s.flag .enable = true := by tauto
    simp only [State.lineConsistent, LeEvent.effect, effTxReady] at h ⊢
    simp_all
    obtain ⟨h', h | h⟩ := h
    · exact h
    · exact absurd (h.symm.trans h'.2) (by decide)
  | txAck =>
    simp only [LeEvent.guard, txGuard, State.g0, Bool.and_eq_true, decide_eq_true_eq] at hg
    obtain ⟨a, rest, ht⟩ := headKind_data hg.2
    simp only [State.lineConsistent, LeEvent.effect, effTxAck, ht] at h ⊢
    simp_all
  | txNack =>
    simp only [LeEvent.guard, txGuard, State.g0, Bool.and_eq_true, decide_eq_true_eq] at hg
    obtain ⟨a, rest, ht⟩ := headKind_data hg.2
    simp only [State.lineConsistent, LeEvent.effect, effTxNack, ht] at h ⊢
    simp_all
  | rxByte b =>
    simp only [LeEvent.guard, State.g0, Bool.and_eq_true, decide_eq_true_eq] at hg
    have he : s.flag .enable = true := by tauto
    simp only [State.lineConsistent, LeEvent.effect, effRxByte] at h ⊢
    split <;> simp_all
  | stopDone eo =>
    simp only [LeEvent.guard, State.g0, Bool.and_eq_true] at hg
    have he : s.flag .enable = true := by tauto
    simp only [State.lineConsistent, LeEvent.effect, effStopDone, State.leIdle, LeState.idle] at h ⊢
    split <;> simp_all
  | lines c d => exact h
  | foreign b eo =>
    refine (lineConsistent_congr rfl ?_ ?_ ?_).trans h <;> simp [LeEvent.effect, effForeign]

theorem lineConsistent_afterRead (s : State) (r : RegId) (h : s.lineConsistent = true) :
    (afterRead s r).lineConsistent = true := by
  cases r
  case data =>
    show (afterReadData s).lineConsistent = true
    unfold afterReadData rearms; dsimp only; split
    · simp only [State.lineConsistent] at h ⊢
      simp_all
    · exact lineConsistent_mono (s := s) (t := s.setFlag .sdast false) rfl (by simp) (by simp) (by simp) h
  case brc =>
    show (if s.flag .master then s.withDraws (s.draws + 1) else s).lineConsistent = true
    split <;> exact h
  all_goals exact h

/-- `ENABLE` after a write of `CTL2` that resets nothing. -/
theorem writeStorage_ctl2_enable (s : State) (v : Byte) :
    (writeStorage s .ctl2 v).flag .enable = Flag.isSet .enable v := by
  show Flag.isSet .enable (v &&& readMask .ctl2) = _
  simp [Flag.isSet, Flag.bit, readMask]

/-- A write of 1s to latches leaves the other bits alone. -/
theorem writeLatches_st_flag (s : State) (v : Byte) (f : Flag) (hf : f.reg = .st) :
    (writeLatches s .st v).flag f = (s.flag f && !(f.isSet v && (latchMask .st).getLsbD f.bit)) := by
  unfold State.flag Flag.isSet writeLatches
  rw [hf, State.withReg_reg, HwRegs.get_set, if_pos ⟨rfl, rfl⟩]
  have := f.bit_lt
  simp [this]

theorem lineConsistent_afterWrite (s : State) (r : RegId) (v : Byte) (h : s.lineConsistent = true) :
    (afterWrite s r v).lineConsistent = true := by
  cases r
  case data =>
    have h1 : ((s.withReg { s.reg with data := v }).setFlag .sdast false).lineConsistent = true :=
      lineConsistent_mono (s := s) rfl (by simp) (by simp) (by simp) h
    exact h1
  case ctl2 =>
    show (writeCtl2 s v).lineConsistent = true
    unfold writeCtl2; dsimp only; split
    · simp [State.lineConsistent, moduleDisable, State.leIdle, LeState.idle]
    · rename_i hc
      refine lineConsistent_mono (s := s) (t := writeStorage s .ctl2 v) rfl rfl ?_ id h
      rw [writeStorage_ctl2_enable]
      simpa using hc
  case brc =>
    show (writeBrc s v).lineConsistent = true
    unfold writeBrc togglePulse; split
    · split <;> exact h
    · exact h
  case b1fifcts => exact h
  case st =>
    have hm := writeLatches_st_flag s v .master rfl
    have hd := writeLatches_st_flag s v .sdast rfl
    refine lineConsistent_mono (s := s) (t := writeLatches s .st v) rfl ?_ id ?_ h
    · rw [hm]; simp [latchMask, Flag.bit]
    · rw [hd]; simp +contextual
  all_goals exact (lineConsistent_congr (s := s) rfl rfl rfl rfl).trans h

/-! ## Along a command -/

/-- The hardware part of the invariant and the canonical form of `BUF`, kept. -/
def KeepsHw (s t : State) : Prop :=
  s.reg.reservedZero = true ∧ s.lineConsistent = true ∧ s.buf.wf → t.reg.reservedZero = true ∧ t.lineConsistent = true ∧ t.buf.wf

theorem lePoint_keepsHw {s t : State} (h : lePoint s = .ok t) : KeepsHw s t :=
  lePoint_induct (R := KeepsHw) (fun _ h => h) (fun h k hs => k (h hs))
    (fun e s hg hs => ⟨reservedZero_effect e s hs.1, lineConsistent_effect e s hg hs.2.1, (effect_frame e s).buf ▸ hs.2.2⟩)
    (fun _ _ h => h) h

theorem keepsHw_kept : Kept KeepsHw where
  along := ⟨fun _ h => h, fun h k hs => k (h hs)⟩
  point := lePoint_keepsHw
  read := fun s r hs => ⟨reservedZero_afterRead s r hs.1, lineConsistent_afterRead s r hs.2.1, (afterRead_frame s r).buf ▸ hs.2.2⟩
  write := fun s r v hs =>
    ⟨reservedZero_afterWrite s r v hs.1, lineConsistent_afterWrite s r v hs.2.1, (afterWrite_frame s r v).buf ▸ hs.2.2⟩
  seq := fun _ _ h => h
  log := fun _ _ h => h

theorem keepsHw_memWrite (a : BitVec 32) (v : Byte) : Op.Keeps KeepsHw (memWrite a v) := by
  intro s b t e
  rw [memWrite_run] at e
  cases e
  exact fun hs => ⟨hs.1, hs.2.1, Memory.write_wf _ hs.2.2 _ a.isLt v⟩

theorem keepsHw_exec {i : Instr} {s t : State} (e : exec i s = .next t) : KeepsHw s t :=
  exec_keeps keepsHw_kept keepsHw_memWrite
    (fun _ s _ t e => by cases e; exact fun h => h) (fun _ s _ t e => by cases e; exact fun h => h) e

end Sys2Proof.Machine
end

