-- ==== Sys2Proof/Laws/Layout.lean ====
section
/-! SUPPORT. The parameters `LAYOUT` and `rec_byte`: a layout that puts no two bits at one place loses nothing, the engine's
bitwise operations are the same in every layout, and every function can be the parameter `rec_byte`. -/

namespace Sys2Proof.Machine

/-! ## Bits of a byte -/

theorem byteOf_bit (f : Fin 8 → Bool) (i : Fin 8) : (byteOf f).getLsbD i = f i := by
  have key : ∀ (b0 b1 b2 b3 b4 b5 b6 b7 : Bool) (i : Fin 8),
      (BitVec.ofBool b7 ++ BitVec.ofBool b6 ++ BitVec.ofBool b5 ++ BitVec.ofBool b4 ++ BitVec.ofBool b3 ++
        BitVec.ofBool b2 ++ BitVec.ofBool b1 ++ BitVec.ofBool b0).getLsbD i = [b0, b1, b2, b3, b4, b5, b6, b7][i] := by
    decide +kernel
  rw [byteOf, key]
  fin_cases i <;> rfl

theorem byte_ext {v w : Byte} (h : ∀ i : Fin 8, v.getLsbD i = w.getLsbD i) : v = w :=
  BitVec.eq_of_getLsbD_eq (fun i hi => h ⟨i, hi⟩)

theorem hostByte_bit (l : Layout) (r : RegId) (v : Byte) (j : Fin 8) :
    (hostByte l r v).getLsbD j = decide (∃ i : Fin 8, v.getLsbD i = true ∧ placeOf (placesOf l r) i = j) := by
  rw [hostByte, byteOf_bit, Bool.eq_iff_iff]
  simp

@[simp] theorem fieldByte_bit (l : Layout) (r : RegId) (v : Byte) (i : Fin 8) :
    (fieldByte l r v).getLsbD i = v.getLsbD (placeOf (placesOf l r) i) := byteOf_bit _ _

/-! ## A layout is a renaming of bits -/

theorem Places.injective {p : Places} (h : p.wf = true) : Function.Injective (placeOf p) := by
  unfold Places.wf at h
  simp at h
  intro i j e
  fin_cases i <;> fin_cases j <;> simp_all [placeOf]

theorem Places.surjective {p : Places} (h : p.wf = true) : Function.Surjective (placeOf p) :=
  Finite.injective_iff_surjective.1 (Places.injective h)

theorem placesOf_wf {l : Layout} (h : wfLayout l = true) (r : RegId) : (placesOf l r).wf = true := by
  simp [wfLayout] at h
  obtain ⟨h1, h2, h3, h4, h5, h6, h7, h8, h9, h10⟩ := h
  cases r <;> first | assumption | rfl

/-- What the host reads carries exactly the stored fields. -/
theorem fieldByte_hostByte {l : Layout} (h : wfLayout l = true) (r : RegId) (v : Byte) :
    fieldByte l r (hostByte l r v) = v := by
  refine byte_ext (fun i => ?_)
  rw [fieldByte_bit, hostByte_bit, Bool.eq_iff_iff, decide_eq_true_iff]
  exact ⟨fun ⟨k, hk, e⟩ => Places.injective (placesOf_wf h r) e ▸ hk, fun hi => ⟨i, hi, rfl⟩⟩

/-- What the host writes is what it would read back from a register that stored every bit. -/
theorem hostByte_fieldByte {l : Layout} (h : wfLayout l = true) (r : RegId) (v : Byte) :
    hostByte l r (fieldByte l r v) = v := by
  refine byte_ext (fun j => ?_)
  obtain ⟨i, rfl⟩ := Places.surjective (placesOf_wf h r) j
  rw [hostByte_bit, Bool.eq_iff_iff, decide_eq_true_iff]
  exact ⟨fun ⟨k, hk, e⟩ => by rw [fieldByte_bit, e] at hk; exact hk, fun hi => ⟨i, by rw [fieldByte_bit]; exact hi, rfl⟩⟩

/-- The default layout changes nothing. -/
@[simp] theorem fieldByte_default (r : RegId) (v : Byte) : fieldByte .default r v = v := by
  refine byte_ext (fun i => ?_)
  rw [fieldByte_bit]
  cases r <;> fin_cases i <;> rfl

theorem default_wf : wfLayout .default = true := by decide

@[simp] theorem hostByte_default (r : RegId) (v : Byte) : hostByte .default r v = v := by
  have h := hostByte_fieldByte default_wf r v
  rwa [fieldByte_default] at h

/-! ## The engine's byte operations are the same in every layout -/

theorem fieldByte_or (l : Layout) (r : RegId) (v w : Byte) : fieldByte l r (v ||| w) = fieldByte l r v ||| fieldByte l r w :=
  byte_ext (fun i => by simp only [fieldByte_bit, BitVec.getLsbD_or])

theorem fieldByte_clear (l : Layout) (r : RegId) (v w : Byte) :
    fieldByte l r (v &&& ~~~w) = fieldByte l r v &&& ~~~fieldByte l r w :=
  byte_ext (fun i => by simp only [fieldByte_bit, BitVec.getLsbD_and, BitVec.getLsbD_not, Fin.is_lt, decide_true])

/-- A read-modify-write that sets bits. -/
theorem hostByte_or {l : Layout} (h : wfLayout l = true) (r : RegId) (v w : Byte) :
    hostByte l r (v ||| w) = hostByte l r v ||| hostByte l r w := by
  have e := fieldByte_or l r (hostByte l r v) (hostByte l r w)
  rw [fieldByte_hostByte h, fieldByte_hostByte h] at e
  rw [← e, hostByte_fieldByte h]

/-- A read-modify-write that clears bits. -/
theorem hostByte_clear {l : Layout} (h : wfLayout l = true) (r : RegId) (v w : Byte) :
    hostByte l r (v &&& ~~~w) = hostByte l r v &&& ~~~hostByte l r w := by
  have e := fieldByte_clear l r (hostByte l r v) (hostByte l r w)
  rw [fieldByte_hostByte h, fieldByte_hostByte h] at e
  rw [← e, hostByte_fieldByte h]

/-- Writing every bit, as the clear of all status latches does (42_primitives.md R105). -/
theorem hostByte_ones {l : Layout} (h : wfLayout l = true) (r : RegId) : hostByte l r 0xFF = 0xFF := by
  have e : fieldByte l r 0xFF = 0xFF := byte_ext (fun i => by rw [fieldByte_bit]; generalize placeOf _ i = j; revert i j; decide)
  rw [← e, hostByte_fieldByte h, e]

/-- A field is set in the byte of a layout exactly when it is set in the stored byte. -/
theorem hostByte_flag {l : Layout} (h : wfLayout l = true) (r : RegId) (v : Byte) (i : Fin 8) :
    (hostByte l r v).getLsbD (placeOf (placesOf l r) i) = v.getLsbD i := by
  rw [← fieldByte_bit, fieldByte_hostByte h]

/-! ## `rec_byte` -/

theorem lookup_graph (f : Addr7 → Byte) (as : List Addr7) (a : Addr7) (h : a ∈ as) :
    (as.map (fun x => (x, f x))).lookup a = some (f a) := by
  induction as with
  | nil => cases h
  | cons b bs ih =>
    rw [List.map_cons, List.lookup_cons]
    by_cases e : a = b
    · subst e; simp
    · rw [beq_false_of_ne e]; exact ih ((List.mem_cons.1 h).resolve_left e)

/-- Every function from addresses to bytes is a value of the parameter (00_scope.md R6). -/
theorem recByteOf_any (f : Addr7 → Byte) : ∃ t, ∀ a, recByteOf t a = f a := by
  refine ⟨((List.finRange 128).map BitVec.ofFin).map (fun x => (x, f x)), fun a => ?_⟩
  rw [recByteOf, lookup_graph f _ a (List.mem_map.2 ⟨a.toFin, List.mem_finRange _, rfl⟩)]
  rfl

/-- The default (00_scope.md R6). -/
@[simp] theorem recByteOf_default (a : Addr7) : recByteOf [] a = a.setWidth 8 := rfl

end Sys2Proof.Machine
end

