-- ==== Sys2Proof/Laws/PerInstr.lean ====
section
/-! SUPPORT. Per instruction: the first word the encoder builds tells the command's length (30_encoding.md R79). -/

namespace Sys2Proof.Laws.EncodeLength

/-- The words of a well-formed instruction are as many as their first word says. -/
def Statement (i : Instr) : Prop :=
  i.wf = true → ∃ w rest, encode i = w :: rest ∧ cmdLength w = rest.length + 1

theorem regRead (reg : BitVec 4) : Statement (.regRead reg) :=
  fun _ => ⟨_, [], rfl, cmdLength_one (opc_wordR _ _ _) (by decide) (by decide) (by decide)⟩
theorem regWrite (reg : BitVec 4) (d : Byte) : Statement (.regWrite reg d) :=
  fun _ => ⟨_, [], rfl, cmdLength_one (opc_wordR _ _ _) (by decide) (by decide) (by decide)⟩
theorem regSet (reg : BitVec 4) (d : Byte) : Statement (.regSet reg d) :=
  fun _ => ⟨_, [], rfl, cmdLength_one (opc_wordR _ _ _) (by decide) (by decide) (by decide)⟩
theorem regClr (reg : BitVec 4) (d : Byte) : Statement (.regClr reg d) :=
  fun _ => ⟨_, [], rfl, cmdLength_one (opc_wordR _ _ _) (by decide) (by decide) (by decide)⟩
theorem init (m : BitVec 8) : Statement (.init m) :=
  fun _ => ⟨_, [], rfl, cmdLength_one (opc_wordB _ _) (by decide) (by decide) (by decide)⟩
theorem setSpeed (f : BitVec 24) : Statement (.setSpeed f) :=
  fun _ => ⟨_, [], rfl, cmdLength_one (opc_wordT _ _) (by decide) (by decide) (by decide)⟩
theorem sendStart (t : BitVec 24) : Statement (.sendStart t) :=
  fun _ => ⟨_, [], rfl, cmdLength_one (opc_wordT _ _) (by decide) (by decide) (by decide)⟩
theorem sendStop (t : BitVec 24) : Statement (.sendStop t) :=
  fun _ => ⟨_, [], rfl, cmdLength_one (opc_wordT _ _) (by decide) (by decide) (by decide)⟩
theorem sendAddress (st : Bool) (b : Byte) : Statement (.sendAddress st b) :=
  fun _ => ⟨_, [], rfl, cmdLength_one (opc_wordA _ _ _) (by decide) (by decide) (by decide)⟩
theorem pollDataReady (t : BitVec 24) : Statement (.pollDataReady t) :=
  fun _ => ⟨_, [], rfl, cmdLength_one (opc_wordT _ _) (by decide) (by decide) (by decide)⟩
theorem pollAckCleared (t : BitVec 24) : Statement (.pollAckCleared t) :=
  fun _ => ⟨_, [], rfl, cmdLength_one (opc_wordT _ _) (by decide) (by decide) (by decide)⟩
theorem sendByte (b : Byte) : Statement (.sendByte b) :=
  fun _ => ⟨_, [], rfl, cmdLength_one (opc_wordB _ _) (by decide) (by decide) (by decide)⟩
theorem recvByte (f : Bool) : Statement (.recvByte f) :=
  fun _ => ⟨_, [], rfl, cmdLength_one (opc_wordN _ _) (by decide) (by decide) (by decide)⟩
theorem recvLast (f : Bool) : Statement (.recvLast f) :=
  fun _ => ⟨_, [], rfl, cmdLength_one (opc_wordN _ _) (by decide) (by decide) (by decide)⟩
theorem read (a : Addr7) (l : BitVec 16) (b : BitVec 32) : Statement (.read a l b) :=
  fun _ => ⟨_, [b], rfl, cmdLength_read (opc_wordM _ _ _)⟩
theorem write (a : Addr7) (l : BitVec 16) (b : BitVec 32) : Statement (.write a l b) :=
  fun _ => ⟨_, [b], rfl, cmdLength_write (opc_wordM _ _ _)⟩
theorem exchange (ms : List Message) : Statement (.exchange ms) := by
  intro h
  refine ⟨_, _, rfl, ?_⟩
  have hl : ms.length ≤ 255 := of_decide_eq_true h
  rw [cmdLength_exchange (opc_wordB _ _), length_flatMap_encode, countField, byte_wordB, BitVec.toNat_ofNat,
    Nat.mod_eq_of_lt (by omega)]
  omega
theorem recover (a : Addr7) : Statement (.recover a) :=
  fun _ => ⟨_, [], rfl, cmdLength_one (opc_wordV _ _) (by decide) (by decide) (by decide)⟩
theorem ctrlReset : Statement .ctrlReset :=
  fun _ => ⟨_, [], rfl, cmdLength_one (opc_wordZ _) (by decide) (by decide) (by decide)⟩
theorem dump : Statement .dump :=
  fun _ => ⟨_, [], rfl, cmdLength_one (opc_wordZ _) (by decide) (by decide) (by decide)⟩

end Sys2Proof.Laws.EncodeLength
end

