-- ==== Sys2Proof/Laws/Reference.lean ====
section
/-! SUPPORT. The reference environment with free lines and no refused data byte, seen through what a transfer depends on: one
lemma per kind of interleaving point, per access and per wait. -/

namespace Sys2Proof.Machine

/-! ## The loop of the reference environment -/

theorem addrAnswer_guard (e : EnvRef) (s : State) : (e.addrAnswer s).guard s = addrGuard s := by
  unfold EnvRef.addrAnswer
  split
  · rfl
  · split <;> rfl

theorem txAnswer_guard (e : EnvRef) (s : State) : e.txAnswer.guard s = txGuard s := by
  unfold EnvRef.txAnswer
  split <;> rfl

/-- Which event it fires next, tried in order. -/
theorem choose_eq (e : EnvRef) (s : State) : e.choose s =
    if (LeEvent.stopDone true).guard s then some (.stopDone true)
    else if LeEvent.startDone.guard s then some .startDone
    else if addrGuard s then some (e.addrAnswer s)
    else if txGuard s then some e.txAnswer
    else if LeEvent.txReady.guard s then some .txReady
    else if (LeEvent.rxByte e.nextRx).guard s then some (.rxByte e.nextRx)
    else none := by
  unfold EnvRef.choose EnvRef.candidates
  simp only [List.find?_cons, List.find?_nil, addrAnswer_guard, txAnswer_guard]
  cases (LeEvent.stopDone true).guard s <;> cases LeEvent.startDone.guard s <;> cases addrGuard s <;> cases txGuard s <;>
    cases LeEvent.txReady.guard s <;> cases (LeEvent.rxByte e.nextRx).guard s <;> rfl

theorem refLoop_stop {n : Nat} {e : EnvRef} {s : State} (h : e.choose s = none) :
    refLoop n e s = .ok (s.withEnv (.ref e)) := by
  cases n with
  | zero => rfl
  | succ n => unfold refLoop; rw [h]

theorem refLoop_fire {n : Nat} {e : EnvRef} {s : State} {ev : LeEvent} (h : e.choose s = some ev) (hp : s.polled) :
    refLoop (n + 1) e s = refLoop n (e.after ev s) (ev.effect s) := by
  have hg : ev.guard s = true := by unfold EnvRef.choose at h; exact List.find?_some (p := fun ev => LeEvent.guard ev s) h
  have hf : fire ev s = .ok (ev.effect s) := by
    unfold fire; rw [if_pos hg, if_neg (by rw [show s.offMode = false from hp]; simp)]
  rw [refLoop, h]; dsimp only; rw [hf]

/-! ## What a transfer depends on -/

/-- The part of the state that decides a transfer in which nothing goes wrong. -/
structure BusView where
  x : SeqRegs
  data : Byte
  ctl1 : Byte
  master : Bool
  stastr : Bool
  sdast : Bool
  le : LeState
  wire : List WireEvent
  buf : Memory
  e : EnvRef

/-- `s` shows the view `v`, and is otherwise as `s0`: polled, enabled, with no failure latch and with free lines. -/
structure Shows (s0 : State) (v : BusView) (s : State) : Prop where
  x : s.x = v.x
  data : s.reg.data = v.data
  ctl1 : s.reg.ctl1 = v.ctl1
  master : s.flag .master = v.master
  stastr : s.flag .stastr = v.stastr
  sdast : s.flag .sdast = v.sdast
  negack : s.flag .negack = false
  ber : s.flag .ber = false
  le : s.le = v.le
  wire : s.wire = v.wire
  buf : s.buf = v.buf
  env : s.env = .ref v.e
  scl : s.scl = .high
  sda : s.sda = .high
  ctl2 : s.reg.ctl2 = s0.reg.ctl2
  ctl3 : s.reg.ctl3 = s0.reg.ctl3
  b0ectl : s.reg.b0ectl = s0.reg.b0ectl
  log : s.log = s0.log
  cp : s.cp = s0.cp
  program : s.program = s0.program
  initialised : s.initialised = s0.initialised
  pinmux : s.pinmux = s0.pinmux
  cfg : s.cfg = s0.cfg
  enable : s.flag .enable = true
  fifoEn : s.flag .fifoEn = false
  inten : s.flag .inten = false
  free : v.e.stuck = none
  willing : v.e.txNack = none

section Shown
variable {s0 s : State} {v : BusView} (h : Shows s0 v s)
include h

theorem Shows.start : s.flag .start = v.ctl1.getLsbD 0 := by show s.reg.ctl1.getLsbD 0 = _; rw [h.ctl1]
theorem Shows.stop : s.flag .stop = v.ctl1.getLsbD 1 := by show s.reg.ctl1.getLsbD 1 = _; rw [h.ctl1]
theorem Shows.ack : s.flag .ack = v.ctl1.getLsbD 4 := by show s.reg.ctl1.getLsbD 4 = _; rw [h.ctl1]
theorem Shows.stastre : s.flag .stastre = v.ctl1.getLsbD 7 := by show s.reg.ctl1.getLsbD 7 = _; rw [h.ctl1]
theorem Shows.polled : s.polled := (State.polled_iff s).2 ⟨h.fifoEn, h.inten⟩

end Shown

/-! ## The bus events on a view -/

/-- The kind of the oldest byte of the queue. -/
def BusView.head (v : BusView) : Option TxKind := v.le.txb.head?.map Prod.snd

/-- Which event the reference environment fires next. -/
def BusView.choose (v : BusView) : Option LeEvent :=
  if v.ctl1.getLsbD 1 && !v.stastr && (!v.master || v.le.txb.isEmpty || (v.ctl1.getLsbD 0 && decide (v.head = some .addr))) then
    some (.stopDone true)
  else if v.ctl1.getLsbD 0 && !v.ctl1.getLsbD 1 && !v.stastr && (v.le.txb.isEmpty || decide (v.head = some .addr)) then
    some .startDone
  else if v.master && v.le.addrPhase && !v.ctl1.getLsbD 0 && !v.stastr && decide (v.head = some .addr) then
    some (match v.le.txb with
      | [] => .addrNack
      | (a, _) :: _ => if v.e.targets.contains (targetOf a) then .addrAck else .addrNack)
  else if v.master && !v.le.addrPhase && decide (v.le.dir = .tx) && !v.stastr && decide (v.head = some .data) then
    some .txAck
  else if v.master && decide (v.le.owed = .txReady) && !v.stastr && v.le.txb.isEmpty && !v.ctl1.getLsbD 0 &&
      !v.ctl1.getLsbD 1 then
    some .txReady
  else if v.master && decide (v.le.owed = .rxByte) && !v.stastr && !v.sdast && !v.ctl1.getLsbD 0 && !v.ctl1.getLsbD 1 then
    some (.rxByte v.e.nextRx)
  else none

theorem Shows.choose {s0 s : State} {v : BusView} (h : Shows s0 v s) : v.e.choose s = v.choose := by
  have hk : s.headKind = v.head := by unfold State.headKind BusView.head; rw [h.le]
  rw [choose_eq]
  unfold BusView.choose EnvRef.addrAnswer EnvRef.txAnswer addrGuard txGuard
  simp only [LeEvent.guard, State.g0, State.hold, h.enable, h.master, h.stastr, h.sdast, h.start, h.stop, h.le, hk, h.scl,
    h.sda, h.willing, Bool.true_and, decide_true, Bool.and_true, Bool.or_true, reduceCtorEq, if_false] <;>
  rfl

/-- The effect on a view of the events of a transfer in which nothing goes wrong. -/
def BusView.effect (v : BusView) (ev : LeEvent) : BusView :=
  match ev with
  | .startDone => { v with
      ctl1 := putBit v.ctl1 0 false, master := true
      le := { v.le with addrPhase := true, dir := .none, owed := .none, last := false }
      wire := v.wire ++ [if v.master then .restart else .start] }
  | .stopDone _ => { v with
      ctl1 := putBit v.ctl1 1 false, master := false
      le := if v.master then v.le.idle else v.le
      wire := if v.master then v.wire ++ [.stop] else v.wire }
  | .addrAck =>
    match v.le.txb with
    | [] => v
    | (a, _) :: rest => { v with
      stastr := v.ctl1.getLsbD 7 || v.stastr
      le := { v.le with
        txb := rest, addrPhase := false, dir := if a.getLsbD 0 then .rx else .tx,
        owed := if a.getLsbD 0 then .rxByte else .txReady }
      wire := v.wire ++ [.addr a .ack]
      e := { v.e with current := targetOf a, txIndex := 0 } }
  | .txReady => { v with sdast := true, le := { v.le with owed := .none } }
  | .txAck =>
    match v.le.txb with
    | [] => { v with e := { v.e with txIndex := v.e.txIndex + 1 } }
    | (d, _) :: rest => { v with
      le := { v.le with txb := rest, owed := .txReady }
      wire := v.wire ++ [.tx d .ack]
      e := { v.e with txIndex := v.e.txIndex + 1 } }
  | .rxByte b => { v with
      data := b, sdast := true, ctl1 := if v.ctl1.getLsbD 4 then putBit v.ctl1 4 false else v.ctl1
      le := { v.le with owed := .none, last := v.ctl1.getLsbD 4 || v.le.last }
      wire := v.wire ++ [.rx b (if v.ctl1.getLsbD 4 then .nack else .ack)]
      e := { v.e with rx := v.e.dropRx } }
  | _ => v

/-- The events whose effect a view has. -/
def LeEvent.inView : LeEvent → Bool
  | .startDone => true
  | .stopDone _ => true
  | .addrAck => true
  | .txReady => true
  | .txAck => true
  | .rxByte _ => true
  | _ => false

/-- Only the fields that an event of a transfer writes have to be looked at. -/
theorem Shows.of_frame {s0 s t : State} {v w : BusView} (h : Shows s0 v s) (hf : LeFrame s t)
    (hx : w.x = v.x) (hb : w.buf = v.buf) (hfree : w.e.stuck = v.e.stuck) (hw : w.e.txNack = v.e.txNack)
    (env : t.env = .ref w.e) (scl : t.scl = s.scl) (sda : t.sda = s.sda)
    (data : t.reg.data = w.data) (ctl1 : t.reg.ctl1 = w.ctl1) (master : t.flag .master = w.master)
    (stastr : t.flag .stastr = w.stastr) (sdast : t.flag .sdast = w.sdast)
    (negack : t.flag .negack = s.flag .negack) (ber : t.flag .ber = s.flag .ber)
    (le : t.le = w.le) (wire : t.wire = w.wire) : Shows s0 w t where
  x := (hf.x.trans h.x).trans hx.symm
  data := data
  ctl1 := ctl1
  master := master
  stastr := stastr
  sdast := sdast
  negack := negack.trans h.negack
  ber := ber.trans h.ber
  le := le
  wire := wire
  buf := (hf.buf.trans h.buf).trans hb.symm
  env := env
  scl := scl.trans h.scl
  sda := sda.trans h.sda
  ctl2 := hf.ctl2.trans h.ctl2
  ctl3 := hf.ctl3.trans h.ctl3
  b0ectl := hf.b0ectl.trans h.b0ectl
  log := hf.log.trans h.log
  cp := hf.cp.trans h.cp
  program := hf.program.trans h.program
  initialised := hf.initialised.trans h.initialised
  pinmux := hf.pinmux.trans h.pinmux
  cfg := hf.cfg.trans h.cfg
  enable := hf.flag_enable.trans h.enable
  fifoEn := hf.flag_fifoEn.trans h.fifoEn
  inten := hf.inten.trans h.inten
  free := hfree.trans h.free
  willing := hw.trans h.willing

theorem Shows.effect {s0 s : State} {v : BusView} (h : Shows s0 v s) {ev : LeEvent} (hv : ev.inView = true) :
    Shows s0 (v.effect ev) ((ev.effect s).withEnv (.ref (v.e.after ev s))) := by
  have hf : LeFrame s ((ev.effect s).withEnv (.ref (v.e.after ev s))) := (effect_frame ev s).trans (LeFrame.withEnv _ _)
  have hc := h.ctl1
  have hl := h.le
  have hw := h.wire
  have hm := h.master
  have hd := h.data
  have hsd := h.sdast
  have hst := h.stastr
  cases ev with
  | startDone =>
    refine h.of_frame hf rfl rfl rfl rfl rfl rfl rfl hd ?_ ?_ ?_ ?_ ?_ ?_ ?_ ?_
    · show putBit s.reg.ctl1 0 false = _; rw [hc]; rfl
    all_goals simp [LeEvent.effect, effStartDone, BusView.effect, hst, hsd, hl, hw, hm]
  | stopDone eo =>
    by_cases hm1 : v.master = true
    · have he : (LeEvent.stopDone eo).effect s = ((((((s.setFlag .stop false).pushWire .stop).setFlag .master false).setFlag
          .bb false).setFlag .eoBusy eo).leIdle) := by
        show effStopDone eo s = _
        unfold effStopDone; rw [if_pos (hm.trans hm1)]
      rw [he] at hf ⊢
      refine h.of_frame hf rfl rfl rfl rfl rfl rfl rfl hd ?_ ?_ ?_ ?_ ?_ ?_ ?_ ?_
      · show putBit s.reg.ctl1 1 false = _; rw [hc]; rfl
      all_goals simp [BusView.effect, State.leIdle, hst, hsd, hl, hw, hm1]
    · have he : (LeEvent.stopDone eo).effect s = s.setFlag .stop false := by
        show effStopDone eo s = _
        unfold effStopDone; rw [if_neg (by rw [hm]; exact hm1)]
      rw [he] at hf ⊢
      refine h.of_frame hf rfl rfl rfl rfl rfl rfl rfl hd ?_ ?_ ?_ ?_ ?_ ?_ ?_ ?_
      · show putBit s.reg.ctl1 1 false = _; rw [hc]; rfl
      all_goals simp [BusView.effect, hst, hsd, hl, hw, hm, hm1]
  | addrAck =>
    cases hq : v.le.txb with
    | nil =>
      have he : LeEvent.addrAck.effect s = s := by
        show effAddrAck s = _
        unfold effAddrAck; rw [hl, hq]
      have ha : v.e.after .addrAck s = v.e := by unfold EnvRef.after; rw [hl, hq]
      have hv' : v.effect .addrAck = v := by unfold BusView.effect; rw [hq]
      rw [he, ha] at hf ⊢
      rw [hv']
      exact h.of_frame hf rfl rfl rfl rfl rfl rfl rfl hd hc hm hst hsd rfl rfl hl hw
    | cons p rest =>
      obtain ⟨a, k⟩ := p
      have ha : v.e.after .addrAck s = { v.e with current := targetOf a, txIndex := 0 } := by
        unfold EnvRef.after; rw [hl, hq]
      rw [ha] at hf ⊢
      have he : LeEvent.addrAck.effect s = if s.flag .stastre then ((s.withLe { s.le with
          txb := rest, addrPhase := false, dir := if a.getLsbD 0 then .rx else .tx,
          owed := if a.getLsbD 0 then .rxByte else .txReady }).pushWire (.addr a .ack)).setFlag .stastr true
          else (s.withLe { s.le with
          txb := rest, addrPhase := false, dir := if a.getLsbD 0 then .rx else .tx,
          owed := if a.getLsbD 0 then .rxByte else .txReady }).pushWire (.addr a .ack) := by
        show effAddrAck s = _
        unfold effAddrAck; rw [hl, hq]
      rw [he] at hf ⊢
      have hse := h.stastre
      have hv' : v.effect .addrAck = { v with
          stastr := v.ctl1.getLsbD 7 || v.stastr
          le := { v.le with
            txb := rest, addrPhase := false, dir := if a.getLsbD 0 then .rx else .tx,
            owed := if a.getLsbD 0 then .rxByte else .txReady }
          wire := v.wire ++ [.addr a .ack]
          e := { v.e with current := targetOf a, txIndex := 0 } } := by unfold BusView.effect; rw [hq]
      rw [hv']
      cases h7 : v.ctl1.getLsbD 7 with
      | true =>
        rw [if_pos (c := s.flag .stastre = true) (hse.trans h7)] at hf ⊢
        refine h.of_frame hf rfl rfl rfl rfl rfl rfl rfl hd hc ?_ ?_ ?_ ?_ ?_ ?_ ?_
        all_goals simp [hsd, hl, hw, hm]
      | false =>
        rw [if_neg (c := s.flag .stastre = true) (by rw [hse, h7]; decide)] at hf ⊢
        refine h.of_frame hf rfl rfl rfl rfl rfl rfl rfl hd hc ?_ ?_ ?_ ?_ ?_ ?_ ?_
        all_goals simp [hst, hsd, hl, hw, hm]
  | txReady =>
    refine h.of_frame hf rfl rfl rfl rfl rfl rfl rfl hd hc ?_ ?_ ?_ ?_ ?_ ?_ ?_
    all_goals simp [LeEvent.effect, effTxReady, BusView.effect, hst, hl, hw, hm]
  | txAck =>
    cases hq : v.le.txb with
    | nil =>
      have he : LeEvent.txAck.effect s = s := by
        show effTxAck s = _
        unfold effTxAck; rw [hl, hq]
      have hv' : v.effect .txAck = { v with e := { v.e with txIndex := v.e.txIndex + 1 } } := by
        unfold BusView.effect; rw [hq]
      rw [he] at hf ⊢
      rw [hv']
      exact h.of_frame hf rfl rfl rfl rfl rfl rfl rfl hd hc hm hst hsd rfl rfl hl hw
    | cons p rest =>
      obtain ⟨d, k⟩ := p
      have he : LeEvent.txAck.effect s = (s.withLe { s.le with txb := rest, owed := .txReady }).pushWire (.tx d .ack) := by
        show effTxAck s = _
        unfold effTxAck; rw [hl, hq]
      have hv' : v.effect .txAck = { v with
          le := { v.le with txb := rest, owed := .txReady }
          wire := v.wire ++ [.tx d .ack]
          e := { v.e with txIndex := v.e.txIndex + 1 } } := by
        unfold BusView.effect; rw [hq]
      rw [he] at hf ⊢
      rw [hv']
      refine h.of_frame hf rfl rfl rfl rfl rfl rfl rfl hd hc ?_ ?_ ?_ ?_ ?_ ?_ ?_
      all_goals simp [hst, hsd, hl, hw, hm]
  | rxByte b =>
    have hak := h.ack
    cases h4 : v.ctl1.getLsbD 4 with
    | true =>
      have he : (LeEvent.rxByte b).effect s = ((((s.withReg { s.reg with data := b }).setFlag .sdast true).withLe
          { s.le with owed := .none, last := true }).setFlag .ack false).pushWire (.rx b .nack) := by
        show effRxByte b s = _
        unfold effRxByte; rw [if_pos (hak.trans h4)]
      have hv' : v.effect (.rxByte b) = { v with
          data := b, sdast := true, ctl1 := putBit v.ctl1 4 false, le := { v.le with owed := .none, last := true }
          wire := v.wire ++ [.rx b .nack], e := { v.e with rx := v.e.dropRx } } := by
        unfold BusView.effect; simp only [h4]; rfl
      rw [he] at hf ⊢
      rw [hv']
      refine h.of_frame hf rfl rfl rfl rfl rfl rfl rfl rfl ?_ ?_ ?_ ?_ ?_ ?_ ?_ ?_
      · show putBit s.reg.ctl1 4 false = _; rw [hc]
      all_goals simp [hst, hl, hw, hm]
    | false =>
      have he : (LeEvent.rxByte b).effect s = (((s.withReg { s.reg with data := b }).setFlag .sdast true).withLe
          { s.le with owed := .none }).pushWire (.rx b .ack) := by
        show effRxByte b s = _
        unfold effRxByte; rw [if_neg (by rw [hak, h4]; decide)]
      have hv' : v.effect (.rxByte b) = { v with
          data := b, sdast := true, le := { v.le with owed := .none }
          wire := v.wire ++ [.rx b .ack], e := { v.e with rx := v.e.dropRx } } := by
        unfold BusView.effect; simp only [h4]; rfl
      rw [he] at hf ⊢
      rw [hv']
      refine h.of_frame hf rfl rfl rfl rfl rfl rfl rfl rfl hc ?_ ?_ ?_ ?_ ?_ ?_ ?_
      all_goals simp [hst, hl, hw, hm]
  | ber m => cases hv
  | addrNack => cases hv
  | txNack => cases hv
  | lines c d => cases hv
  | foreign b eo => cases hv

/-! ## One interleaving point -/

/-- The reference environment's events on a view, at most `n` of them. -/
def BusView.run : Nat → BusView → BusView
  | 0, v => v
  | n + 1, v =>
    match v.choose with
    | none => v
    | some ev => BusView.run n (v.effect ev)

/-- Along the events of a view no address is refused. -/
def BusView.wanted : Nat → BusView → Prop
  | 0, _ => True
  | n + 1, v =>
    match v.choose with
    | none => True
    | some ev => ev.inView = true ∧ BusView.wanted n (v.effect ev)

/-- No event looks at the environment's own data. -/
theorem effect_withEnv (ev : LeEvent) (s : State) (x : Env) : ev.effect (s.withEnv x) = (ev.effect s).withEnv x := by
  cases ev with
  | startDone => rfl
  | ber m => rfl
  | txReady => rfl
  | lines c d => rfl
  | foreign b eo => rfl
  | addrAck =>
    show effAddrAck (s.withEnv x) = (effAddrAck s).withEnv x
    unfold effAddrAck
    rw [State.withEnv_le]
    cases s.le.txb with
    | nil => rfl
    | cons p rest =>
      dsimp only
      rw [State.flag_withEnv]
      cases s.flag .stastre <;> rfl
  | addrNack =>
    show effAddrNack (s.withEnv x) = (effAddrNack s).withEnv x
    unfold effAddrNack
    rw [State.withEnv_le]
    cases s.le.txb <;> rfl
  | txAck =>
    show effTxAck (s.withEnv x) = (effTxAck s).withEnv x
    unfold effTxAck
    rw [State.withEnv_le]
    cases s.le.txb <;> rfl
  | txNack =>
    show effTxNack (s.withEnv x) = (effTxNack s).withEnv x
    unfold effTxNack
    rw [State.withEnv_le]
    cases s.le.txb <;> rfl
  | rxByte b =>
    show effRxByte b (s.withEnv x) = (effRxByte b s).withEnv x
    unfold effRxByte
    rw [State.flag_withEnv]
    cases s.flag .ack <;> rfl
  | stopDone eo =>
    show effStopDone eo (s.withEnv x) = (effStopDone eo s).withEnv x
    unfold effStopDone
    rw [State.flag_withEnv]
    cases s.flag .master <;> rfl

theorem withEnv_withEnv (s : State) (x y : Env) : (s.withEnv x).withEnv y = s.withEnv y := rfl

/-- The loop follows the view, whatever environment data the state itself carries. -/
theorem Shows.run {s0 : State} : ∀ (n : Nat) {v : BusView} {s : State}, Shows s0 v (s.withEnv (.ref v.e)) → v.wanted n →
    ∃ t, refLoop n v.e s = .ok t ∧ Shows s0 (v.run n) t := by
  intro n
  induction n with
  | zero => intro v s h _; exact ⟨s.withEnv (.ref v.e), rfl, h⟩
  | succ n ih =>
    intro v s h hw
    unfold BusView.wanted at hw
    unfold BusView.run
    have hs : v.e.choose s = v.choose := h.choose
    cases hc : v.choose with
    | none => exact ⟨s.withEnv (.ref v.e), refLoop_stop (hs.trans hc), h⟩
    | some ev =>
      rw [hc] at hw
      obtain ⟨hin, hrest⟩ := hw
      have he := h.effect hin
      rw [effect_withEnv, withEnv_withEnv] at he
      have ha : v.e.after ev s = (v.effect ev).e := by have := he.env; injection this
      rw [refLoop_fire (hs.trans hc) (show s.polled from h.polled), ha]
      exact ih (by rw [← ha]; exact he) hrest

/-- The view after one interleaving point. -/
def BusView.point (v : BusView) : BusView := BusView.run (2 * v.le.txb.length + 3) v

/-- No address is refused at one interleaving point. -/
def BusView.welcome (v : BusView) : Prop := v.wanted (2 * v.le.txb.length + 3)

theorem Shows.point {s0 s : State} {v : BusView} (h : Shows s0 v s) (hw : v.welcome) :
    ∃ t, lePoint s = .ok t ∧ Shows s0 v.point t := by
  have hl : effLines v.e.sclLevel (v.e.sdaLevel s.le.pulses) s = s := by
    unfold EnvRef.sclLevel EnvRef.sdaLevel
    rw [h.free]
    have e : s.withLines s.scl s.sda = s := rfl
    rw [h.scl, h.sda] at e
    exact e
  have hp : lePoint s = refLoop (2 * v.le.txb.length + 3) v.e s := by
    unfold lePoint
    rw [h.env]
    unfold refPoint refFuel
    dsimp only
    rw [hl, ite_self, h.le]
  rw [hp]
  exact Shows.run _ (by rw [← h.env]; exact h) hw

/-! ## Accesses -/

/-- A piece of a command that takes every state showing one view to a state showing another, with a known result. -/
def Runs (s0 : State) {α : Type} (v : BusView) (m : Op α) (a : α) (w : BusView) : Prop :=
  ∀ s, Shows s0 v s → ∃ t, m s = .ok (a, t) ∧ Shows s0 w t

section Runs
variable {s0 : State} {α β : Type} {v w u : BusView}

theorem Runs.pure (a : α) : Runs s0 v (pure a) a v := fun s h => ⟨s, rfl, h⟩

theorem Runs.bind {m : Op α} {f : α → Op β} {a : α} {b : β} (h1 : Runs s0 v m a w) (h2 : Runs s0 w (f a) b u) :
    Runs s0 v (m >>= f) b u := by
  intro s h
  obtain ⟨t, ht, hw⟩ := h1 s h
  rw [Op.bind_eq ht]
  exact h2 t hw

theorem Runs.orReturn {m k : Op Kind} {b : Kind} (h1 : Runs s0 v m .ok w) (h2 : Runs s0 w k b u) :
    Runs s0 v (orReturn m k) b u := by
  unfold Sys2Proof.Machine.orReturn
  exact h1.bind (by rw [if_pos rfl]; exact h2)

/-- The parts of a state that only the sequencer writes. -/
theorem Shows.withX {s : State} (h : Shows s0 v s) (x : SeqRegs) : Shows s0 { v with x := x } (s.withX x) :=
  { h with x := rfl }

theorem Shows.withBuf {s : State} (h : Shows s0 v s) (b : Memory) : Shows s0 { v with buf := b } (s.withBuf b) :=
  { h with buf := rfl }

theorem Shows.pushAcc {s : State} (h : Shows s0 v s) (a : Access) : Shows s0 v (s.pushAcc a) := { h with }

theorem Runs.getCfg : Runs s0 v getCfg s0.cfg v := fun s h => ⟨s, by rw [getCfg_run, h.cfg], h⟩
theorem Runs.getX : Runs s0 v getX v.x v := fun s h => ⟨s, by rw [getX_run, h.x], h⟩
theorem Runs.modifyX (f : SeqRegs → SeqRegs) : Runs s0 v (modifyX f) () { v with x := f v.x } := fun s h =>
  ⟨_, by rw [modifyX_run, h.x], h.withX _⟩
theorem Runs.memRead (a : BitVec 32) : Runs s0 v (memRead a) (v.buf.read a.toNat) v := fun s h =>
  ⟨s, by rw [memRead_run, h.buf], h⟩
theorem Runs.memWrite (a : BitVec 32) (b : Byte) : Runs s0 v (memWrite a b) () { v with buf := v.buf.write a.toNat b } :=
  fun s h => ⟨_, by rw [memWrite_run, h.buf], h.withBuf _⟩

/-- The byte a read of `ST` returns. -/
def BusView.stByte (v : BusView) : Byte :=
  putBit (putBit (putBit 0 1 v.master) 3 v.stastr) 6 v.sdast

theorem Shows.readSt {s : State} (h : Shows s0 v s) : readValue s .st = v.stByte := by
  have h1 : s.reg.st.getLsbD 1 = v.master := h.master
  have h3 : s.reg.st.getLsbD 3 = v.stastr := h.stastr
  have h4 : s.reg.st.getLsbD 4 = false := h.negack
  have h5 : s.reg.st.getLsbD 5 = false := h.ber
  have h6 : s.reg.st.getLsbD 6 = v.sdast := h.sdast
  show s.reg.st &&& readMask .st = v.stByte
  apply BitVec.eq_of_getLsbD_eq
  intro i hi
  rw [BitVec.getLsbD_and]
  unfold BusView.stByte
  rw [getLsbD_putBit _ _ _ _ (by decide), getLsbD_putBit _ _ _ _ (by decide), getLsbD_putBit _ _ _ _ (by decide)]
  have : i = 0 ∨ i = 1 ∨ i = 2 ∨ i = 3 ∨ i = 4 ∨ i = 5 ∨ i = 6 ∨ i = 7 := by omega
  rcases this with rfl | rfl | rfl | rfl | rfl | rfl | rfl | rfl
  · simp [readMask]
  · rw [h1]; simp [readMask]
  · simp [readMask]
  · rw [h3]; simp [readMask]
  · rw [h4]; simp [readMask]
  · rw [h5]; simp [readMask]
  · rw [h6]; simp [readMask]
  · simp [readMask]

theorem Shows.readCtl1 {s : State} (h : Shows s0 v s) : readValue s .ctl1 = v.ctl1 &&& 0x97 := by
  show s.reg.ctl1 &&& readMask .ctl1 = _
  rw [h.ctl1]; rfl

theorem Runs.rdSt (hw : v.welcome) : Runs s0 v (rd .st) v.point.stByte v.point := by
  intro s h
  obtain ⟨t, ht, hs⟩ := h.point hw
  refine ⟨_, ?_, hs.pushAcc (.rd .st v.point.stByte)⟩
  rw [rd_eq ht, hs.readSt]; rfl

theorem Runs.rdCtl1 (hw : v.welcome) : Runs s0 v (rd .ctl1) (v.point.ctl1 &&& 0x97) v.point := by
  intro s h
  obtain ⟨t, ht, hs⟩ := h.point hw
  refine ⟨_, ?_, hs.pushAcc (.rd .ctl1 (v.point.ctl1 &&& 0x97))⟩
  rw [rd_eq ht, hs.readCtl1]; rfl

/-- A write of `CTL1` that does not set `INTEN`. -/
theorem Shows.writeCtl1 {s : State} (h : Shows s0 v s) {b : Byte} (hb : b.getLsbD 2 = false) :
    Shows s0 { v with ctl1 := b &&& 0x97 } (afterWrite s .ctl1 b) :=
  { h with
    ctl1 := rfl
    inten := by
      show (writeStorage s .ctl1 b).flag .inten = false
      rw [writeStorage_ctl1_flag s b .inten rfl]; exact hb }

theorem Runs.wrCtl1 (hw : v.welcome) {b : Byte} (hb : b.getLsbD 2 = false) :
    Runs s0 v (wr .ctl1 b) () { v.point with ctl1 := b &&& 0x97 } := by
  intro s h
  obtain ⟨t, ht, hs⟩ := h.point hw
  exact ⟨_, wr_eq ht _ _, (hs.writeCtl1 hb).pushAcc _⟩

/-- A flag of `ST` after a write of `ST`. -/
theorem writeLatches_st_flag' (s : State) (b : Byte) (f : Flag) (hf : f.reg = .st) :
    (writeLatches s .st b).flag f = (s.flag f && !(b.getLsbD f.bit && (0x38#8).getLsbD f.bit)) := by
  have hlt := f.bit_lt
  unfold State.flag Flag.isSet writeLatches
  rw [hf, State.withReg_reg, HwRegs.get_set, if_pos ⟨rfl, rfl⟩, BitVec.getLsbD_and, BitVec.getLsbD_not,
    BitVec.getLsbD_and]
  simp [hlt, latchMask]

theorem Runs.wrSt (hw : v.welcome) (b : Byte) :
    Runs s0 v (wr .st b) () { v.point with stastr := v.point.stastr && !b.getLsbD 3 } := by
  intro s h
  obtain ⟨t, ht, hs⟩ := h.point hw
  refine ⟨_, wr_eq ht _ _, Shows.pushAcc (v := { v.point with stastr := v.point.stastr && !b.getLsbD 3 }) ?_ _⟩
  have hf := fun f hf => writeLatches_st_flag' t b f hf
  exact
  { hs with
    master := by show (writeLatches t .st b).flag .master = _; rw [hf .master rfl, hs.master]; simp [Flag.bit]
    stastr := by show (writeLatches t .st b).flag .stastr = _; rw [hf .stastr rfl, hs.stastr]; simp [Flag.bit]
    sdast := by show (writeLatches t .st b).flag .sdast = _; rw [hf .sdast rfl, hs.sdast]; simp [Flag.bit]
    negack := by show (writeLatches t .st b).flag .negack = _; rw [hf .negack rfl, hs.negack]; rfl
    ber := by show (writeLatches t .st b).flag .ber = _; rw [hf .ber rfl, hs.ber]; rfl }

/-- The kind a byte written to `DATA` is queued with. -/
def BusView.kind (v : BusView) : TxKind := if v.ctl1.getLsbD 0 || v.le.addrPhase || !v.master then .addr else .data

theorem Runs.wrData (hw : v.welcome) (b : Byte) :
    Runs s0 v (wr .data b) () { v.point with
      data := b, sdast := false, le := { v.point.le with txb := v.point.le.txb ++ [(b, v.point.kind)] } } := by
  intro s h
  obtain ⟨t, ht, hs⟩ := h.point hw
  refine ⟨_, wr_eq ht _ _, Shows.pushAcc (v := { v.point with
      data := b, sdast := false, le := { v.point.le with txb := v.point.le.txb ++ [(b, v.point.kind)] } }) ?_ _⟩
  have hk : txKindOf t = v.point.kind := by
    unfold txKindOf BusView.kind; rw [hs.start, hs.le, hs.master]
  show Shows s0 _ (writeData t b)
  unfold writeData
  rw [hk, hs.le]
  exact
  { hs with
    data := rfl
    le := rfl
    master := by simp [hs.master]
    stastr := by simp [hs.stastr]
    sdast := by simp
    negack := by simp [hs.negack]
    ber := by simp [hs.ber]
    enable := by simp [hs.enable]
    fifoEn := by simp [hs.fifoEn]
    inten := by simp [hs.inten] }

/-- A read of `DATA` and, with it, what it re-arms. -/
def BusView.afterData (v : BusView) : BusView :=
  { v with sdast := false, le := if v.master && decide (v.le.dir = .rx) && !v.le.addrPhase && !v.le.last then
      { v.le with owed := .rxByte } else v.le }

theorem Runs.rdData (hw : v.welcome) : Runs s0 v (rd .data) v.point.data v.point.afterData := by
  intro s h
  obtain ⟨t, ht, hs⟩ := h.point hw
  refine ⟨_, by rw [rd_eq ht]; rw [show readValue t .data = v.point.data from hs.data],
    Shows.pushAcc (v := v.point.afterData) ?_ _⟩
  show Shows s0 _ (afterReadData t)
  have hr : rearms t = (v.point.master && decide (v.point.le.dir = .rx) && !v.point.le.addrPhase && !v.point.le.last) := by
    unfold rearms; rw [hs.master, hs.le]
  unfold afterReadData BusView.afterData
  rw [hr, hs.le]
  dsimp only
  split
  · exact
    { hs with
      le := rfl
      master := by simp [hs.master]
      stastr := by simp [hs.stastr]
      sdast := by simp
      negack := by simp [hs.negack]
      ber := by simp [hs.ber]
      enable := by simp [hs.enable]
      fifoEn := by simp [hs.fifoEn]
      inten := by simp [hs.inten] }
  · exact
    { hs with
      master := by simp [hs.master]
      stastr := by simp [hs.stastr]
      sdast := by simp
      negack := by simp [hs.negack]
      ber := by simp [hs.ber]
      enable := by simp [hs.enable]
      fifoEn := by simp [hs.fifoEn]
      inten := by simp [hs.inten] }

/-- A wait that succeeds at its first sample. -/
theorem Runs.poll {n : Nat} {r : RegId} {f : Byte → Option Kind} {b : Byte} {k : Kind} (hn : 0 < n)
    (hr : Runs s0 v (rd r) b w) (hf : f b = some k) : Runs s0 v (poll n r f) (some k) w := by
  obtain ⟨m, rfl⟩ := Nat.exists_eq_succ_of_ne_zero (Nat.ne_of_gt hn)
  unfold Sys2Proof.Machine.poll
  exact hr.bind (by rw [hf]; exact Runs.pure _)

theorem Runs.pollOrTimeout {n : Nat} {r : RegId} {f : Byte → Option Kind} {b : Byte} {k : Kind} (hn : 0 < n)
    (hr : Runs s0 v (rd r) b w) (hf : f b = some k) : Runs s0 v (pollOrTimeout n r f) k w := by
  unfold Sys2Proof.Machine.pollOrTimeout
  exact (Runs.poll hn hr hf).bind (Runs.pure _)

end Runs

end Sys2Proof.Machine
end

