-- ==== Sys2Proof/Laws/Sequencer.lean ====
section
/-! SUPPORT. For each operation, once: the results it can end with and what it does to the sequencer registers, `BUF` and
`LOG`, in every environment. -/

namespace Sys2Proof.Machine

/-- What register accesses and the line engine leave alone: everything but the registers, the line engine, the lines and
the records of the bus and of the accesses. -/
structure SeqFrame (s t : State) : Prop where
  x : t.x = s.x
  buf : t.buf = s.buf
  log : t.log = s.log
  cp : t.cp = s.cp
  program : t.program = s.program
  initialised : t.initialised = s.initialised
  pinmux : t.pinmux = s.pinmux
  cfg : t.cfg = s.cfg

/-- The same without the sequencer registers. -/
structure OuterFrame (s t : State) : Prop where
  buf : t.buf = s.buf
  log : t.log = s.log
  cp : t.cp = s.cp
  program : t.program = s.program
  initialised : t.initialised = s.initialised
  pinmux : t.pinmux = s.pinmux
  cfg : t.cfg = s.cfg

theorem SeqFrame.along : Along SeqFrame where
  refl _ := ⟨rfl, rfl, rfl, rfl, rfl, rfl, rfl, rfl⟩
  trans h k := ⟨k.x.trans h.x, k.buf.trans h.buf, k.log.trans h.log, k.cp.trans h.cp, k.program.trans h.program,
    k.initialised.trans h.initialised, k.pinmux.trans h.pinmux, k.cfg.trans h.cfg⟩

theorem OuterFrame.along : Along OuterFrame where
  refl _ := ⟨rfl, rfl, rfl, rfl, rfl, rfl, rfl⟩
  trans h k := ⟨k.buf.trans h.buf, k.log.trans h.log, k.cp.trans h.cp, k.program.trans h.program,
    k.initialised.trans h.initialised, k.pinmux.trans h.pinmux, k.cfg.trans h.cfg⟩

theorem SeqFrame.outer {s t : State} (h : SeqFrame s t) : OuterFrame s t :=
  ⟨h.buf, h.log, h.cp, h.program, h.initialised, h.pinmux, h.cfg⟩

theorem OuterFrame.withX (s : State) (x : SeqRegs) : OuterFrame s (s.withX x) := ⟨rfl, rfl, rfl, rfl, rfl, rfl, rfl⟩

theorem LeFrame.seq {s t : State} (h : LeFrame s t) : SeqFrame s t :=
  ⟨h.x, h.buf, h.log, h.cp, h.program, h.initialised, h.pinmux, h.cfg⟩

theorem AccessFrame.seq {s t : State} (h : AccessFrame s t) : SeqFrame s t :=
  ⟨h.x, h.buf, h.log, h.cp, h.program, h.initialised, h.pinmux, h.cfg⟩

theorem rd_seq (r : RegId) : Op.Keeps SeqFrame (rd r) :=
  Op.Keeps.rd SeqFrame.along (fun h => (lePoint_frame h).seq)
    (fun s r _ => ((afterRead_frame s r).trans (AccessFrame.pushAcc _ _)).seq) r

theorem wr_seq (r : RegId) (v : Byte) : Op.Keeps SeqFrame (wr r v) :=
  Op.Keeps.wr SeqFrame.along (fun h => (lePoint_frame h).seq)
    (fun s r v => ((afterWrite_frame s r v).trans (AccessFrame.pushAcc _ _)).seq) r v

theorem setbits_seq (r : RegId) (m : Byte) : Op.Keeps SeqFrame (setbits r m) :=
  Op.Keeps.setbits SeqFrame.along (rd_seq r) (wr_seq r) m

theorem clrbits_seq (r : RegId) (m : Byte) : Op.Keeps SeqFrame (clrbits r m) :=
  Op.Keeps.clrbits SeqFrame.along (rd_seq r) (wr_seq r) m

theorem poll_seq (n : Nat) (r : RegId) (f : Byte → Option Kind) : Op.Keeps SeqFrame (poll n r f) :=
  Op.Keeps.poll SeqFrame.along (rd_seq r) f n

theorem pollOrTimeout_seq (n : Nat) (r : RegId) (f : Byte → Option Kind) : Op.Keeps SeqFrame (pollOrTimeout n r f) :=
  Op.Keeps.pollOrTimeout SeqFrame.along (rd_seq r) f n

theorem point_seq : Op.Keeps SeqFrame point := fun _ _ _ e => (lePoint_frame (point_ok.1 e)).seq

/-- A sample that ends a poll is one its classifier accepts. -/
theorem poll_result {n : Nat} {r : RegId} {f : Byte → Option Kind} {s t : State} {k : Kind}
    (h : poll n r f s = .ok (some k, t)) : ∃ v, f v = some k := by
  induction n generalizing s with
  | zero => unfold poll at h; cases h
  | succ n ih =>
    unfold poll at h
    obtain ⟨v, u, -, h2⟩ := Op.bind_ok.1 h
    cases hf : f v with
    | some j => rw [hf] at h2; cases h2; exact ⟨v, hf⟩
    | none => rw [hf] at h2; exact ih h2

/-- A bounded wait ends with a kind its classifier gives, or with `Timeout`. -/
theorem pollOrTimeout_result {n : Nat} {r : RegId} {f : Byte → Option Kind} {s t : State} {k : Kind}
    (h : pollOrTimeout n r f s = .ok (k, t)) : k = .timeout ∨ ∃ v, f v = some k := by
  unfold pollOrTimeout at h
  obtain ⟨v, u, h1, h2⟩ := Op.bind_ok.1 h
  cases v with
  | none => cases h2; exact .inl rfl
  | some j => cases h2; exact .inr (poll_result h1)

/-! ## START -/

theorem startSample_result {v : Byte} {k : Kind} (h : startSample v = some k) : k = .busError ∨ k = .ok := by
  unfold startSample at h; split at h
  · cases h; exact .inl rfl
  · split at h
    · cases h; exact .inr rfl
    · cases h

/-- `send_start`: it marks the START on success and touches no sequencer register otherwise (42_primitives.md R98). -/
theorem sendStart_spec {n : Nat} {s t : State} {k : Kind} (h : sendStart n s = .ok (k, t)) :
    ∃ u, SeqFrame s u ∧
      ((k = .ok ∧ t = u.withX { u.x with started := true, phase := .started }) ∨
       ((k = .busError ∨ k = .timeout) ∧ t = u)) := by
  obtain ⟨_, u, h1, h2⟩ := Op.bind_ok.1 h
  obtain ⟨r, w, h3, h4⟩ := orReturn_ok.1 h2
  have hf := SeqFrame.along.trans (setbits_seq _ _ _ _ _ h1) (pollOrTimeout_seq _ _ _ _ _ _ h3)
  rcases h4 with ⟨-, h4⟩ | ⟨hr, rfl, rfl⟩
  · cases h4; exact ⟨w, hf, .inl ⟨rfl, rfl⟩⟩
  · refine ⟨t, hf, .inr ⟨?_, rfl⟩⟩
    rcases pollOrTimeout_result h3 with h | ⟨v, hv⟩
    · exact .inr h
    · rcases startSample_result hv with h | h
      · exact .inl h
      · exact absurd h hr

/-! ## The dump and STOP -/

/-- The reads of a dump: the registers asked for, in that order. -/
theorem readAll_spec {rs : List RegId} {s t : State} {vs : List (RegId × Byte)} (h : readAll rs s = .ok (vs, t)) :
    SeqFrame s t ∧ vs.map Prod.fst = rs := by
  induction rs generalizing s vs with
  | nil => cases h; exact ⟨SeqFrame.along.refl _, rfl⟩
  | cons r rs ih =>
    obtain ⟨v, u, h1, h2⟩ := Op.bind_ok.1 h
    obtain ⟨ws, w, h3, h4⟩ := Op.bind_ok.1 h2
    cases h4
    obtain ⟨hf, hm⟩ := ih h3
    exact ⟨SeqFrame.along.trans (rd_seq _ _ _ _ h1) hf, by rw [List.map_cons, hm]⟩

/-- The layout changes the bytes of a dump, not the registers they are of. -/
@[simp] theorem shownValues_regs (l : Layout) (vals : List (RegId × Byte)) :
    (shownValues l vals).map Prod.fst = vals.map Prod.fst := by simp [shownValues]

/-- `dump()`: one `LOG_DUMP` event over `DUMP_SET` (44_recovery_and_diagnostics.md R132). -/
theorem dump_spec {s t : State} {a : Unit} (h : dump s = .ok (a, t)) :
    ∃ u vals, SeqFrame s u ∧ vals.map Prod.fst = dumpSet ∧ t = u.pushLog (.dump vals) := by
  obtain ⟨vs, u, h1, h2⟩ := Op.bind_ok.1 h
  cases h2
  obtain ⟨hf, hm⟩ := readAll_spec h1
  exact ⟨u, shownValues u.cfg.layout vs, hf, (shownValues_regs _ _).trans hm, rfl⟩

theorem stopSample_result {v : Byte} {k : Kind} (h : stopSample v = some k) : k = .ok := by
  unfold stopSample at h; split at h
  · cases h
  · cases h; rfl

/-- What a `send_stop` leaves: no START owed a STOP, `PHASE` idle; a timeout adds one dump to `LOG`
(42_primitives.md R99). -/
structure StopOutcome (n : Nat) (s t : State) (k : Kind) : Prop where
  x : t.x = { s.x with started := false, phase := .idle }
  buf : t.buf = s.buf
  cp : t.cp = s.cp
  program : t.program = s.program
  initialised : t.initialised = s.initialised
  pinmux : t.pinmux = s.pinmux
  cfg : t.cfg = s.cfg
  result : (k = .ok ∧ t.log = s.log) ∨
    (k = .timeout ∧ 0 < n ∧ ∃ vals, vals.map Prod.fst = dumpSet ∧ t.log = s.log ++ [.dump vals])

theorem sendStop_spec {n : Nat} {s t : State} {k : Kind} (h : sendStop n s = .ok (k, t)) : StopOutcome n s t k := by
  obtain ⟨_, u, h1, h2⟩ := Op.bind_ok.1 h
  obtain ⟨_, w, h3, h4⟩ := Op.bind_ok.1 h2
  obtain ⟨_, y, h5, h6⟩ := Op.bind_ok.1 h4
  have hf := SeqFrame.along.trans (setbits_seq _ _ _ _ _ h1) (wr_seq _ _ _ _ _ h3)
  cases h5
  by_cases hn : n = 0
  · rw [if_pos hn] at h6
    cases h6
    refine ⟨?_, hf.buf, hf.cp, hf.program, hf.initialised, hf.pinmux, hf.cfg, .inl ⟨rfl, hf.log⟩⟩
    simp [hf.x]
  · rw [if_neg hn] at h6
    obtain ⟨v, z, h7, h8⟩ := Op.bind_ok.1 h6
    have hz := poll_seq _ _ _ _ _ _ h7
    obtain ⟨_, q, h9, h10⟩ := Op.bind_ok.1 h8
    cases h9
    cases v with
    | some j =>
      cases h10
      obtain ⟨v, hv⟩ := poll_result h7
      have hj := stopSample_result hv
      refine ⟨?_, hz.buf.trans hf.buf, hz.cp.trans hf.cp, hz.program.trans hf.program, hz.initialised.trans hf.initialised,
        hz.pinmux.trans hf.pinmux, hz.cfg.trans hf.cfg, .inl ⟨hj, hz.log.trans hf.log⟩⟩
      simp [hz.x, hf.x]
    | none =>
      obtain ⟨_, e, h11, h12⟩ := Op.bind_ok.1 h10
      cases h12
      obtain ⟨g, vals, hg, hm, rfl⟩ := dump_spec h11
      refine ⟨?_, hg.buf.trans (hz.buf.trans hf.buf), hg.cp.trans (hz.cp.trans hf.cp), hg.program.trans (hz.program.trans hf.program),
        hg.initialised.trans (hz.initialised.trans hf.initialised), hg.pinmux.trans (hz.pinmux.trans hf.pinmux),
        hg.cfg.trans (hz.cfg.trans hf.cfg), .inr ⟨rfl, by omega, vals, hm, ?_⟩⟩
      · simp [hg.x, hz.x, hf.x]
      · have : g.log = s.log := hg.log.trans (hz.log.trans hf.log)
        simp [this]

/-- `send_stop(0)` always succeeds (42_primitives.md R99). -/
theorem sendStop_zero {s t : State} {k : Kind} (h : sendStop 0 s = .ok (k, t)) : k = .ok := by
  rcases (sendStop_spec h).result with ⟨h, -⟩ | ⟨-, h, -⟩
  · exact h
  · exact absurd h (by decide)

/-! ## The address phase and the two waits -/

theorem inspect_result (v : Byte) : inspect v = .ok ∨ inspect v = .nack ∨ inspect v = .busError := by
  unfold inspect; split
  · exact .inr (.inl rfl)
  · split
    · exact .inr (.inr rfl)
    · exact .inl rfl

/-- The inspection of `send_address`: `PHASE` becomes `ADDRESSED` on success and nothing of the sequencer changes otherwise
(42_primitives.md R100). -/
theorem inspectAddress_spec {s t : State} {k : Kind} (h : inspectAddress s = .ok (k, t)) :
    ∃ u, SeqFrame s u ∧
      ((k = .ok ∧ t = u.withX { u.x with phase := .addressed }) ∨ ((k = .nack ∨ k = .busError) ∧ t = u)) := by
  obtain ⟨v, u, h1, h2⟩ := Op.bind_ok.1 h
  refine ⟨u, rd_seq _ _ _ _ h1, ?_⟩
  rcases inspect_result v with hv | hv | hv <;> rw [hv] at h2 <;> cases h2
  · exact .inl ⟨rfl, rfl⟩
  · exact .inr ⟨.inl rfl, rfl⟩
  · exact .inr ⟨.inr rfl, rfl⟩

/-- `send_address`: `PHASE` becomes `ADDRESSED` on success and nothing of the sequencer changes otherwise
(42_primitives.md R100). -/
theorem sendAddress_spec {b : Byte} {stall : Bool} {s t : State} {k : Kind} (h : sendAddress b stall s = .ok (k, t)) :
    ∃ u, SeqFrame s u ∧
      ((k = .ok ∧ t = u.withX { u.x with phase := .addressed }) ∨ ((k = .nack ∨ k = .busError) ∧ t = u)) := by
  unfold sendAddress at h
  split at h
  · obtain ⟨_, u, h1, h2⟩ := Op.bind_ok.1 h
    obtain ⟨_, w, h3, h4⟩ := Op.bind_ok.1 h2
    obtain ⟨c, y, h5, h6⟩ := Op.bind_ok.1 h4
    cases h5
    obtain ⟨_, z, h7, h8⟩ := Op.bind_ok.1 h6
    obtain ⟨q, hq, hr⟩ := inspectAddress_spec h8
    exact ⟨q, SeqFrame.along.trans (SeqFrame.along.trans (SeqFrame.along.trans (setbits_seq _ _ _ _ _ h1)
      (wr_seq _ _ _ _ _ h3)) (poll_seq _ _ _ _ _ _ h7)) hq, hr⟩
  · obtain ⟨_, w, h3, h4⟩ := Op.bind_ok.1 h
    obtain ⟨q, hq, hr⟩ := inspectAddress_spec h4
    exact ⟨q, SeqFrame.along.trans (wr_seq _ _ _ _ _ h3) hq, hr⟩

theorem dataReadySample_result {v : Byte} {k : Kind} (h : dataReadySample v = some k) :
    k = .nack ∨ k = .busError ∨ k = .ok := by
  unfold dataReadySample at h; split at h
  · cases h; exact .inl rfl
  · split at h
    · cases h; exact .inr (.inl rfl)
    · split at h
      · cases h; exact .inr (.inr rfl)
      · cases h

theorem ackClearedSample_result {v : Byte} {k : Kind} (h : ackClearedSample v = some k) : k = .ok := by
  unfold ackClearedSample at h; split at h
  · cases h
  · cases h; rfl

/-- `poll_data_ready` writes `PHASE` and nothing else of the sequencer (42_primitives.md R101). -/
theorem pollDataReady_spec {n : Nat} {s t : State} {k : Kind} (h : pollDataReady n s = .ok (k, t)) :
    SeqFrame (s.withX { s.x with phase := .data }) t ∧ (k = .ok ∨ k = .nack ∨ k = .busError ∨ k = .timeout) := by
  obtain ⟨_, u, h1, h2⟩ := Op.bind_ok.1 h
  cases h1
  refine ⟨pollOrTimeout_seq _ _ _ _ _ _ h2, ?_⟩
  rcases pollOrTimeout_result h2 with h | ⟨v, hv⟩
  · exact .inr (.inr (.inr h))
  · rcases dataReadySample_result hv with h | h | h
    · exact .inr (.inl h)
    · exact .inr (.inr (.inl h))
    · exact .inl h

/-- `poll_ack_cleared` writes `PHASE` and nothing else of the sequencer (42_primitives.md R102). -/
theorem pollAckCleared_spec {n : Nat} {s t : State} {k : Kind} (h : pollAckCleared n s = .ok (k, t)) :
    SeqFrame (s.withX { s.x with phase := .data }) t ∧ (k = .ok ∨ k = .timeout) := by
  obtain ⟨_, u, h1, h2⟩ := Op.bind_ok.1 h
  cases h1
  refine ⟨pollOrTimeout_seq _ _ _ _ _ _ h2, ?_⟩
  rcases pollOrTimeout_result h2 with h | ⟨v, hv⟩
  · exact .inr h
  · exact .inl (ackClearedSample_result hv)

theorem rdNow_seq (r : RegId) : Op.Keeps SeqFrame (rdNow r) := by
  intro s v t e; rw [rdNow_run] at e; cases e
  exact ((afterRead_frame s r).trans (AccessFrame.pushAcc _ _)).seq

theorem wrNow_seq (r : RegId) (v : Byte) : Op.Keeps SeqFrame (wrNow r v) := by
  intro s a t e; rw [wrNow_run] at e; cases e
  exact ((afterWrite_frame s r v).trans (AccessFrame.pushAcc _ _)).seq

theorem requestNackAfterRead_seq : Op.Keeps SeqFrame requestNackAfterRead := by
  intro s a t e
  obtain ⟨c, u, h1, h2⟩ := Op.bind_ok.1 e
  cases h1
  split at h2
  · exact Op.Keeps.bind SeqFrame.along (rdNow_seq _) (fun _ => wrNow_seq _ _) _ _ _ h2
  · exact setbits_seq _ _ _ _ _ h2

theorem releaseStall_seq (keep : Bool) : Op.Keeps SeqFrame (releaseStall keep) := by
  refine Op.Keeps.bind SeqFrame.along (rd_seq _) (fun c => ?_)
  split
  · refine Op.Keeps.bind SeqFrame.along (wr_seq _ _) (fun _ => ?_)
    split
    · exact Op.Keeps.pure SeqFrame.along _
    · exact wr_seq _ _
  · exact Op.Keeps.pure SeqFrame.along _

theorem ctrlReset_seq : Op.Keeps SeqFrame ctrlReset :=
  have b {α β : Type} {m : Op α} {f : α → Op β} := @Op.Keeps.bind α β SeqFrame SeqFrame.along m f
  b (clrbits_seq _ _) (fun _ => b (setbits_seq _ _) (fun _ => b (wr_seq _ _) (fun _ => b (wr_seq _ _) (fun _ =>
    b (wr_seq _ _) (fun _ => b (wr_seq _ _) (fun _ => b (clrbits_seq _ _) (fun _ => wr_seq _ _)))))))

/-- The tail of a read: the STOP's effect on the sequencer, then the final byte stored (42_primitives.md R108). -/
theorem readTail_spec {store : Byte → Op Unit} {s t : State} {k : Kind} (h : readTail store s = .ok (k, t)) :
    k = .ok ∧ ∃ v u w, u.x = { s.x with started := false, phase := .idle } ∧ OuterFrame s u ∧
      store v u = .ok ((), w) ∧ SeqFrame w t := by
  obtain ⟨j, u, h1, h2⟩ := Op.bind_ok.1 h
  obtain ⟨v, w, h3, h4⟩ := Op.bind_ok.1 h2
  obtain ⟨_, y, h5, h6⟩ := Op.bind_ok.1 h4
  obtain ⟨_, z, h7, h8⟩ := Op.bind_ok.1 h6
  cases h8
  have hs := sendStop_spec h1
  have hl : u.log = s.log := by
    rcases hs.result with ⟨-, h⟩ | ⟨-, h, -⟩
    · exact h
    · exact absurd h (by decide)
  have hw := rd_seq _ _ _ _ h3
  exact ⟨rfl, v, w, y, hw.x.trans hs.x, OuterFrame.along.trans ⟨hs.buf, hl, hs.cp, hs.program, hs.initialised, hs.pinmux, hs.cfg⟩ hw.outer,
    h5, wr_seq _ _ _ _ _ h7⟩

end Sys2Proof.Machine
end

