-- ==== Sys2Proof/Laws/Transactions.lean ====
section
/-! SUPPORT. What READ, WRITE, EXCHANGE and RECOVER leave of the sequencer registers, `BUF` and `LOG`, in every
environment (43_transactions.md R116, R119, R120, 44_recovery_and_diagnostics.md R129). -/

namespace Sys2Proof.Machine

/-- The kinds a wait for data can fail with. -/
def Kind.waitFailure (k : Kind) : Prop := k = .nack ∨ k = .busError ∨ k = .timeout

/-- Every byte outside the `n` bytes at `a` reads as before. -/
def SameOutside (a : BitVec 32) (n : Nat) (s t : State) : Prop :=
  ∀ x, (∀ i < n, x ≠ (bufAddr a i).toNat) → t.buf.read x = s.buf.read x

theorem SameOutside.of_eq {a : BitVec 32} {n : Nat} {s t : State} (h : t.buf = s.buf) : SameOutside a n s t :=
  fun _ _ => by rw [h]

theorem SameOutside.trans {a : BitVec 32} {n : Nat} {s t u : State} (h : SameOutside a n s t) (k : SameOutside a n t u) :
    SameOutside a n s u := fun x hx => (k x hx).trans (h x hx)

theorem SameOutside.mono {a : BitVec 32} {n m : Nat} {s t : State} (hnm : n ≤ m) (h : SameOutside a n s t) :
    SameOutside a m s t := fun x hx => h x (fun i hi => hx i (Nat.lt_of_lt_of_le hi hnm))

theorem bufAddr_zero (a : BitVec 32) : bufAddr a 0 = a := by simp [bufAddr]

theorem bufAddr_succ (a : BitVec 32) (i : Nat) : bufAddr (a + 1) i = bufAddr a (i + 1) := by
  unfold bufAddr
  rw [BitVec.ofNat_add, BitVec.add_assoc, BitVec.add_comm 1]; rfl

theorem SameOutside.shift {a : BitVec 32} {n : Nat} {s t : State} (h : SameOutside (a + 1) n s t) :
    SameOutside a (n + 1) s t := fun x hx => h x (fun i hi => by rw [bufAddr_succ]; exact hx (i + 1) (by omega))

theorem SameOutside.write (a : BitVec 32) (v : Byte) (n : Nat) (s : State) :
    SameOutside a (n + 1) s (s.withBuf (s.buf.write a.toNat v)) := by
  intro x hx
  have := hx 0 (by omega)
  rw [bufAddr_zero] at this
  exact Memory.read_write_ne _ _ _ _ (fun h => this h.symm)

/-- What leaves everything outside the sequencer registers, the hardware and the bytes of one buffer alone. -/
structure ReadFrame (a : BitVec 32) (n : Nat) (s t : State) : Prop where
  buf : SameOutside a n s t
  log : t.log = s.log
  cp : t.cp = s.cp
  program : t.program = s.program
  initialised : t.initialised = s.initialised
  pinmux : t.pinmux = s.pinmux
  cfg : t.cfg = s.cfg

theorem OuterFrame.read {s t : State} (h : OuterFrame s t) (a : BitVec 32) (n : Nat) : ReadFrame a n s t :=
  ⟨SameOutside.of_eq h.buf, h.log, h.cp, h.program, h.initialised, h.pinmux, h.cfg⟩

theorem ReadFrame.trans {a : BitVec 32} {n : Nat} {s t u : State} (h : ReadFrame a n s t) (k : ReadFrame a n t u) :
    ReadFrame a n s u :=
  ⟨h.buf.trans k.buf, k.log.trans h.log, k.cp.trans h.cp, k.program.trans h.program, k.initialised.trans h.initialised,
    k.pinmux.trans h.pinmux, k.cfg.trans h.cfg⟩

theorem ReadFrame.shift {a : BitVec 32} {n : Nat} {s t : State} (h : ReadFrame (a + 1) n s t) : ReadFrame a (n + 1) s t :=
  ⟨h.buf.shift, h.log, h.cp, h.program, h.initialised, h.pinmux, h.cfg⟩

theorem ReadFrame.memWrite (a : BitVec 32) (v : Byte) (n : Nat) (s : State) :
    ReadFrame a (n + 1) s (s.withBuf (s.buf.write a.toNat v)) :=
  ⟨SameOutside.write a v n s, rfl, rfl, rfl, rfl, rfl, rfl⟩

/-- The exits of the data phase of a read: complete with the STOP requested, or failed with the START still owed one. -/
structure DataPhase (a : BitVec 32) (n : Nat) (s t : State) (k : Kind) : Prop where
  frame : ReadFrame a n s t
  exit : (k = .ok ∧ t.x = { s.x with started := false, phase := .idle }) ∨
    (k.waitFailure ∧ t.x = { s.x with phase := .data })

theorem readTail_memWrite {a : BitVec 32} {s t : State} {k : Kind} (h : readTail (memWrite a) s = .ok (k, t)) :
    DataPhase a 1 s t k := by
  obtain ⟨rfl, v, u, w, hx, ho, hw, hf⟩ := readTail_spec h
  cases hw
  exact ⟨(ho.read a 1).trans ((ReadFrame.memWrite a v 0 u).trans (hf.outer.read a 1)), .inl ⟨rfl, hf.x.trans hx⟩⟩

theorem readSingle_spec {keep : Bool} {base : BitVec 32} {s t : State} {k : Kind} (h : readSingle keep base s = .ok (k, t)) :
    DataPhase base 1 s t k := by
  obtain ⟨_, u, h1, h2⟩ := Op.bind_ok.1 h
  obtain ⟨_, w, h3, h4⟩ := Op.bind_ok.1 h2
  obtain ⟨c, y, h5, h6⟩ := Op.bind_ok.1 h4
  cases h5
  have hf := SeqFrame.along.trans (setbits_seq _ _ _ _ _ h1) (releaseStall_seq _ _ _ _ h3)
  obtain ⟨r, z, h7, h8⟩ := orReturn_ok.1 h6
  obtain ⟨hp, hk⟩ := pollDataReady_spec h7
  have ho : OuterFrame s z := OuterFrame.along.trans hf.outer (OuterFrame.along.trans (OuterFrame.withX _ _) hp.outer)
  rcases h8 with ⟨-, h8⟩ | ⟨hr, rfl, rfl⟩
  · have ht := readTail_memWrite h8
    refine ⟨(ho.read _ _).trans ht.frame, ?_⟩
    rcases ht.exit with ⟨rfl, hx⟩ | ⟨hk', hx⟩
    · exact .inl ⟨rfl, by rw [hx, hp.x]; simp [hf.x]⟩
    · exact .inr ⟨hk', by rw [hx, hp.x]; simp [hf.x]⟩
  · refine ⟨ho.read _ _, .inr ⟨?_, by rw [hp.x]; simp [hf.x]⟩⟩
    rcases hk with h | h | h | h
    · exact absurd h hr
    · exact .inl h
    · exact .inr (.inl h)
    · exact .inr (.inr h)

theorem readMulti_spec {n : Nat} {a : BitVec 32} {s t : State} {k : Kind} (h : readMulti (n + 1) a s = .ok (k, t)) :
    DataPhase a (n + 1) s t k := by
  induction n generalizing a s with
  | zero =>
    unfold readMulti at h
    obtain ⟨c, u, h1, h2⟩ := Op.bind_ok.1 h
    cases h1
    obtain ⟨r, z, h7, h8⟩ := orReturn_ok.1 h2
    obtain ⟨hp, hk⟩ := pollAckCleared_spec h7
    have ho : OuterFrame s z := OuterFrame.along.trans (OuterFrame.withX _ _) hp.outer
    rcases h8 with ⟨-, h8⟩ | ⟨hr, rfl, rfl⟩
    · have ht := readTail_memWrite h8
      refine ⟨(ho.read _ _).trans ht.frame, ?_⟩
      rcases ht.exit with ⟨rfl, hx⟩ | ⟨hk', hx⟩
      · exact .inl ⟨rfl, by rw [hx, hp.x]; simp⟩
      · exact .inr ⟨hk', by rw [hx, hp.x]; simp⟩
    · refine ⟨ho.read _ _, .inr ⟨?_, by rw [hp.x]; simp⟩⟩
      rcases hk with h | h
      · exact absurd h hr
      · exact .inr (.inr h)
  | succ n ih =>
    unfold readMulti at h
    obtain ⟨c, u, h1, h2⟩ := Op.bind_ok.1 h
    cases h1
    obtain ⟨r, z, h7, h8⟩ := orReturn_ok.1 h2
    obtain ⟨hp, hk⟩ := pollDataReady_spec h7
    have ho : OuterFrame s z := OuterFrame.along.trans (OuterFrame.withX _ _) hp.outer
    rcases h8 with ⟨-, h8⟩ | ⟨hr, rfl, rfl⟩
    · obtain ⟨v, w, h9, h10⟩ := Op.bind_ok.1 h8
      have hw := rd_seq _ _ _ _ h9
      obtain ⟨_, y, h11, h12⟩ := Op.bind_ok.1 h10
      cases h11
      have rest : ∃ q, SeqFrame (w.withBuf (w.buf.write a.toNat v)) q ∧ readMulti (n + 1) (a + 1) q = .ok (k, t) := by
        split at h12
        · obtain ⟨_, q, h13, h14⟩ := Op.bind_ok.1 h12
          exact ⟨q, requestNackAfterRead_seq _ _ _ h13, h14⟩
        · exact ⟨_, SeqFrame.along.refl _, h12⟩
      obtain ⟨q, hq, h14⟩ := rest
      have ht := ih h14
      have hxq : q.x = { s.x with phase := .data } := by rw [hq.x]; simp [hw.x, hp.x]
      refine ⟨((((ho.read _ _).trans (hw.outer.read _ _)).trans (ReadFrame.memWrite a v _ w)).trans (hq.outer.read _ _)).trans
        ht.frame.shift, ?_⟩
      rcases ht.exit with ⟨rfl, hx⟩ | ⟨hk', hx⟩
      · exact .inl ⟨rfl, by rw [hx, hxq]⟩
      · exact .inr ⟨hk', by rw [hx, hxq]⟩
    · refine ⟨ho.read _ _, .inr ⟨?_, by rw [hp.x]; simp⟩⟩
      rcases hk with h | h | h | h
      · exact absurd h hr
      · exact .inl h
      · exact .inr (.inl h)
      · exact .inr (.inr h)

/-- The exits of a transfer after which a START is outstanding. -/
def Outstanding (s t : State) : Prop :=
  ∃ p : Phase, (p = .started ∨ p = .addressed ∨ p = .data) ∧ t.x = { s.x with started := true, phase := p }

/-- The exits of READ (43_transactions.md R116). -/
inductive ReadExit (len : Nat) (s t : State) : Kind → Prop
  /-- A length of 0: nothing touched. -/
  | rejected (h : len = 0) (e : t = s) : ReadExit len s t .invalidArgument
  /-- The START failed. -/
  | noStart {k : Kind} (hk : k = .busError ∨ k = .timeout) (e : t.x = s.x) : ReadExit len s t k
  /-- A later step failed: a STOP is owed. -/
  | failed {k : Kind} (hk : k.waitFailure) (e : Outstanding s t) : ReadExit len s t k
  /-- The transfer completed and its STOP has been requested. -/
  | complete (e : t.x = { s.x with started := false, phase := .idle }) : ReadExit len s t .ok

theorem readMessage_spec {keep : Bool} {a : Addr7} {len : Nat} {base : BitVec 32} {s t : State} {k : Kind}
    (h : readMessage keep a len base s = .ok (k, t)) : ReadFrame base len s t ∧ ReadExit len s t k := by
  unfold readMessage at h
  split at h
  · rename_i hl
    cases h
    exact ⟨(OuterFrame.along.refl _).read _ _, .rejected hl rfl⟩
  · rename_i hl
    obtain ⟨c, u, h1, h2⟩ := Op.bind_ok.1 h
    cases h1
    obtain ⟨r, w, h3, h4⟩ := orReturn_ok.1 h2
    obtain ⟨p, hp, hr⟩ := sendStart_spec h3
    rcases h4 with ⟨rfl, h4⟩ | ⟨hne, rfl, rfl⟩
    · rcases hr with ⟨-, rfl⟩ | ⟨h | h, -⟩
      rotate_left
      · cases h
      · cases h
      obtain ⟨r2, y, h5, h6⟩ := orReturn_ok.1 h4
      obtain ⟨q, hq, hr2⟩ := sendAddress_spec h5
      have ho : OuterFrame s q := OuterFrame.along.trans hp.outer (OuterFrame.along.trans (OuterFrame.withX _ _) hq.outer)
      have hxq : q.x = { s.x with started := true, phase := .started } := by rw [hq.x]; simp [hp.x]
      rcases h6 with ⟨rfl, h6⟩ | ⟨hne, rfl, rfl⟩
      · rcases hr2 with ⟨-, rfl⟩ | ⟨h | h, -⟩
        rotate_left
        · cases h
        · cases h
        have hd : DataPhase base len (q.withX { q.x with phase := .addressed }) t k := by
          unfold readData at h6
          split at h6
          · rename_i h1; subst h1; exact readSingle_spec h6
          · obtain ⟨n, rfl⟩ := Nat.exists_eq_succ_of_ne_zero hl
            exact readMulti_spec h6
        refine ⟨((ho.read _ _).trans ((OuterFrame.withX _ _).read _ _)).trans hd.frame, ?_⟩
        rcases hd.exit with ⟨rfl, hx⟩ | ⟨hk, hx⟩
        · exact .complete (by rw [hx]; simp [hxq])
        · exact .failed hk ⟨.data, .inr (.inr rfl), by rw [hx]; simp [hxq]⟩
      · rcases hr2 with ⟨rfl, -⟩ | ⟨hk, rfl⟩
        · exact absurd rfl hne
        · refine ⟨ho.read _ _, .failed ?_ ⟨.started, .inl rfl, hxq⟩⟩
          rcases hk with h | h
          · exact .inl h
          · exact .inr (.inl h)
    · rcases hr with ⟨rfl, -⟩ | ⟨hk, rfl⟩
      · exact absurd rfl hne
      · exact ⟨hp.outer.read _ _, .noStart hk hp.x⟩

/-! ## WRITE -/

theorem writeLoop_spec {n : Nat} {a : BitVec 32} {s t : State} {k : Kind} (h : writeLoop n a s = .ok (k, t)) :
    OuterFrame s t ∧ (t.x = s.x ∨ t.x = { s.x with phase := .data }) ∧ (k = .ok ∨ k.waitFailure) := by
  induction n generalizing a s with
  | zero => cases h; exact ⟨OuterFrame.along.refl _, .inl rfl, .inl rfl⟩
  | succ n ih =>
    unfold writeLoop at h
    obtain ⟨c, u, h1, h2⟩ := Op.bind_ok.1 h
    cases h1
    obtain ⟨r, z, h7, h8⟩ := orReturn_ok.1 h2
    obtain ⟨hp, hk⟩ := pollDataReady_spec h7
    have ho : OuterFrame s z := OuterFrame.along.trans (OuterFrame.withX _ _) hp.outer
    rcases h8 with ⟨-, h8⟩ | ⟨hr, rfl, rfl⟩
    · obtain ⟨v, w, h9, h10⟩ := Op.bind_ok.1 h8
      cases h9
      obtain ⟨_, y, h11, h12⟩ := Op.bind_ok.1 h10
      have hw := wr_seq _ _ _ _ _ h11
      obtain ⟨hi, hx, hk'⟩ := ih h12
      refine ⟨OuterFrame.along.trans ho (OuterFrame.along.trans hw.outer hi), .inr ?_, hk'⟩
      rcases hx with hx | hx <;> rw [hx] <;> simp [hw.x, hp.x]
    · refine ⟨ho, .inr (by rw [hp.x]; simp), .inr ?_⟩
      rcases hk with h | h | h | h
      · exact absurd h hr
      · exact .inl h
      · exact .inr (.inl h)
      · exact .inr (.inr h)

/-- The exits of WRITE: it never issues a STOP (43_transactions.md R119). -/
inductive WriteExit (s t : State) : Kind → Prop
  /-- The START failed. -/
  | noStart {k : Kind} (hk : k = .busError ∨ k = .timeout) (e : t.x = s.x) : WriteExit s t k
  /-- The START succeeded: whatever the result, a STOP is owed. -/
  | started {k : Kind} (hk : k = .ok ∨ k.waitFailure) (e : Outstanding s t) : WriteExit s t k

theorem writeMessage_spec {a : Addr7} {len : Nat} {base : BitVec 32} {s t : State} {k : Kind}
    (h : writeMessage a len base s = .ok (k, t)) : OuterFrame s t ∧ WriteExit s t k := by
  unfold writeMessage at h
  obtain ⟨c, u, h1, h2⟩ := Op.bind_ok.1 h
  cases h1
  obtain ⟨r, w, h3, h4⟩ := orReturn_ok.1 h2
  obtain ⟨p, hp, hr⟩ := sendStart_spec h3
  rcases h4 with ⟨rfl, h4⟩ | ⟨hne, rfl, rfl⟩
  · rcases hr with ⟨-, rfl⟩ | ⟨h | h, -⟩
    rotate_left
    · cases h
    · cases h
    obtain ⟨r2, y, h5, h6⟩ := Op.bind_ok.1 h4
    have tail : SeqFrame y t ∧ k = r2 := by
      split at h6
      · obtain ⟨_, z, h7, h8⟩ := Op.bind_ok.1 h6
        cases h8
        exact ⟨clrbits_seq _ _ _ _ _ h7, rfl⟩
      · cases h6; exact ⟨SeqFrame.along.refl _, rfl⟩
    obtain ⟨ht, rfl⟩ := tail
    obtain ⟨r3, q, h7, h8⟩ := orReturn_ok.1 h5
    obtain ⟨b, hb, hr3⟩ := sendAddress_spec h7
    have ho : OuterFrame s b := OuterFrame.along.trans hp.outer (OuterFrame.along.trans (OuterFrame.withX _ _) hb.outer)
    have hxb : b.x = { s.x with started := true, phase := .started } := by rw [hb.x]; simp [hp.x]
    rcases h8 with ⟨rfl, h8⟩ | ⟨hne, rfl, rfl⟩
    · rcases hr3 with ⟨-, rfl⟩ | ⟨h | h, -⟩
      rotate_left
      · cases h
      · cases h
      obtain ⟨hl, hx, hk⟩ := writeLoop_spec h8
      refine ⟨OuterFrame.along.trans ho (OuterFrame.along.trans (OuterFrame.withX _ _) (OuterFrame.along.trans hl ht.outer)),
        .started hk ?_⟩
      rcases hx with hx | hx
      · exact ⟨.addressed, .inr (.inl rfl), by rw [ht.x, hx]; simp [hxb]⟩
      · exact ⟨.data, .inr (.inr rfl), by rw [ht.x, hx]; simp [hxb]⟩
    · rcases hr3 with ⟨rfl, -⟩ | ⟨hk, rfl⟩
      · exact absurd rfl hne
      · refine ⟨OuterFrame.along.trans ho ht.outer, .started (.inr ?_) ⟨.started, .inl rfl, by rw [ht.x, hxb]⟩⟩
        rcases hk with h | h
        · exact .inl h
        · exact .inr (.inl h)
  · rcases hr with ⟨rfl, -⟩ | ⟨hk, rfl⟩
    · exact absurd rfl hne
    · exact ⟨hp.outer, .noStart hk hp.x⟩

/-! ## RECOVER -/

/-- What RECOVER leaves of the sequencer: it succeeds, it adds at most one event to `LOG`, and `x[STARTED]`, `x[PHASE]` are
as before or as a STOP leaves them (44_recovery_and_diagnostics.md R125, R129). -/
structure RecoverOutcome (s t : State) (k : Kind) : Prop where
  result : k = .ok
  x : t.x = s.x ∨ t.x = { s.x with started := false, phase := .idle }
  buf : t.buf = s.buf
  log : t.log = s.log ∨ t.log = s.log ++ [.recDone] ∨ t.log = s.log ++ [.recStartFailed] ∨ t.log = s.log ++ [.recSdaStuck]
  cp : t.cp = s.cp
  program : t.program = s.program
  initialised : t.initialised = s.initialised
  pinmux : t.pinmux = s.pinmux
  cfg : t.cfg = s.cfg

theorem toggleLoop_seq (n : Nat) : Op.Keeps SeqFrame (toggleLoop n) := by
  induction n with
  | zero => exact Op.Keeps.pure SeqFrame.along _
  | succ n ih =>
    refine Op.Keeps.bind SeqFrame.along (wr_seq _ _) (fun _ => Op.Keeps.bind SeqFrame.along point_seq (fun _ =>
      Op.Keeps.bind SeqFrame.along (rd_seq _) (fun b => ?_)))
    split
    · exact Op.Keeps.pure SeqFrame.along _
    · exact ih

theorem forcedStart_spec {a : Addr7} {s t : State} {u : Unit} (h : forcedStart a s = .ok (u, t)) :
    RecoverOutcome s t .ok := by
  obtain ⟨c, u1, h1, h2⟩ := Op.bind_ok.1 h
  cases h1
  obtain ⟨_, w, h3, h4⟩ := Op.bind_ok.1 h2
  have hw := wr_seq _ _ _ _ _ h3
  obtain ⟨r, y, h5, h6⟩ := Op.bind_ok.1 h4
  obtain ⟨p, hp, hr⟩ := sendStart_spec h5
  have hf := SeqFrame.along.trans hw hp
  split at h6
  · rename_i hok; subst hok
    rcases hr with ⟨-, rfl⟩ | ⟨h | h, -⟩
    rotate_left
    · cases h
    · cases h
    obtain ⟨_, z, h7, h8⟩ := Op.bind_ok.1 h6
    have hz := point_seq _ _ _ h7
    obtain ⟨k2, q, h9, h10⟩ := Op.bind_ok.1 h8
    have hs := sendStop_spec h9
    have hl : q.log = z.log := by
      rcases hs.result with ⟨-, h⟩ | ⟨-, h, -⟩
      · exact h
      · exact absurd h (by decide)
    obtain ⟨_, v, h11, h12⟩ := Op.bind_ok.1 h10
    have hv := point_seq _ _ _ h11
    cases h12
    refine ⟨rfl, .inr ?_, ?_, .inr (.inl ?_), ?_, ?_, ?_, ?_, ?_⟩
    · simp [hv.x, hs.x, hz.x, hf.x]
    · simp [hv.buf, hs.buf, hz.buf, hf.buf]
    · simp [hv.log, hl, hz.log, hf.log]
    · simp [hv.cp, hs.cp, hz.cp, hf.cp]
    · simp [hv.program, hs.program, hz.program, hf.program]
    · simp [hv.initialised, hs.initialised, hz.initialised, hf.initialised]
    · simp [hv.pinmux, hs.pinmux, hz.pinmux, hf.pinmux]
    · simp [hv.cfg, hs.cfg, hz.cfg, hf.cfg]
  · rename_i hne
    cases h6
    rcases hr with ⟨h, -⟩ | ⟨-, rfl⟩
    · exact absurd h hne
    · exact ⟨rfl, .inl hf.x, hf.buf, .inr (.inr (.inl (by simp [hf.log]))), hf.cp, hf.program, hf.initialised, hf.pinmux, hf.cfg⟩

theorem RecoverOutcome.after {s t u : State} {k : Kind} (h : RecoverOutcome s t k) (f : SeqFrame t u) : RecoverOutcome s u k where
  result := h.result
  x := by rw [f.x]; exact h.x
  buf := f.buf.trans h.buf
  log := by rw [f.log]; exact h.log
  cp := f.cp.trans h.cp
  program := f.program.trans h.program
  initialised := f.initialised.trans h.initialised
  pinmux := f.pinmux.trans h.pinmux
  cfg := f.cfg.trans h.cfg

theorem RecoverOutcome.before {s t u : State} {k : Kind} (f : SeqFrame s t) (h : RecoverOutcome t u k) : RecoverOutcome s u k where
  result := h.result
  x := by rw [← f.x]; exact h.x
  buf := h.buf.trans f.buf
  log := by rw [← f.log]; exact h.log
  cp := h.cp.trans f.cp
  program := h.program.trans f.program
  initialised := h.initialised.trans f.initialised
  pinmux := h.pinmux.trans f.pinmux
  cfg := h.cfg.trans f.cfg

theorem RecoverOutcome.refl (s : State) : RecoverOutcome s s .ok := ⟨rfl, .inl rfl, rfl, .inl rfl, rfl, rfl, rfl, rfl, rfl⟩

theorem unstick_spec {a : Addr7} {s t : State} {u : Unit} (h : unstick a s = .ok (u, t)) : RecoverOutcome s t .ok := by
  obtain ⟨d, w, h1, h2⟩ := Op.bind_ok.1 h
  have hw := toggleLoop_seq _ _ _ _ h1
  split at h2
  · exact (forcedStart_spec h2).before hw
  · cases h2
    exact ⟨rfl, .inl hw.x, hw.buf, .inr (.inr (.inr (by simp [hw.log]))), hw.cp, hw.program, hw.initialised, hw.pinmux, hw.cfg⟩

theorem recover_spec {a : Addr7} {s t : State} {k : Kind} (h : recover a s = .ok (k, t)) : RecoverOutcome s t k := by
  obtain ⟨b, u, h1, h2⟩ := Op.bind_ok.1 h
  have hu := rd_seq _ _ _ _ h1
  have tail : ∀ {s' : State}, (do ctrlReset; pure Kind.ok : Op Kind) s' = .ok (k, t) → k = .ok ∧ SeqFrame s' t := by
    intro s' h
    obtain ⟨_, v, h3, h4⟩ := Op.bind_ok.1 h
    cases h4
    exact ⟨rfl, ctrlReset_seq _ _ _ h3⟩
  dsimp only at h2
  split at h2
  · obtain ⟨rfl, ht⟩ := tail h2
    exact ((RecoverOutcome.refl u).after ht).before hu
  · obtain ⟨_, w, h3, h4⟩ := Op.bind_ok.1 h2
    obtain ⟨rfl, ht⟩ := tail h4
    exact ((unstick_spec h3).after ht).before hu

/-! ## EXCHANGE -/

/-- The sequencer registers after some messages: as before, a START outstanding, or stopped. -/
def AfterMessages (s t : State) : Prop :=
  t.x = s.x ∨ Outstanding s t ∨ t.x = { s.x with started := false, phase := .idle }

theorem AfterMessages.trans {s t u : State} (h : AfterMessages s t) (k : AfterMessages t u) : AfterMessages s u := by
  rcases k with k | ⟨p, hp, k⟩ | k
  · rcases h with h | ⟨p, hp, h⟩ | h
    · exact .inl (k.trans h)
    · exact .inr (.inl ⟨p, hp, k.trans h⟩)
    · exact .inr (.inr (k.trans h))
  · refine .inr (.inl ⟨p, hp, ?_⟩)
    rcases h with h | ⟨q, hq, h⟩ | h <;> rw [k, h]
  · refine .inr (.inr ?_)
    rcases h with h | ⟨q, hq, h⟩ | h <;> rw [k, h]

/-- An address is in the buffer of some read message. -/
def InReadBuffers (ms : List Message) (x : Nat) : Prop :=
  ∃ m ∈ ms, m.dir = .read ∧ ∃ i < m.len.toNat, x = (bufAddr m.base i).toNat

/-- What one message leaves. -/
structure MessageFrame (ms : List Message) (s t : State) : Prop where
  x : AfterMessages s t
  buf : ∀ x, ¬InReadBuffers ms x → t.buf.read x = s.buf.read x
  log : t.log = s.log
  cp : t.cp = s.cp
  program : t.program = s.program
  initialised : t.initialised = s.initialised
  pinmux : t.pinmux = s.pinmux
  cfg : t.cfg = s.cfg

theorem runMessage_spec {keep : Bool} {m : Message} {s t : State} {k : Kind} (h : runMessage keep m s = .ok (k, t)) :
    MessageFrame [m] s t := by
  unfold runMessage at h
  cases hd : m.dir with
  | read =>
    rw [hd] at h
    obtain ⟨hf, he⟩ := readMessage_spec h
    refine ⟨?_, ?_, hf.log, hf.cp, hf.program, hf.initialised, hf.pinmux, hf.cfg⟩
    · cases he with
      | rejected _ e => subst e; exact .inl rfl
      | noStart _ e => exact .inl e
      | failed _ e => exact .inr (.inl e)
      | complete e => exact .inr (.inr e)
    · intro x hx
      exact hf.buf x (fun i hi e => hx ⟨m, List.mem_cons_self, hd, i, hi, e⟩)
  | write =>
    rw [hd] at h
    obtain ⟨hf, he⟩ := writeMessage_spec h
    refine ⟨?_, fun x _ => by rw [hf.buf], hf.log, hf.cp, hf.program, hf.initialised, hf.pinmux, hf.cfg⟩
    cases he with
    | noStart _ e => exact .inl e
    | started _ e => exact .inr (.inl e)

theorem nextMessage_spec {before : Option Message} {m : Message} {s t : State} {k : Kind}
    (h : nextMessage before m s = .ok (k, t)) : MessageFrame [m] s t := runMessage_spec (keep := heldOver before s) h

theorem runMessages_spec {before : Option Message} {ms : List Message} {s t : State} {b : Bool}
    (h : runMessages before ms s = .ok (b, t)) :
    MessageFrame ms s t := by
  induction ms generalizing before s b with
  | nil => cases h; exact ⟨.inl rfl, fun _ _ => rfl, rfl, rfl, rfl, rfl, rfl, rfl⟩
  | cons m ms ih =>
    obtain ⟨k, u, h1, h2⟩ := Op.bind_ok.1 h
    obtain ⟨f, w, h3, h4⟩ := Op.bind_ok.1 h2
    cases h4
    have a := nextMessage_spec h1
    have c := ih h3
    refine ⟨a.x.trans c.x, ?_, c.log.trans a.log, c.cp.trans a.cp, c.program.trans a.program,
      c.initialised.trans a.initialised, c.pinmux.trans a.pinmux, c.cfg.trans a.cfg⟩
    intro x hx
    refine (c.buf x ?_).trans (a.buf x ?_)
    · rintro ⟨n, hn, r⟩; exact hx ⟨n, List.mem_cons_of_mem _ hn, r⟩
    · rintro ⟨n, hn, r⟩
      cases List.mem_singleton.1 hn
      exact hx ⟨m, List.mem_cons_self, r⟩

/-- What EXCHANGE leaves: no START outstanding, one result of two, `BUF` changed in the buffers of read messages only
(43_transactions.md R120, R122). -/
structure ExchangeOutcome (ms : List Message) (s t : State) (k : Kind) : Prop where
  result : k = .ok ∨ k = .ioError
  x : t.x = { s.x with started := false, phase := .idle } ∨ (s.x.started = false ∧ t.x = s.x)
  buf : ∀ x, ¬InReadBuffers ms x → t.buf.read x = s.buf.read x
  cp : t.cp = s.cp
  program : t.program = s.program
  initialised : t.initialised = s.initialised
  pinmux : t.pinmux = s.pinmux
  cfg : t.cfg = s.cfg

theorem exchange_spec {ms : List Message} {s t : State} {k : Kind} (hl : ms.length = 1 ∨ ms.length = 2)
    (h : exchange ms s = .ok (k, t)) : ExchangeOutcome ms s t k := by
  unfold exchange at h
  rw [if_pos hl] at h
  obtain ⟨_, u, h1, h2⟩ := Op.bind_ok.1 h
  have hu := wr_seq _ _ _ _ _ h1
  obtain ⟨f, w, h3, h4⟩ := Op.bind_ok.1 h2
  have hw := runMessages_spec h3
  obtain ⟨_, y, h5, h6⟩ := Op.bind_ok.1 h4
  have hstop : ExchangeOutcome ms s y .ok := by
    unfold forcedStop at h5
    obtain ⟨x, p, h7, h8⟩ := Op.bind_ok.1 h5
    cases h7
    obtain ⟨c, q, h9, h10⟩ := Op.bind_ok.1 h8
    cases h9
    have hb : ∀ x, ¬InReadBuffers ms x → w.buf.read x = s.buf.read x := fun x hx => (hw.buf x hx).trans (by rw [hu.buf])
    split at h10
    · obtain ⟨j, z, h11, h12⟩ := Op.bind_ok.1 h10
      cases h12
      have hs := sendStop_spec h11
      refine ⟨.inl rfl, .inl ?_, fun x hx => (by rw [hs.buf]; exact hb x hx), hs.cp.trans (hw.cp.trans hu.cp),
        hs.program.trans (hw.program.trans hu.program), hs.initialised.trans (hw.initialised.trans hu.initialised),
        hs.pinmux.trans (hw.pinmux.trans hu.pinmux), hs.cfg.trans (hw.cfg.trans hu.cfg)⟩
      rw [hs.x]
      rcases hw.x with h | ⟨p, -, h⟩ | h <;> rw [h] <;> simp [hu.x]
    · rename_i hns
      cases h10
      refine ⟨.inl rfl, ?_, hb, hw.cp.trans hu.cp, hw.program.trans hu.program, hw.initialised.trans hu.initialised,
        hw.pinmux.trans hu.pinmux, hw.cfg.trans hu.cfg⟩
      rcases hw.x with h | ⟨p, -, h⟩ | h
      · refine .inr ⟨?_, h.trans hu.x⟩
        rw [h, hu.x] at hns
        simpa using hns
      · rw [h] at hns; exact absurd rfl hns
      · exact .inl (by rw [h]; simp [hu.x])
  cases f
  case true =>
    obtain ⟨j, z, h7, h8⟩ := Op.bind_ok.1 h6
    cases h8
    have hr := recover_spec h7
    refine ⟨.inr rfl, ?_, fun x hx => (by rw [hr.buf]; exact hstop.buf x hx), hr.cp.trans hstop.cp,
      hr.program.trans hstop.program, hr.initialised.trans hstop.initialised, hr.pinmux.trans hstop.pinmux,
      hr.cfg.trans hstop.cfg⟩
    rcases hr.x with h | h
    · rw [h]; exact hstop.x
    · refine .inl ?_
      rw [h]
      rcases hstop.x with h | ⟨-, h⟩ <;> rw [h]
  case false => cases h6; exact hstop

end Sys2Proof.Machine
end

