-- ==== Sys2Proof/Tests/Slice0.lean ====
section
/-! SUPPORT. Small tests and witnesses. The expected values are those of spec/95_test_vectors.md, by vector number, or of the
rule named; the witnesses show that the hypotheses of the obligations can be met. -/

namespace Sys2Proof.Tests

set_option Elab.async false

open Sys2Proof Sys2Proof.Machine

/-! ## Helpers -/

/-- What a command leaves, seen through `f`; `none` when it does not give a next state. -/
def seen {α : Type} (f : State → α) (i : Instr) (s : State) : Option α :=
  match exec i s with
  | .next t => some (f t)
  | .fault _ => none
  | .refused _ => none

/-- The same of one step over given words. -/
def seenStep {α : Type} (f : State → α) (ws : List Word) (s : State) : Option α :=
  match step { s with program := ws, cp := 0 } with
  | .next t => some (f t)
  | .fault _ => none
  | .refused _ => none

theorem next_of_seen {α : Type} {f : State → α} {i : Instr} {s : State} {v : α} (h : seen f i s = some v) :
    ∃ t, exec i s = .next t ∧ f t = v := by
  unfold seen at h
  split at h
  · next t ht => exact ⟨t, ht, by simpa using h⟩
  · cases h
  · cases h

theorem step_of_seen {α : Type} {f : State → α} {ws : List Word} {s : State} {v : α} (h : seenStep f ws s = some v) :
    ∃ t, step { s with program := ws, cp := 0 } = .next t ∧ f t = v := by
  unfold seenStep at h
  split at h
  · next t ht => exact ⟨t, ht, by simpa using h⟩
  · cases h
  · cases h

/-- The baseline state S0 of 95_test_vectors.md section 0, in an idle environment. -/
def s0 : State :=
  { State.reset with
    reg := { data := 0, st := 0, cst := 0, ctl1 := 0, ctl2 := 0xFB, ctl3 := 0, b0ectl := 0x11, b0est := 0, b0fifctl := 0 }
    x := { State.reset.x with inputClk := 50000000, targetHz := 100000 }
    log := [.initDone 0 50000000 100000 125 17]
    pinmux := [0]
    initialised := true }

/-- `ENV_REF(targets, rx, txnack, stuck)`. -/
def envRef (targets : List Addr7) (rx : List (Addr7 × List Byte)) (txNack : Option Nat)
    (stuck : Option (Option Nat × Bool)) : Env :=
  .ref { targets := targets, rx := rx, txNack := txNack, stuck := stuck, current := 0, txIndex := 0 }

/-- S0 with one target, 0x50, and what it returns. -/
def s0Ref (bytes : List Byte) : State := { s0 with env := envRef [0x50] [(0x50, bytes)] none none }

/-- The state after `SEND_START` of vector V55a, with the line engine idle. -/
def started : State :=
  { s0 with
    x := { s0.x with started := true, phase := .started }
    reg := { s0.reg with st := 0x02, cst := 0x02 }
    le := { s0.le with addrPhase := true }
    wire := [.start] }

/-- The same with target 0x50 in the reference environment. -/
def startedRef (bytes : List Byte) : State := { started with env := envRef [0x50] [(0x50, bytes)] none none }

/-- A read transfer after its first byte: `ST` = 0x42, one byte in `DATA`. -/
def reading : State :=
  { s0 with
    x := { s0.x with started := true, phase := .addressed }
    reg := { s0.reg with st := 0x42, cst := 0x02, data := 0xAB }
    le := { s0.le with dir := .rx } }

/-- A write transfer whose target wants a byte. -/
def writing : State :=
  { s0 with
    x := { s0.x with started := true, phase := .addressed }
    reg := { s0.reg with st := 0x42, cst := 0x02 }
    le := { s0.le with dir := .tx } }

/-- S0 with the line engine about to act: a START pending, and an event at each of the next points. -/
def busy : State :=
  { s0 with reg := { s0.reg with ctl1 := 0x01 }, env := .script [[.startDone], [.addrNack, .foreign true false]] }

/-- The registers of vector V72. -/
def worn : State :=
  { s0 with reg := { s0.reg with st := 0x30, cst := 0x02, ctl1 := 0x91, b0fifctl := 0x10, b0est := 0x80 } }

/-! ## Well-formedness refuses an ill-formed term of each kind -/

/-- COUNT has 8 bits: an EXCHANGE of 256 messages has no words (30_encoding.md R73). -/
theorem test_wf_refuses_256_messages : (Instr.exchange (List.replicate 256 ⟨.read, 0, 1, 0⟩)).wf = false := by decide +kernel

theorem test_wf_accepts_255_messages : (Instr.exchange (List.replicate 255 ⟨.read, 0, 1, 0⟩)).wf = true := by decide +kernel

/-! ## Decoding, by format (V1 to V17) -/

/-- V2. -/
theorem test_decode_format_R : decode [0x010A0000#32] = .command (.regRead 10) 1 := by decide +kernel
/-- V6. -/
theorem test_decode_format_I : decode [0x10000001#32] = .command (.init 1) 1 := by decide +kernel
/-- V7. -/
theorem test_decode_format_F : decode [0x110186A0#32] = .command (.setSpeed 0x0186A0) 1 := by decide +kernel
/-- V8, V9. -/
theorem test_decode_format_T : decode [0x200003E8#32] = .command (.sendStart 1000) 1 ∧
    decode [0x21000000#32] = .command (.sendStop 0) 1 ∧ decode [0x230001F4#32] = .command (.pollDataReady 500) 1 ∧
    decode [0x24000002#32] = .command (.pollAckCleared 2) 1 := by decide +kernel
/-- V10. -/
theorem test_decode_format_A : decode [0x220001A1#32] = .command (.sendAddress true 0xA1) 1 := by decide +kernel
/-- V60a's word. -/
theorem test_decode_format_B : decode [0x25000010#32] = .command (.sendByte 0x10) 1 := by decide +kernel
/-- V11, V61c's word. -/
theorem test_decode_format_N : decode [0x26000001#32] = .command (.recvByte true) 1 ∧
    decode [0x27000001#32] = .command (.recvLast true) 1 := by decide +kernel
/-- V12, V13. -/
theorem test_decode_format_M : decode [0x30500002#32, 0x200#32] = .command (.read 0x50 2 0x200) 2 ∧
    decode [0x317FFFFF#32, 0xFFFFFFFF#32] = .command (.write 0x7F 0xFFFF 0xFFFFFFFF) 2 := by decide +kernel
/-- V14, with the descriptors of program P1. -/
theorem test_decode_format_X :
    decode [0x32000002#32, 0x31500001#32, 0x100#32, 0x30500002#32, 0x200#32] =
      .command (.exchange [⟨.write, 0x50, 1, 0x100⟩, ⟨.read, 0x50, 2, 0x200⟩]) 5 := by decide +kernel
/-- V15. -/
theorem test_decode_format_V : decode [0x40500000#32] = .command (.recover 0x50) 1 := by decide +kernel
/-- V16. -/
theorem test_decode_format_Z : decode [0x41000000#32] = .command .ctrlReset 1 ∧
    decode [0x42000000#32] = .command .dump 1 := by decide +kernel
/-- V3, V4, V5: the operands of the other commands of format R. -/
theorem test_decode_write_set_clear : decode [0x02010038#32] = .command (.regWrite 1 0x38) 1 ∧
    decode [0x03030010#32] = .command (.regSet 3 0x10) 1 ∧ decode [0x04030080#32] = .command (.regClr 3 0x80) 1 := by
  decide +kernel
/-- V17a to V17i: unassigned opcodes and must-be-zero bits, one word long but for READ. -/
theorem test_decode_illegal :
    decode [0x00000000#32] = .illegal .unknownOpcode 1 ∧ decode [0x05000000#32] = .illegal .unknownOpcode 1 ∧
    decode [0x33000000#32] = .illegal .unknownOpcode 1 ∧ decode [0xFF000000#32] = .illegal .unknownOpcode 1 ∧
    decode [0x01010001#32] = .illegal (.mustBeZero .regRead) 1 ∧
    decode [0x02110000#32] = .illegal (.mustBeZero .regWrite) 1 ∧
    decode [0x22000200#32] = .illegal (.mustBeZero .sendAddress) 1 ∧
    decode [0x26000002#32] = .illegal (.mustBeZero .recvByte) 1 ∧
    decode [0x30D00001#32, 0#32] = .illegal (.mustBeZero .read) 2 ∧
    decode [0x40500001#32] = .illegal (.mustBeZero .recover) 1 ∧
    decode [0x41000001#32] = .illegal (.mustBeZero .ctrlReset) 1 := by decide +kernel
/-- V17j, V17k. -/
theorem test_decode_illegal_exchange : decode [0x32000100#32] = .illegal (.mustBeZero .exchange) 1 ∧
    decode [0x32000001#32, 0x25000010#32, 0#32] = .illegal .badDescriptor 3 := by decide +kernel

/-! ## Steps -/

/-- V17g and V17k as steps: result 7, no access, `cp` past the whole command. -/
theorem test_step_illegal :
    seenStep (fun t => (t.x.result, t.acc, t.cp)) [0x30D00001, 0] s0 = some (7, [], 2) ∧
    seenStep (fun t => (t.x.result, t.acc, t.cp)) [0x32000001, 0x25000010, 0] s0 = some (7, [], 3) := by decide +kernel

/-- R79: words that end inside a command are no program, even when the first command is whole. -/
theorem test_step_truncated :
    step { s0 with program := [0x42000000, 0x30500001], cp := 0 } = .refused .truncatedProgram := by rfl

/-- R189: READ as the first command after reset is refused by name. -/
theorem test_before_init : exec (.read 0x50 1 0) State.reset = .refused .beforeInit := by rfl

/-! ## Register access -/

/-- V52. -/
theorem test_regRead_data :
    seen (fun t => (t.x.rdata, t.reg.st)) (.regRead 0) { s0 with reg := { s0.reg with st := 0x42, data := 0x5A } } =
      some (0x5A, 0x02) := by decide +kernel

/-- V47 and V53. -/
theorem test_regRead_brc_and_none : seen (fun t => t.x.rdata) (.regRead 10) s0 = some 0xC0 ∧
    seen (fun t => (t.x.result, t.acc)) (.regRead 11) s0 = some (7, []) := by decide +kernel

/-- V42. -/
theorem test_regWrite_st :
    seen (fun t => t.reg.st) (.regWrite 1 0xFF) { s0 with reg := { s0.reg with st := 0x7A } } = some 0x42 := by decide +kernel

/-- V84: a disable clears MASTER, SDAST, START and STOP and nothing else. -/
theorem test_regWrite_disable :
    seen (fun t => (t.reg.st, t.reg.ctl1, t.wire)) (.regWrite 4 0xFA)
      { s0 with reg := { s0.reg with st := 0x7A, ctl1 := 0x93 } } = some (0x38, 0x90, []) := by decide +kernel

/-- V54: the line engine serves the START between the two accesses, and the write sets the request again. -/
theorem test_regSet_race :
    seen (fun t => (t.reg.ctl1, t.flag .master, t.acc)) (.regSet 3 0x80)
      { s0 with reg := { s0.reg with ctl1 := 0x01 }, env := .script [[], [.startDone]] } =
      some (0x81, true, [.rd .ctl1 0x01, .wr .ctl1 0x81]) := by decide +kernel

/-- V46: clearing a latch by REG_CLR leaves the named one only. -/
theorem test_regClr_latch :
    seen (fun t => (t.reg.st, t.acc)) (.regClr 1 0x10) { s0 with reg := { s0.reg with st := 0x38 } } =
      some (0x10, [.rd .st 0x38, .wr .st 0x28]) := by decide +kernel

/-! ## Clock and INIT -/

/-- V23 (a tie rounds up) and V39a (bits of both registers kept). -/
theorem test_setSpeed :
    seen (fun t => (t.reg.ctl2, t.reg.ctl3, t.reg.b0ectl)) (.setSpeed 100000)
      { s0 with x := { s0.x with inputClk := 25000000 } } = some (0x7F, 0x00, 0x0F) ∧
    seen (fun t => (t.reg.ctl2, t.reg.ctl3, t.reg.b0ectl)) (.setSpeed 100000)
      { s0 with x := { s0.x with inputClk := 100000000 }, reg := { s0.reg with ctl3 := 0xFC, ctl2 := 0 } } =
      some (0xF4, 0xFD, 0x11) := by decide +kernel

/-- V29, V32, V33a, V33d. -/
theorem test_setSpeed_refused :
    seen (fun t => (t.x.result, t.acc)) (.setSpeed 100000) { s0 with x := { s0.x with inputClk := 3799999 } } =
      some (4, []) ∧
    seen (fun t => t.x.result) (.setSpeed 100000) { s0 with x := { s0.x with inputClk := 204600000 } } = some 4 ∧
    seen (fun t => t.x.result) (.setSpeed 100001) s0 = some 5 ∧
    seen (fun t => t.x.result) (.setSpeed 0) s0 = some 4 := by decide +kernel

/-- The power-on draws of V39c. -/
def v39 : State :=
  { State.reset with reg := { State.reset.reg with ctl2 := 0xAA, ctl3 := 0x41, b0fifctl := 0x10, st := 0x38 } }

/-- V39c. -/
theorem test_init :
    seen (fun t => (t.acc, t.reg.st, t.log, t.pinmux, t.x.result)) (.init 1) v39 =
      some ([.rd .ctl2 0xAA, .wr .ctl2 0xFA, .rd .ctl3 0x41, .wr .ctl3 0x40, .wr .b0ectl 0x11, .rd .ctl2 0xFA,
        .wr .ctl2 0xFB, .rd .b0fifctl 0x10, .wr .b0fifctl 0x00, .wr .ctl1 0x00], 0x38,
        [.initDone 1 50000000 100000 125 17], [1], 0) := by decide +kernel

/-- V39d, V39e, V39g. -/
theorem test_init_refused :
    seen (fun t => (t.x.result, t.pinmux)) (.init 4) v39 = some (7, []) ∧
    seen (fun t => (t.x.result, t.pinmux)) (.init 0) { v39 with cfg := { v39.cfg with clock := some 0 } } = some (6, []) ∧
    seen (fun t => (t.x.result, t.x.modidx, t.pinmux, t.acc)) (.init 2) { v39 with cfg := { v39.cfg with frameworkHz := some 400000 } } =
      some (5, 2, [2], []) := by decide +kernel

/-- `DEFAULT_SPEED_HZ` when the framework gives no target frequency (00_scope.md R6): the divider and hold time of V39c. -/
theorem test_init_default_speed :
    seen (fun t => (t.x.result, t.x.targetHz, t.log)) (.init 1) { v39 with cfg := { v39.cfg with frameworkHz := none } } =
      some (0, 100000, [.initDone 1 50000000 100000 125 17]) := by decide +kernel

/-! ## `LAYOUT` (00_scope.md R6) -/

/-- The default layout but for `CTL1`, where `START` stands at bit 7 and `STASTRE` at bit 0. -/
def swapped : Layout :=
  { Layout.default with ctl1 := { b0 := 7, b1 := 1, b2 := 2, b3 := 3, b4 := 4, b5 := 5, b6 := 6, b7 := 0 } }

/-- The host finds the fields where the layout has them, and the engine finds the same fields. -/
theorem test_layout : wfLayout swapped = true ∧
    seen (fun t => t.x.rdata) (.regRead 3) { s0 with reg := { s0.reg with ctl1 := 0x11 }, cfg := { s0.cfg with layout := swapped } } =
      some 0x90 ∧
    seen (fun t => (t.flag .start, t.flag .stastre)) (.regWrite 3 0x80) { s0 with cfg := { s0.cfg with layout := swapped } } =
      some (true, false) ∧
    seen (fun t => (t.x.result, t.wire)) (.sendStart 1) { s0Ref [] with cfg := { s0.cfg with layout := swapped } } =
      some (0, [.start]) := by decide +kernel

/-! ## Primitives -/

/-- V55a. -/
theorem test_sendStart :
    seen (fun t => (t.x.result, t.x.phase, t.reg.st, t.reg.cst)) (.sendStart 1000) (s0Ref []) = some (0, .started, 0x02, 0x02) ∧
    seen (fun t => (t.wire, t.acc)) (.sendStart 1000) (s0Ref []) =
      some ([.start], [.rd .ctl1 0, .wr .ctl1 1, .rd .st 2]) := by decide +kernel

/-- V55c, V55d. -/
theorem test_sendStart_fails :
    seen (fun t => (t.x.result, t.reg.ctl1, t.acc.length)) (.sendStart 3) s0 = some (3, 0x01, 5) ∧
    seen (fun t => (t.x.result, t.x.started, t.reg.st)) (.sendStart 5)
      { s0Ref [] with reg := { s0.reg with st := 0x20 } } = some (2, false, 0x22) := by decide +kernel

/-- V56e: the latch clear inside `send_stop` lets the STOP go out. -/
theorem test_sendStop_held :
    seen (fun t => (t.x.result, t.reg.st, t.wire, t.acc)) (.sendStop 3)
      { startedRef [] with reg := { s0.reg with st := 0x0A }, le := s0.le } =
      some (0, 0x00, [.start, .stop], [.rd .ctl1 0, .wr .ctl1 2, .wr .st 0x38, .rd .ctl1 0]) := by decide +kernel

/-- V56c, all but the free level bits, and V56d. -/
theorem test_sendStop_timeout :
    seen (fun t => (t.x.result, t.reg.ctl1, t.acc.length, t.log.length)) (.sendStop 2)
      { writing with le := s0.le } = some (3, 0x02, 15, 2) ∧
    seen (fun t => (t.x.result, t.acc)) (.sendStop 5) s0 = some (7, []) := by decide +kernel

/-- V57d. -/
theorem test_sendAddress_stall :
    seen (fun t => (t.x.result, t.x.phase, t.acc)) (.sendAddress true 0xA1) (startedRef [0x7E]) =
      some (0, .addressed, [.rd .ctl1 0, .wr .ctl1 0x80, .wr .data 0xA1, .rd .st 0x0A, .rd .st 0x0A]) := by decide +kernel

/-- V57b, V57e. -/
theorem test_sendAddress_nack :
    seen (fun t => (t.x.result, t.x.phase, t.x.started)) (.sendAddress false 0x52) (startedRef []) =
      some (1, .started, true) ∧
    seen (fun t => (t.x.result, t.reg.ctl1, t.acc.length)) (.sendAddress true 0x53) (startedRef []) = some (1, 0x80, 7) := by
  decide +kernel

/-- V58b, V58c, V58d. -/
theorem test_pollDataReady :
    seen (fun t => t.x.result) (.pollDataReady 1) { writing with reg := { s0.reg with st := 0x72 } } = some 1 ∧
    seen (fun t => t.x.result) (.pollDataReady 1) { writing with reg := { s0.reg with st := 0x62 } } = some 2 ∧
    seen (fun t => (t.x.result, t.x.phase, t.acc)) (.pollDataReady 0) writing = some (3, .data, []) := by decide +kernel

/-- V59a, V59b. -/
theorem test_pollAckCleared :
    seen (fun t => (t.x.result, t.acc)) (.pollAckCleared 2) { reading with reg := { s0.reg with ctl1 := 0x10 } } =
      some (3, [.rd .ctl1 0x10, .rd .ctl1 0x10]) ∧
    seen (fun t => (t.x.result, t.acc)) (.pollAckCleared 2) { reading with reg := { s0.reg with st := 0x30 } } =
      some (0, [.rd .ctl1 0]) := by decide +kernel

/-- V60a, as a step: the byte goes out at the interleaving point after the command. -/
theorem test_sendByte :
    seenStep (fun t => (t.x.result, t.reg.st, t.wire)) [0x25000010] { writing with env := envRef [0x50] [] none none } =
      some (0, 0x42, [.tx 0x10 .ack]) := by decide +kernel

/-- V60b. -/
theorem test_sendByte_nack :
    seen (fun t => (t.x.result, t.acc)) (.sendByte 0x20) { writing with reg := { s0.reg with st := 0x12 } } =
      some (1, [.rd .st 0x12]) := by decide +kernel

/-- The read transfer of V61a with the target's next byte 0xCD. -/
def readingRef : State :=
  { reading with env := .ref { targets := [0x50], rx := [(0x50, [0xCD])], txNack := none, stuck := none, current := 0x50, txIndex := 0 } }

/-- V61a. -/
theorem test_recvByte_nackNext :
    seenStep (fun t => (t.x.result, t.x.rdata, t.reg.ctl1, t.reg.data, t.wire)) [0x26000001] readingRef =
      some (0, 0xAB, 0, 0xCD, [.rx 0xCD .nack]) := by decide +kernel

/-- V61b. -/
theorem test_recvByte :
    seenStep (fun t => (t.x.result, t.x.rdata, t.wire)) [0x26000000] readingRef = some (0, 0xAB, [.rx 0xCD .ack]) := by
  decide +kernel

/-- V61c. -/
theorem test_recvLast :
    seen (fun t => (t.x.result, t.x.rdata, t.x.phase, t.reg.st, t.wire)) (.recvLast true)
      { readingRef with reg := { reading.reg with data := 0xCD }, le := { reading.le with last := true } } =
      some (0, 0xCD, .idle, 0x00, [.stop]) := by decide +kernel

/-- V61d. -/
theorem test_recvLast_timeout :
    seen (fun t => (t.x.result, t.x.started, t.acc.length)) (.recvLast true)
      { reading with reg := { reading.reg with ctl1 := 0x10 } } = some (3, true, 2) := by decide +kernel

/-! ## Transactions -/

/-- Program P2 without its EXCHANGE: the STOP request stands before the read of `DATA`. -/
theorem test_read_single :
    seen (fun t => (t.x.result, t.buf.read 0x300, t.wire, t.acc.drop 14)) (.read 0x50 1 0x300) (s0Ref [0x7E]) =
      some (0, 0x7E, [.start, .addr 0xA1 .ack, .rx 0x7E .nack, .stop],
        [.rd .ctl1 0, .wr .ctl1 2, .wr .st 0x38, .rd .data 0x7E, .wr .st 0x10]) := by decide +kernel

/-- V65. -/
theorem test_read_empty : seen (fun t => (t.x.result, t.acc)) (.read 0x50 0 0x200) (s0Ref []) = some (7, []) := by
  decide +kernel

/-- V69. -/
theorem test_write :
    seenStep (fun t => (t.x.result, t.x.started, t.x.phase, t.reg.st)) [0x31500001, 0x100] { s0Ref [] with buf := [(0x100, 0x10)] } =
      some (0, true, .data, 0x42) := by decide +kernel

/-- P5's message as a WRITE: the refused data byte is seen by the wait before the next one. -/
theorem test_write_refused :
    seen (fun t => (t.x.result, t.wire)) (.write 0x50 2 0x100)
      { s0 with env := envRef [0x50] [] (some 0) none, buf := [(0x100, 0x10), (0x101, 0x20)] } =
      some (1, [.start, .addr 0xA0 .ack, .tx 0x10 .nack]) := by decide +kernel

/-- Program P1. -/
theorem test_exchange_P1 :
    seen (fun t => (t.x.result, t.buf, t.wire, t.acc.length))
      (.exchange [⟨.write, 0x50, 1, 0x100⟩, ⟨.read, 0x50, 2, 0x200⟩]) { s0Ref [0xAB, 0xCD] with buf := [(0x100, 0x10)] } =
      some (0, [(0x100, 0x10), (0x200, 0xAB), (0x201, 0xCD)],
        [.start, .addr 0xA0 .ack, .tx 0x10 .ack, .restart, .addr 0xA1 .ack, .rx 0xAB .ack, .rx 0xCD .nack, .stop], 23) := by
  decide +kernel

/-- Program P6: message 2 is attempted, and fails on the stale latch. -/
theorem test_exchange_P6 :
    seen (fun t => (t.x.result, t.buf, t.wire, t.acc.length))
      (.exchange [⟨.write, 0x29, 1, 0x100⟩, ⟨.read, 0x50, 1, 0x300⟩]) { s0Ref [0x7E] with buf := [(0x100, 0x10)] } =
      some (9, [(0x100, 0x10)], [.start, .addr 0x52 .nack, .restart, .addr 0xA1 .ack, .stop], 30) := by
  decide +kernel

/-! ## Recovery, reset, dump -/

/-- V71: SDA freed by one pulse, SCL low throughout. -/
theorem test_recover_start_failed :
    seen (fun t => (t.x.result, t.log.drop 1, t.wire, t.acc.length)) (.recover 0x50)
      { s0 with env := envRef [] [] none (some (some 1, true)), scl := .low, sda := .low, cfg := { s0.cfg with tRecStart := 2 } } =
      some (0, [.recStartFailed], [.pulse], 19) := by decide +kernel

/-- Program P8. -/
theorem test_recover_stuck :
    seen (fun t => (t.x.result, t.log.drop 1, t.wire.length, t.acc.length)) (.recover 0x50)
      { s0 with env := envRef [] [] none (some (none, false)) } = some (0, [.recSdaStuck], 27, 66) := by decide +kernel

/-- V72. -/
theorem test_ctrlReset :
    seen (fun t => (t.reg, t.acc.take 4, t.acc.length)) .ctrlReset worn =
      some (s0.reg, [.rd .ctl2 0xFB, .wr .ctl2 0xFA, .rd .ctl2 0xFA, .wr .ctl2 0xFB], 11) := by decide +kernel

/-- V73. -/
theorem test_ctrlReset_midTransfer :
    seen (fun t => (t.reg.st, t.wire, t.x.started, t.x.phase)) .ctrlReset { reading with x := { reading.x with phase := .data } } =
      some (0x00, [], true, .data) := by decide +kernel

/-- V74. -/
theorem test_dump :
    seen (fun t => (t.x.result, t.log.drop 1)) .dump s0 =
      some (0, [.dump [(.st, 0x00), (.cst, 0x00), (.ctl1, 0x00), (.ctl2, 0xFB), (.ctl3, 0x00), (.b0ectl, 0x11), (.b0est, 0x00),
        (.b0fifctl, 0x00), (.b1fifcts, 0x00), (.brc, 0xC0)]]) := by decide +kernel

/-! ## The line engine -/

/-- V80, V82, V85: events that are not enabled. -/
theorem test_events_disabled :
    LeEvent.startDone.guard { s0 with reg := { s0.reg with ctl1 := 0x01 }, sda := .low } = false ∧
    (LeEvent.stopDone true).guard { s0 with reg := { s0.reg with st := 0x0A, ctl1 := 0x82 } } = false ∧
    LeEvent.startDone.guard { s0 with reg := { s0.reg with ctl2 := 0xFA, ctl1 := 0x01 } } = false := by decide +kernel

/-- V81: with START and STOP pending the STOP is served first, then the START. -/
theorem test_stop_before_start :
    (fireAll [.startDone, .stopDone true, .startDone] { s0 with reg := { s0.reg with ctl1 := 0x03, st := 0x02 } }).toOption.map
      State.wire = some [.stop, .start] := by decide +kernel

/-- V88: the queued data byte goes out before the repeated START. -/
theorem test_data_before_restart :
    (fireAll [.startDone, .txAck, .startDone]
      { writing with reg := { writing.reg with ctl1 := 0x01 }, le := { writing.le with txb := [(0x10, .data)] } }).toOption.map
      State.wire = some [.tx 0x10 .ack, .restart] := by decide +kernel

/-! ## Witnesses: the hypotheses of the obligations can be met, each clause at a boundary of its range -/

theorem s0_inv : s0.Inv := ⟨by decide +kernel, by decide +kernel, by decide, by decide +kernel, by decide +kernel⟩

theorem witness_DecodeEncodeAgree : (Instr.exchange [⟨.read, 0x7F, 0xFFFF, 0xFFFFFFFF⟩, ⟨.write, 0, 0, 0⟩]).wf = true ∧
    (Instr.exchange (List.replicate 255 ⟨.read, 0, 1, 0⟩)).wf = true ∧ (Instr.exchange []).wf = true := by decide +kernel

theorem witness_EncodeDecodeAgree : decode [0x32000001#32, 0x30500002#32, 0x200#32, 7#32] =
    .command (.exchange [⟨.read, 0x50, 2, 0x200⟩]) 3 := by decide +kernel

theorem witness_RowsDisjointAndComplete : Opcode.dump.selects 0x42000000#32 = true ∧
    cmdLength 0x30D00001#32 ≤ [0#32].length + 1 ∧ cmdLength 0x320000FF#32 ≤ (List.replicate 510 0#32).length + 1 := by
  decide +kernel

theorem witness_StepRunsDecodedInstruction :
    wholeProgram (({ busy with program := [0x42000000, 0x01010000], cp := 1 } : State).program.drop 1) = true ∧
    decode (({ busy with program := [0x42000000, 0x01010000], cp := 1 } : State).program.drop 1) = .command (.regRead 1) 1 ∧
    (seen (fun t => (lePoint t).toOption.isSome) (.regRead 1) busy = some true) ∧
    exec (.read 0x50 1 0) State.reset = .refused .beforeInit := by
  refine ⟨by decide +kernel, by decide +kernel, by decide +kernel, rfl⟩

theorem witness_TruncatedProgramRefused :
    wholeProgram (({ s0 with program := [0x42000000, 0x30500001] } : State).program.drop s0.cp) = false ∧
    wholeProgram [0x32000001#32, 0#32] = false ∧ wholeProgram [0x32000000#32] = true := by decide +kernel

theorem witness_StepAdvancesCp :
    (seenStep (fun t => t.cp) [0x30D00001, 0, 0x42000000] s0 = some 2) ∧
    seenStep (fun t => t.cp) [0x42000000] s0 = some 1 := by decide +kernel

theorem witness_InvalidArgumentCauses :
    (s0.initialised = true ∧ misused (.regWrite 11 0) s0 = true ∧ misused (.regRead 15) s0 = true ∧
      misused (.init 4) s0 = true ∧ misused (.sendStop 0) s0 = true ∧ misused (.sendAddress false 0) s0 = true ∧
      misused (.recvLast true) started = true ∧ misused (.read 0 0 0) s0 = true) ∧
    seen (fun t => t.x.result) (.read 0 0 0) s0 = some 7 ∧
    decode [0x41000001#32] = .illegal (.mustBeZero .ctrlReset) 1 ∧
    seen (fun t => t.x.result) (.exchange [⟨.write, 0x50, 0, 0⟩, ⟨.read, 0x50, 0, 0⟩]) (s0Ref []) = some 9 := by
  decide +kernel

theorem witness_RefusedBeforeInit : State.reset.initialised = false ∧ needsNoInit .ctrlReset = false ∧
    seen (fun t => t.x.result) (.init 3) State.reset = some 0 ∧ seen (fun t => t.x.result) (.init 4) State.reset = some 7 := by
  decide +kernel

theorem witness_EveryCommandCompletes : busy.polled ∧ busy.initialised = true ∧ State.reset.polled ∧
    needsNoInit (.init 0) = true := by decide +kernel

theorem witness_MessageCountChecked : s0.initialised = true ∧ ([] : List Message).length ≠ 1 ∧ ([] : List Message).length ≠ 2 ∧
    seen (fun t => t.x.result) (.exchange (List.replicate 3 ⟨.read, 0x50, 1, 0⟩)) s0 = some 8 := by decide +kernel

theorem witness_RegisterCommandsCannotFail : 11 ≤ (11#4).toNat ∧ (10#4).toNat ≤ 10 ∧ busy.polled ∧
    seen (fun t => t.x.result) (.regSet 10 0xFF) busy = some 0 := by decide +kernel

/-- Polled; idle in FIFO mode; not idle in FIFO mode, where nothing would fire. -/
theorem witness_RegReadStored : wfLayout .default = true ∧ busy.polled ∧ (lePoint busy).toOption.isSome = true ∧
    v39.offMode = true ∧ v39.quiet ∧ (lePoint v39).toOption.isSome = true ∧
    (lePoint { v39 with env := .script [[.startDone, .lines .low .high]] }).toOption.isSome = true :=
  ⟨by decide, rfl, by decide +kernel, by decide, rfl, by decide +kernel, by decide +kernel⟩

/-- The branch that re-arms reception, and one that does not. -/
theorem witness_RegReadData : lePoint reading = .ok reading ∧ rearms reading = true ∧ lePoint writing = .ok writing ∧
    rearms writing = false := ⟨rfl, by decide +kernel, rfl, by decide +kernel⟩

theorem witness_RegReadLevels : lePoint s0 = .ok s0 ∧ s0.flag .master = false ∧ lePoint reading = .ok reading ∧
    reading.flag .master = true := ⟨rfl, by decide +kernel, rfl, by decide +kernel⟩

theorem witness_RegWriteStored : (lePoint busy).toOption.isSome = true ∧ fieldByte .default .b0est 0x80 = 0x80 ∧
    fieldByte swapped .ctl1 0x80 = 0x01 ∧ worn.flag .eoBusy = true ∧
    seen (fun t => t.flag .eoBusy) (.regWrite 7 0x80) { s0 with reg := { s0.reg with b0est := 0x80 } } = some false := by
  decide +kernel

/-- Both kinds of byte. -/
theorem witness_RegWriteData : (lePoint writing).toOption.isSome = true ∧ seen (fun t => t.le.txb) (.regWrite 0 0x10) writing = some [(0x10, .data)] ∧
    (lePoint s0).toOption.isSome = true ∧ seen (fun t => t.le.txb) (.regWrite 0 0xA0) s0 = some [(0xA0, .addr)] := by decide +kernel

/-- V49 and V48. -/
theorem witness_RegWriteToggle : (lePoint s0).toOption.isSome = true ∧ fieldByte s0.cfg.layout .brc 0x20 = 0x20 ∧ seen (fun t => t.wire) (.regWrite 10 0x20) s0 = some [.pulse] ∧
    seen (fun t => t.wire) (.regWrite 10 0xC0) s0 = some [] := by decide +kernel

theorem witness_RegWriteEnable : lePoint s0 = .ok s0 ∧ fieldByte s0.cfg.layout .ctl2 0xFE = 0xFE ∧ s0.reg.ctl2.getLsbD 0 = true ∧ (0xFE#8).getLsbD 0 = false ∧
    lePoint State.reset = .ok State.reset ∧ State.reset.reg.ctl2.getLsbD 0 = false :=
  ⟨rfl, by decide +kernel, by decide, by decide, rfl, by decide⟩

theorem witness_SetAndClearAreReadThenWrite : (10#4).toNat ≤ 10 ∧ (0#4).toNat ≤ 10 ∧ busy.polled ∧
    seen (fun r => r.x.rdata) (.regRead 3) worn = some 0x91 ∧
    exec (.regRead 3) { busy with reg := { busy.reg with b0fifctl := 0x10 } } = .refused .fifoOrInterruptMode :=
  ⟨by decide, by decide, rfl, by decide +kernel, rfl⟩

/-- The least and the greatest divider (V28, V26) and both sides of the tiers (V34 to V37). -/
theorem witness_SetSpeedProgramsDivider : s0.polled ∧ s0.initialised = true ∧
    (3800000 + 2 * 100000) / (4 * 100000) = 10 ∧ (204599999 + 2 * 100000) / (4 * 100000) = 511 ∧
    seen (fun t => t.x.result) (.setSpeed 100000) { s0 with x := { s0.x with inputClk := 3800000 } } = some 0 ∧
    seen (fun t => t.x.result) (.setSpeed 20000) { s0 with x := { s0.x with inputClk := 40880000 } } = some 0 ∧
    seen (fun t => t.reg.b0ectl) (.setSpeed 100000) { s0 with x := { s0.x with inputClk := 40000000 } } = some 17 ∧
    seen (fun t => t.reg.b0ectl) (.setSpeed 100000) { s0 with x := { s0.x with inputClk := 39999999 } } = some 15 ∧
    seen (fun t => t.reg.b0ectl) (.setSpeed 100000) { s0 with x := { s0.x with inputClk := 12500000 } } = some 15 ∧
    seen (fun t => t.reg.b0ectl) (.setSpeed 100000) { s0 with x := { s0.x with inputClk := 12499999 } } = some 7 := by
  decide +kernel

theorem witness_SpeedErrors :
    seen (fun t => t.x.result) (.setSpeed 100001) s0 = some 5 ∧ seen (fun t => t.x.result) (.setSpeed 0) s0 = some 4 ∧
    seen (fun t => t.x.result) (.setSpeed 100000) { s0 with x := { s0.x with inputClk := 3799999 } } = some 4 ∧
    seen (fun t => t.x.result) (.setSpeed 100000) { s0 with x := { s0.x with inputClk := 204600000 } } = some 4 ∧
    seen (fun t => t.x.result) (.init 0) { s0 with cfg := { s0.cfg with frameworkHz := some 100001 } } = some 5 ∧
    seen (fun t => t.x.result) (.init 0) { s0 with cfg := { s0.cfg with frameworkHz := some 0 } } = some 4 := by decide +kernel

theorem witness_ClockUnavailable :
    (3#8).toNat < s0.cfg.nModules ∧
    seen (fun t => t.x.result) (.init 3) { s0 with cfg := { s0.cfg with clock := none } } = some 6 ∧
    seen (fun t => t.x.result) (.init 3) { s0 with cfg := { s0.cfg with clock := some 0 } } = some 6 := by decide +kernel

theorem witness_InitBringsUp : busy.polled ∧ State.reset.polled ∧ State.reset.quiet ∧
    (3#8).toNat < State.reset.cfg.nModules ∧ State.reset.cfg.clock = some 50000000 ∧
    (50000000 + 2 * 100000) / (4 * 100000) = 125 ∧ v39.quiet ∧ v39.flag .fifoEn = true :=
  ⟨rfl, rfl, rfl, by decide, rfl, by decide, rfl, by decide⟩

theorem witness_InitFromPowerOn : (3#8).toNat < Config.baseline.nModules ∧ Config.baseline.clock = some 50000000 ∧
    0 < Config.baseline.cfgSpeedHz ∧ Config.baseline.cfgSpeedHz ≤ 100000 := by decide +kernel

theorem witness_SendStartOutcomes : busy.polled ∧ busy.initialised = true ∧
    seen (fun t => t.x.result) (.sendStart 1) (s0Ref []) = some 0 ∧ seen (fun t => t.x.result) (.sendStart 0) s0 = some 3 ∧
    seen (fun t => (t.x.result, t.flag .start)) (.sendStart 2) { s0 with env := .script [[], [], [.ber false]] } =
      some (2, false) := by
  decide +kernel

/-- A repeated START, a stale bus error, neither, and no budget (42_primitives.md R98). -/
theorem witness_SendStartExactly : reading.quiet ∧ reading.initialised = true ∧ reading.flag .master = true ∧
    seen (fun t => (t.x.result, t.acc)) (.sendStart 9) reading =
      some (0, [.rd .ctl1 0x00, .wr .ctl1 0x01, .rd .st (reading.reg.st &&& 0x7A)]) ∧
    seen (fun t => (t.x.result, t.acc.length)) (.sendStart 9) { s0 with reg := { s0.reg with st := 0x20 } } = some (2, 3) ∧
    seen (fun t => (t.x.result, t.reg.ctl1, t.acc.length)) (.sendStart 2) s0 = some (3, 0x01, 4) ∧
    seen (fun t => (t.x.result, t.reg.ctl1, t.acc.length)) (.sendStart 0) reading = some (3, 0x01, 2) :=
  ⟨rfl, rfl, by decide, by decide +kernel, by decide +kernel, by decide +kernel, by decide +kernel⟩

theorem witness_SendStopOutcomes : started.polled ∧ started.quiet ∧ started.initialised = true ∧ started.x.phase = .started ∧
    reading.x.phase = .addressed ∧ seen (fun t => t.x.result) (.sendStop 1) started = some 3 ∧
    seen (fun t => t.x.result) (.sendStop 1) (startedRef []) = some 0 ∧
    seen (fun t => (t.x.result, t.acc.length)) (.sendStop 2)
      { started with env := .script [[], [], [], [.stopDone true]] } = some (0, 4) ∧
    (fireAll [.stopDone true] { started with reg := { started.reg with ctl1 := 0x02 } }).toOption.map (fun w => w.flag .stop) =
      some false :=
  ⟨rfl, rfl, rfl, rfl, rfl, by decide +kernel, by decide +kernel, by decide +kernel, by decide +kernel⟩

theorem witness_SendAddressOutcomes : (startedRef [1]).polled ∧ (startedRef [1]).initialised = true ∧
    (startedRef [1]).x.phase = .started := by decide +kernel

/-- Idle; and polled, with the stall wait ended by its first sample (V57d) and run out (V57e). -/
theorem witness_SendAddressExactly : started.quiet ∧ started.initialised = true ∧ started.x.phase = .started ∧
    seen (fun t => t.x.result) (.sendAddress false 0xA0) started = some 0 ∧ (startedRef []).polled ∧
    seen (fun t => (t.x.result, t.acc)) (.sendAddress true 0xA1) (startedRef []) =
      some (0, [.rd .ctl1 0, .wr .ctl1 0x80, .wr .data 0xA1, .rd .st 0x0A, .rd .st 0x0A]) ∧
    seen (fun t => (t.x.result, t.acc.length)) (.sendAddress true 0x53) (startedRef []) = some (1, 7) :=
  ⟨rfl, rfl, rfl, by decide +kernel, rfl, by decide +kernel, by decide +kernel⟩

/-- A failure latch in each priority, none, and the budget 0. -/
theorem witness_PollDataReadySamples : writing.quiet ∧ writing.initialised = true ∧ writing.x.phase = .addressed ∧
    seen (fun t => t.x.result) (.pollDataReady 1) writing = some 0 ∧
    seen (fun t => t.x.result) (.pollDataReady 0) writing = some 3 ∧
    seen (fun t => t.acc.length) (.pollDataReady 3) { writing with reg := s0.reg } = some 3 :=
  ⟨rfl, rfl, rfl, by decide +kernel, by decide +kernel, by decide +kernel⟩

theorem witness_PollAckClearedSamples : reading.quiet ∧ reading.initialised = true ∧ reading.x.phase = .addressed ∧
    seen (fun t => t.x.result) (.pollAckCleared 1) reading = some 0 ∧
    seen (fun t => t.x.result) (.pollAckCleared 0) reading = some 3 :=
  ⟨rfl, rfl, rfl, by decide +kernel, by decide +kernel⟩

theorem witness_SendByteWrites : writing.quiet ∧ writing.initialised = true ∧ writing.x.phase = .addressed ∧
    0 < writing.cfg.tSda ∧ writing.flag .negack = false ∧ writing.flag .ber = false ∧ writing.flag .sdast = true ∧
    seen (fun t => (t.x.result, t.acc, t.reg.data)) (.sendByte 0x20) { writing with reg := { writing.reg with st := 0x12 } } =
      some (1, [.rd .st 0x12], writing.reg.data) :=
  ⟨rfl, rfl, rfl, by decide, by decide, by decide, by decide, by decide +kernel⟩

theorem witness_RecvByteReads : reading.quiet ∧ reading.initialised = true ∧ reading.x.phase = .addressed ∧
    0 < reading.cfg.tSda ∧ reading.flag .negack = false ∧ reading.flag .ber = false ∧ reading.flag .sdast = true ∧
    readingRef.cfg.atomicNackLookahead = true ∧
    (pollDataReady readingRef.cfg.tSda readingRef).toOption.map (fun p => (p.1, (lePoint p.2).toOption.isSome)) =
      some (.ok, true) :=
  ⟨rfl, rfl, rfl, by decide, by decide, by decide, by decide, rfl, by decide +kernel⟩

theorem witness_RecvLastStopsThenReads : reading.quiet ∧ 0 < reading.cfg.tAck ∧ reading.flag .ack = false ∧
    seen (fun t => t.x.result) (.recvLast true) reading = some 0 ∧
    seen (fun t => t.x.result) (.recvLast false) reading = some 0 ∧
    seen (fun t => (t.x.result, t.acc)) (.recvLast true) { reading with reg := { reading.reg with ctl1 := 0x10 } } =
      some (3, [.rd .ctl1 0x10, .rd .ctl1 0x10]) :=
  ⟨rfl, by decide, by decide, by decide +kernel, by decide +kernel, by decide +kernel⟩

theorem witness_DataPhaseFrame : readingRef.polled ∧ readingRef.initialised = true ∧ readingRef.x.phase = .addressed ∧
    seen (fun t => t.x.rdata) (.recvByte true) readingRef = some 0xAB ∧
    seen (fun t => t.x.phase) (.recvLast true) readingRef = some .idle ∧
    seen (fun t => t.x.result) (.sendByte 0) { writing with reg := s0.reg } = some 3 ∧
    seen (fun t => t.x.phase) (.pollAckCleared 0) readingRef = some .data := by decide +kernel

/-- Each exit of a READ: rejected, START failed, refused later, complete. -/
theorem witness_ReadExits : busy.polled ∧ busy.initialised = true ∧
    seen (fun t => t.x.result) (.read 0x50 0 0) busy = some 7 ∧ seen (fun t => t.x.result) (.read 0x50 1 0) s0 = some 3 ∧
    seen (fun t => t.x.result) (.read 0x29 2 0) (s0Ref []) = some 1 ∧
    seen (fun t => t.x.result) (.read 0x50 2 0xFFFFFFFF) (s0Ref []) = some 0 := by decide +kernel

theorem witness_WriteExits : busy.polled ∧ busy.initialised = true ∧
    seen (fun t => t.x.result) (.write 0x50 1 0) s0 = some 3 ∧ seen (fun t => t.x.result) (.write 0x29 0 0) (s0Ref []) = some 1 ∧
    seen (fun t => t.x.result) (.write 0x50 0 0) (s0Ref []) = some 0 ∧
    (sendStart s0.cfg.tStart (s0Ref [])).toOption.map Prod.fst = some .ok ∧
    seen (fun t => (t.x.result, t.flag .stastre)) (.write 0x29 0 0) (s0Ref []) = some (1, false) := by decide +kernel

/-- Message 1 fails, message 2 is run and succeeds, and the last address goes to recovery; no message fails. -/
theorem witness_ExchangeParts :
    let s : State := s0Ref [7]
    lePoint s = .ok s ∧ s.initialised = true ∧
    seen (fun t => (t.x.result, t.x.started)) (messageCommand ⟨.read, 0x50, 0, 0⟩) s = some (7, false) ∧
    seen (fun t => (t.x.result, t.x.started)) (messageCommand ⟨.read, 0x50, 1, 0⟩) (s.endedWith 7) = some (0, false) ∧
    seen (fun t => t.x.result) (.recover 0x50) s = some 0 ∧
    seen (fun t => (t.x.result, t.buf)) (.exchange [⟨.read, 0x50, 0, 0⟩, ⟨.read, 0x50, 1, 0⟩]) s = some (9, [(0, 7)]) ∧
    seen (fun t => (t.x.result, t.x.started)) (messageCommand ⟨.write, 0x50, 1, 0⟩) s = some (0, true) ∧
    heldOver (some ⟨.read, 0x50, 0, 0⟩) (s.endedWith 7) = false :=
  ⟨rfl, rfl, by decide +kernel, by decide +kernel, by decide +kernel, by decide +kernel, by decide +kernel,
    by decide +kernel⟩

/-- The reference environment with one of the two readings of a stall latch left by message 1 (log entry 25). -/
def staleRef (holds : Bool) : State := { s0Ref [7] with cfg := { s0.cfg with staleStallHolds := holds } }

/-- A zero-length WRITE to a target that acknowledges leaves the stall latch. Where it holds, a READ of one byte as message 2 leaves
`STASTR` set and fails (43_transactions.md R121 (d), 70_reset_and_hazards.md R201); so do a longer READ and a WRITE of one byte in
either reading; the pseudocode of 42_primitives.md R104 releases the bus. -/
theorem witness_ExchangeHeld :
    (staleRef true).polled ∧ (staleRef true).cfg.staleStallHolds = true ∧ lePoint (staleRef true) = .ok (staleRef true) ∧
    seen (fun t => t.flag .stastr) (.write 0x50 0 0) (staleRef true) = some true ∧
    seen (fun t => t.x.result) (.exchange [⟨.write, 0x50, 0, 0⟩, ⟨.read, 0x50, 1, 0⟩]) (staleRef true) = some 9 ∧
    seen (fun t => t.x.result) (.exchange [⟨.write, 0x50, 0, 0⟩, ⟨.read, 0x50, 2, 0⟩]) (staleRef false) = some 9 ∧
    seen (fun t => t.x.result) (.exchange [⟨.write, 0x50, 0, 0⟩, ⟨.write, 0x50, 1, 0⟩]) (staleRef false) = some 9 ∧
    seen (fun t => (t.x.result, t.buf)) (.exchange [⟨.write, 0x50, 0, 0⟩, ⟨.read, 0x50, 1, 0⟩]) (staleRef false) =
      some (0, [(0, 7)]) :=
  ⟨rfl, rfl, rfl, by decide +kernel, by decide +kernel, by decide +kernel, by decide +kernel, by decide +kernel⟩

theorem witness_ExchangeOutcomes : busy.polled ∧ busy.initialised = true ∧ busy.x.consistent = true ∧ busy.x.phase ≠ .stopped ∧
    seen (fun t => t.x.result) (.exchange [⟨.write, 0x50, 1, 0⟩]) s0 = some 9 := by decide +kernel

/-- The state S0, the target 0x50, and lengths 0, 1 and 2. -/
theorem witness_WriteOnTheWire : (s0Ref []).reference ⟨[0x50], [(0x50, [])], none, none, 0, 0⟩ ∧ (s0Ref []).polled ∧
    (0x50 : Addr7) ∈ [(0x50 : Addr7)] ∧ 0 < s0.cfg.tStart ∧ 0 < s0.cfg.tSda ∧ s0.flag .enable = true ∧
    s0.flag .master = false ∧ s0.reg.ctl1 = 0 ∧ s0.le.txb = [] ∧ s0.x.phase = .idle ∧ s0.x.started = false ∧
    s0.flag .negack = false ∧ s0.flag .ber = false ∧ s0.flag .stastr = false ∧
    seen (fun t => t.wire) (.exchange [⟨.write, 0x50, 0, 0⟩]) (s0Ref []) = some [.start, .addr 0xA0 .ack, .stop] ∧
    seen (fun t => t.x.phase) (.write 0x50 2 0xFFFFFFFF) (s0Ref []) = some .data :=
  ⟨rfl, rfl, by decide, by decide, by decide, by decide, by decide, rfl, rfl, rfl, rfl, by decide, by decide, by decide,
    by decide +kernel, by decide +kernel⟩

theorem witness_ReadOnTheWire : (s0Ref [7, 8]).reference ⟨[0x50], [(0x50, [7, 8])], none, none, 0, 0⟩ ∧
    s0.cfg.atomicNackLookahead = true ∧ s0.buf.wf ∧ 0 < s0.cfg.tAck ∧ 0 < (1#16).toNat ∧
    seen (fun t => (t.wire, t.buf)) (.read 0x50 3 0xFFFFFFFF) (s0Ref [7, 8]) =
      some ([.start, .addr 0xA1 .ack, .rx 7 .ack, .rx 8 .ack, .rx 0xFF .nack, .stop], [(0, 8), (1, 0xFF), (0xFFFFFFFF, 7)]) :=
  ⟨rfl, rfl, by decide, by decide, by decide, by decide +kernel⟩

theorem witness_StopBeforeFinalRead : seen (fun t => t.x.result) (.read 0x50 1 0) (s0Ref []) = some 0 ∧
    seen (fun t => t.x.result) (.read 0x50 2 0) (s0Ref []) = some 0 := by decide +kernel

theorem witness_RecoverOutcomes : busy.polled ∧ busy.initialised = true ∧ busy.flag .enable = true ∧
    seen (fun t => t.log.drop 1) (.recover 0x50) { s0 with env := envRef [] [] none (some (some 3, false)) } = some [.recDone] := by
  decide +kernel

theorem witness_RecoverByLineLevels : s0.quiet ∧ s0.initialised = true ∧ s0.flag .master = false ∧ s0.flag .enable = true ∧
    s0.scl = .high ∧ s0.sda = .high ∧ ({ s0 with sda := .low } : State).quiet ∧
    seen (fun t => (t.wire, t.log.drop 1, t.reg.data)) (.recover 0x50) { s0 with scl := .low } =
      some ([.pulse], [.recStartFailed], 0x50) ∧
    seen (fun t => (t.wire, t.log.drop 1)) (.recover 0x50) { s0 with env := envRef [] [] none (some (some 1, false)) } =
      some ([.pulse, .start, .addr 0x50 .nack, .stop], [.recDone]) ∧
    seen (fun t => (t.le.pulses, t.log.drop 1)) (.recover 0x50)
      { s0 with env := envRef [] [] none (some (some 27, false)), cfg := { s0.cfg with recByte := [(0x50, 0xA1)] } } =
      some (27, [.recDone]) :=
  ⟨rfl, rfl, by decide, by decide, rfl, rfl, rfl, by decide +kernel, by decide +kernel, by decide +kernel⟩

theorem witness_ControllerReset : worn.quiet ∧ worn.initialised = true ∧ worn.flag .enable = true ∧
    worn.reg.reservedZero = true ∧ busy.polled ∧ busy.flag .enable = true :=
  ⟨rfl, rfl, by decide, by decide, rfl, by decide⟩

theorem witness_DumpReadsTen : busy.polled ∧ s0.polled ∧ s0.quiet := ⟨rfl, rfl, rfl⟩

theorem witness_HoldBlocksBus : ({ s0 with reg := { s0.reg with st := 0x0A } } : State).flag .stastr = true ∧
    (∀ m, LeEvent.startDone ≠ .ber m) ∧ busy.polled ∧ busy.flag .enable = true ∧ busy.flag .start = true ∧
    busy.flag .master = false ∧ (LeEvent.foreign true false).guard busy = true ∧
    (LeEvent.foreign true false).guard reading = false ∧ (LeEvent.lines .low .low).guard reading = false ∧
    (LeEvent.lines .low .low).guard s0 = true :=
  ⟨by decide, fun _ => nofun, rfl, by decide, by decide, by decide, by decide, by decide, by decide, by decide⟩

/-- A first START, a repeated one, a START that is not generated, a STOP as master, and as no master; a STOP behind a byte. -/
theorem witness_ConditionEvents :
    LeEvent.startDone.guard busy = true ∧
    LeEvent.startDone.guard { reading with reg := { reading.reg with ctl1 := 0x01 }, le := { reading.le with txb := [(0xA0, .addr)] } } = true ∧
    LeEvent.startDone.guard { busy with sda := .low } = false ∧
    (LeEvent.stopDone false).guard { reading with reg := { reading.reg with ctl1 := 0x02 } } = true ∧
    (LeEvent.stopDone true).guard { s0 with reg := { s0.reg with ctl1 := 0x02 } } = true ∧
    (LeEvent.stopDone true).guard
      { reading with reg := { reading.reg with ctl1 := 0x02 }, le := { reading.le with txb := [(1, .data)] } } = false ∧
    (LeEvent.ber true).guard busy = true ∧ busy.polled ∧ reading.polled := by decide +kernel

theorem witness_ByteEvents :
    LeEvent.addrAck.guard { started with le := { started.le with txb := [(0xA1, .addr)] } } = true ∧
    LeEvent.txReady.guard { writing with le := { writing.le with owed := .txReady } } = true ∧
    LeEvent.txAck.guard { writing with le := { writing.le with txb := [(0x10, .data)] } } = true ∧
    (LeEvent.rxByte 5).guard { reading with reg := { reading.reg with st := 0x02 }, le := { reading.le with owed := .rxByte } } = true ∧
    started.polled ∧ writing.polled ∧ reading.polled ∧
    LeEvent.addrNack.guard started = false ∧
    LeEvent.txReady.guard { writing with reg := { writing.reg with ctl1 := 0x01 }, le := { writing.le with owed := .txReady } } = false ∧
    LeEvent.txNack.guard { writing with le := { writing.le with txb := [(0x10, .addr)] } } = false ∧
    (LeEvent.rxByte 5).guard { reading with reg := { reading.reg with st := 0x42 }, le := { reading.le with owed := .rxByte } } = false := by
  decide +kernel

theorem witness_StartNeverDropped : (fireAll [.lines .high .high, .startDone] busy).toOption.map (fun t => t.flag .start) =
    some false ∧ busy.flag .start = true := by decide +kernel

theorem witness_OneBusEventAtATime :
    let s : State := { started with le := { started.le with txb := [(0xA1, .addr)] } }
    s.Inv ∧ LeEvent.addrAck.guard s = true ∧ LeEvent.addrNack.guard s = true ∧ LeEvent.addrAck.isBusEvent = true :=
  ⟨⟨by decide +kernel, by decide +kernel, by decide, by decide +kernel, by decide +kernel⟩, by decide +kernel,
    by decide +kernel, rfl⟩

theorem witness_LineEngineNever : (lePoint busy).toOption.map (fun t => (t.flag .master, t.flag .start)) = some (true, false) := by
  decide +kernel

theorem witness_FifoAndInterruptModesRefused :
    let s : State := { s0 with reg := { s0.reg with ctl1 := 0x01, b0fifctl := 0x10 } }
    s.flag .fifoEn = true ∧ LeEvent.startDone.isBusEvent = true ∧ LeEvent.startDone.guard s = true ∧
      fire .startDone s = .error .fifoOrInterruptMode := ⟨by decide, rfl, by decide +kernel, rfl⟩

theorem witness_StepKeepsInv : s0.Inv ∧ seenStep (fun t => t.x.result) [0x32000000] s0 = some 8 ∧
    seenStep (fun t => t.x.phase) [0x20000001] (s0Ref []) = some .started := ⟨s0_inv, by decide +kernel, by decide +kernel⟩

theorem witness_StepOnlyAppends : seenStep (fun t => t.cp) [0x42000000] busy = some 1 := by decide +kernel

theorem witness_BufWrittenByReadsOnly : seen (fun t => t.buf) (.exchange [⟨.write, 0x50, 1, 0x100⟩])
    { s0Ref [] with buf := [(0x100, 0x10)] } = some [(0x100, 0x10)] := by decide +kernel

theorem witness_StartedWrittenBy : seen (fun t => (t.x.started, s0.x.started)) (.sendStart 1) (s0Ref []) = some (true, false) ∧
    seen (fun t => (t.x.started, started.x.started)) (.sendStop 0) started = some (false, true) ∧
    seen (fun t => t.x.started) .ctrlReset started = some true := by decide +kernel

theorem witness_ConfigurationSurvives : seen (fun t => t.reg.divider) .ctrlReset s0 = some s0.reg.divider ∧ s0.flag .enable = true ∧
    s0.polled := by decide +kernel

end Sys2Proof.Tests
end

section
/-! PROOFS. One step, taken apart: the command that runs, the move of `cp`, the interleaving point after it (10_state.md R16,
20_memory.md R60, 30_encoding.md R79). -/

namespace Sys2Proof.Machine

theorem betweenCommands_next {s t : State} : betweenCommands s = .next t ↔ lePoint s = .ok t := by
  unfold betweenCommands
  cases lePoint s <;> simp

theorem betweenCommands_refused {s : State} {r : Refusal} : betweenCommands s = .refused r ↔ lePoint s = .error r := by
  unfold betweenCommands
  cases lePoint s <;> simp

theorem completeAfter_next {n : Nat} {o : Host.Outcome State Fault Refusal} {t : State}
    (h : completeAfter n o = .next t) : ∃ u, o = .next u ∧ complete n u = .next t := by
  cases o with
  | next u => exact ⟨u, rfl, h⟩
  | fault f => cases h
  | refused r => cases h

/-- A legal command: its meaning, then its completion. -/
theorem step_of_command {s : State} {i : Instr} {n : Nat} (hw : wholeProgram s.pending = true)
    (hd : decode s.pending = .command i n) : step s = completeAfter n (exec i s) := by
  unfold step runNext
  rw [if_pos hw, hd]

/-- Settles O5: the step is `exec i` and its completion, and both the refusal of the command and that of the interleaving point
after it are the step's. -/
theorem stepRunsDecodedInstruction : Obligations.StepRunsDecodedInstruction := by
  intro s i n hw hd
  have hstep : step s = completeAfter n (exec i s) := step_of_command hw hd
  refine ⟨fun t ht => ?_, fun r hr => by rw [hstep, hr, completeAfter]⟩
  have hdone : step s = complete n t := by rw [hstep, ht, completeAfter]
  exact ⟨fun u hu => hdone.trans (betweenCommands_next.2 hu), fun r hr => hdone.trans (betweenCommands_refused.2 hr)⟩

/-- Whatever the decoder makes of a first word, the length is the one told from that word alone. -/
theorem decode_cons_cases (w : Word) (rest : List Word) :
    decode (w :: rest) = .truncated ∨ (∃ why, decode (w :: rest) = .illegal why (cmdLength w)) ∨
      ∃ i, decode (w :: rest) = .command i (cmdLength w) := by
  unfold decode decodeWhole
  by_cases hlen : rest.length + 1 < cmdLength w
  · exact .inl (if_pos hlen)
  · refine .inr ?_
    dsimp only
    rw [if_neg hlen]
    split
    · exact .inl ⟨_, rfl⟩
    · split
      · split
        · exact .inr ⟨_, rfl⟩
        · exact .inl ⟨_, rfl⟩
      · exact .inl ⟨_, rfl⟩

/-- What a command does by itself, before `cp` moves: an illegal word ends with `InvalidArgument`, an instruction runs. -/
inductive CommandEffect (s : State) : State → Prop
  | illegal : CommandEffect s (s.setResult .invalidArgument)
  | ran {i : Instr} {u : State} (h : exec i s = .next u) : CommandEffect s u

/-- All that a step can do: with no word left the line engine moves; otherwise the first command takes effect, `cp` moves by
the command's length and then the line engine moves. -/
theorem step_cases {s t : State} (h : step s = .next t) :
    (s.pending = [] ∧ lePoint s = .ok t) ∨
      ∃ w rest u, s.pending = w :: rest ∧ CommandEffect s u ∧ lePoint (u.withCp (u.cp + cmdLength w)) = .ok t := by
  unfold step runNext at h
  split at h
  case isFalse => cases h
  case isTrue =>
    cases hp : s.pending with
    | nil =>
      rw [hp] at h
      exact .inl ⟨rfl, betweenCommands_next.1 h⟩
    | cons w rest =>
      rw [hp] at h
      obtain hd | ⟨why, hd⟩ | ⟨i, hd⟩ := decode_cons_cases w rest <;> rw [hd] at h
      · cases h
      · exact .inr ⟨w, rest, _, rfl, .illegal, betweenCommands_next.1 h⟩
      · obtain ⟨u, hu, hc⟩ := completeAfter_next h
        exact .inr ⟨w, rest, u, rfl, .ran hu, betweenCommands_next.1 hc⟩

/-! ## What no command changes, and what every command only extends -/

/-- `cp`, the command stream and the parameters stay; `LOG`, `wire` and the access record grow at most. -/
structure Appends (s t : State) : Prop where
  cp : t.cp = s.cp
  program : t.program = s.program
  cfg : t.cfg = s.cfg
  log : s.log <+: t.log
  wire : s.wire <+: t.wire
  acc : s.acc <+: t.acc

theorem Appends.along : Along Appends where
  refl _ := ⟨rfl, rfl, rfl, List.prefix_rfl, List.prefix_rfl, List.prefix_rfl⟩
  trans h k := ⟨k.cp.trans h.cp, k.program.trans h.program, k.cfg.trans h.cfg, h.log.trans k.log, h.wire.trans k.wire,
    h.acc.trans k.acc⟩

theorem LeFrame.appends {s t : State} (h : LeFrame s t) : Appends s t :=
  ⟨h.cp, h.program, h.cfg, by rw [h.log], h.wire, by rw [h.acc]⟩

theorem AccessFrame.appends {s t : State} (h : AccessFrame s t) : Appends s t :=
  ⟨h.cp, h.program, h.cfg, by rw [h.log], h.wire, h.acc⟩

theorem appends_kept : Kept Appends where
  along := Appends.along
  point h := (lePoint_frame h).appends
  read s r := ((afterRead_frame s r).trans (.pushAcc _ _)).appends
  write s r v := ((afterWrite_frame s r v).trans (.pushAcc _ _)).appends
  seq s _ := { Appends.along.refl s with }
  log s _ := { Appends.along.refl s with log := List.prefix_append _ _ }

theorem exec_appends {i : Instr} {s t : State} (h : exec i s = .next t) : Appends s t :=
  exec_keeps appends_kept (fun _ _ s _ _ e => by cases e; exact { Appends.along.refl s with })
    (fun _ s _ _ e => by cases e; exact { Appends.along.refl s with })
    (fun _ s _ _ e => by cases e; exact { Appends.along.refl s with }) h

theorem CommandEffect.appends {s u : State} (h : CommandEffect s u) : Appends s u := by
  cases h with
  | illegal => exact appends_kept.seq s _
  | ran h => exact exec_appends h

/-- Settles O7: a command and the line engine leave `cp` alone, so the one move of `cp` is the step's own. -/
theorem stepAdvancesCp : Obligations.StepAdvancesCp := by
  intro s t w rest hp h
  obtain ⟨hnil, -⟩ | ⟨w', rest', u, hcons, hu, ht⟩ := step_cases h
  · cases hp.symm.trans hnil
  · cases hp.symm.trans hcons
    have hcmd := hu.appends
    have hle := (lePoint_frame ht).appends
    refine ⟨hle.cp.trans ?_, hle.program.trans hcmd.program⟩
    rw [State.withCp_cp, hcmd.cp]

/-- Settles O57: commands and the line engine only append, and moving `cp` touches none of these fields. -/
theorem stepOnlyAppends : Obligations.StepOnlyAppends := by
  intro s t h
  obtain ⟨-, ht⟩ | ⟨w, rest, u, -, hu, ht⟩ := step_cases h
  · have hle := (lePoint_frame ht).appends
    exact ⟨⟨hle.log, hle.wire, hle.acc⟩, hle.cfg, hle.program⟩
  · have hcmd := hu.appends
    have hle := (lePoint_frame ht).appends
    exact ⟨⟨hcmd.log.trans hle.log, hcmd.wire.trans hle.wire, hcmd.acc.trans hle.acc⟩, hle.cfg.trans hcmd.cfg,
      hle.program.trans hcmd.program⟩

end Sys2Proof.Machine
end

section
/-! PROOFS. The state chain of 10_state.md R15 to R18: how each command moves `x[STARTED]` and `x[PHASE]`. -/

namespace Sys2Proof.Machine

/-! ## A command as a body -/

/-- The body each command runs. -/
def commandBody : Instr → Op Kind
  | .regRead reg => onRegister reg regReadBody
  | .regWrite reg data => onRegister reg (regWriteBody data)
  | .regSet reg data => onRegister reg (regSetBody data)
  | .regClr reg data => onRegister reg (regClrBody data)
  | .init m => initBody m
  | .setSpeed freq => configure freq.toNat
  | .sendStart n => inPhase legalStart (sendStart n.toNat)
  | .sendStop n => inPhase legalStop (sendStop n.toNat)
  | .sendAddress stall b => inPhase legalAddress (sendAddress b stall)
  | .pollDataReady n => inPhase legalData (pollDataReady n.toNat)
  | .pollAckCleared n => inPhase legalData (pollAckCleared n.toNat)
  | .sendByte b => inPhase legalData (sendByteBody b)
  | .recvByte nackNext => inPhase legalData (recvByteBody nackNext)
  | .recvLast ackWait => inPhase legalData (recvLastBody ackWait)
  | .read a len base => readMessage false a len.toNat base
  | .write a len base => writeMessage a len.toNat base
  | .exchange ms => exchange ms
  | .recover a => recover a
  | .ctrlReset => do ctrlReset; pure .ok
  | .dump => do dump; pure .ok

/-- Each command is its body, behind the check for an earlier INIT where it needs one (70_reset_and_hazards.md R188). -/
theorem exec_eq_commandBody (i : Instr) (s : State) :
    exec i s = if needsNoInit i = true then runBody (commandBody i) s else runInitialised (commandBody i) s := by
  cases i <;> rfl

/-- A command that gives a next state has run its body and ends with its result in `x[RESULT]`. -/
theorem exec_next {i : Instr} {s t : State} (h : exec i s = .next t) :
    ∃ k u, commandBody i s = .ok (k, u) ∧ t = u.setResult k := by
  rw [exec_eq_commandBody] at h
  split at h
  · exact runBody_next h
  · exact (runInitialised_next h).2

/-! ## Pieces of a command that leave the chain alone -/

/-- `x[STARTED]` and `x[PHASE]` are as they were. -/
structure SameChain (s t : State) : Prop where
  started : t.x.started = s.x.started
  phase : t.x.phase = s.x.phase

theorem SameChain.along : Along SameChain where
  refl _ := ⟨rfl, rfl⟩
  trans h k := ⟨k.started.trans h.started, k.phase.trans h.phase⟩

theorem SameChain.of_x {s t : State} (h : t.x = s.x) : SameChain s t := by constructor <;> rw [h]

theorem SeqFrame.chain {s t : State} (h : SeqFrame s t) : SameChain s t := .of_x h.x

theorem Op.Keeps.mono {α : Type} {R S : State → State → Prop} {m : Op α} (hm : Op.Keeps R m) (h : ∀ {s t}, R s t → S s t) :
    Op.Keeps S m := fun s a t e => h (hm s a t e)

theorem sameChain_pure {α : Type} (a : α) : Op.Keeps SameChain (pure a) := Op.Keeps.pure SameChain.along a

theorem sameChain_bind {α β : Type} {m : Op α} {f : α → Op β} (hm : Op.Keeps SameChain m)
    (hf : ∀ a, Op.Keeps SameChain (f a)) : Op.Keeps SameChain (m >>= f) := Op.Keeps.bind SameChain.along hm hf

theorem sameChain_rd (r : RegId) : Op.Keeps SameChain (rd r) := (rd_seq r).mono SeqFrame.chain

theorem sameChain_wr (r : RegId) (v : Byte) : Op.Keeps SameChain (wr r v) := (wr_seq r v).mono SeqFrame.chain

theorem sameChain_getCfg : Op.Keeps SameChain getCfg := fun s _ _ e => by cases e; exact SameChain.along.refl s

theorem sameChain_setRdata (v : Byte) : Op.Keeps SameChain (setRdata v) := fun _ _ _ e => by cases e; exact ⟨rfl, rfl⟩

theorem sameChain_logEvent (e : LogEvent) : Op.Keeps SameChain (logEvent e) := fun _ _ _ e => by cases e; exact ⟨rfl, rfl⟩

theorem sameChain_setInitialised (b : Bool) : Op.Keeps SameChain (setInitialised b) :=
  fun _ _ _ e => by cases e; exact ⟨rfl, rfl⟩

theorem sameChain_invokePinmux (m : BitVec 8) : Op.Keeps SameChain (invokePinmux m) :=
  fun _ _ _ e => by cases e; exact ⟨rfl, rfl⟩

theorem sameChain_hostRd (r : RegId) : Op.Keeps SameChain (hostRd r) :=
  sameChain_bind (sameChain_rd r) (fun _ => sameChain_bind sameChain_getCfg (fun _ => sameChain_pure _))

theorem sameChain_hostWr (r : RegId) (v : Byte) : Op.Keeps SameChain (hostWr r v) :=
  sameChain_bind sameChain_getCfg (fun _ => sameChain_wr r _)

theorem sameChain_onRegister {reg : BitVec 4} {m : RegId → Op Kind} (hm : ∀ r, Op.Keeps SameChain (m r)) :
    Op.Keeps SameChain (onRegister reg m) := by
  unfold onRegister
  split
  · exact hm _
  · exact sameChain_pure _

theorem sameChain_regReadBody (r : RegId) : Op.Keeps SameChain (regReadBody r) :=
  sameChain_bind (sameChain_hostRd r) (fun _ => sameChain_bind (sameChain_setRdata _) (fun _ => sameChain_pure _))

theorem sameChain_regWriteBody (d : Byte) (r : RegId) : Op.Keeps SameChain (regWriteBody d r) :=
  sameChain_bind (sameChain_hostWr r d) (fun _ => sameChain_pure _)

theorem sameChain_regSetBody (d : Byte) (r : RegId) : Op.Keeps SameChain (regSetBody d r) :=
  sameChain_bind (sameChain_hostRd r) (fun _ => sameChain_bind (sameChain_hostWr r _) (fun _ => sameChain_pure _))

theorem sameChain_regClrBody (d : Byte) (r : RegId) : Op.Keeps SameChain (regClrBody d r) :=
  sameChain_bind (sameChain_hostRd r) (fun _ => sameChain_bind (sameChain_hostWr r _) (fun _ => sameChain_pure _))

theorem sameChain_programSpeed (clk target : Nat) : Op.Keeps SameChain (programSpeed clk target) :=
  sameChain_bind (sameChain_rd _) (fun _ => sameChain_bind (sameChain_wr _ _) (fun _ => sameChain_bind (sameChain_rd _) (fun _ =>
    sameChain_bind (sameChain_wr _ _) (fun _ => sameChain_bind (sameChain_wr _ _) (fun _ =>
      sameChain_bind (fun _ _ _ e => by cases e; exact ⟨rfl, rfl⟩) (fun _ => sameChain_pure _))))))

theorem sameChain_configure (target : Nat) : Op.Keeps SameChain (configure target) := by
  refine sameChain_bind (fun s _ _ e => by cases e; exact SameChain.along.refl s) (fun x => ?_)
  dsimp only
  split
  · exact sameChain_programSpeed _ _
  · exact sameChain_pure _

theorem sameChain_initFinish (m : BitVec 8) (clk target : Nat) : Op.Keeps SameChain (initFinish m clk target) :=
  sameChain_bind ((setbits_seq _ _).mono SeqFrame.chain) (fun _ => sameChain_bind ((clrbits_seq _ _).mono SeqFrame.chain) (fun _ =>
    sameChain_bind (sameChain_wr _ _) (fun _ => sameChain_bind (sameChain_logEvent _) (fun _ =>
      sameChain_bind (sameChain_setInitialised _) (fun _ => sameChain_pure _)))))

theorem sameChain_initWithClock (m : BitVec 8) (clk : BitVec 32) (target : Nat) :
    Op.Keeps SameChain (initWithClock m clk target) :=
  sameChain_bind (fun _ _ _ e => by cases e; exact ⟨rfl, rfl⟩) (fun _ => sameChain_bind (sameChain_invokePinmux m) (fun _ =>
    Op.Keeps.orReturn SameChain.along (sameChain_configure _) (sameChain_initFinish _ _ _)))

theorem sameChain_dump : Op.Keeps SameChain dump := by
  intro s a t e
  obtain ⟨u, vals, hu, -, rfl⟩ := dump_spec e
  exact ⟨hu.chain.started, hu.chain.phase⟩

theorem sameChain_ctrlReset : Op.Keeps SameChain (do ctrlReset; pure Kind.ok) :=
  sameChain_bind (ctrlReset_seq.mono SeqFrame.chain) (fun _ => sameChain_pure _)

/-! ## Pieces that move the chain -/

/-- The phase is DATA and `x[STARTED]` is as it was. -/
structure ToData (s t : State) : Prop where
  started : t.x.started = s.x.started
  phase : t.x.phase = .data

theorem ToData.then {s t u : State} (h : ToData s t) (k : SameChain t u) : ToData s u :=
  ⟨k.started.trans h.started, k.phase.trans h.phase⟩

/-- No START is outstanding and the phase is IDLE. -/
structure AtIdle (t : State) : Prop where
  started : t.x.started = false
  phase : t.x.phase = .idle

theorem AtIdle.of_x {t : State} {x : SeqRegs} (h : t.x = { x with started := false, phase := .idle }) : AtIdle t := by
  constructor <;> rw [h]

/-- A START is outstanding. -/
structure StartOutstanding (t : State) : Prop where
  started : t.x.started = true
  phase : t.x.phase.outstanding = true

theorem Outstanding.startOutstanding {s t : State} (h : Outstanding s t) : StartOutstanding t := by
  obtain ⟨p, hp, hx⟩ := h
  constructor <;> rw [hx]
  obtain rfl | rfl | rfl := hp <;> rfl

theorem pollDataReady_toData (n : Nat) : Op.Keeps ToData (pollDataReady n) := by
  intro s k t e
  obtain ⟨h, -⟩ := pollDataReady_spec e
  constructor <;> rw [h.x] <;> rfl

theorem pollAckCleared_toData (n : Nat) : Op.Keeps ToData (pollAckCleared n) := by
  intro s k t e
  obtain ⟨h, -⟩ := pollAckCleared_spec e
  constructor <;> rw [h.x] <;> rfl

/-- A wait, then pieces that leave the chain alone. -/
theorem waitThen_toData {f : Config → Op Kind} {k : Config → Op Kind} (hf : ∀ c, Op.Keeps ToData (f c))
    (hk : ∀ c, Op.Keeps SameChain (k c)) : Op.Keeps ToData (do let c ← getCfg; orReturn (f c) (k c)) := by
  intro s b t e
  rw [Op.bind_eq (getCfg_run s)] at e
  obtain ⟨r, u, hu, ⟨-, ht⟩ | ⟨-, -, rfl⟩⟩ := orReturn_ok.1 e
  · exact (hf _ s r u hu).then (hk _ u b t ht)
  · exact hf _ s r _ hu

theorem sendByteBody_toData (b : Byte) : Op.Keeps ToData (sendByteBody b) :=
  waitThen_toData (fun _ => pollDataReady_toData _) (fun _ => sameChain_bind (sameChain_wr _ _) (fun _ => sameChain_pure _))

theorem recvByteBody_toData (nackNext : Bool) : Op.Keeps ToData (recvByteBody nackNext) := by
  refine waitThen_toData (fun _ => pollDataReady_toData _) (fun _ => sameChain_bind (sameChain_rd _) (fun v =>
    sameChain_bind (sameChain_setRdata v) (fun _ => ?_)))
  split
  · exact sameChain_bind (requestNackAfterRead_seq.mono SeqFrame.chain) (fun _ => sameChain_pure _)
  · exact sameChain_pure _

theorem recvLastBody_chain {ackWait : Bool} {s t : State} {k : Kind} (h : recvLastBody ackWait s = .ok (k, t)) :
    ToData s t ∨ AtIdle t := by
  unfold recvLastBody at h
  rw [Op.bind_eq (getCfg_run s)] at h
  obtain ⟨r, u, hu, ⟨-, ht⟩ | ⟨-, -, rfl⟩⟩ := orReturn_ok.1 h
  · obtain ⟨-, v, u', w, hx, -, hw, hf⟩ := readTail_spec ht
    cases hw
    refine .inr ⟨?_, ?_⟩ <;> rw [hf.x] <;> simp [hx]
  · refine .inl ?_
    split at hu
    · exact pollAckCleared_toData _ _ _ _ hu
    · exact pollDataReady_toData _ _ _ _ hu

theorem initBody_chain {m : BitVec 8} {s t : State} {k : Kind} (h : initBody m s = .ok (k, t)) :
    SameChain s t ∨ AtIdle t := by
  unfold initBody at h
  rw [Op.bind_eq (getCfg_run s)] at h
  split at h
  · cases h
    exact .inl (SameChain.along.refl s)
  · right
    obtain ⟨_, u, hu, h2⟩ := Op.bind_ok.1 h
    cases hu
    obtain ⟨_, w, hw, h3⟩ := Op.bind_ok.1 h2
    cases hw
    have hrest : SameChain ((s.withX { s.x with started := false, phase := .idle }).withInitialised false) t := by
      refine (?_ : Op.Keeps SameChain _) _ _ _ h3
      split
      · exact sameChain_pure _
      · split
        · exact sameChain_pure _
        · exact sameChain_initWithClock _ _ _
    exact ⟨hrest.started, hrest.phase⟩

/-! ## How each command moves the chain -/

/-- The commands after which a START may be outstanding that was not before (10_state.md R18). -/
def leavesStart : Instr → Bool
  | .sendStart _ => true
  | .read _ _ _ => true
  | .write _ _ _ => true
  | _ => false

/-- The commands that issue a STOP, and INIT (10_state.md R18). -/
def clearsStart : Instr → Bool
  | .init _ => true
  | .sendStop _ => true
  | .recvLast _ => true
  | .read _ _ _ => true
  | .exchange _ => true
  | .recover _ => true
  | _ => false

/-- The moves of the chain a command can make. -/
inductive ChainMove (i : Instr) (s t : State) : Prop
  /-- None. -/
  | same (h : SameChain s t)
  /-- From one phase with a START outstanding to another. -/
  | advanced (started : t.x.started = s.x.started) (before : s.x.phase.outstanding = true)
      (after : t.x.phase.outstanding = true)
  /-- A START. -/
  | start (hi : leavesStart i = true) (h : StartOutstanding t)
  /-- A STOP, or INIT. -/
  | stop (hi : clearsStart i = true) (h : AtIdle t)

/-- The body behind the phase check: in an illegal phase it changes nothing (10_state.md R17). -/
theorem inPhase_chain {i : Instr} {legal : Phase → Bool} {m : Op Kind}
    (hm : ∀ s k t, legal s.x.phase = true → m s = .ok (k, t) → ChainMove i s t) : Op.Keeps (ChainMove i) (inPhase legal m) := by
  intro s k t e
  by_cases hl : legal s.x.phase = true
  · rw [inPhase_legal hl] at e
    exact hm s k t hl e
  · rw [inPhase_illegal (by simpa using hl)] at e
    cases e
    exact .same (SameChain.along.refl s)

theorem outstanding_of_legalData {p : Phase} (h : legalData p = true) : p.outstanding = true := by
  cases p with
  | idle | started | stopped => cases h
  | addressed | data => rfl

theorem outstanding_of_legalAddress {p : Phase} (h : legalAddress p = true) : p.outstanding = true := by
  cases p with
  | idle | addressed | data | stopped => cases h
  | started => rfl

theorem ToData.move {i : Instr} {s t : State} (h : ToData s t) (hs : s.x.phase.outstanding = true) : ChainMove i s t :=
  .advanced h.started hs (by rw [h.phase]; rfl)

/-- A data-phase command that ends in DATA. -/
theorem inPhase_toData {i : Instr} {m : Op Kind} (hm : Op.Keeps ToData m) : Op.Keeps (ChainMove i) (inPhase legalData m) :=
  inPhase_chain (fun s k t hl e => (hm s k t e).move (outstanding_of_legalData hl))

theorem sendStart_move (n : BitVec 24) : Op.Keeps (ChainMove (.sendStart n)) (sendStart n.toNat) := by
  intro s k t e
  obtain ⟨u, hu, ⟨-, rfl⟩ | ⟨-, rfl⟩⟩ := sendStart_spec e
  · exact .start rfl ⟨rfl, rfl⟩
  · exact .same hu.chain

theorem sendAddress_move {i : Instr} {b : Byte} {stall : Bool} {s t : State} {k : Kind} (hl : legalAddress s.x.phase = true)
    (h : sendAddress b stall s = .ok (k, t)) : ChainMove i s t := by
  obtain ⟨u, hu, ⟨-, rfl⟩ | ⟨-, rfl⟩⟩ := sendAddress_spec h
  · exact .advanced hu.chain.started (outstanding_of_legalAddress hl) rfl
  · exact .same hu.chain

theorem readMessage_move (a : Addr7) (len : BitVec 16) (base : BitVec 32) :
    Op.Keeps (ChainMove (.read a len base)) (readMessage false a len.toNat base) := by
  intro s k t e
  obtain ⟨-, he⟩ := readMessage_spec e
  cases he with
  | rejected _ ht => exact .same (.of_x (by rw [ht]))
  | noStart _ hx => exact .same (.of_x hx)
  | failed _ ho => exact .start rfl ho.startOutstanding
  | complete hx => exact .stop rfl (.of_x hx)

theorem writeMessage_move (a : Addr7) (len : BitVec 16) (base : BitVec 32) :
    Op.Keeps (ChainMove (.write a len base)) (writeMessage a len.toNat base) := by
  intro s k t e
  obtain ⟨-, he⟩ := writeMessage_spec e
  cases he with
  | noStart _ hx => exact .same (.of_x hx)
  | started _ ho => exact .start rfl ho.startOutstanding

theorem exchange_move (ms : List Message) : Op.Keeps (ChainMove (.exchange ms)) (exchange ms) := by
  intro s k t e
  by_cases hl : ms.length = 1 ∨ ms.length = 2
  · obtain hx | ⟨-, hx⟩ := (exchange_spec hl e).x
    · exact .stop rfl (.of_x hx)
    · exact .same (.of_x hx)
  · unfold exchange at e
    rw [if_neg hl] at e
    exact .same (sameChain_pure _ _ _ _ e)

theorem recover_move (a : Addr7) : Op.Keeps (ChainMove (.recover a)) (recover a) := by
  intro s k t e
  obtain hx | hx := (recover_spec e).x
  · exact .same (.of_x hx)
  · exact .stop rfl (.of_x hx)

theorem commandBody_move (i : Instr) : Op.Keeps (ChainMove i) (commandBody i) := by
  cases i with
  | regRead reg => exact (sameChain_onRegister sameChain_regReadBody).mono .same
  | regWrite reg d => exact (sameChain_onRegister (sameChain_regWriteBody d)).mono .same
  | regSet reg d => exact (sameChain_onRegister (sameChain_regSetBody d)).mono .same
  | regClr reg d => exact (sameChain_onRegister (sameChain_regClrBody d)).mono .same
  | init m => exact fun s k t e => (initBody_chain e).elim .same (.stop rfl)
  | setSpeed f => exact (sameChain_configure _).mono .same
  | sendStart n => exact inPhase_chain (fun s k t _ e => sendStart_move n s k t e)
  | sendStop n => exact inPhase_chain (fun s k t _ e => .stop rfl (.of_x (sendStop_spec e).x))
  | sendAddress stall b => exact inPhase_chain (fun s k t hl e => sendAddress_move hl e)
  | pollDataReady n => exact inPhase_toData (pollDataReady_toData _)
  | pollAckCleared n => exact inPhase_toData (pollAckCleared_toData _)
  | sendByte b => exact inPhase_toData (sendByteBody_toData b)
  | recvByte nackNext => exact inPhase_toData (recvByteBody_toData nackNext)
  | recvLast ackWait =>
    exact inPhase_chain (fun s k t hl e =>
      (recvLastBody_chain e).elim (fun h => h.move (outstanding_of_legalData hl)) (.stop rfl))
  | read a len base => exact readMessage_move a len base
  | write a len base => exact writeMessage_move a len base
  | exchange ms => exact exchange_move ms
  | recover a => exact recover_move a
  | ctrlReset => exact sameChain_ctrlReset.mono .same
  | dump => exact (sameChain_bind sameChain_dump (fun _ => sameChain_pure _)).mono .same

theorem SameChain.setResult (s : State) (k : Kind) : SameChain s (s.setResult k) := ⟨rfl, rfl⟩

theorem ChainMove.then {i : Instr} {s t u : State} (h : ChainMove i s t) (k : SameChain t u) : ChainMove i s u := by
  cases h with
  | same h => exact .same (SameChain.along.trans h k)
  | advanced hs hb ha => exact .advanced (k.started.trans hs) hb (by rw [k.phase, ha])
  | start hi h => exact .start hi ⟨k.started.trans h.started, by rw [k.phase, h.phase]⟩
  | stop hi h => exact .stop hi ⟨k.started.trans h.started, k.phase.trans h.phase⟩

/-- Every command makes one of the moves. -/
theorem exec_move {i : Instr} {s t : State} (h : exec i s = .next t) : ChainMove i s t := by
  obtain ⟨k, u, hu, rfl⟩ := exec_next h
  exact (commandBody_move i s k u hu).then (.setResult u k)

/-! ## Who writes `x[STARTED]` -/

theorem ChainMove.leavesStart_of_set {i : Instr} {s t : State} (h : ChainMove i s t) (hs : s.x.started = false)
    (ht : t.x.started = true) : leavesStart i = true := by
  cases h with
  | same h => simp [h.started, hs] at ht
  | advanced hst _ _ => simp [hst, hs] at ht
  | start hi _ => exact hi
  | stop _ h => simp [h.started] at ht

theorem ChainMove.clearsStart_of_clear {i : Instr} {s t : State} (h : ChainMove i s t) (hs : s.x.started = true)
    (ht : t.x.started = false) : clearsStart i = true := by
  cases h with
  | same h => simp [h.started, hs] at ht
  | advanced hst _ _ => simp [hst, hs] at ht
  | start _ h => simp [h.started] at ht
  | stop hi _ => exact hi

theorem ctrlReset_sameChain {s t : State} (h : exec .ctrlReset s = .next t) : SameChain s t := by
  obtain ⟨k, u, hu, rfl⟩ := exec_next h
  exact SameChain.along.trans (sameChain_ctrlReset s k u hu) (.setResult u k)

/-- Settles O59: from the moves of the chain each command can make. -/
theorem startedWrittenBy : Obligations.StartedWrittenBy := by
  intro i s t h
  refine ⟨fun hs ht => ?_, fun hs ht => ?_, ?_⟩
  · have hi := (exec_move h).leavesStart_of_set hs ht
    cases i <;> simp [leavesStart] at hi ⊢
  · have hi := (exec_move h).clearsStart_of_clear hs ht
    cases i <;> simp [clearsStart] at hi ⊢
  · rintro rfl
    exact ⟨(ctrlReset_sameChain h).started, (ctrlReset_sameChain h).phase⟩

end Sys2Proof.Machine
end

section
/-! PROOFS. The invariant of the machine, kept by every step: its hardware part and the canonical form of `BUF` along
`keepsHw_exec`, the state chain along `exec_move`, the result code from the way every command ends. -/

namespace Sys2Proof.Machine

/-- The codes of 60_exceptions.md R161 are 0 to 9. -/
theorem Kind.code_le (k : Kind) : k.code.toNat ≤ 9 := by cases k <;> decide

/-- The sequencer part of the invariant, without `x[RESULT]`: `x[STARTED]` tells whether a START is outstanding in the phase,
and the phase is not STOPPED (10_state.md R15). -/
structure Chained (x : SeqRegs) : Prop where
  started : x.started = x.phase.outstanding
  notStopped : x.phase ≠ .stopped

theorem SeqRegs.consistent_iff (x : SeqRegs) :
    x.consistent = true ↔ x.started = x.phase.outstanding ∧ x.result.toNat ≤ 9 := by
  simp [SeqRegs.consistent]

theorem ne_stopped_of_outstanding {p : Phase} (h : p.outstanding = true) : p ≠ .stopped := by
  rintro rfl; cases h

theorem SameChain.chained {s t : State} (h : SameChain s t) (hs : Chained s.x) : Chained t.x :=
  ⟨by rw [h.started, h.phase, hs.started], by rw [h.phase]; exact hs.notStopped⟩

theorem ChainMove.chained {i : Instr} {s t : State} (h : ChainMove i s t) (hs : Chained s.x) : Chained t.x := by
  cases h with
  | same h => exact h.chained hs
  | advanced hst hb ha => exact ⟨by rw [hst, hs.started, hb, ha], ne_stopped_of_outstanding ha⟩
  | start _ h => exact ⟨by rw [h.started, h.phase], ne_stopped_of_outstanding h.phase⟩
  | stop _ h => exact ⟨by rw [h.started, h.phase]; rfl, by rw [h.phase]; decide⟩

theorem State.Inv.chained {s : State} (h : s.Inv) : Chained s.x := ⟨((SeqRegs.consistent_iff _).1 h.sequencer).1, h.notStopped⟩

/-- The invariant from its hardware part, the chain and the result code. -/
theorem State.Inv.of_parts {s t : State} (hs : s.Inv) (hw : KeepsHw s t) (hc : Chained t.x) (hr : t.x.result.toNat ≤ 9) :
    t.Inv := by
  obtain ⟨hreg, hline, hbuf⟩ := hw ⟨hs.reserved, hs.line, hs.memory⟩
  exact ⟨hreg, (SeqRegs.consistent_iff _).2 ⟨hc.started, hr⟩, hc.notStopped, hline, hbuf⟩

theorem State.Inv.withCp {s : State} (h : s.Inv) (n : Nat) : (s.withCp n).Inv :=
  ⟨h.reserved, h.sequencer, h.notStopped, h.line, h.memory⟩

/-- The line engine keeps the invariant: it does not write the sequencer registers (46_line_engine.md R156). -/
theorem lePoint_keeps_inv {s t : State} (hs : s.Inv) (h : lePoint s = .ok t) : t.Inv := by
  have hx : t.x = s.x := (lePoint_frame h).x
  refine hs.of_parts (lePoint_keepsHw h) ?_ ?_ <;> rw [hx]
  · exact hs.chained
  · exact ((SeqRegs.consistent_iff _).1 hs.sequencer).2

theorem exec_keeps_inv {i : Instr} {s t : State} (hs : s.Inv) (h : exec i s = .next t) : t.Inv := by
  refine hs.of_parts (keepsHw_exec h) ((exec_move h).chained hs.chained) ?_
  obtain ⟨k, u, -, rfl⟩ := exec_next h
  exact k.code_le

theorem CommandEffect.keeps_inv {s u : State} (hs : s.Inv) (h : CommandEffect s u) : u.Inv := by
  cases h with
  | illegal => exact hs.of_parts (keepsHw_kept.seq s _) ((SameChain.setResult s _).chained hs.chained) (Kind.code_le _)
  | ran h => exact exec_keeps_inv hs h

/-- Settles O56: the command, the move of `cp` and the interleaving point after it each keep the invariant. -/
theorem stepKeepsInv : Obligations.StepKeepsInv := by
  intro s t hs h
  obtain ⟨-, ht⟩ | ⟨w, rest, u, -, hu, ht⟩ := step_cases h
  · exact lePoint_keeps_inv hs ht
  · exact lePoint_keeps_inv ((hu.keeps_inv hs).withCp _) ht

end Sys2Proof.Machine
end

section
/-! PROOFS. `BUF` and its writers (20_memory.md R47, R48): every command but READ and EXCHANGE is free of writes of `BUF`, and
an EXCHANGE writes the buffers of its read messages alone. -/

namespace Sys2Proof.Machine

/-- The commands whose body has a write of `BUF` in it. -/
def storesToBuf : Instr → Bool
  | .read _ _ _ => true
  | .exchange _ => true
  | _ => false

/-- A command that does not store to `BUF` keeps a relation kept by all its other pieces, whatever a write of `BUF` would do to
that relation. -/
theorem commandBody_keeps {R : State → State → Prop} (h : Kept R) (hi : ∀ b, Op.Keeps R (setInitialised b))
    (hp : ∀ m, Op.Keeps R (invokePinmux m)) {i : Instr} (hb : storesToBuf i = false) : Op.Keeps R (commandBody i) := by
  cases i with
  | regRead reg =>
    exact onRegister_keeps h (fun r => h.bind (h.hostRd r) (fun _ => h.bind (h.modifyX _) (fun _ => h.pure _)))
  | regWrite reg d => exact onRegister_keeps h (fun r => h.bind (h.hostWr r d) (fun _ => h.pure _))
  | regSet reg d => exact onRegister_keeps h (fun r => h.bind (h.hostRd r) (fun _ => h.bind (h.hostWr r _) (fun _ => h.pure _)))
  | regClr reg d => exact onRegister_keeps h (fun r => h.bind (h.hostRd r) (fun _ => h.bind (h.hostWr r _) (fun _ => h.pure _)))
  | init m => exact initBody_keeps h hi hp m
  | setSpeed f => exact configure_keeps h _
  | sendStart n => exact inPhase_keeps h (sendStart_keeps h _)
  | sendStop n => exact inPhase_keeps h (sendStop_keeps h _)
  | sendAddress st b => exact inPhase_keeps h (sendAddress_keeps h b st)
  | pollDataReady n => exact inPhase_keeps h (pollDataReady_keeps h _)
  | pollAckCleared n => exact inPhase_keeps h (pollAckCleared_keeps h _)
  | sendByte b => exact inPhase_keeps h (sendByteBody_keeps h b)
  | recvByte f => exact inPhase_keeps h (recvByteBody_keeps h f)
  | recvLast f => exact inPhase_keeps h (recvLastBody_keeps h f)
  | read | exchange => cases hb
  | write a l b => exact writeMessage_keeps h a _ b
  | recover a => exact recover_keeps h a
  | ctrlReset => exact h.bind (ctrlReset_keeps h) (fun _ => h.pure _)
  | dump => exact h.bind (dump_keeps h) (fun _ => h.pure _)

/-- `BUF` is as it was. -/
def SameBuf (s t : State) : Prop := t.buf = s.buf

theorem sameBuf_kept : Kept SameBuf where
  along := ⟨fun _ => rfl, fun h k => Eq.trans k h⟩
  point h := (lePoint_frame h).buf
  read s r := (afterRead_frame s r).buf
  write s r v := (afterWrite_frame s r v).buf
  seq _ _ := rfl
  log _ _ := rfl

theorem commandBody_sameBuf {i : Instr} (hb : storesToBuf i = false) : Op.Keeps SameBuf (commandBody i) :=
  commandBody_keeps sameBuf_kept (fun _ _ _ _ e => by cases e; rfl) (fun _ _ _ _ e => by cases e; rfl) hb

theorem not_inReadBuffers {ms : List Message} (hw : ∀ m ∈ ms, m.dir = .write) (x : Nat) : ¬InReadBuffers ms x := by
  rintro ⟨m, hm, hd, -⟩
  cases hd.symm.trans (hw m hm)

/-- An exchange of write messages, or one refused for its number of messages, changes no byte of `BUF`. -/
theorem exchange_of_writes_buf {ms : List Message} {s t : State} {k : Kind} (hw : ∀ m ∈ ms, m.dir = .write)
    (h : exchange ms s = .ok (k, t)) (x : Nat) : t.buf.read x = s.buf.read x := by
  by_cases hl : ms.length = 1 ∨ ms.length = 2
  · exact (exchange_spec hl h).buf x (not_inReadBuffers hw x)
  · unfold exchange at h
    rw [if_neg hl] at h
    cases h
    rfl

/-- Settles O58: apart from READ, only EXCHANGE stores to `BUF`, and without a read message it has no buffer to store to. -/
theorem bufWrittenByReadsOnly : Obligations.BufWrittenByReadsOnly := by
  intro i s t h hread hexch x
  obtain ⟨k, u, hu, rfl⟩ := exec_next h
  show u.buf.read x = s.buf.read x
  cases hb : storesToBuf i with
  | false => rw [commandBody_sameBuf hb s k u hu]
  | true =>
    cases i with
    | read a l b => exact absurd rfl (hread a l b)
    | exchange ms => exact exchange_of_writes_buf (hexch ms rfl) hu x
    | _ => cases hb

end Sys2Proof.Machine
end

section
/-! PROOFS. REG_READ and REG_WRITE of one register, and the registers whose access has a side effect: `DATA`, `BRC`, `CTL2`
(20_memory.md R56, R57, 46_line_engine.md R148, R150, R153). -/

namespace Sys2Proof.Machine

/-! ## The two commands, once the line engine's moves before the access are known -/

theorem hostRd_eq {s u : State} (hu : lePoint s = .ok u) (r : RegId) :
    hostRd r s = .ok (hostByte s.cfg.layout r (readValue u r), (afterRead u r).pushAcc (.rd r (readValue u r))) := by
  have hcfg : ((afterRead u r).pushAcc (.rd r (readValue u r))).cfg = s.cfg :=
    (afterRead_frame u r).cfg.trans (lePoint_frame hu).cfg
  unfold hostRd
  rw [Op.bind_eq (rd_eq hu r), Op.bind_eq (getCfg_run _), hcfg, Op.pure_run]

theorem hostWr_eq {s u : State} (hu : lePoint s = .ok u) (r : RegId) (v : Byte) :
    hostWr r v s = .ok ((), (afterWrite u r (fieldByte s.cfg.layout r v)).pushAcc (.wr r (fieldByte s.cfg.layout r v))) := by
  unfold hostWr
  rw [Op.bind_eq (getCfg_run s), wr_eq hu]

theorem regReadBody_eq {s u : State} (hu : lePoint s = .ok u) (r : RegId) :
    regReadBody r s = .ok (.ok, { (afterRead u r).pushAcc (.rd r (readValue u r)) with
      x := { u.x with rdata := hostByte s.cfg.layout r (readValue u r) } }) := by
  unfold regReadBody
  rw [Op.bind_eq (hostRd_eq hu r), Op.bind_eq (setRdata_run _ _), Op.pure_run, ← (afterRead_frame u r).x]
  rfl

theorem regWriteBody_eq {s u : State} (hu : lePoint s = .ok u) (r : RegId) (v : Byte) :
    regWriteBody v r s =
      .ok (.ok, (afterWrite u r (fieldByte s.cfg.layout r v)).pushAcc (.wr r (fieldByte s.cfg.layout r v))) := by
  unfold regWriteBody
  rw [Op.bind_eq (hostWr_eq hu r v), Op.pure_run]

theorem onRegister_some {reg : BitVec 4} {r : RegId} (hr : RegId.ofBits reg = some r) (body : RegId → Op Kind) :
    onRegister reg body = body r := by
  unfold onRegister
  rw [hr]

theorem execRegRead_eq {reg : BitVec 4} {r : RegId} {s u : State} (hr : RegId.ofBits reg = some r) (hu : lePoint s = .ok u) :
    exec (.regRead reg) s = .next { (afterRead u r).pushAcc (.rd r (readValue u r)) with
      x := { u.x with rdata := hostByte s.cfg.layout r (readValue u r), result := 0 } } := by
  have hbody := regReadBody_eq hu r
  rw [← onRegister_some hr regReadBody] at hbody
  exact runBody_eq hbody

theorem execRegWrite_eq {reg : BitVec 4} {r : RegId} {v w : Byte} {s u : State} (hr : RegId.ofBits reg = some r)
    (hw : w = fieldByte s.cfg.layout r v) (hu : lePoint s = .ok u) :
    exec (.regWrite reg v) s = .next { (afterWrite u r w).pushAcc (.wr r w) with x := { u.x with result := 0 } } := by
  have hbody := regWriteBody_eq hu r v
  rw [← onRegister_some hr (regWriteBody v)] at hbody
  rw [hw, ← (afterWrite_frame u r (fieldByte s.cfg.layout r v)).x]
  exact runBody_eq hbody

/-! ## `DATA` -/

/-- The one field of `DATA` is the whole byte, in every layout (10_state.md R21). -/
theorem hostByte_data (l : Layout) (v : Byte) : hostByte l .data v = v := hostByte_default .data v

theorem fieldByte_data (l : Layout) (v : Byte) : fieldByte l .data v = v := fieldByte_default .data v

theorem setFlag_sdast_false (s : State) :
    s.setFlag .sdast false = s.withReg { s.reg with st := s.reg.st &&& 0xBF } := rfl

theorem rearms_iff (s : State) :
    rearms s = true ↔ s.flag .master = true ∧ s.le.dir = .rx ∧ s.le.addrPhase = false ∧ s.le.last = false := by
  simp [rearms, and_assoc]

theorem afterRead_data (s : State) :
    afterRead s .data = { s with
      reg := { s.reg with st := s.reg.st &&& 0xBF }
      le := if s.flag .master = true ∧ s.le.dir = .rx ∧ s.le.addrPhase = false ∧ s.le.last = false then
          { s.le with owed := .rxByte } else s.le } := by
  show afterReadData s = _
  unfold afterReadData
  rw [setFlag_sdast_false]
  by_cases hr : rearms s = true
  · rw [if_pos hr, if_pos ((rearms_iff s).1 hr)]; rfl
  · rw [if_neg hr, if_neg (mt (rearms_iff s).2 hr)]; rfl

theorem txKindOf_eq (s : State) :
    txKindOf s = if s.flag .start = true ∨ s.le.addrPhase = true ∨ s.flag .master = false then .addr else .data := by
  simp [txKindOf, or_assoc]

theorem afterWrite_data (s : State) (v : Byte) :
    afterWrite s .data v = { s with
      reg := { s.reg with data := v, st := s.reg.st &&& 0xBF }
      le := { s.le with txb := s.le.txb ++
        [(v, if s.flag .start = true ∨ s.le.addrPhase = true ∨ s.flag .master = false then TxKind.addr else .data)] } } := by
  rw [← txKindOf_eq]
  rfl

/-- Settles O14: the side effect of reading `DATA`, on the state the line engine leaves before the access. -/
theorem regReadData : Obligations.RegReadData := by
  intro s u hu
  rw [execRegRead_eq (r := .data) rfl hu, afterRead_data, hostByte_data]
  rfl

/-- Settles O17: the effect of writing `DATA`, on the state the line engine leaves before the access. -/
theorem regWriteData : Obligations.RegWriteData := by
  intro v s u hu
  rw [execRegWrite_eq (r := .data) rfl (fieldByte_data _ v).symm hu, afterWrite_data]
  rfl

/-! ## `BRC` -/

/-- A read of `BRC` counts at most a draw (46_line_engine.md R150). -/
theorem afterRead_brc (s : State) : ∃ n, afterRead s .brc = s.withDraws n := by
  by_cases hm : s.flag .master = true
  · exact ⟨s.draws + 1, if_pos hm⟩
  · exact ⟨s.draws, if_neg hm⟩

theorem brcByte_masked (scl sda : Bool) : brcByte scl sda &&& 0x3F = 0 := by
  cases scl <;> cases sda <;> rfl

theorem brcByte_sclLvl (scl sda : Bool) : (brcByte scl sda).getLsbD 7 = scl := by
  cases scl <;> cases sda <;> rfl

theorem brcByte_sdaLvl (scl sda : Bool) : (brcByte scl sda).getLsbD 6 = sda := by
  cases scl <;> cases sda <;> rfl

theorem brcLevels_not_master {s : State} (h : s.flag .master = false) :
    brcLevels s = (decide (s.scl = .high), decide (s.sda = .high)) := by
  unfold brcLevels
  rw [h]
  rfl

theorem readValue_brc (s : State) : readValue s .brc = brcByte (brcLevels s).1 (brcLevels s).2 := rfl

/-- Settles O15: the read changes the record of accesses and the count of draws only, and shows the lines while not master. -/
theorem regReadLevels : Obligations.RegReadLevels := by
  intro s u hu
  obtain ⟨n, hn⟩ := afterRead_brc u
  have hexec := execRegRead_eq (reg := 10) (r := .brc) rfl hu
  rw [hn] at hexec
  refine ⟨_, readValue u .brc, hexec, rfl, rfl, rfl, rfl, rfl, rfl, rfl, ⟨fun _ => rfl, rfl, rfl, rfl, rfl, rfl, rfl⟩, rfl,
    brcByte_masked _ _, fun hm => ?_⟩
  rw [readValue_brc, brcLevels_not_master hm, brcByte_sclLvl, brcByte_sdaLvl, decide_eq_true_iff, decide_eq_true_iff]
  exact ⟨.rfl, .rfl⟩

/-! ## `CTL2` -/

theorem writeStorage_ctl2 (s : State) (w : Byte) : writeStorage s .ctl2 w = s.withReg { s.reg with ctl2 := w } := by
  show s.withReg { s.reg with ctl2 := w &&& BitVec.allOnes 8 } = _
  rw [BitVec.and_allOnes]

theorem moduleDisable_eq (s : State) :
    moduleDisable s = (s.withLe s.le.idle).withReg
      { s.reg with st := s.reg.st &&& 0xBD, ctl1 := s.reg.ctl1 &&& 0xFC } := by
  have hst : s.reg.st &&& 0xBD = s.reg.st &&& 0xFD &&& 0xBF := by rw [BitVec.and_assoc]; rfl
  have hctl1 : s.reg.ctl1 &&& 0xFC = s.reg.ctl1 &&& 0xFE &&& 0xFD := by rw [BitVec.and_assoc]; rfl
  rw [hst, hctl1]
  rfl

theorem afterWrite_ctl2 (s : State) (w : Byte) :
    afterWrite s .ctl2 w = if s.reg.ctl2.getLsbD 0 = true ∧ w.getLsbD 0 = false then
        moduleDisable (s.withReg { s.reg with ctl2 := w })
      else s.withReg { s.reg with ctl2 := w } := by
  have hcond : (s.flag .enable && !Flag.isSet .enable w) = true ↔ s.reg.ctl2.getLsbD 0 = true ∧ w.getLsbD 0 = false := by
    rw [Bool.and_eq_true, Bool.not_eq_true']; rfl
  show writeCtl2 s w = _
  unfold writeCtl2
  rw [writeStorage_ctl2]
  exact if_congr hcond rfl rfl

/-- Settles O18: the module is disabled by a write that changes `ENABLE` from 1 to 0, and by no other. -/
theorem regWriteEnable : Obligations.RegWriteEnable := by
  intro v w s u hu hw
  rw [execRegWrite_eq (r := .ctl2) rfl hw hu, afterWrite_ctl2]
  by_cases hc : u.reg.ctl2.getLsbD 0 = true ∧ w.getLsbD 0 = false
  · rw [if_pos hc, if_pos hc, moduleDisable_eq]; rfl
  · rw [if_neg hc, if_neg hc]; rfl

end Sys2Proof.Machine
end

section
/-! PROOFS. Decoder and encoder are inverse to each other, the rows of the opcode table are disjoint and complete, and a list of
words that ends inside a command is refused (30_encoding.md R64 to R79). -/

namespace Sys2Proof

/-! ## Decoding an encoded instruction -/

/-- The first word of an encoded instruction tells how many words there are (R79). -/
theorem encode_cmdLength {i : Instr} (h : i.wf = true) : ∃ w rest, encode i = w :: rest ∧ cmdLength w = rest.length + 1 := by
  cases i with
  | regRead reg => exact Laws.EncodeLength.regRead reg h
  | regWrite reg d => exact Laws.EncodeLength.regWrite reg d h
  | regSet reg d => exact Laws.EncodeLength.regSet reg d h
  | regClr reg d => exact Laws.EncodeLength.regClr reg d h
  | init m => exact Laws.EncodeLength.init m h
  | setSpeed f => exact Laws.EncodeLength.setSpeed f h
  | sendStart t => exact Laws.EncodeLength.sendStart t h
  | sendStop t => exact Laws.EncodeLength.sendStop t h
  | sendAddress st b => exact Laws.EncodeLength.sendAddress st b h
  | pollDataReady t => exact Laws.EncodeLength.pollDataReady t h
  | pollAckCleared t => exact Laws.EncodeLength.pollAckCleared t h
  | sendByte b => exact Laws.EncodeLength.sendByte b h
  | recvByte f => exact Laws.EncodeLength.recvByte f h
  | recvLast f => exact Laws.EncodeLength.recvLast f h
  | read a l b => exact Laws.EncodeLength.read a l b h
  | write a l b => exact Laws.EncodeLength.write a l b h
  | exchange ms => exact Laws.EncodeLength.exchange ms h
  | recover a => exact Laws.EncodeLength.recover a h
  | ctrlReset => exact Laws.EncodeLength.ctrlReset h
  | dump => exact Laws.EncodeLength.dump h

/-- The COUNT of an encoded EXCHANGE is its number of messages, as long as that fits the field (R73). -/
theorem countField_wordB {n : Nat} (h : n ≤ maxMessages) : countField (wordB .exchange (BitVec.ofNat 8 n)) = n := by
  rw [countField, byte_wordB, BitVec.toNat_ofNat, Nat.mod_eq_of_lt (by rw [maxMessages] at h; omega)]

/-- The first word of an encoded instruction selects a row, and that row's operands, read from the words, give the instruction
back (R76, R77). -/
theorem encode_selects_operands {i : Instr} (h : i.wf = true) (rest : List Word) :
    ∃ o w tail, encode i = w :: tail ∧ o.selects w = true ∧ decodeOperands o w (tail ++ rest) = some i := by
  cases i with
  | regRead reg => exact ⟨.regRead, _, _, rfl, selects_regRead reg, by rw [decodeOperands, reg_wordR]⟩
  | regWrite reg d =>
    exact ⟨.regWrite, _, _, rfl, selects_wordR _ (by decide) reg d, by rw [decodeOperands, reg_wordR, data_wordR]⟩
  | regSet reg d =>
    exact ⟨.regSet, _, _, rfl, selects_wordR _ (by decide) reg d, by rw [decodeOperands, reg_wordR, data_wordR]⟩
  | regClr reg d =>
    exact ⟨.regClr, _, _, rfl, selects_wordR _ (by decide) reg d, by rw [decodeOperands, reg_wordR, data_wordR]⟩
  | init m => exact ⟨.init, _, _, rfl, selects_wordB _ (by decide) m, by rw [decodeOperands, byte_wordB]⟩
  | setSpeed f => exact ⟨.setSpeed, _, _, rfl, selects_wordT _ (by decide) f, by rw [decodeOperands, value_wordT]⟩
  | sendStart t => exact ⟨.sendStart, _, _, rfl, selects_wordT _ (by decide) t, by rw [decodeOperands, value_wordT]⟩
  | sendStop t => exact ⟨.sendStop, _, _, rfl, selects_wordT _ (by decide) t, by rw [decodeOperands, value_wordT]⟩
  | sendAddress st b =>
    exact ⟨.sendAddress, _, _, rfl, selects_wordA st b, by rw [decodeOperands, stall_wordA, byte_wordA]⟩
  | pollDataReady t => exact ⟨.pollDataReady, _, _, rfl, selects_wordT _ (by decide) t, by rw [decodeOperands, value_wordT]⟩
  | pollAckCleared t => exact ⟨.pollAckCleared, _, _, rfl, selects_wordT _ (by decide) t, by rw [decodeOperands, value_wordT]⟩
  | sendByte b => exact ⟨.sendByte, _, _, rfl, selects_wordB _ (by decide) b, by rw [decodeOperands, byte_wordB]⟩
  | recvByte f => exact ⟨.recvByte, _, _, rfl, selects_wordN _ (by decide) f, by rw [decodeOperands, flag_wordN]⟩
  | recvLast f => exact ⟨.recvLast, _, _, rfl, selects_wordN _ (by decide) f, by rw [decodeOperands, flag_wordN]⟩
  | read a l b =>
    exact ⟨.read, _, _, rfl, selects_wordM _ (by decide) a l, by rw [decodeOperands, addr_wordM, len_wordM]; rfl⟩
  | write a l b =>
    exact ⟨.write, _, _, rfl, selects_wordM _ (by decide) a l, by rw [decodeOperands, addr_wordM, len_wordM]; rfl⟩
  | exchange ms =>
    refine ⟨.exchange, _, _, rfl, selects_wordB _ (by decide) _, ?_⟩
    rw [decodeOperands, countField_wordB (of_decide_eq_true h), decodeDescriptors_encode]
    rfl
  | recover a => exact ⟨.recover, _, _, rfl, selects_wordV a, by rw [decodeOperands, addr_wordV]⟩
  | ctrlReset => exact ⟨.ctrlReset, _, _, rfl, selects_wordZ _ (by decide), rfl⟩
  | dump => exact ⟨.dump, _, _, rfl, selects_wordZ _ (by decide), rfl⟩

/-- Settles O2: the first word selects its row, tells the length, and the row's operands are those encoded. -/
theorem decodeEncodeAgree : Obligations.DecodeEncodeAgree := by
  intro i rest h
  obtain ⟨w, tail, he, hlen⟩ := encode_cmdLength h
  obtain ⟨o, w', tail', he', hsel, hops⟩ := encode_selects_operands h rest
  cases he.symm.trans he'
  have hfit : cmdLength w ≤ (tail ++ rest).length + 1 := by rw [hlen, List.length_append]; omega
  rw [he, List.cons_append, decode_of_selects hsel hfit hops, hlen, List.length_cons]

/-! ## Encoding a decoded command -/

/-- A field the row's mask covers has the row's own bits (R76). -/
theorem field_of_selects {o : Opcode} {w : Word} (h : o.selects w = true) {start len : Nat}
    (hmask : o.mask.extractLsb' start len = BitVec.allOnes len) :
    w.extractLsb' start len = o.pattern.extractLsb' start len := by
  rw [Opcode.selects, beq_iff_eq] at h
  rw [← h, BitVec.extractLsb'_and, hmask, BitVec.and_allOnes]

/-- A must-be-zero field of a word that selects the row is 0 (R64, R76). -/
theorem zero_of_selects {o : Opcode} {w : Word} (h : o.selects w = true) {start len : Nat}
    (hmask : o.mask.extractLsb' start len = BitVec.allOnes len) (hzero : o.pattern.extractLsb' start len = 0#len) :
    0#len = w.extractLsb' start len :=
  ((field_of_selects h hmask).trans hzero).symm

theorem ofBool_getLsbD (w : Word) (k : Nat) : BitVec.ofBool (w.getLsbD k) = w.extractLsb' k 1 := by
  apply BitVec.eq_of_getLsbD_eq
  intro j hj
  obtain rfl : j = 0 := by omega
  simp

/-- Neighbouring fields of a word, read together. -/
theorem join_fields (w : Word) (start m n : Nat) :
    w.extractLsb' (start + n) m ++ w.extractLsb' start n = w.extractLsb' start (m + n) :=
  BitVec.extractLsb'_append_extractLsb'_eq_extractLsb' rfl

/-! A word that selects a row is the one that the row's format builds from the fields of the word, as soon as the fields
which the format holds at 0 are 0 in the word. -/

section Words
variable {o : Opcode} {w : Word}

/-- Format R (R65). -/
theorem wordR_fields (h : o.selects w = true) (h20 : 0#4 = w.extractLsb' 20 4) (h8 : 0#8 = w.extractLsb' 8 8) :
    wordR o (w.extractLsb' 16 4) (w.extractLsb' 0 8) = w := by
  rw [wordR, ← opc_of_selects h, opc, h20, h8, join_fields w 20 8 4, join_fields w 16 12 4, join_fields w 8 16 8,
    join_fields w 0 24 8]
  exact BitVec.extractLsb'_eq_self

/-- Formats I, B and the first word of X (R66, R70, R73). -/
theorem wordB_fields (h : o.selects w = true) (h8 : 0#16 = w.extractLsb' 8 16) : wordB o (w.extractLsb' 0 8) = w := by
  rw [wordB, ← opc_of_selects h, opc, h8, join_fields w 8 8 16, join_fields w 0 24 8]
  exact BitVec.extractLsb'_eq_self

/-- Formats F and T (R67, R68). -/
theorem wordT_fields (h : o.selects w = true) : wordT o (w.extractLsb' 0 24) = w := by
  rw [wordT, ← opc_of_selects h, opc, join_fields w 0 8 24]
  exact BitVec.extractLsb'_eq_self

/-- Format A (R69). -/
theorem wordA_fields (h : o.selects w = true) (h9 : 0#15 = w.extractLsb' 9 15) :
    wordA o (w.getLsbD 8) (w.extractLsb' 0 8) = w := by
  rw [wordA, ← opc_of_selects h, opc, h9, ofBool_getLsbD, join_fields w 9 8 15, join_fields w 8 23 1, join_fields w 0 24 8]
  exact BitVec.extractLsb'_eq_self

/-- Format N (R71). -/
theorem wordN_fields (h : o.selects w = true) (h1 : 0#23 = w.extractLsb' 1 23) : wordN o (w.getLsbD 0) = w := by
  rw [wordN, ← opc_of_selects h, opc, h1, ofBool_getLsbD, join_fields w 1 8 23, join_fields w 0 31 1]
  exact BitVec.extractLsb'_eq_self

/-- The first word of format M (R72). -/
theorem wordM_fields (h : o.selects w = true) (h23 : 0#1 = w.extractLsb' 23 1) :
    wordM o (w.extractLsb' 16 7) (w.extractLsb' 0 16) = w := by
  rw [wordM, ← opc_of_selects h, opc, h23, join_fields w 23 8 1, join_fields w 16 9 7, join_fields w 0 16 16]
  exact BitVec.extractLsb'_eq_self

/-- Format V (R74). -/
theorem wordV_fields (h : o.selects w = true) (h23 : 0#1 = w.extractLsb' 23 1) (h0 : 0#16 = w.extractLsb' 0 16) :
    wordV o (w.extractLsb' 16 7) = w := by
  rw [wordV, ← opc_of_selects h, opc, h23, h0, join_fields w 23 8 1, join_fields w 16 9 7, join_fields w 0 16 16]
  exact BitVec.extractLsb'_eq_self

/-- Format Z (R75). -/
theorem wordZ_fields (h : o.selects w = true) (h0 : 0#24 = w.extractLsb' 0 24) : wordZ o = w := by
  rw [wordZ, ← opc_of_selects h, opc, h0, join_fields w 0 8 24]
  exact BitVec.extractLsb'_eq_self

end Words

/-- The two words of a descriptor that is read are the encoding of its message (R73). -/
theorem encodeMessage_of_decodeDescriptor {w w1 : Word} {m : Message} (h : decodeDescriptor w w1 = some m) :
    encodeMessage m = [w, w1] := by
  unfold decodeDescriptor at h
  split at h
  case isTrue hr =>
    cases h
    exact congrArg (fun v => [v, w1]) (wordM_fields hr (zero_of_selects hr rfl rfl))
  case isFalse =>
    split at h
    case isTrue hw =>
      cases h
      exact congrArg (fun v => [v, w1]) (wordM_fields hw (zero_of_selects hw rfl rfl))
    case isFalse => cases h

/-- The descriptors that are read are as many as asked for, and their words are the encoding of the messages (R73). -/
theorem encode_of_decodeDescriptors {n : Nat} {ws : List Word} {ms : List Message} (h : decodeDescriptors n ws = some ms) :
    ms.length = n ∧ ms.flatMap encodeMessage = ws.take (2 * n) := by
  induction n, ws using decodeDescriptors.induct generalizing ms with
  | case1 ws => cases h; exact ⟨rfl, rfl⟩
  | case2 n w w1 rest ms' m hms hm ih =>
    rw [decodeDescriptors, hm, hms] at h
    cases h
    obtain ⟨hlen, hwords⟩ := ih hms
    refine ⟨congrArg (· + 1) hlen, ?_⟩
    rw [List.flatMap_cons, encodeMessage_of_decodeDescriptor hm, hwords]
    rfl
  | case3 n w w1 rest hnone =>
    rw [decodeDescriptors] at h
    split at h
    case h_1 m ms' hm hms => exact (hnone m ms' hm hms).elim
    case h_2 => cases h
  | case4 n ws hshort =>
    rw [decodeDescriptors] at h
    · cases h
    · exact hshort

/-- What a complete command that is accepted was read from: its first word selects a row, and that row's operands are the
instruction's (R76, R77). -/
theorem decode_command {ws : List Word} {i : Instr} {n : Nat} (h : decode ws = .command i n) :
    ∃ o w rest, ws = w :: rest ∧ n = cmdLength w ∧ cmdLength w ≤ rest.length + 1 ∧ o.selects w = true ∧
      decodeOperands o w rest = some i := by
  cases ws with
  | nil => cases h
  | cons w rest =>
    unfold decode at h
    dsimp only at h
    split at h
    case isTrue => cases h
    case isFalse hlen =>
      unfold decodeWhole at h
      split at h
      case h_1 => cases h
      case h_2 o ho =>
        split at h
        case isFalse => cases h
        case isTrue hsel =>
          split at h
          case h_2 => cases h
          case h_1 i' hi =>
            cases h
            exact ⟨o, w, rest, rfl, rfl, Nat.le_of_not_lt hlen, hsel, hi⟩

/-- The words of a one-word command. -/
theorem singleton_eq_take_cmdLength {w v : Word} (rest : List Word) (hlen : cmdLength w = 1) (hv : v = w) :
    [v] = (w :: rest).take (cmdLength w) := by
  rw [hlen, hv]
  rfl

/-- The words of a complete two-word command, with the second as READ and WRITE take it (R72). -/
theorem pair_eq_take_cmdLength {w v : Word} {rest : List Word} (hlen : cmdLength w = 2)
    (hfit : cmdLength w ≤ rest.length + 1) (hv : v = w) :
    [v, rest.headD 0] = (w :: rest).take (cmdLength w) := by
  rw [hlen] at hfit ⊢
  cases rest with
  | nil => simp at hfit
  | cons w1 rest => rw [hv]; rfl

theorem countField_le (w : Word) : countField w ≤ maxMessages :=
  Nat.le_of_lt_succ (w.extractLsb' 0 8).isLt

/-- An EXCHANGE: its first word holds the number of its messages, and its other words are their descriptors (R73). -/
theorem encode_exchange_fields {w : Word} {rest : List Word} {ms : List Message} (h : Opcode.exchange.selects w = true)
    (hms : decodeDescriptors (countField w) rest = some ms) :
    (Instr.exchange ms).wf = true ∧ encode (.exchange ms) = (w :: rest).take (cmdLength w) := by
  obtain ⟨hlen, hwords⟩ := encode_of_decodeDescriptors hms
  have hcount : BitVec.ofNat 8 ms.length = w.extractLsb' 0 8 := by rw [hlen, countField, BitVec.ofNat_toNat, BitVec.setWidth_eq]
  refine ⟨decide_eq_true (hlen ▸ countField_le w), ?_⟩
  rw [encode, hcount, wordB_fields h (zero_of_selects h rfl rfl), hwords, cmdLength_exchange (opc_of_selects h), Nat.add_comm 1,
    List.take_succ_cons]

/-- The operands a row reads from a complete command are a well-formed instruction, whose encoding is the command's words. -/
theorem encode_of_operands {o : Opcode} {w : Word} {rest : List Word} {i : Instr} (h : o.selects w = true)
    (hfit : cmdLength w ≤ rest.length + 1) (hi : decodeOperands o w rest = some i) :
    i.wf = true ∧ encode i = (w :: rest).take (cmdLength w) := by
  have hone : o ≠ .read ∧ o ≠ .write ∧ o ≠ .exchange → cmdLength w = 1 := fun ⟨hr, hw, hx⟩ =>
    cmdLength_one (opc_of_selects h) hr hw hx
  cases o with
  | regRead =>
    cases hi
    refine ⟨rfl, singleton_eq_take_cmdLength rest (hone (by decide)) ?_⟩
    rw [show (0 : Byte) = w.extractLsb' 0 8 from zero_of_selects h rfl rfl]
    exact wordR_fields h (zero_of_selects h rfl rfl) (zero_of_selects h rfl rfl)
  | regWrite | regSet | regClr =>
    cases hi
    exact ⟨rfl, singleton_eq_take_cmdLength rest (hone (by decide))
      (wordR_fields h (zero_of_selects h rfl rfl) (zero_of_selects h rfl rfl))⟩
  | init | sendByte =>
    cases hi
    exact ⟨rfl, singleton_eq_take_cmdLength rest (hone (by decide)) (wordB_fields h (zero_of_selects h rfl rfl))⟩
  | setSpeed | sendStart | sendStop | pollDataReady | pollAckCleared =>
    cases hi
    exact ⟨rfl, singleton_eq_take_cmdLength rest (hone (by decide)) (wordT_fields h)⟩
  | sendAddress =>
    cases hi
    exact ⟨rfl, singleton_eq_take_cmdLength rest (hone (by decide)) (wordA_fields h (zero_of_selects h rfl rfl))⟩
  | recvByte | recvLast =>
    cases hi
    exact ⟨rfl, singleton_eq_take_cmdLength rest (hone (by decide)) (wordN_fields h (zero_of_selects h rfl rfl))⟩
  | read =>
    cases hi
    exact ⟨rfl, pair_eq_take_cmdLength (cmdLength_read (opc_of_selects h)) hfit (wordM_fields h (zero_of_selects h rfl rfl))⟩
  | write =>
    cases hi
    exact ⟨rfl, pair_eq_take_cmdLength (cmdLength_write (opc_of_selects h)) hfit (wordM_fields h (zero_of_selects h rfl rfl))⟩
  | exchange =>
    obtain ⟨ms, hms, rfl⟩ := Option.map_eq_some_iff.1 hi
    exact encode_exchange_fields h hms
  | recover =>
    cases hi
    exact ⟨rfl, singleton_eq_take_cmdLength rest (hone (by decide))
      (wordV_fields h (zero_of_selects h rfl rfl) (zero_of_selects h rfl rfl))⟩
  | ctrlReset | dump =>
    cases hi
    exact ⟨rfl, singleton_eq_take_cmdLength rest (hone (by decide)) (wordZ_fields h (zero_of_selects h rfl rfl))⟩

/-- Settles O3: the accepted words are the row's own bits and the fields the row reads, and the encoder puts both back. -/
theorem encodeDecodeAgree : Obligations.EncodeDecodeAgree := by
  intro ws i n h
  obtain ⟨o, w, rest, rfl, rfl, hfit, hsel, hi⟩ := decode_command h
  obtain ⟨hwf, hwords⟩ := encode_of_operands hsel hfit hi
  exact ⟨hwf, hfit, hwords⟩

/-! ## The rows of the opcode table -/

theorem decode_of_complete {w : Word} {rest : List Word} (hfit : cmdLength w ≤ rest.length + 1) :
    decode (w :: rest) = decodeWhole w rest := if_neg (Nat.not_lt.2 hfit)

/-- A complete command whose first word matches no row is refused for its opcode or for its must-be-zero bits (R78). -/
theorem decode_of_no_row {w : Word} {rest : List Word} (hfit : cmdLength w ≤ rest.length + 1)
    (h : ∀ o : Opcode, o.selects w = false) :
    ∃ why, decode (w :: rest) = .illegal why (cmdLength w) ∧ why ≠ .badDescriptor := by
  rw [decode_of_complete hfit, decodeWhole]
  cases Opcode.ofCode (opc w) with
  | none => exact ⟨_, rfl, nofun⟩
  | some o => exact ⟨.mustBeZero o, by dsimp only; rw [h o]; rfl, nofun⟩

/-- A complete command whose first word selects a row can be refused for a descriptor only (R78). -/
theorem illegal_of_selects {o : Opcode} {w : Word} {rest : List Word} {why : Illegal} {n : Nat} (h : o.selects w = true)
    (hfit : cmdLength w ≤ rest.length + 1) (hill : decode (w :: rest) = .illegal why n) : why = .badDescriptor := by
  cases hi : decodeOperands o w rest with
  | some i =>
    rw [decode_of_selects h hfit hi] at hill
    cases hill
  | none =>
    rw [decode_of_complete hfit, decodeWhole, opc_of_selects h, Opcode.ofCode_code] at hill
    dsimp only at hill
    rw [if_pos h, hi] at hill
    cases hill
    rfl

/-- Settles O4: the mask of each row covers `OPC`, so rows are disjoint; the decoder looks at the one row with the word's `OPC`. -/
theorem rowsDisjointAndComplete : Obligations.RowsDisjointAndComplete := by
  refine ⟨fun w o p ho hp => selects_unique ho hp, fun w rest hfit => ⟨decode_of_no_row hfit, ?_⟩⟩
  rintro ⟨why, hill, hwhy⟩ o
  by_contra hsel
  exact hwhy (illegal_of_selects (Bool.eq_true_of_not_eq_false hsel) hfit hill)

/-! ## Lengths and truncated lists of words -/

theorem opc_toNat (w : Word) : (opc w).toNat = w.toNat / 2 ^ 24 := by
  rw [opc, BitVec.extractLsb'_toNat, Nat.shiftRight_eq_div_pow]
  exact Nat.mod_eq_of_lt (by have := w.isLt; omega)

theorem opc_eq_iff (w : Word) (c : BitVec 8) : opc w = c ↔ w.toNat / 2 ^ 24 = c.toNat := by
  rw [← opc_toNat, BitVec.toNat_inj]

theorem countField_eq (w : Word) : countField w = w.toNat % 256 := by
  rw [countField, BitVec.extractLsb'_toNat]
  rfl

/-- The length of a command by the bits of its first word (R79). -/
theorem cmdLength_eq (w : Word) : cmdLength w =
    if w.toNat / 2 ^ 24 = 0x30 ∨ w.toNat / 2 ^ 24 = 0x31 then 2
    else if w.toNat / 2 ^ 24 = 0x32 then 1 + 2 * (w.toNat % 256) else 1 := by
  have hread : opc w = Opcode.read.code ↔ w.toNat / 2 ^ 24 = 0x30 := opc_eq_iff w _
  have hwrite : opc w = Opcode.write.code ↔ w.toNat / 2 ^ 24 = 0x31 := opc_eq_iff w _
  have hexchange : opc w = Opcode.exchange.code ↔ w.toNat / 2 ^ 24 = 0x32 := opc_eq_iff w _
  simp only [cmdLength, hread, hwrite, hexchange, countField_eq]
  split_ifs <;> omega

/-- Settles O6: a program is taken command by command, each of the length its first word tells, and the step looks at that
before it decodes. -/
theorem truncatedProgramRefused : Obligations.TruncatedProgramRefused := by
  refine ⟨rfl, fun w rest => ?_, cmdLength_eq, fun s hs => ?_⟩
  · obtain ⟨k, hk⟩ : ∃ k, cmdLength w = k + 1 := Nat.exists_eq_succ_of_ne_zero (cmdLength_pos w).ne'
    rw [wholeProgram_cons, Bool.and_eq_true, decide_eq_true_iff, hk]
    rfl
  · have hpending : wholeProgram s.pending = false := hs
    unfold Machine.step Machine.runNext
    rw [hpending]
    rfl

end Sys2Proof
end

section
/-! PROOFS. The register commands: a `REG` above 10 is refused, the rest cannot fail, REG_SET and REG_CLR are a read and then a
write, and the registers whose access has no side effect (40_register_access.md R81 to R86, 20_memory.md R56, R57). -/

namespace Sys2Proof.Machine

/-! ## Which `REG` names a register (10_state.md R20) -/

theorem RegId.ofBits_of_le {reg : BitVec 4} (h : reg.toNat ≤ 10) : ∃ r, RegId.ofBits reg = some r := by
  rw [← Option.isSome_iff_exists]
  revert reg
  decide

theorem RegId.ofBits_of_gt {reg : BitVec 4} (h : 11 ≤ reg.toNat) : RegId.ofBits reg = none := by
  revert reg
  decide

/-- A `REG` that names no register ends the command with `InvalidArgument` and no access (R81). -/
theorem runBody_onRegister_none {reg : BitVec 4} (hr : RegId.ofBits reg = none) (body : RegId → Op Kind) (s : State) :
    runBody (onRegister reg body) s = .next (s.endedWith 7) := by
  unfold onRegister
  rw [hr]
  rfl

/-! ## Commands that begin with the host's read -/

section ReadFirst
variable {reg : BitVec 4} {r : RegId} {s t : State} {c : Byte} {e : Refusal}

theorem execRegRead_of_hostRd (hr : RegId.ofBits reg = some r) (h : hostRd r s = .ok (c, t)) :
    exec (.regRead reg) s = .next (t.withX { t.x with rdata := c, result := 0 }) := by
  have hbody : onRegister reg regReadBody s = .ok (.ok, t.withX { t.x with rdata := c }) := by
    rw [onRegister_some hr]
    exact Op.bind_eq h
  exact runBody_eq hbody

/-- After the host's read the rest of the body runs. -/
theorem runBody_onRegister_of_hostRd (hr : RegId.ofBits reg = some r) (h : hostRd r s = .ok (c, t))
    (rest : RegId → Byte → Op Kind) :
    runBody (onRegister reg (fun q => hostRd q >>= rest q)) s = runBody (onRegister reg (fun q => rest q c)) t := by
  rw [onRegister_some hr, onRegister_some hr]
  unfold runBody
  rw [Op.bind_eq h]

/-- Where the host's read is refused, so is the command. -/
theorem runBody_onRegister_of_hostRd_error (hr : RegId.ofBits reg = some r) (h : hostRd r s = .error e)
    (rest : RegId → Byte → Op Kind) : runBody (onRegister reg (fun q => hostRd q >>= rest q)) s = .refused e := by
  rw [onRegister_some hr]
  unfold runBody
  rw [Op.bind_run, h]

/-- REG_SET is a read and then a write (R84). -/
theorem execRegSet_of_hostRd (hr : RegId.ofBits reg = some r) (h : hostRd r s = .ok (c, t)) (d : Byte) :
    exec (.regSet reg d) s = exec (.regWrite reg (c ||| d)) t :=
  runBody_onRegister_of_hostRd hr h (fun q c => regWriteBody (c ||| d) q)

/-- REG_CLR is a read and then a write (R85). -/
theorem execRegClr_of_hostRd (hr : RegId.ofBits reg = some r) (h : hostRd r s = .ok (c, t)) (d : Byte) :
    exec (.regClr reg d) s = exec (.regWrite reg (c &&& ~~~d)) t :=
  runBody_onRegister_of_hostRd hr h (fun q c => regWriteBody (c &&& ~~~d) q)

theorem execRegRead_of_hostRd_error (hr : RegId.ofBits reg = some r) (h : hostRd r s = .error e) :
    exec (.regRead reg) s = .refused e :=
  runBody_onRegister_of_hostRd_error hr h (fun _ c => do setRdata c; pure .ok)

theorem execRegSet_of_hostRd_error (hr : RegId.ofBits reg = some r) (h : hostRd r s = .error e) (d : Byte) :
    exec (.regSet reg d) s = .refused e :=
  runBody_onRegister_of_hostRd_error hr h (fun q c => regWriteBody (c ||| d) q)

theorem execRegClr_of_hostRd_error (hr : RegId.ofBits reg = some r) (h : hostRd r s = .error e) (d : Byte) :
    exec (.regClr reg d) s = .refused e :=
  runBody_onRegister_of_hostRd_error hr h (fun q c => regWriteBody (c &&& ~~~d) q)

end ReadFirst

/-! ## The host's read, in every environment -/

theorem hostRd_seq (r : RegId) : Op.Keeps SeqFrame (hostRd r) :=
  Op.Keeps.bind SeqFrame.along (rd_seq r) (fun _ => Op.Keeps.bind SeqFrame.along
    (fun s _ _ e => by cases e; exact SeqFrame.along.refl s) (fun _ => Op.Keeps.pure SeqFrame.along _))

theorem hostRd_ends (r : RegId) : Op.Ends (hostRd r) :=
  .bind (.rd r) (fun _ => .bind .getCfg (fun _ => .pure _))

/-! ## Register commands cannot fail -/

theorem OuterFrame.host {s t : State} (h : OuterFrame s t) : HostFrame s t :=
  ⟨fun a => by rw [h.buf], h.log, h.program, h.cp, h.cfg, h.initialised, h.pinmux⟩

/-- A register command has ended with `OK`, with `PHASE`, `STARTED` and what the host owns as they were (R81). -/
structure RegisterDone (s t : State) : Prop where
  result : t.x.result = 0
  chain : SameChain s t
  outer : OuterFrame s t

/-- Accesses, and then `OK` in `x[RESULT]`. -/
theorem RegisterDone.of_seq {s u : State} {x : SeqRegs} (h : SeqFrame s u) (hx : SameChain u (u.withX x)) (hres : x.result = 0) :
    RegisterDone s (u.withX x) :=
  ⟨hres, SameChain.along.trans h.chain hx, OuterFrame.along.trans h.outer (.withX u x)⟩

theorem RegisterDone.after {s u t : State} (h : RegisterDone u t) (hs : SeqFrame s u) : RegisterDone s t :=
  ⟨h.result, SameChain.along.trans hs.chain h.chain, OuterFrame.along.trans hs.outer h.outer⟩

section CannotFail
variable {reg : BitVec 4} {r : RegId} {s : State} (hr : RegId.ofBits reg = some r) (hp : s.polled)
include hr hp

theorem execRegRead_done : ∃ t, exec (.regRead reg) s = .next t ∧ RegisterDone s t := by
  obtain ⟨c, u, hu, -⟩ := hostRd_ends r s hp
  exact ⟨_, execRegRead_of_hostRd hr hu, .of_seq (hostRd_seq r s c u hu) ⟨rfl, rfl⟩ rfl⟩

theorem execRegWrite_done (d : Byte) : ∃ t, exec (.regWrite reg d) s = .next t ∧ RegisterDone s t := by
  obtain ⟨u, hu⟩ := lePoint_polled hp
  have hbody := regWriteBody_eq hu r d
  rw [← onRegister_some hr (regWriteBody d)] at hbody
  have hseq : SeqFrame s _ := SeqFrame.along.trans (lePoint_frame hu).seq
    ((afterWrite_frame u r (fieldByte s.cfg.layout r d)).trans (.pushAcc _ (.wr r (fieldByte s.cfg.layout r d)))).seq
  exact ⟨_, runBody_eq hbody, .of_seq hseq ⟨rfl, rfl⟩ rfl⟩

/-- The read ends in a polled state, so the write after it ends too. -/
theorem execRegSet_done (d : Byte) : ∃ t, exec (.regSet reg d) s = .next t ∧ RegisterDone s t := by
  obtain ⟨c, u, hu, hup⟩ := hostRd_ends r s hp
  obtain ⟨t, ht, hdone⟩ := execRegWrite_done hr hup (c ||| d)
  exact ⟨t, (execRegSet_of_hostRd hr hu d).trans ht, hdone.after (hostRd_seq r s c u hu)⟩

theorem execRegClr_done (d : Byte) : ∃ t, exec (.regClr reg d) s = .next t ∧ RegisterDone s t := by
  obtain ⟨c, u, hu, hup⟩ := hostRd_ends r s hp
  obtain ⟨t, ht, hdone⟩ := execRegWrite_done hr hup (c &&& ~~~d)
  exact ⟨t, (execRegClr_of_hostRd hr hu d).trans ht, hdone.after (hostRd_seq r s c u hu)⟩

end CannotFail

/-- Settles O12: no register, no access; otherwise each command is its accesses, which end while polled, and then `OK`. -/
theorem registerCommandsCannotFail : Obligations.RegisterCommandsCannotFail := by
  intro reg d i s hi
  refine ⟨fun hreg => ?_, fun hreg hp => ?_⟩
  · have hnone := RegId.ofBits_of_gt hreg
    obtain rfl | rfl | rfl | rfl := hi
    · exact runBody_onRegister_none hnone regReadBody s
    · exact runBody_onRegister_none hnone (regWriteBody d) s
    · exact runBody_onRegister_none hnone (regSetBody d) s
    · exact runBody_onRegister_none hnone (regClrBody d) s
  · obtain ⟨r, hr⟩ := RegId.ofBits_of_le hreg
    have hdone : ∃ t, exec i s = .next t ∧ RegisterDone s t := by
      obtain rfl | rfl | rfl | rfl := hi
      · exact execRegRead_done hr hp
      · exact execRegWrite_done hr hp d
      · exact execRegSet_done hr hp d
      · exact execRegClr_done hr hp d
    obtain ⟨t, ht, h⟩ := hdone
    exact ⟨t, ht, h.result, h.chain.phase, h.chain.started, h.outer.host⟩

/-! ## REG_SET and REG_CLR from REG_READ and REG_WRITE (R84, R85) -/

section FromRead
variable {reg : BitVec 4} {r : RegId} {s : State}

/-- The host's read is what REG_READ does before it writes `x[RDATA]` and `x[RESULT]`. -/
theorem hostRd_of_execRegRead {q : State} (hr : RegId.ofBits reg = some r) (h : exec (.regRead reg) s = .next q) :
    hostRd r s = .ok (q.x.rdata, { q with x := s.x }) := by
  cases hrd : hostRd r s with
  | error e => cases (execRegRead_of_hostRd_error hr hrd).symm.trans h
  | ok p =>
    obtain ⟨c, t⟩ := p
    cases (execRegRead_of_hostRd hr hrd).symm.trans h
    rw [← (hostRd_seq r s c t hrd).x]
    rfl

theorem hostRd_of_execRegRead_refused {e : Refusal} (hr : RegId.ofBits reg = some r)
    (h : exec (.regRead reg) s = .refused e) : hostRd r s = .error e := by
  cases hrd : hostRd r s with
  | error e' => cases (execRegRead_of_hostRd_error hr hrd).symm.trans h; rfl
  | ok p => cases (execRegRead_of_hostRd hr hrd).symm.trans h

end FromRead

/-- Settles O20: the commands begin with the read that REG_READ makes, and the rest of each is a REG_WRITE. -/
theorem setAndClearAreReadThenWrite : Obligations.SetAndClearAreReadThenWrite := by
  intro reg d s hreg
  obtain ⟨r, hr⟩ := RegId.ofBits_of_le hreg
  refine ⟨fun q hq => ?_, fun e he => ?_, fun hp => ?_⟩
  · have hrd := hostRd_of_execRegRead hr hq
    exact ⟨execRegSet_of_hostRd hr hrd d, execRegClr_of_hostRd hr hrd d⟩
  · have hrd := hostRd_of_execRegRead_refused hr he
    exact ⟨execRegSet_of_hostRd_error hr hrd d, execRegClr_of_hostRd_error hr hrd d⟩
  · obtain ⟨q, hq, -⟩ := execRegRead_done hr hp
    obtain ⟨t, ht, -⟩ := execRegSet_done hr hp d
    obtain ⟨v, hv, -⟩ := execRegClr_done hr hp d
    exact ⟨q, t, v, hq, ht, hv⟩

/-! ## Registers whose access has no side effect (20_memory.md R56, R57) -/

theorem execRegRead_stored {reg : BitVec 4} {r : RegId} {b : Byte} {s u : State} (hr : RegId.ofBits reg = some r)
    (hu : lePoint s = .ok u) (hafter : afterRead u r = u) (hb : readValue u r = b) :
    exec (.regRead reg) s = .next { u with
      x := { u.x with rdata := hostByte s.cfg.layout r b, result := 0 }, acc := u.acc ++ [.rd r b] } := by
  rw [execRegRead_eq hr hu, hafter, hb]
  rfl

theorem execRegWrite_stored {reg : BitVec 4} {r : RegId} {v w : Byte} {s u : State} {h : HwRegs}
    (hr : RegId.ofBits reg = some r) (hw : w = fieldByte s.cfg.layout r v) (hu : lePoint s = .ok u)
    (hafter : afterWrite u r w = u.withReg h) : exec (.regWrite reg v) s = .next (u.ended h [.wr r w]) := by
  rw [execRegWrite_eq hr hw hu, hafter]
  rfl

/-- All eight bits of `CTL3` are stored. -/
theorem afterWrite_ctl3 (s : State) (w : Byte) : afterWrite s .ctl3 w = s.withReg { s.reg with ctl3 := w } := by
  show s.withReg { s.reg with ctl3 := w &&& BitVec.allOnes 8 } = _
  rw [BitVec.and_allOnes]

/-- Settles O13: a layout is a renaming of bits, and each of the nine reads shows the stored bits and changes no register. -/
theorem regReadStored : Obligations.RegReadStored := by
  refine ⟨fun l r v hl => ⟨fieldByte_hostByte hl r v, hostByte_fieldByte hl r v⟩,
    fun r v => ⟨hostByte_default r v, fieldByte_default r v⟩, fun s hs => ?_, fun s u hu p hp => ?_⟩
  · exact hs.elim lePoint_polled (fun hq => ⟨s, lePoint_quiet hq⟩)
  · simp only [List.mem_cons, List.not_mem_nil, or_false] at hp
    obtain rfl | rfl | rfl | rfl | rfl | rfl | rfl | rfl | rfl := hp <;> exact execRegRead_stored rfl hu rfl rfl

/-- Settles O16: each of the eight writes replaces the one register it names, by its access types. -/
theorem regWriteStored : Obligations.RegWriteStored := by
  intro v w s u hu p hp hw
  simp only [List.mem_cons, List.not_mem_nil, or_false] at hp
  obtain rfl | rfl | rfl | rfl | rfl | rfl | rfl | rfl := hp
  pick_goal 4
  · exact execRegWrite_stored rfl hw hu (afterWrite_ctl3 u w)
  all_goals exact execRegWrite_stored rfl hw hu rfl

end Sys2Proof.Machine
end

section
/-! PROOFS. SET_SPEED and INIT (41_clock_and_init.md R87 to R95): the bytes that hold the divider, the two commands in an idle
environment, and why in any environment they do the same to all that the line engine leaves alone. -/

namespace Sys2Proof.Machine

/-! ## The bytes that hold the divider (R92) -/

theorem withDividerLo_eq (c2 : Byte) (div : Nat) :
    withDividerLo c2 div = (c2 &&& 0x01) ||| BitVec.ofNat 8 (2 * (div % 128)) := by
  have hlo : ((BitVec.ofNat 9 div).extractLsb' 0 7).setWidth 8 <<< sclfrqLoShift = BitVec.ofNat 8 (2 * (div % 128)) := by
    apply BitVec.eq_of_toNat_eq
    simp [sclfrqLoShift, Nat.shiftLeft_eq]
    omega
  rw [withDividerLo, hlo]
  rfl

theorem withDividerHi_eq (c3 : Byte) {div : Nat} (h : div ≤ 511) :
    withDividerHi c3 div = (c3 &&& 0xFC) ||| BitVec.ofNat 8 (div / 128) := by
  have hhi : ((BitVec.ofNat 9 div).extractLsb' 7 2).setWidth 8 <<< sclfrqHiShift = BitVec.ofNat 8 (div / 128) := by
    apply BitVec.eq_of_toNat_eq
    simp [sclfrqHiShift, Nat.shiftRight_eq_div_pow]
    omega
  rw [withDividerHi, hhi]
  rfl

theorem withDividerLo_field (c2 : Byte) (div : Nat) :
    (withDividerLo c2 div).extractLsb' 1 7 = (BitVec.ofNat 9 div).extractLsb' 0 7 := by
  unfold withDividerLo
  generalize (BitVec.ofNat 9 div).extractLsb' 0 7 = v
  ext i hi
  interval_cases i <;> simp [sclfrqLoMask, sclfrqLoShift]

theorem withDividerHi_field (c3 : Byte) (div : Nat) :
    (withDividerHi c3 div).extractLsb' 0 2 = (BitVec.ofNat 9 div).extractLsb' 7 2 := by
  unfold withDividerHi
  generalize (BitVec.ofNat 9 div).extractLsb' 7 2 = v
  ext i hi
  interval_cases i <;> simp [sclfrqHiMask, sclfrqHiShift]

theorem withDividerHi_other (c3 : Byte) (div : Nat) : withDividerHi c3 div &&& 0xFC = c3 &&& 0xFC := by
  unfold withDividerHi
  generalize (BitVec.ofNat 9 div).extractLsb' 7 2 = v
  ext i hi
  interval_cases i <;> simp [sclfrqHiMask, sclfrqHiShift]

/-- Putting the divider in keeps `ENABLE`. -/
theorem withDividerLo_enable (c2 : Byte) (div : Nat) : (withDividerLo c2 div).getLsbD 0 = c2.getLsbD 0 := by
  simp [withDividerLo, sclfrqLoMask, sclfrqLoShift]

/-- The two registers recombine to the divider (10_state.md R36). -/
theorem divider_of_fields {h : HwRegs} {div : Nat} (hdiv : div ≤ 511)
    (hlo : h.ctl2.extractLsb' 1 7 = (BitVec.ofNat 9 div).extractLsb' 0 7)
    (hhi : h.ctl3.extractLsb' 0 2 = (BitVec.ofNat 9 div).extractLsb' 7 2) : h.divider.toNat = div := by
  have hjoin : h.divider = BitVec.ofNat 9 div := by
    rw [HwRegs.divider, hlo, hhi]
    exact (BitVec.extractLsb'_append_extractLsb'_eq_extractLsb' rfl).trans BitVec.extractLsb'_eq_self
  rw [hjoin, BitVec.toNat_ofNat]
  omega

/-- Setting `ENABLE` keeps the divider. -/
theorem field_or_enable (c2 : Byte) : (c2 ||| 0x01).extractLsb' 1 7 = c2.extractLsb' 1 7 := by
  ext i hi
  interval_cases i <;> simp

/-! ## Accesses of the clock and the mode registers -/

theorem readValue_ctl2 (s : State) : readValue s .ctl2 = s.reg.ctl2 := rfl
theorem readValue_ctl3 (s : State) : readValue s .ctl3 = s.reg.ctl3 := rfl
theorem readValue_b0fifctl (s : State) : readValue s .b0fifctl = s.reg.b0fifctl &&& 0x10 := rfl

theorem afterWrite_ctl2_of_enable {s : State} {w : Byte} (h : s.reg.ctl2.getLsbD 0 = true → w.getLsbD 0 = true) :
    afterWrite s .ctl2 w = s.withReg { s.reg with ctl2 := w } := by
  rw [afterWrite_ctl2, if_neg]
  rintro ⟨hs, hw⟩
  rw [h hs] at hw
  cases hw

/-- Every hold time fits the field (R91). -/
theorem afterWrite_holdTime (s : State) (clk : Nat) :
    afterWrite s .b0ectl (BitVec.ofNat 8 (holdTime clk)) =
      s.withReg { s.reg with b0ectl := BitVec.ofNat 8 (holdTime clk) } := by
  have hfits : BitVec.ofNat 8 (holdTime clk) &&& 0x3F = BitVec.ofNat 8 (holdTime clk) := by
    unfold holdTime
    split
    · rfl
    · split <;> rfl
  show s.withReg { s.reg with b0ectl := BitVec.ofNat 8 (holdTime clk) &&& 0x3F } = _
  rw [hfits]

theorem afterWrite_ctl1_zero (s : State) : afterWrite s .ctl1 0 = s.withReg { s.reg with ctl1 := 0 } := rfl

/-! ## The checks of `configure` (R88 to R90) -/

theorem configureCheck_ok {clk target : Nat} (hpos : 0 < target) (hmax : target ≤ 100000)
    (hmin : 10 ≤ clockDivider clk target) (hdiv : clockDivider clk target ≤ 511) : configureCheck clk target = .ok := by
  have hrange : dividerInRange (clockDivider clk target) = true := by
    simp [dividerInRange, Config.divMin, Config.divMax, hmin, hdiv]
  have hspeed : ¬ Config.maxSpeedHz < target := Nat.not_lt.2 hmax
  rw [configureCheck, if_neg hspeed, if_neg hpos.ne', if_pos hrange]

theorem configure_eq {s : State} {target : Nat} (h : configureCheck s.x.inputClk.toNat target = .ok) :
    configure target s = programSpeed s.x.inputClk.toNat target s := by
  unfold configure
  rw [Op.bind_eq (getX_run s), h]

/-! ## One access after another in an idle environment -/

theorem rd_bind_quiet {α : Type} {f : Byte → Op α} {s : State} {r : RegId} {v : Byte} (h : s.quiet) (hv : readValue s r = v)
    (hafter : afterRead s r = s) : (rd r >>= f) s = f v (s.pushAcc (.rd r v)) := by
  rw [Op.bind_eq (rd_quiet h r), hafter, hv]

theorem wr_quiet_of_afterWrite {s : State} {r : RegId} {v : Byte} {g : HwRegs} (h : s.quiet)
    (hafter : afterWrite s r v = s.withReg g) : wr r v s = .ok ((), (s.withReg g).pushAcc (.wr r v)) := by
  rw [wr_quiet h, hafter]

theorem wr_bind_quiet {α : Type} {f : Unit → Op α} {s : State} {r : RegId} {v : Byte} {g : HwRegs} (h : s.quiet)
    (hafter : afterWrite s r v = s.withReg g) : (wr r v >>= f) s = f () ((s.withReg g).pushAcc (.wr r v)) :=
  Op.bind_eq (wr_quiet_of_afterWrite h hafter)

/-! ## The two commands in an idle environment -/

/-- The speed is programmed: what `configure` does after its checks (R92). -/
def State.speedSet (s : State) (clk target : Nat) : State :=
  let div := clockDivider clk target
  let lo := withDividerLo s.reg.ctl2 div
  let hi := withDividerHi s.reg.ctl3 div
  let hold := BitVec.ofNat 8 (holdTime clk)
  { s with
    x := { s.x with targetHz := BitVec.ofNat 32 target }
    reg := { s.reg with ctl2 := lo, ctl3 := hi, b0ectl := hold }
    acc := s.acc ++ [.rd .ctl2 s.reg.ctl2, .wr .ctl2 lo, .rd .ctl3 s.reg.ctl3, .wr .ctl3 hi, .wr .b0ectl hold] }

theorem programSpeed_quiet {s : State} (h : s.quiet) (clk target : Nat) :
    programSpeed clk target s = .ok (.ok, s.speedSet clk target) := by
  have hen := withDividerLo_enable s.reg.ctl2 (clockDivider clk target)
  refine Eq.trans (rd_bind_quiet h (readValue_ctl2 _) rfl) <|
    Eq.trans (wr_bind_quiet h (afterWrite_ctl2_of_enable hen.trans)) <|
    Eq.trans (rd_bind_quiet h (readValue_ctl3 _) rfl) <|
    Eq.trans (wr_bind_quiet h (afterWrite_ctl3 _ _)) <|
    Eq.trans (wr_bind_quiet h (afterWrite_holdTime _ _)) <| Eq.trans (Op.bind_eq (modifyX_run _ _)) ?_
  simp [State.speedSet, State.withReg, State.pushAcc, State.withX]

theorem setInitialised_run (b : Bool) (s : State) : setInitialised b s = .ok ((), s.withInitialised b) := rfl

/-- The module is enabled, in single-byte and polled mode: what INIT does after a successful `configure` (R95). -/
def State.broughtUp (s : State) (m : BitVec 8) (clk target : Nat) : State :=
  { s with
    reg := { s.reg with ctl2 := s.reg.ctl2 ||| 0x01, b0fifctl := 0, ctl1 := 0 }
    log := s.log ++ [.initDone m.toNat clk target (clockDivider clk target) (holdTime clk)]
    initialised := true
    acc := s.acc ++ [.rd .ctl2 s.reg.ctl2, .wr .ctl2 (s.reg.ctl2 ||| 0x01),
      .rd .b0fifctl (s.reg.b0fifctl &&& 0x10), .wr .b0fifctl 0, .wr .ctl1 0] }

theorem broughtUp_enable (s : State) (m : BitVec 8) (clk target : Nat) : (s.broughtUp m clk target).flag .enable = true := by
  show (s.reg.ctl2 ||| 0x01).getLsbD 0 = true
  simp

theorem broughtUp_divider (s : State) (m : BitVec 8) {clk target : Nat} (h : clockDivider clk target ≤ 511) :
    ((s.speedSet clk target).broughtUp m clk target).reg.divider.toNat = clockDivider clk target :=
  divider_of_fields h ((field_or_enable _).trans (withDividerLo_field _ _)) (withDividerHi_field _ _)

theorem setbits_ctl2_enable_quiet {s : State} (h : s.quiet) : setbits .ctl2 (Flag.mask .enable) s =
    .ok ((), { s with
      reg := { s.reg with ctl2 := s.reg.ctl2 ||| 0x01 }
      acc := s.acc ++ [.rd .ctl2 s.reg.ctl2, .wr .ctl2 (s.reg.ctl2 ||| 0x01)] }) := by
  have hmask : Flag.mask .enable = 0x01 := rfl
  have hen : (s.reg.ctl2 ||| 0x01).getLsbD 0 = true := by simp
  rw [hmask]
  refine Eq.trans (rd_bind_quiet h (readValue_ctl2 _) rfl) <|
    Eq.trans (wr_quiet_of_afterWrite h (afterWrite_ctl2_of_enable (fun _ => hen))) ?_
  simp [State.withReg, State.pushAcc]

theorem clrbits_b0fifctl_quiet {s : State} (h : s.quiet) : clrbits .b0fifctl (Flag.mask .fifoEn) s =
    .ok ((), { s with
      reg := { s.reg with b0fifctl := 0 }
      acc := s.acc ++ [.rd .b0fifctl (s.reg.b0fifctl &&& 0x10), .wr .b0fifctl 0] }) := by
  have hclear : s.reg.b0fifctl &&& 0x10 &&& ~~~Flag.mask .fifoEn = 0 := and_not_self _ _
  refine Eq.trans (rd_bind_quiet h (readValue_b0fifctl _) rfl) ?_
  rw [hclear]
  refine Eq.trans (wr_quiet_of_afterWrite (g := { s.reg with b0fifctl := 0 }) h rfl) ?_
  simp [State.withReg, State.pushAcc]

theorem initFinish_quiet {s : State} (h : s.quiet) (m : BitVec 8) (clk target : Nat) :
    initFinish m clk target s = .ok (.ok, s.broughtUp m clk target) := by
  refine Eq.trans (Op.bind_eq (setbits_ctl2_enable_quiet h)) <| Eq.trans (Op.bind_eq (clrbits_b0fifctl_quiet h)) <|
    Eq.trans (wr_bind_quiet h (afterWrite_ctl1_zero _)) <| Eq.trans (Op.bind_eq (logEvent_run _ _)) <|
    Eq.trans (Op.bind_eq (setInitialised_run _ _)) ?_
  simp [State.broughtUp, State.withReg, State.pushAcc, State.pushLog, State.withInitialised]

/-! ## In any environment

The line engine moves neither a register of the clock and the modes nor anything of the sequencer. So a piece of SET_SPEED or
INIT does the same to all that in any environment, and a statement about an idle one carries over. -/

/-- The state in an idle environment, with all that the line engine moves forgotten. -/
def State.quieted (s : State) : State :=
  { s with
    reg := { s.reg with data := 0, st := 0, cst := 0, ctl1 := 0, b0est := 0 }
    le := { txb := [], addrPhase := false, dir := .none, owed := .none, last := false, pulses := 0 }
    scl := .high, sda := .high, wire := [], env := .script [] }

theorem quieted_quiet (s : State) : s.quieted.quiet := rfl

theorem LeFrame.quieted {s t : State} (h : LeFrame s t) : t.quieted = s.quieted := by
  simp only [State.quieted, h.x, h.ctl2, h.ctl3, h.b0ectl, h.b0fifctl, h.buf, h.log, h.cp, h.program, h.initialised, h.pinmux,
    h.draws, h.acc, h.cfg]

theorem moduleDisable_quieted (s : State) : moduleDisable s.quieted = (moduleDisable s).quieted := by
  rw [moduleDisable_eq, moduleDisable_eq]
  simp [State.quieted, State.withReg, State.withLe, LeState.idle]

/-- Where the piece ends, it ends in an idle environment too, with the same answer and, up to what the line engine moves, in the
same state. -/
def Op.AsQuieted {α : Type} (m : Op α) : Prop := ∀ s a t, m s = .ok (a, t) → m s.quieted = .ok (a, t.quieted)

namespace Op.AsQuieted

theorem pure {α : Type} (a : α) : (Pure.pure a : Op α).AsQuieted := by
  intro s b t h
  cases h
  rfl

theorem bind {α β : Type} {m : Op α} {f : α → Op β} (hm : m.AsQuieted) (hf : ∀ a, (f a).AsQuieted) :
    (m >>= f).AsQuieted := by
  intro s b u h
  obtain ⟨a, t, hmt, hft⟩ := Op.bind_ok.1 h
  rw [Op.bind_eq (hm s a t hmt)]
  exact hf a t b u hft

theorem rd {r : RegId} (hread : ∀ s : State, readValue s.quieted r = readValue s r) (hafter : ∀ s, afterRead s r = s) :
    (rd r).AsQuieted := by
  intro s v t h
  obtain ⟨u, hu, rfl, rfl⟩ := rd_ok.1 h
  rw [rd_quiet (quieted_quiet s), ← (lePoint_frame hu).quieted, hread, hafter, hafter]
  rfl

theorem wr {r : RegId} {v : Byte} (hafter : ∀ s : State, afterWrite s.quieted r v = (afterWrite s r v).quieted) :
    (wr r v).AsQuieted := by
  intro s a t h
  obtain ⟨u, hu, rfl⟩ := wr_ok.1 h
  rw [wr_quiet (quieted_quiet s), ← (lePoint_frame hu).quieted, hafter]
  rfl

/-- What a change of `ENABLE` from 1 to 0 does besides the write (R153), the line engine could have done. -/
theorem wrCtl2 (v : Byte) : (Sys2Proof.Machine.wr .ctl2 v).AsQuieted := by
  refine wr (fun s => ?_)
  rw [afterWrite_ctl2, afterWrite_ctl2]
  show (if s.reg.ctl2.getLsbD 0 = true ∧ v.getLsbD 0 = false then _ else _) = _
  split
  · exact moduleDisable_quieted (s.withReg { s.reg with ctl2 := v })
  · rfl

/-- Polled, a piece does what it does in an idle environment, up to what the line engine moves. -/
theorem polled {α : Type} {m : Op α} (hm : m.AsQuieted) (hends : m.Ends) {s w : State} {a : α} (h : s.polled)
    (hquiet : m s.quieted = .ok (a, w)) : ∃ t, m s = .ok (a, t) ∧ t.polled ∧ t.quieted = w := by
  obtain ⟨b, t, ht, hp⟩ := hends s h
  have hq := (hm s b t ht).symm.trans hquiet
  simp only [Except.ok.injEq, Prod.mk.injEq] at hq
  obtain ⟨rfl, hw⟩ := hq
  exact ⟨t, ht, hp, hw⟩

theorem rdCtl2 : (Sys2Proof.Machine.rd .ctl2).AsQuieted := rd (fun _ => rfl) (fun _ => rfl)
theorem rdCtl3 : (Sys2Proof.Machine.rd .ctl3).AsQuieted := rd (fun _ => rfl) (fun _ => rfl)
theorem rdB0fifctl : (Sys2Proof.Machine.rd .b0fifctl).AsQuieted := rd (fun _ => rfl) (fun _ => rfl)
theorem wrCtl3 (v : Byte) : (Sys2Proof.Machine.wr .ctl3 v).AsQuieted := wr (fun _ => rfl)
theorem wrB0ectl (v : Byte) : (Sys2Proof.Machine.wr .b0ectl v).AsQuieted := wr (fun _ => rfl)
theorem wrB0fifctl (v : Byte) : (Sys2Proof.Machine.wr .b0fifctl v).AsQuieted := wr (fun _ => rfl)
theorem clearCtl1 : (Sys2Proof.Machine.wr .ctl1 0).AsQuieted := wr (fun _ => rfl)

theorem modifyX (f : SeqRegs → SeqRegs) : (modifyX f).AsQuieted := by
  intro s a t h
  cases h
  rfl

theorem logEvent (e : LogEvent) : (logEvent e).AsQuieted := by
  intro s a t h
  cases h
  rfl

theorem setInitialised (b : Bool) : (setInitialised b).AsQuieted := by
  intro s a t h
  cases h
  rfl

theorem programSpeed (clk target : Nat) : (programSpeed clk target).AsQuieted :=
  rdCtl2.bind fun _ => (wrCtl2 _).bind fun _ => rdCtl3.bind fun _ => (wrCtl3 _).bind fun _ => (wrB0ectl _).bind fun _ =>
    (modifyX _).bind fun _ => .pure _

theorem initFinish (m : BitVec 8) (clk target : Nat) : (initFinish m clk target).AsQuieted :=
  (rdCtl2.bind fun _ => wrCtl2 _).bind fun _ => (rdB0fifctl.bind fun _ => wrB0fifctl _).bind fun _ => clearCtl1.bind fun _ =>
    (logEvent _).bind fun _ => (setInitialised _).bind fun _ => .pure _

end Op.AsQuieted

theorem programSpeed_polled {s : State} (h : s.polled) (clk target : Nat) :
    ∃ t, programSpeed clk target s = .ok (.ok, t) ∧ t.polled ∧ t.quieted = s.quieted.speedSet clk target :=
  (Op.AsQuieted.programSpeed clk target).polled (programSpeed_ends clk target) h (programSpeed_quiet (quieted_quiet s) clk target)

/-! ## SET_SPEED -/

theorem speedSet_divider (s : State) {clk target : Nat} (h : clockDivider clk target ≤ 511) :
    (s.speedSet clk target).reg.divider.toNat = clockDivider clk target :=
  divider_of_fields h (withDividerLo_field _ _) (withDividerHi_field _ _)

theorem speedSet_host (s : State) (clk target : Nat) : HostFrame s (s.speedSet clk target) :=
  ⟨fun _ => rfl, rfl, rfl, rfl, rfl, rfl, rfl⟩

theorem execSetSpeed_eq {freq : BitVec 24} {s t : State} (hi : s.initialised = true)
    (hcheck : configureCheck s.x.inputClk.toNat freq.toNat = .ok)
    (h : programSpeed s.x.inputClk.toNat freq.toNat s = .ok (.ok, t)) : exec (.setSpeed freq) s = .next (t.setResult .ok) :=
  runInitialised_eq hi ((configure_eq hcheck).trans h)

/-- Settles O21: the registers SET_SPEED writes are those the line engine leaves alone, so it programs them as in an idle
environment. -/
theorem setSpeedProgramsDivider : Obligations.SetSpeedProgramsDivider := by
  intro freq s div hold hp hi hpos hmax hdiv hmin hmaxdiv hhold
  obtain rfl : div = clockDivider s.x.inputClk.toNat freq.toNat := hdiv
  obtain rfl : hold = holdTime s.x.inputClk.toNat := hhold
  have hcheck := configureCheck_ok hpos hmax hmin hmaxdiv
  obtain ⟨t, ht, htp, hq⟩ := programSpeed_polled hp s.x.inputClk.toNat freq.toNat
  obtain ⟨hfifo, hint⟩ := (State.polled_iff s).1 hp
  obtain ⟨hfifo', hint'⟩ := (State.polled_iff t).1 htp
  have hlo : t.reg.ctl2 = withDividerLo s.reg.ctl2 _ := congrArg (fun u => u.reg.ctl2) hq
  have hhi : t.reg.ctl3 = withDividerHi s.reg.ctl3 _ := congrArg (fun u => u.reg.ctl3) hq
  have hhold : t.reg.b0ectl = BitVec.ofNat 8 (holdTime s.x.inputClk.toNat) := congrArg (fun u => u.reg.b0ectl) hq
  have hdiv := (congrArg (fun u => u.reg.divider.toNat) hq).trans (speedSet_divider s.quieted hmaxdiv)
  have hx : t.x = { s.x with targetHz := freq.setWidth 32 } :=
    (congrArg State.x hq).trans (by rw [← BitVec.ofNat_toNat]; rfl)
  have hacc : t.acc = s.acc ++ [.rd .ctl2 s.reg.ctl2, .wr .ctl2 t.reg.ctl2, .rd .ctl3 s.reg.ctl3, .wr .ctl3 t.reg.ctl3,
      .wr .b0ectl t.reg.b0ectl] := by
    rw [hlo, hhi, hhold]
    exact congrArg State.acc hq
  refine ⟨_, execSetSpeed_eq hi hcheck ht, ?_, hlo.trans (withDividerLo_eq _ _), hhi.trans (withDividerHi_eq _ hmaxdiv), hdiv,
    hhold, hacc, ?_, hfifo'.trans hfifo.symm, hint'.trans hint.symm⟩
  · show { t.x with result := 0 } = _
    rw [hx]
  · have hframe : HostFrame s.quieted t.quieted := hq ▸ speedSet_host _ _ _
    exact ⟨hframe.memory, hframe.log, hframe.program, hframe.cp, hframe.cfg, hframe.initialised, hframe.pinmux⟩

/-! ## INIT -/

theorem initFinish_ends (m : BitVec 8) (clk target : Nat) : Op.Ends (initFinish m clk target) :=
  .bind (.setbits rfl) fun _ => .bind (.clrbits _) fun _ => .bind (.wr (by decide)) fun _ => .bind (.logEvent _) fun _ =>
    .bind (setInitialised_ends _) fun _ => .pure _

/-- The write of `CTL1` is the last access of INIT, and the line engine does not move after it. -/
theorem initFinish_ctl1 {m : BitVec 8} {clk target : Nat} {s t : State} {k : Kind}
    (h : initFinish m clk target s = .ok (k, t)) : t.reg.ctl1 = 0 := by
  obtain ⟨_, s1, -, h⟩ := Op.bind_ok.1 h
  obtain ⟨_, s2, -, h⟩ := Op.bind_ok.1 h
  obtain ⟨_, s3, hwr, h⟩ := Op.bind_ok.1 h
  obtain ⟨u, -, rfl⟩ := wr_ok.1 hwr
  cases h
  exact congrArg HwRegs.ctl1 (congrArg State.reg (afterWrite_ctl1_zero u))

theorem initFinish_polled {s : State} (h : s.polled) (m : BitVec 8) (clk target : Nat) :
    ∃ t, initFinish m clk target s = .ok (.ok, t) ∧ t.polled ∧ t.reg.ctl1 = 0 ∧
      t.quieted = s.quieted.broughtUp m clk target := by
  obtain ⟨t, ht, hp, hq⟩ := (Op.AsQuieted.initFinish m clk target).polled (initFinish_ends m clk target) h
    (initFinish_quiet (quieted_quiet s) m clk target)
  exact ⟨t, ht, hp, initFinish_ctl1 ht, hq⟩

/-- What INIT has done when it calls `configure` (R95). -/
def State.initBegun (s : State) (m : BitVec 8) (clk : BitVec 32) : State :=
  { s with
    x := { s.x with started := false, phase := .idle, modidx := m, inputClk := clk }
    pinmux := s.pinmux ++ [m]
    initialised := false }

section Usable
variable {m : BitVec 8} {s : State} {clk : BitVec 32} (hm : m.toNat < s.cfg.nModules) (hclk : s.cfg.clock = some clk)
  (hzero : clk ≠ 0)
include hm hclk hzero

theorem initBody_eq : initBody m s =
    orReturn (configure s.cfg.cfgSpeedHz) (initFinish m clk.toNat s.cfg.cfgSpeedHz) (s.initBegun m clk) := by
  unfold initBody
  rw [Op.bind_eq (getCfg_run s), if_neg (Nat.not_le.2 hm), hclk]
  dsimp only
  rw [if_neg hzero]
  rfl

theorem execInit_eq {u t : State} (hcheck : configureCheck clk.toNat s.cfg.cfgSpeedHz = .ok)
    (hspeed : programSpeed clk.toNat s.cfg.cfgSpeedHz (s.initBegun m clk) = .ok (.ok, u))
    (hfinish : initFinish m clk.toNat s.cfg.cfgSpeedHz u = .ok (.ok, t)) : exec (.init m) s = .next (t.setResult .ok) := by
  have hconf := (configure_eq (s := s.initBegun m clk) hcheck).trans hspeed
  exact runBody_eq ((initBody_eq hm hclk hzero).trans (orReturn_ok.2 ⟨.ok, u, hconf, .inl ⟨rfl, hfinish⟩⟩))

theorem execInit_polled (hp : s.polled) (hcheck : configureCheck clk.toNat s.cfg.cfgSpeedHz = .ok) :
    ∃ t : State, exec (.init m) s = .next (t.setResult .ok) ∧ t.polled ∧ t.reg.ctl1 = 0 ∧ t.quieted =
      ((s.quieted.initBegun m clk).speedSet clk.toNat s.cfg.cfgSpeedHz).broughtUp m clk.toNat s.cfg.cfgSpeedHz := by
  obtain ⟨u, hu, hup, hqu⟩ := programSpeed_polled (s := s.initBegun m clk) hp clk.toNat s.cfg.cfgSpeedHz
  obtain ⟨t, ht, htp, hctl1, hqt⟩ := initFinish_polled hup m clk.toNat s.cfg.cfgSpeedHz
  rw [hqu] at hqt
  exact ⟨t, execInit_eq hm hclk hzero hcheck hu ht, htp, hctl1, hqt⟩

theorem execInit_quiet (hq : s.quiet) (hcheck : configureCheck clk.toNat s.cfg.cfgSpeedHz = .ok) :
    exec (.init m) s = .next
      ((((s.initBegun m clk).speedSet clk.toNat s.cfg.cfgSpeedHz).broughtUp m clk.toNat s.cfg.cfgSpeedHz).setResult .ok) := by
  have hspeed := programSpeed_quiet (s := s.initBegun m clk) hq clk.toNat s.cfg.cfgSpeedHz
  have hquiet : ((s.initBegun m clk).speedSet clk.toNat s.cfg.cfgSpeedHz).quiet := hq
  exact execInit_eq hm hclk hzero hcheck hspeed (initFinish_quiet hquiet m clk.toNat s.cfg.cfgSpeedHz)

end Usable

/-- Settles O24: exactly in an idle environment; in any other, the same for the fields the line engine leaves alone, and the last
access clears `CTL1`. -/
theorem initBringsUp : Obligations.InitBringsUp := by
  intro m s c div hold lo hi hm hclk hzero hpos hmax hdiv hmin hmaxdiv hhold hlo hhi
  obtain rfl : div = clockDivider c.toNat s.cfg.cfgSpeedHz := hdiv
  obtain rfl : hold = holdTime c.toNat := hhold
  obtain rfl := hlo.trans (withDividerLo_eq _ _).symm
  obtain rfl := hhi.trans (withDividerHi_eq _ hmaxdiv).symm
  have hcheck := configureCheck_ok hpos hmax hmin hmaxdiv
  refine ⟨fun hp => ?_, fun hq => ?_⟩
  · obtain ⟨t, ht, htp, hctl1, hqt⟩ := execInit_polled hm hclk hzero hp hcheck
    have hx := congrArg (fun u => { u.x with result := 0 }) hqt
    have henable := (congrArg (fun u => u.flag .enable) hqt).trans (broughtUp_enable _ _ _ _)
    have hdivider := (congrArg (fun u => u.reg.divider.toNat) hqt).trans (broughtUp_divider _ _ hmaxdiv)
    have hother := (congrArg (fun u => u.reg.ctl3 &&& 0xFC) hqt).trans (withDividerHi_other _ _)
    have hcp := congrArg State.cp hqt
    have hprogram := congrArg State.program hqt
    have hcfg := congrArg State.cfg hqt
    exact ⟨_, ht, congrArg State.initialised hqt, hx, henable, hdivider, congrArg (fun u => u.reg.b0ectl) hqt, hctl1,
      ((State.polled_iff t).1 htp).1, hother, congrArg State.log hqt, congrArg State.pinmux hqt,
      fun a => congrArg (fun u => u.buf.read a) hqt, hcp, hprogram, hcfg⟩
  · rw [execInit_quiet hm hclk hzero hq hcheck]
    simp [State.setResult, State.broughtUp, State.speedSet, State.initBegun, State.withX, Kind.code]

end Sys2Proof.Machine
end

section
/-! PROOFS. The words of 95_test_vectors.md, decoded (30_encoding.md R65 to R77). -/

namespace Sys2Proof.Machine

/-- Settles O1, by evaluation of the decoder on each of the fifteen words. -/
theorem decodesTheWordsOfTheSpec : Obligations.DecodesTheWordsOfTheSpec :=
  ⟨rfl, rfl, rfl, rfl, rfl, rfl, rfl, rfl, rfl, rfl, rfl, rfl, rfl, rfl, rfl⟩

end Sys2Proof.Machine
end

section
/-! PROOFS. The accesses and the waits that the byte-level primitives are made of (42_primitives.md R97): what a read of `ST` or
`CTL1` shows, the samples of a wait in every environment, and a wait exactly in an idle one. -/

namespace Sys2Proof.Machine

/-! ## Reads without a side effect, and the writes of `ST` and `CTL1` -/

theorem readValue_ctl1 (s : State) : readValue s .ctl1 = s.reg.ctl1 &&& 0x97 := rfl

theorem afterWrite_st (s : State) (v : Byte) :
    afterWrite s .st v = s.withReg { s.reg with st := s.reg.st &&& ~~~(v &&& 0x38) } := rfl
theorem afterWrite_ctl1 (s : State) (v : Byte) : afterWrite s .ctl1 v = s.withReg { s.reg with ctl1 := v &&& 0x97 } := rfl

/-- A read shows each field as it is stored. -/
theorem isSet_readValue (s : State) (f : Flag) : f.isSet (readValue s f.reg) = s.flag f := by
  unfold State.flag Flag.isSet
  cases f <;> simp [Flag.reg, Flag.bit, readValue, readMask]

theorem isSet_readSt {f : Flag} (hf : f.reg = .st) (s : State) : f.isSet (readValue s .st) = s.flag f :=
  hf ▸ isSet_readValue s f

theorem isSet_readCtl1 {f : Flag} (hf : f.reg = .ctl1) (s : State) : f.isSet (readValue s .ctl1) = s.flag f :=
  hf ▸ isSet_readValue s f

/-- A read of the register has no side effect (20_memory.md R56). -/
def RegId.pureRead : RegId → Bool
  | .data => false
  | .brc => false
  | _ => true

theorem afterRead_pureRead {r : RegId} (hr : r.pureRead = true) (s : State) : afterRead s r = s := by
  cases r <;> first | rfl | cases hr

/-- The record of accesses is not what a register shows. -/
theorem readValue_pushAcc (s : State) (a : Access) (r : RegId) : readValue (s.pushAcc a) r = readValue s r := by
  cases r <;> rfl

theorem rd_pureRead {r : RegId} (hr : r.pureRead = true) {s u : State} (hu : lePoint s = .ok u) :
    rd r s = .ok (readValue u r, u.pushAcc (.rd r (readValue u r))) := by
  rw [rd_eq hu, afterRead_pureRead hr]

/-! ## The samples of a wait, in every environment -/

/-- What a wait that ended with `o` (`none` is `EXHAUSTED`) has sampled: every sample but the last is undecided, and the last
one, which the state `t` after it still shows, decides, unless all `n` are undecided. -/
structure Samples (n : Nat) (r : RegId) (f : Byte → Option Kind) (s t : State) (o : Option Kind) (vs : List Byte) : Prop where
  acc : t.acc = s.acc ++ vs.map (fun v => .rd r v)
  length : vs.length ≤ n
  undecided : ∀ v ∈ vs.dropLast, f v = none
  decided : ∀ k, o = some k → ∃ v, vs.getLast? = some v ∧ f v = some k
  exhausted : o = none → vs.length = n ∧ ∀ v ∈ vs, f v = none
  last : (vs = [] ∧ t = s) ∨ vs.getLast? = some (readValue t r)

section Samples
variable {n : Nat} {r : RegId} {f : Byte → Option Kind} {s u t : State} {o : Option Kind}

theorem Samples.zero (s : State) : Samples 0 r f s s none [] :=
  ⟨by simp, Nat.le_refl 0, by simp, by simp, by simp, .inl ⟨rfl, rfl⟩⟩

/-- The first sample decides. -/
theorem Samples.one {k : Kind} (hu : u.acc = s.acc) (hk : f (readValue u r) = some k) :
    Samples (n + 1) r f s (u.pushAcc (.rd r (readValue u r))) (some k) [readValue u r] :=
  ⟨by simp [hu], by simp, by simp, fun j hj => ⟨_, rfl, hk.trans hj⟩, by simp, .inr (by rw [readValue_pushAcc]; rfl)⟩

/-- The first sample is undecided. -/
theorem Samples.cons {vs : List Byte} (hu : u.acc = s.acc) (hf : f (readValue u r) = none)
    (h : Samples n r f (u.pushAcc (.rd r (readValue u r))) t o vs) : Samples (n + 1) r f s t o (readValue u r :: vs) where
  acc := by rw [h.acc]; simp [hu]
  length := Nat.succ_le_succ h.length
  undecided := by
    cases vs with
    | nil => simp
    | cons w ws => exact List.forall_mem_cons.2 ⟨hf, h.undecided⟩
  decided k hk := by
    obtain ⟨v, hv, hfv⟩ := h.decided k hk
    exact ⟨v, by rw [List.getLast?_cons, hv]; rfl, hfv⟩
  exhausted ho := by
    obtain ⟨hlen, hall⟩ := h.exhausted ho
    exact ⟨by rw [List.length_cons, hlen], List.forall_mem_cons.2 ⟨hf, hall⟩⟩
  last := by
    obtain ⟨rfl, rfl⟩ | hlast := h.last
    · exact .inr (by rw [readValue_pushAcc]; rfl)
    · exact .inr (by rw [List.getLast?_cons, hlast]; rfl)

theorem poll_samples (hr : r.pureRead = true) (h : poll n r f s = .ok (o, t)) : ∃ vs, Samples n r f s t o vs := by
  induction n generalizing s with
  | zero => cases h; exact ⟨[], .zero _⟩
  | succ n ih =>
    obtain ⟨v, w, hrd, hrest⟩ := Op.bind_ok.1 h
    obtain ⟨u, hu, rfl, rfl⟩ := rd_ok.1 hrd
    rw [afterRead_pureRead hr] at hrest
    have hacc := (lePoint_frame hu).acc
    cases hf : f (readValue u r) with
    | some k => rw [hf] at hrest; cases hrest; exact ⟨_, .one hacc hf⟩
    | none =>
      rw [hf] at hrest
      obtain ⟨vs, hvs⟩ := ih hrest
      exact ⟨_, hvs.cons hacc hf⟩

/-- A wait whose exhaustion is `Timeout` (R97). -/
theorem pollOrTimeout_ok {k : Kind} :
    pollOrTimeout n r f s = .ok (k, t) ↔ ∃ o, poll n r f s = .ok (o, t) ∧ k = o.getD .timeout := by
  unfold pollOrTimeout
  rw [Op.bind_ok]
  constructor
  · rintro ⟨o, u, hpoll, hrest⟩
    cases o <;> cases hrest <;> exact ⟨_, hpoll, rfl⟩
  · rintro ⟨o, hpoll, rfl⟩
    exact ⟨o, t, hpoll, by cases o <;> rfl⟩

end Samples

/-! ## A wait in an idle environment -/

/-- `n` more reads of `r` have been made. -/
def State.sampled (s : State) (r : RegId) (n : Nat) : State :=
  { s with acc := s.acc ++ List.replicate n (.rd r (readValue s r)) }

theorem sampled_zero (s : State) (r : RegId) : s.sampled r 0 = s := by
  simp [State.sampled]

theorem pushAcc_sampled (s : State) (r : RegId) (n : Nat) :
    (s.pushAcc (.rd r (readValue s r))).sampled r n = s.sampled r (n + 1) := by
  unfold State.sampled
  rw [readValue_pushAcc]
  simp [State.pushAcc, List.replicate_succ]

section Idle
variable {n : Nat} {r : RegId} {f : Byte → Option Kind} {s : State} {k : Kind}

theorem poll_quiet_decided (h : s.quiet) (hr : r.pureRead = true) (hn : 0 < n) (hf : f (readValue s r) = some k) :
    poll n r f s = .ok (some k, s.sampled r 1) := by
  obtain ⟨n, rfl⟩ := Nat.exists_eq_succ_of_ne_zero (Nat.ne_of_gt hn)
  rw [poll, Op.bind_eq (rd_pureRead hr (lePoint_quiet h)), hf]
  rfl

theorem poll_quiet_exhausted (h : s.quiet) (hr : r.pureRead = true) (hf : n = 0 ∨ f (readValue s r) = none) :
    poll n r f s = .ok (none, s.sampled r n) := by
  induction n generalizing s with
  | zero => rw [sampled_zero]; rfl
  | succ n ih =>
    have hnone : f (readValue s r) = none := hf.resolve_left (Nat.succ_ne_zero n)
    rw [poll, Op.bind_eq (rd_pureRead hr (lePoint_quiet h)), hnone]
    dsimp only
    rw [ih (s := s.pushAcc (.rd r (readValue s r))) h (.inr (by rw [readValue_pushAcc]; exact hnone)), pushAcc_sampled]

/-- However it ends: one sample if that decides, otherwise `n`. -/
theorem poll_quiet (h : s.quiet) (hr : r.pureRead = true) (n : Nat) (f : Byte → Option Kind) :
    ∃ o, poll n r f s = .ok (o, s.sampled r (if (f (readValue s r)).isSome = true then min 1 n else n)) := by
  cases hf : f (readValue s r) with
  | none => exact ⟨none, poll_quiet_exhausted h hr (.inr hf)⟩
  | some k =>
    obtain rfl | hn := Nat.eq_zero_or_pos n
    · exact ⟨none, poll_quiet_exhausted h hr (.inl rfl)⟩
    · exact ⟨some k, by rw [if_pos (by rfl), Nat.min_eq_left hn]; exact poll_quiet_decided h hr hn hf⟩

theorem pollOrTimeout_quiet_decided (h : s.quiet) (hr : r.pureRead = true) (hn : 0 < n) (hf : f (readValue s r) = some k) :
    pollOrTimeout n r f s = .ok (k, s.sampled r 1) :=
  pollOrTimeout_ok.2 ⟨some k, poll_quiet_decided h hr hn hf, rfl⟩

theorem pollOrTimeout_quiet_exhausted (h : s.quiet) (hr : r.pureRead = true) (hf : n = 0 ∨ f (readValue s r) = none) :
    pollOrTimeout n r f s = .ok (.timeout, s.sampled r n) :=
  pollOrTimeout_ok.2 ⟨none, poll_quiet_exhausted h hr hf, rfl⟩

end Idle

/-! ## `setbits` of `CTL1` -/

/-- A read and a write, the line engine moving before each (R54). -/
theorem setbits_ctl1_ok {m : Byte} {s t : State} {a : Unit} : setbits .ctl1 m s = .ok (a, t) ↔
    ∃ u w, lePoint s = .ok u ∧ lePoint (u.pushAcc (.rd .ctl1 (readValue u .ctl1))) = .ok w ∧
      t = (afterWrite w .ctl1 (readValue u .ctl1 ||| m)).pushAcc (.wr .ctl1 (readValue u .ctl1 ||| m)) := by
  unfold setbits
  rw [Op.bind_ok]
  constructor
  · rintro ⟨c, v, hrd, hwr⟩
    obtain ⟨u, hu, rfl, rfl⟩ := rd_ok.1 hrd
    obtain ⟨w, hw, rfl⟩ := wr_ok.1 hwr
    exact ⟨u, w, hu, hw, rfl⟩
  · rintro ⟨u, w, hu, hw, rfl⟩
    exact ⟨_, _, rd_eq hu .ctl1, wr_eq hw _ _⟩

theorem setbits_ctl1_acc {m : Byte} {s t : State} {a : Unit} (h : setbits .ctl1 m s = .ok (a, t)) :
    ∃ c, t.acc = s.acc ++ [.rd .ctl1 c, .wr .ctl1 (c ||| m)] := by
  obtain ⟨u, w, hu, hw, rfl⟩ := setbits_ctl1_ok.1 h
  refine ⟨readValue u .ctl1, ?_⟩
  rw [State.pushAcc_acc, afterWrite_ctl1, State.withReg_acc, (lePoint_frame hw).acc, State.pushAcc_acc, (lePoint_frame hu).acc,
    List.append_assoc]
  rfl

/-- The bits `m` of `CTL1` have been set by a read and a write, with nothing in between. -/
def State.ctl1Set (s : State) (m : Byte) : State :=
  { s with
    reg := { s.reg with ctl1 := (s.reg.ctl1 &&& 0x97) ||| m }
    acc := s.acc ++ [.rd .ctl1 (s.reg.ctl1 &&& 0x97), .wr .ctl1 ((s.reg.ctl1 &&& 0x97) ||| m)] }

/-- What a read of `CTL1` shows, with other bits set that are not reserved, is stored as written. -/
theorem ctl1_stored (c : Byte) {m : Byte} (hm : m &&& 0x97 = m) : ((c &&& 0x97) ||| m) &&& 0x97 = (c &&& 0x97) ||| m := by
  conv_rhs => rw [← hm]
  ext i hi
  simp only [BitVec.getElem_and, BitVec.getElem_or]
  grind

/-- A read and a write with nothing in between. -/
theorem afterWrite_ctl1_set (s : State) {m : Byte} (hm : m &&& 0x97 = m) :
    (afterWrite (s.pushAcc (.rd .ctl1 (readValue s .ctl1))) .ctl1 (readValue s .ctl1 ||| m)).pushAcc
      (.wr .ctl1 (readValue s .ctl1 ||| m)) = s.ctl1Set m := by
  rw [afterWrite_ctl1, readValue_ctl1, ctl1_stored s.reg.ctl1 hm]
  simp [State.ctl1Set, State.withReg, State.pushAcc]

theorem setbits_ctl1_quiet {s : State} (h : s.quiet) {m : Byte} (hm : m &&& 0x97 = m) :
    setbits .ctl1 m s = .ok ((), s.ctl1Set m) :=
  setbits_ctl1_ok.2 ⟨s, s.pushAcc _, lePoint_quiet h, lePoint_quiet (s := s.pushAcc _) h, (afterWrite_ctl1_set s hm).symm⟩

/-! ## The write of `DATA` -/

theorem wr_data_acc {b : Byte} {s t : State} {a : Unit} (h : wr .data b s = .ok (a, t)) : t.acc = s.acc ++ [.wr .data b] := by
  obtain ⟨u, hu, rfl⟩ := wr_ok.1 h
  rw [afterWrite_data, State.pushAcc_acc, (lePoint_frame hu).acc]

/-- A byte has been written and queued (20_memory.md R57). -/
def State.dataWritten (s : State) (b : Byte) : State :=
  { s with
    reg := { s.reg with data := b, st := s.reg.st &&& 0xBF }
    le := { s.le with txb := s.le.txb ++ [(b, txKindOf s)] }
    acc := s.acc ++ [.wr .data b] }

theorem wr_data_quiet {s : State} (h : s.quiet) (b : Byte) : wr .data b s = .ok ((), s.dataWritten b) :=
  wr_quiet h .data b

theorem dataWritten_eq (s : State) (b : Byte) : s.dataWritten b = (writeData s b).pushAcc (.wr .data b) := rfl

theorem dataWritten_flag (s : State) (b : Byte) {f : Flag} (hf : f ≠ .sdast) : (s.dataWritten b).flag f = s.flag f := by
  rw [dataWritten_eq]
  simp [writeData, hf.symm]

theorem readSt_dataWritten (s : State) (b : Byte) : readValue (s.dataWritten b) .st = s.reg.st &&& 0x3A :=
  BitVec.and_assoc _ _ _

/-! ## A primitive as a host command (10_state.md R17) -/

/-- Issued from a legal phase after an INIT, the command is its body. -/
theorem runPrimitive_eq {legal : Phase → Bool} {m : Op Kind} {s t : State} {k : Kind} (hi : s.initialised = true)
    (hl : legal s.x.phase = true) (h : m s = .ok (k, t)) : runInitialised (inPhase legal m) s = .next (t.setResult k) :=
  runInitialised_eq hi ((inPhase_legal hl).trans h)

theorem legalStop_of_phase {p : Phase} (h : p = .started ∨ p = .addressed ∨ p = .data) : legalStop p = true := by
  obtain rfl | rfl | rfl := h <;> rfl

theorem legalAddress_of_phase {p : Phase} (h : p = .started) : legalAddress p = true := by
  rw [h]; rfl

theorem legalData_of_phase {p : Phase} (h : p = .addressed ∨ p = .data) : legalData p = true := by
  obtain rfl | rfl := h <;> rfl

end Sys2Proof.Machine
end

section
/-! PROOFS. No primitive changes a configuration field, whatever the line engine does (40_register_access.md R86,
46_line_engine.md R156). -/

namespace Sys2Proof.Machine

theorem ConfigFrame.along : Along ConfigFrame where
  refl _ := ⟨rfl, rfl, rfl, rfl, rfl⟩
  trans h k := ⟨k.ctl2.trans h.ctl2, k.ctl3.trans h.ctl3, k.b0ectl.trans h.b0ectl, k.fifoEn.trans h.fifoEn,
    k.inten.trans h.inten⟩

theorem LeFrame.config {s t : State} (h : LeFrame s t) : ConfigFrame s t :=
  ⟨h.ctl2, h.ctl3, h.b0ectl, h.flag_fifoEn, h.inten⟩

theorem ConfigFrame.pushAcc (s : State) (a : Access) : ConfigFrame s (s.pushAcc a) := ⟨rfl, rfl, rfl, rfl, rfl⟩

theorem ConfigFrame.withX (s : State) (x : SeqRegs) : ConfigFrame s (s.withX x) := ⟨rfl, rfl, rfl, rfl, rfl⟩

/-! ## One access -/

theorem afterRead_config (s : State) (r : RegId) : ConfigFrame s (afterRead s r) := by
  have hfifo := afterRead_fifoEn s r
  have hinten := afterRead_inten s r
  cases r
  case data => rw [afterRead_data] at *; exact ⟨rfl, rfl, rfl, hfifo, hinten⟩
  case brc =>
    obtain ⟨n, hn⟩ := afterRead_brc s
    rw [hn]
    exact ⟨rfl, rfl, rfl, rfl, rfl⟩
  all_goals exact ConfigFrame.along.refl s

theorem afterWrite_data_config (s : State) (v : Byte) : ConfigFrame s (afterWrite s .data v) := by
  rw [afterWrite_data]; exact ⟨rfl, rfl, rfl, rfl, rfl⟩

theorem afterWrite_st_config (s : State) (v : Byte) : ConfigFrame s (afterWrite s .st v) := ⟨rfl, rfl, rfl, rfl, rfl⟩

/-- A write of `CTL1` that leaves `INTEN` as it is. -/
theorem afterWrite_ctl1_config {s : State} {v : Byte} (hv : Flag.isSet .inten v = s.flag .inten) :
    ConfigFrame s (afterWrite s .ctl1 v) :=
  ⟨rfl, rfl, rfl, rfl, (writeStorage_ctl1_flag s v .inten rfl).trans hv⟩

/-- What `CTL1` shows, with other bits than `INTEN` set. -/
theorem inten_or_readValue {s : State} {m : Byte} (hm : Flag.isSet .inten m = false) :
    Flag.isSet .inten (readValue s .ctl1 ||| m) = s.flag .inten := by
  have hread := isSet_readValue s .inten
  unfold Flag.isSet at *
  rw [BitVec.getLsbD_or, hm, Bool.or_false]
  exact hread

/-! ## The operations -/

section Bind
variable {α β : Type} {m : Op α} {f : α → Op β}

theorem pure_config (a : α) : Op.Keeps ConfigFrame (pure a) := .pure ConfigFrame.along a

theorem bind_config (hm : Op.Keeps ConfigFrame m) (hf : ∀ a, Op.Keeps ConfigFrame (f a)) : Op.Keeps ConfigFrame (m >>= f) :=
  .bind ConfigFrame.along hm hf

end Bind

/-- The result goes to `x[RESULT]`. -/
theorem setResult_config {m : Op Kind} {s t : State} {k : Kind} (hm : Op.Keeps ConfigFrame m) (h : m s = .ok (k, t)) :
    ConfigFrame s (t.setResult k) := ConfigFrame.along.trans (hm s k t h) (.withX t _)

theorem modifyX_config (f : SeqRegs → SeqRegs) : Op.Keeps ConfigFrame (modifyX f) := by
  intro s a t e; cases e; exact .withX s _

theorem getCfg_config : Op.Keeps ConfigFrame getCfg := by
  intro s a t e; cases e; exact ConfigFrame.along.refl s

theorem logEvent_config (e : LogEvent) : Op.Keeps ConfigFrame (logEvent e) := by
  intro s a t h; cases h; exact ⟨rfl, rfl, rfl, rfl, rfl⟩

theorem rd_config (r : RegId) : Op.Keeps ConfigFrame (rd r) :=
  .rd ConfigFrame.along (fun h => (lePoint_frame h).config)
    (fun s r _ => ConfigFrame.along.trans (afterRead_config s r) (.pushAcc _ _)) r

theorem wr_config {r : RegId} {v : Byte} (h : ∀ s, ConfigFrame s (afterWrite s r v)) : Op.Keeps ConfigFrame (wr r v) := by
  intro s a t e
  obtain ⟨u, hu, rfl⟩ := wr_ok.1 e
  exact ConfigFrame.along.trans (lePoint_frame hu).config (ConfigFrame.along.trans (h u) (.pushAcc _ _))

theorem wr_data_config (v : Byte) : Op.Keeps ConfigFrame (wr .data v) := wr_config (fun s => afterWrite_data_config s v)

theorem wr_st_config (v : Byte) : Op.Keeps ConfigFrame (wr .st v) := wr_config (fun s => afterWrite_st_config s v)

/-- The read shows `INTEN`, the line engine leaves it, and the write puts it back. -/
theorem setbits_ctl1_config {m : Byte} (hm : Flag.isSet .inten m = false) : Op.Keeps ConfigFrame (setbits .ctl1 m) := by
  intro s a t e
  obtain ⟨u, w, hu, hw, rfl⟩ := setbits_ctl1_ok.1 e
  have hwrite : ConfigFrame w (afterWrite w .ctl1 (readValue u .ctl1 ||| m)) :=
    afterWrite_ctl1_config ((inten_or_readValue hm).trans (lePoint_frame hw).inten.symm)
  have hread : ConfigFrame s (u.pushAcc (.rd .ctl1 (readValue u .ctl1))) :=
    ConfigFrame.along.trans (lePoint_frame hu).config (.pushAcc u _)
  exact ConfigFrame.along.trans hread (ConfigFrame.along.trans (lePoint_frame hw).config
    (ConfigFrame.along.trans hwrite (.pushAcc _ _)))

theorem poll_config (n : Nat) (r : RegId) (f : Byte → Option Kind) : Op.Keeps ConfigFrame (poll n r f) :=
  .poll ConfigFrame.along (rd_config r) f n

theorem pollOrTimeout_config (n : Nat) (r : RegId) (f : Byte → Option Kind) : Op.Keeps ConfigFrame (pollOrTimeout n r f) :=
  .pollOrTimeout ConfigFrame.along (rd_config r) f n

theorem readAll_config (rs : List RegId) : Op.Keeps ConfigFrame (readAll rs) := by
  induction rs with
  | nil => exact pure_config _
  | cons r rs ih => exact bind_config (rd_config r) (fun _ => bind_config ih (fun _ => pure_config _))

theorem dump_config : Op.Keeps ConfigFrame dump :=
  bind_config (readAll_config _) (fun _ => bind_config getCfg_config (fun _ => logEvent_config _))

theorem sendStart_config (n : Nat) : Op.Keeps ConfigFrame (sendStart n) :=
  bind_config (setbits_ctl1_config rfl) (fun _ => .orReturn ConfigFrame.along (pollOrTimeout_config _ _ _)
    (bind_config (modifyX_config _) (fun _ => pure_config _)))

theorem stopWait_config (n : Nat) : Op.Keeps ConfigFrame (stopWait n) := by
  refine bind_config (poll_config _ _ _) (fun o => bind_config (modifyX_config _) (fun _ => ?_))
  cases o with
  | some k => exact pure_config k
  | none => exact bind_config dump_config (fun _ => pure_config _)

theorem sendStop_config (n : Nat) : Op.Keeps ConfigFrame (sendStop n) := by
  refine bind_config (setbits_ctl1_config rfl) (fun _ => bind_config (wr_st_config _) (fun _ =>
    bind_config (modifyX_config _) (fun _ => ?_)))
  split
  · exact bind_config (modifyX_config _) (fun _ => pure_config _)
  · exact stopWait_config n

theorem inspectAddress_config : Op.Keeps ConfigFrame inspectAddress := by
  refine bind_config (rd_config _) (fun v => ?_)
  split
  · exact bind_config (modifyX_config _) (fun _ => pure_config _)
  · exact pure_config _

theorem sendAddress_config (b : Byte) (stall : Bool) : Op.Keeps ConfigFrame (sendAddress b stall) := by
  unfold sendAddress
  split
  · exact bind_config (setbits_ctl1_config rfl) (fun _ => bind_config (wr_data_config _) (fun _ =>
      bind_config getCfg_config (fun _ => bind_config (poll_config _ _ _) (fun _ => inspectAddress_config))))
  · exact bind_config (wr_data_config _) (fun _ => inspectAddress_config)

theorem pollDataReady_config (n : Nat) : Op.Keeps ConfigFrame (pollDataReady n) :=
  bind_config (modifyX_config _) (fun _ => pollOrTimeout_config _ _ _)

theorem pollAckCleared_config (n : Nat) : Op.Keeps ConfigFrame (pollAckCleared n) :=
  bind_config (modifyX_config _) (fun _ => pollOrTimeout_config _ _ _)

theorem requestNackAfterRead_config : Op.Keeps ConfigFrame requestNackAfterRead := by
  intro s a t e
  rw [requestNackAfterRead, Op.bind_eq (getCfg_run s)] at e
  split at e
  · rw [Op.bind_eq (rdNow_run .ctl1 s)] at e
    cases e
    have hwrite := afterWrite_ctl1_config (s := s.pushAcc (.rd .ctl1 (readValue s .ctl1)))
      (inten_or_readValue (s := s) (m := Flag.mask .ack) rfl)
    exact ConfigFrame.along.trans (.pushAcc s _) (ConfigFrame.along.trans hwrite (.pushAcc _ _))
  · exact setbits_ctl1_config rfl _ _ _ e

theorem readTail_config {store : Byte → Op Unit} (hs : ∀ v, Op.Keeps ConfigFrame (store v)) :
    Op.Keeps ConfigFrame (readTail store) :=
  bind_config (sendStop_config 0) (fun _ => bind_config (rd_config _) (fun v => bind_config (hs v) (fun _ =>
    bind_config (wr_st_config _) (fun _ => pure_config _))))

end Sys2Proof.Machine
end

section
/-! PROOFS. SEND_START (42_primitives.md R98). -/

namespace Sys2Proof.Machine

/-! ## A sample of the wait -/

theorem startSample_none {v : Byte} : startSample v = none ↔ v.getLsbD 5 = false ∧ v.getLsbD 1 = false := by
  unfold startSample Flag.isSet Flag.bit
  cases v.getLsbD 5 <;> cases v.getLsbD 1 <;> simp

theorem startSample_ok {v : Byte} : startSample v = some .ok ↔ v.getLsbD 5 = false ∧ v.getLsbD 1 = true := by
  unfold startSample Flag.isSet Flag.bit
  cases v.getLsbD 5 <;> cases v.getLsbD 1 <;> simp

theorem startSample_busError {v : Byte} : startSample v = some .busError ↔ v.getLsbD 5 = true := by
  unfold startSample Flag.isSet Flag.bit
  cases v.getLsbD 5 <;> cases v.getLsbD 1 <;> simp

/-- What a sample of `ST` says of the fields it shows. -/
theorem startSample_readValue (s : State) : startSample (readValue s .st) =
    if s.flag .ber = true then some .busError else if s.flag .master = true then some .ok else none := by
  unfold startSample
  rw [isSet_readSt (f := .ber) rfl, isSet_readSt (f := .master) rfl]

/-! ## A START request is not lost (46_line_engine.md R140)

It stays until the START is on the bus, and from then on the engine is bus master with no STOP to end that, unless a bus error
does. -/

/-- The START request is pending, or has led to a bus error, or has made the engine bus master. -/
def State.startKept (s : State) : Prop :=
  s.flag .start = true ∨ s.flag .ber = true ∨ (s.flag .master = true ∧ s.flag .stop = false)

theorem effect_startKept (e : LeEvent) (s : State) (hg : e.guard s = true) (h : s.startKept) : (e.effect s).startKept := by
  cases e with
  | startDone =>
    have hstop : s.flag .stop = false := by
      simp only [LeEvent.guard, Bool.and_eq_true, Bool.not_eq_true'] at hg
      exact hg.1.1.1.2
    exact .inr (.inr ⟨by simp [LeEvent.effect, effStartDone], by simp [LeEvent.effect, effStartDone, hstop]⟩)
  | ber m => exact .inr (.inl (by simp [LeEvent.effect, effBer, State.leIdle]))
  | stopDone eo =>
    have hstop : s.flag .stop = true := by
      simp only [LeEvent.guard, Bool.and_eq_true] at hg
      exact hg.1.1.2
    have hstart : (effStopDone eo s).flag .start = s.flag .start := by
      unfold effStopDone; split <;> simp [State.leIdle]
    have hber : (effStopDone eo s).flag .ber = s.flag .ber := by
      unfold effStopDone; split <;> simp [State.leIdle]
    obtain h | h | ⟨-, h⟩ := h
    · exact .inl (hstart.trans h)
    · exact .inr (.inl (hber.trans h))
    · rw [hstop] at h; cases h
  | addrAck =>
    show (effAddrAck s).startKept
    unfold effAddrAck
    split
    · exact h
    · dsimp only
      split <;> simpa [State.startKept] using h
  | addrNack =>
    show (effAddrNack s).startKept
    unfold effAddrNack
    split
    · exact h
    · simpa [State.startKept] using h
  | txReady => simpa [State.startKept, LeEvent.effect, effTxReady] using h
  | txAck =>
    show (effTxAck s).startKept
    unfold effTxAck
    split <;> exact h
  | txNack =>
    show (effTxNack s).startKept
    unfold effTxNack
    split
    · exact h
    · simpa [State.startKept] using h
  | rxByte b =>
    show (effRxByte b s).startKept
    unfold effRxByte
    dsimp only
    split <;> simpa [State.startKept] using h
  | lines c d => exact h
  | foreign b eo => simpa [State.startKept, LeEvent.effect, effForeign] using h

theorem lePoint_startKept {s t : State} (ht : lePoint s = .ok t) (h : s.startKept) : t.startKept :=
  lePoint_induct (R := fun s t => s.startKept → t.startKept) (fun _ => id) (fun hs ht => ht ∘ hs) effect_startKept
    (fun _ _ => id) ht h

/-- A START request that is not lost in `s` is not lost in `t`. -/
def KeepsStart (s t : State) : Prop := s.startKept → t.startKept

theorem poll_startKept {r : RegId} (hr : r.pureRead = true) (n : Nat) (f : Byte → Option Kind) :
    Op.Keeps KeepsStart (poll n r f) := by
  have hrd : Op.Keeps KeepsStart (rd r) := by
    intro s v t e hs
    obtain ⟨u, hu, rfl, rfl⟩ := rd_ok.1 e
    rw [afterRead_pureRead hr]
    exact lePoint_startKept (t := u) hu hs
  exact Op.Keeps.poll ⟨fun _ h => h, fun hs ht h => ht (hs h)⟩ hrd f n

/-- The request is pending right after it is made. -/
theorem setbits_start_startKept {s t : State} {a : Unit} (h : setbits .ctl1 (Flag.mask .start) s = .ok (a, t)) :
    t.flag .start = true := by
  obtain ⟨u, w, -, -, rfl⟩ := setbits_ctl1_ok.1 h
  rw [State.flag_pushAcc]
  refine (writeStorage_ctl1_flag w _ .start rfl).trans ?_
  simp [Flag.isSet, Flag.mask, Flag.bit]

/-! ## In every environment -/

/-- `send_start`, taken apart: the request, the wait, and the mark of a START (R98). -/
theorem sendStart_ok {n : Nat} {s t : State} {k : Kind} (h : sendStart n s = .ok (k, t)) :
    ∃ u o w, setbits .ctl1 (Flag.mask .start) s = .ok ((), u) ∧ poll n .st startSample u = .ok (o, w) ∧
      k = o.getD .timeout ∧ t = w.withX (if k = .ok then { w.x with started := true, phase := .started } else w.x) := by
  obtain ⟨_, u, hset, hrest⟩ := Op.bind_ok.1 h
  obtain ⟨j, w, hwait, hend⟩ := orReturn_ok.1 hrest
  obtain ⟨o, hpoll, hj⟩ := pollOrTimeout_ok.1 hwait
  refine ⟨u, o, w, hset, hpoll, ?_⟩
  obtain ⟨rfl, hmark⟩ | ⟨hne, rfl, rfl⟩ := hend
  · cases hmark; exact ⟨hj, rfl⟩
  · exact ⟨hj, by rw [if_neg hne]; rfl⟩

/-- The three ends of the wait of `send_start` (R98). -/
theorem startWait_cases {n : Nat} {u w : State} {o : Option Kind} {vs : List Byte} (h : Samples n .st startSample u w o vs) :
    (o = some .ok ∧ ∃ v, vs.getLast? = some v ∧ v.getLsbD 5 = false ∧ v.getLsbD 1 = true) ∨
      (o = some .busError ∧ ∃ v, vs.getLast? = some v ∧ v.getLsbD 5 = true) ∨
      (o = none ∧ vs.length = n ∧ ∀ v ∈ vs, v.getLsbD 5 = false ∧ v.getLsbD 1 = false) := by
  cases o with
  | none =>
    obtain ⟨hlen, hall⟩ := h.exhausted rfl
    exact .inr (.inr ⟨rfl, hlen, fun v hv => startSample_none.1 (hall v hv)⟩)
  | some k =>
    obtain ⟨v, hv, hk⟩ := h.decided k rfl
    obtain rfl | rfl := startSample_result hk
    · exact .inr (.inl ⟨rfl, v, hv, startSample_busError.1 hk⟩)
    · exact .inl ⟨rfl, v, hv, startSample_ok.1 hk⟩

/-- Where no sample shows a bus error or mastership, the request is still pending. -/
theorem start_pending_of_exhausted {n : Nat} {u w : State} {vs : List Byte} (hu : u.flag .start = true)
    (hpoll : poll n .st startSample u = .ok (none, w)) (h : Samples n .st startSample u w none vs) :
    w.flag .start = true := by
  obtain ⟨-, rfl⟩ | hlast := h.last
  · exact hu
  · have hnone := (h.exhausted rfl).2 _ (List.mem_of_getLast? hlast)
    obtain ⟨hber, hmaster⟩ := startSample_none.1 hnone
    have hber' : w.flag .ber = false := (isSet_readSt (f := .ber) rfl w).symm.trans hber
    have hmaster' : w.flag .master = false := (isSet_readSt (f := .master) rfl w).symm.trans hmaster
    obtain h | h | ⟨h, -⟩ := poll_startKept rfl n startSample _ _ _ hpoll (.inl hu)
    · exact h
    · rw [hber'] at h; cases h
    · rw [hmaster'] at h; cases h

/-- Settles O26: the request and its wait, taken apart; a request that no sample has seen answered is still pending. -/
theorem sendStartOutcomes : Obligations.SendStartOutcomes := by
  intro timeout s hp hi
  obtain ⟨k, t, hbody, -⟩ := sendStart_ends timeout.toNat s hp
  obtain ⟨u, o, w, hset, hpoll, hk, rfl⟩ := sendStart_ok hbody
  obtain ⟨vs, hvs⟩ := poll_samples rfl hpoll
  obtain ⟨c, hc⟩ := setbits_ctl1_acc hset
  have hseq : SeqFrame s w := SeqFrame.along.trans (setbits_seq _ _ _ _ _ hset) (poll_seq _ _ _ _ _ _ hpoll)
  have hconfig := setResult_config (sendStart_config _) hbody
  have hhost : ∀ x, HostFrame s (w.withX x) := fun x => (OuterFrame.along.trans hseq.outer (.withX w x)).host
  have hacc : w.acc = s.acc ++ [.rd .ctl1 c, .wr .ctl1 (c ||| 0x01)] ++ vs.map (fun v => .rd .st v) := by
    rw [hvs.acc, hc]; rfl
  have hundecided : ∀ v ∈ vs.dropLast, v.getLsbD 5 = false ∧ v.getLsbD 1 = false :=
    fun v hv => startSample_none.1 (hvs.undecided v hv)
  refine ⟨_, c, vs, runPrimitive_eq hi rfl hbody, hhost _, hconfig, hacc, hvs.length, hundecided, ?_⟩
  obtain ⟨rfl, hv⟩ | ⟨rfl, hv⟩ | ⟨rfl, hlen, hall⟩ := startWait_cases hvs
  · obtain rfl : k = .ok := hk
    exact .inl ⟨by simp [State.setResult, hseq.x, Kind.code], hv⟩
  · obtain rfl : k = .busError := hk
    exact .inr (.inl ⟨by simp [State.setResult, hseq.x, Kind.code], hv⟩)
  · obtain rfl : k = .timeout := hk
    have hpending := start_pending_of_exhausted (setbits_start_startKept hset) hpoll hvs
    exact .inr (.inr ⟨by simp [State.setResult, hseq.x, Kind.code], hlen, hall, hpending⟩)

/-! ## In an idle environment -/

theorem sendStart_quiet {n : Nat} {s w : State} {k : Kind} (hq : s.quiet)
    (hwait : pollOrTimeout n .st startSample (s.ctl1Set (Flag.mask .start)) = .ok (k, w)) :
    sendStart n s = .ok (k, w.withX (if k = .ok then { w.x with started := true, phase := .started } else w.x)) := by
  refine (Op.bind_eq (setbits_ctl1_quiet hq rfl)).trans (orReturn_ok.2 ⟨k, w, hwait, ?_⟩)
  by_cases hk : k = .ok
  · exact .inl ⟨hk, by rw [if_pos hk, hk]; rfl⟩
  · exact .inr ⟨hk, rfl, by rw [if_neg hk]; rfl⟩

/-- Settles O27: the request, and then a wait that its first sample ends or that no sample ends. -/
theorem sendStartExactly : Obligations.SendStartExactly := by
  intro timeout s hq hi
  have hzero : timeout = 0 ↔ timeout.toNat = 0 := BitVec.toNat_inj.symm
  have hsample : startSample (readValue (s.ctl1Set (Flag.mask .start)) .st) =
      if s.flag .ber = true then some .busError else if s.flag .master = true then some .ok else none :=
    startSample_readValue s
  have hq' : (s.ctl1Set (Flag.mask .start)).quiet := hq
  by_cases hex : timeout = 0 ∨ (s.flag .ber = false ∧ s.flag .master = false)
  · have hnone : timeout.toNat = 0 ∨ startSample (readValue (s.ctl1Set (Flag.mask .start)) .st) = none := by
      refine hex.imp hzero.1 fun ⟨hber, hmaster⟩ => ?_
      rw [hsample, hber, hmaster]; rfl
    have hcount : (if (s.flag .ber || s.flag .master) = true then min 1 timeout.toNat else timeout.toNat) = timeout.toNat := by
      obtain h0 | ⟨hber, hmaster⟩ := hex
      · simp [h0]
      · simp [hber, hmaster]
    rw [if_pos hex, hcount]
    exact runPrimitive_eq hi rfl (sendStart_quiet hq (pollOrTimeout_quiet_exhausted hq' rfl hnone))
  · obtain ⟨hne, hflags⟩ := not_or.1 hex
    have hpos : 0 < timeout.toNat := Nat.pos_of_ne_zero (mt hzero.2 hne)
    have hset : (s.flag .ber || s.flag .master) = true := by
      revert hflags
      cases s.flag .ber <;> cases s.flag .master <;> simp
    rw [if_neg hex, if_pos hset, Nat.min_eq_left hpos]
    by_cases hber : s.flag .ber = true
    · rw [if_pos hber] at hsample ⊢
      exact runPrimitive_eq hi rfl (sendStart_quiet hq (pollOrTimeout_quiet_decided hq' rfl hpos hsample))
    · have hmaster : s.flag .master = true := (Bool.or_eq_true_iff.1 hset).resolve_left hber
      rw [if_neg hber] at hsample ⊢
      rw [if_pos hmaster] at hsample
      exact runPrimitive_eq hi rfl (sendStart_quiet hq (pollOrTimeout_quiet_decided hq' rfl hpos hsample))

end Sys2Proof.Machine
end

section
/-! PROOFS. The dump (44_recovery_and_diagnostics.md R132) and SEND_STOP (42_primitives.md R99). -/

namespace Sys2Proof.Machine

/-! ## The dump in an idle environment -/

theorem afterRead_acc (s : State) (r : RegId) : (afterRead s r).acc = s.acc := by
  cases r
  case data => rw [afterRead_data]
  case brc => obtain ⟨n, hn⟩ := afterRead_brc s; rw [hn]; rfl
  all_goals rfl

theorem afterRead_pushAcc (s : State) (a : Access) (r : RegId) : afterRead (s.pushAcc a) r = (afterRead s r).pushAcc a := by
  cases r
  case data => rw [afterRead_data, afterRead_data]; rfl
  case brc =>
    show (if s.flag .master = true then _ else _) = State.pushAcc (if s.flag .master = true then _ else _) a
    split <;> rfl
  all_goals rfl

/-- Reads of which only the last may have a side effect. -/
theorem readAll_quiet {rs : List RegId} {q : RegId} {s : State} (h : s.quiet) (hrs : ∀ r ∈ rs, r.pureRead = true) :
    readAll (rs ++ [q]) s = .ok ((rs ++ [q]).map (fun r => (r, readValue s r)),
      { afterRead s q with acc := s.acc ++ (rs ++ [q]).map (fun r => .rd r (readValue s r)) }) := by
  induction rs generalizing s with
  | nil =>
    refine (Op.bind_eq (rd_quiet h q)).trans ?_
    rw [State.pushAcc, afterRead_acc]
    rfl
  | cons r rs ih =>
    obtain ⟨hr, hrs⟩ := List.forall_mem_cons.1 hrs
    have hrest := ih (s := s.pushAcc (.rd r (readValue s r))) h hrs
    simp only [readValue_pushAcc, afterRead_pushAcc] at hrest
    refine (Op.bind_eq (rd_pureRead hr (lePoint_quiet h))).trans ((Op.bind_eq hrest).trans ?_)
    simp [State.pushAcc]

/-- The ten registers have been read and the values logged. -/
def State.dumped (s : State) : State :=
  { s with
    log := s.log ++ [.dump (dumpSet.map (fun r => (r, hostByte s.cfg.layout r (readValue s r))))]
    draws := if s.flag .master = true then s.draws + 1 else s.draws
    acc := s.acc ++ dumpSet.map (fun r => .rd r (readValue s r)) }

theorem dump_quiet {s : State} (h : s.quiet) : dump s = .ok ((), s.dumped) := by
  have hbrc : afterRead s .brc = { s with draws := if s.flag .master = true then s.draws + 1 else s.draws } := by
    show (if s.flag .master = true then _ else _) = _
    split <;> rfl
  have hread := readAll_quiet (rs := [.st, .cst, .ctl1, .ctl2, .ctl3, .b0ectl, .b0est, .b0fifctl, .b1fifcts]) (q := .brc) h
    (by decide)
  rw [hbrc] at hread
  exact (Op.bind_eq hread).trans rfl

/-! ## Interleaving points at which nothing happens -/

theorem withEnv_of_env {s : State} {e : Env} (h : s.env = e) : s.withEnv e = s := by subst h; rfl

/-- No event at the next point of a script, or the script has run out. -/
theorem lePoint_still {s : State} {ps : List (List LeEvent)} {i : Nat} (h : s.env = .script (ps.drop i))
    (hnone : (ps.drop i).headD [] = []) : lePoint s = .ok (s.withEnv (.script (ps.drop (i + 1)))) := by
  unfold lePoint
  rw [h, ← List.tail_drop]
  cases hps : ps.drop i with
  | nil => exact congrArg Except.ok (withEnv_of_env (h.trans (congrArg Env.script hps))).symm
  | cons p rest =>
    rw [hps] at hnone
    obtain rfl : p = [] := hnone
    rfl

/-! ## The three accesses of `send_stop` -/

/-- The STOP is requested and the latches are cleared, `x[STARTED]` and `x[PHASE]` with them (R99). -/
def State.stopSent (s : State) : State :=
  { s with
    x := { s.x with started := false, phase := .idle }
    reg := { s.reg with ctl1 := (s.reg.ctl1 &&& 0x97) ||| 0x02, st := s.reg.st &&& 0xC7 }
    acc := s.acc ++ [.rd .ctl1 (s.reg.ctl1 &&& 0x97), .wr .ctl1 ((s.reg.ctl1 &&& 0x97) ||| 0x02), .wr .st 0x38] }

/-- The same before the wait, in which the phase is `STOPPED`. -/
def State.stopWaiting (s : State) : State := s.stopSent.withX { s.x with started := false, phase := .stopped }

/-- Where nothing happens at the first three interleaving points, the three accesses are made as they stand. -/
theorem sendStop_still {s : State} {ps : List (List LeEvent)} {n : Nat} (h : s.env = .script ps)
    (hnone : ∀ i < 3, (ps.drop i).headD [] = []) :
    sendStop n s = (if n = 0 then (do setPhase .idle; pure .ok) else stopWait n : Op Kind)
      (s.stopWaiting.withEnv (.script (ps.drop 3))) := by
  have h0 := lePoint_still (i := 0) h (hnone 0 (by decide))
  have h1 := lePoint_still (s := (s.withEnv (.script (ps.drop 1))).pushAcc (.rd .ctl1 (readValue s .ctl1))) rfl
    (hnone 1 (by decide))
  have h2 := lePoint_still (s := (s.withEnv (.script (ps.drop 2))).ctl1Set (Flag.mask .stop)) rfl (hnone 2 (by decide))
  have hset : setbits .ctl1 (Flag.mask .stop) s = .ok ((), (s.withEnv (.script (ps.drop 2))).ctl1Set (Flag.mask .stop)) :=
    setbits_ctl1_ok.2 ⟨_, _, h0, h1, (afterWrite_ctl1_set (s.withEnv (.script (ps.drop 2))) rfl).symm⟩
  refine (Op.bind_eq hset).trans ((Op.bind_eq (wr_eq h2 .st stLatches)).trans ((Op.bind_eq (modifyX_run _ _)).trans ?_))
  have hlatches : stLatches = 0x38 := rfl
  have hmask : Flag.mask .stop = 0x02 := rfl
  refine congrArg _ ?_
  rw [afterWrite_st, hlatches, hmask]
  simp [State.stopWaiting, State.stopSent, State.ctl1Set, State.withReg, State.withEnv, State.withX, State.pushAcc]

/-- `send_stop(0)` in an idle environment: no poll (R99). -/
theorem sendStop_zero_quiet {s : State} (h : s.quiet) : sendStop 0 s = .ok (.ok, s.stopSent) := by
  rw [sendStop_still (ps := []) h (fun i _ => by simp), if_pos rfl]
  have henv : s.stopWaiting.withEnv (.script []) = s.stopWaiting := withEnv_of_env h
  exact congrArg _ henv

/-! ## The wait -/

theorem stopSample_readValue (s : State) : stopSample (readValue s .ctl1) = if s.flag .stop = true then none else some .ok := by
  unfold stopSample
  rw [isSet_readCtl1 (f := .stop) rfl]

/-- In an idle environment the request stays, so the wait ends with the dump and `Timeout`. -/
theorem stopWait_quiet {s : State} {n : Nat} (h : s.quiet) (hstop : s.flag .stop = true) :
    stopWait n s = .ok (.timeout, ((s.sampled .ctl1 n).withX { s.x with phase := .idle }).dumped) := by
  have hsample : stopSample (readValue s .ctl1) = none := by rw [stopSample_readValue, if_pos hstop]
  refine (Op.bind_eq (poll_quiet_exhausted h rfl (.inr hsample))).trans ((Op.bind_eq (setPhase_run _ _)).trans ?_)
  exact Op.bind_eq (dump_quiet (s := (s.sampled .ctl1 n).withX { s.x with phase := .idle }) h)

/-- One sample is enough when `STOP` reads 0. -/
theorem stopWait_first {s u : State} {n : Nat} (hn : 0 < n) (hu : lePoint s = .ok u) (hstop : u.flag .stop = false) :
    stopWait n s = .ok (.ok, (u.pushAcc (.rd .ctl1 (readValue u .ctl1))).withX { u.x with phase := .idle }) := by
  obtain ⟨n, rfl⟩ := Nat.exists_eq_succ_of_ne_zero (Nat.ne_of_gt hn)
  have hsample : stopSample (readValue u .ctl1) = some .ok := by
    rw [stopSample_readValue, hstop]; rfl
  have hpoll : poll (n + 1) .ctl1 stopSample s = .ok (some .ok, u.pushAcc (.rd .ctl1 (readValue u .ctl1))) := by
    rw [poll, Op.bind_eq (rd_pureRead rfl hu), hsample]; rfl
  exact (Op.bind_eq hpoll).trans (Op.bind_eq (setPhase_run _ _))

/-! ## SEND_STOP -/

theorem stopWaiting_stop (s : State) : s.stopWaiting.flag .stop = true := by
  show ((s.reg.ctl1 &&& 0x97) ||| 0x02).getLsbD 1 = true
  simp

section SendStop
variable {timeout : BitVec 24} {s : State} (hi : s.initialised = true)
  (hphase : s.x.phase = .started ∨ s.x.phase = .addressed ∨ s.x.phase = .data)
include hi hphase

theorem execSendStop_polled (hp : s.polled) : ∃ t k, exec (.sendStop timeout) s = .next (t.setResult k) ∧
    StopOutcome timeout.toNat s t k ∧ ConfigFrame s (t.setResult k) := by
  obtain ⟨k, t, hbody, -⟩ := sendStop_ends timeout.toNat s hp
  exact ⟨t, k, runPrimitive_eq hi (legalStop_of_phase hphase) hbody, sendStop_spec hbody,
    setResult_config (sendStop_config _) hbody⟩

theorem execSendStop_zero (hq : s.quiet) (h0 : timeout = 0) : exec (.sendStop timeout) s = .next (s.stopSent.endedWith 0) := by
  subst h0
  exact runPrimitive_eq hi (legalStop_of_phase hphase) (sendStop_zero_quiet hq)

theorem execSendStop_timeout (hq : s.quiet) (hpos : 0 < timeout.toNat) :
    exec (.sendStop timeout) s = .next (((s.stopSent.sampled .ctl1 timeout.toNat).dumped).endedWith 3) := by
  have henv : s.stopWaiting.withEnv (.script []) = s.stopWaiting := withEnv_of_env hq
  have hbody := sendStop_still (ps := []) (n := timeout.toNat) hq (fun i _ => by simp)
  rw [if_neg (Nat.ne_of_gt hpos), List.drop_nil, henv, stopWait_quiet (s := s.stopWaiting) hq (stopWaiting_stop s)] at hbody
  exact runPrimitive_eq hi (legalStop_of_phase hphase) hbody

/-- The line engine first moves at the first sample. -/
theorem execSendStop_first {evs : List LeEvent} {rest : List (List LeEvent)} {w : State}
    (henv : s.env = .script ([] :: [] :: [] :: evs :: rest)) (hpos : 0 < timeout.toNat)
    (hw : fireAll evs (s.stopSent.withEnv (.script rest)) = .ok w) (hstop : w.flag .stop = false) :
    exec (.sendStop timeout) s = .next { w.endedWith 0 with acc := w.acc ++ [.rd .ctl1 (w.reg.ctl1 &&& 0x97)] } := by
  have hx : w.x = s.stopSent.x := (lePoint_frame (s := s.stopSent.withEnv (.script (evs :: rest))) hw).x
  have hpoint : lePoint (s.stopWaiting.withEnv (.script (evs :: rest))) = .ok (w.withX s.stopWaiting.x) := by
    have hfire := fireAll_withX evs (s.stopSent.withEnv (.script rest)) s.stopWaiting.x
    rw [hw] at hfire
    exact hfire
  have hstill : ∀ i < 3, (([] :: [] :: [] :: evs :: rest).drop i).headD [] = [] := fun i hi3 => by
    interval_cases i <;> rfl
  have hbody := sendStop_still (n := timeout.toNat) henv hstill
  have hwait := hbody.trans ((congrFun (if_neg (Nat.ne_of_gt hpos)) _).trans (stopWait_first hpos hpoint hstop))
  have hexec : exec (.sendStop timeout) s = _ := runPrimitive_eq hi (legalStop_of_phase hphase) hwait
  rw [hexec, State.endedWith, hx]
  rfl

end SendStop

/-- Settles O28: in every environment from what `send_stop` leaves of the sequencer; exactly, from its three accesses and the
wait after them. -/
theorem sendStopOutcomes : Obligations.SendStopOutcomes := by
  refine ⟨fun timeout s hp hi hphase => ?_, fun timeout s m vals hi hphase hm hvals => ?_⟩
  · obtain ⟨t, k, hexec, hstop, hconfig⟩ := execSendStop_polled (timeout := timeout) hi hphase hp
    refine ⟨_, hexec, hconfig, ?_, fun a => congrArg (·.read a) hstop.buf, hstop.cp, hstop.program, hstop.cfg, ?_⟩
    · simp [State.setResult, hstop.x]
    · obtain ⟨rfl, hlog⟩ | ⟨rfl, hpos, vals, hvals, hlog⟩ := hstop.result
      · exact .inl ⟨rfl, hlog⟩
      · exact .inr ⟨rfl, hpos, vals, hlog, hvals⟩
  · obtain rfl : m = s.stopSent := hm
    subst hvals
    refine ⟨fun hq h0 => execSendStop_zero hi hphase hq h0, fun hq hpos => ?_, fun evs rest w henv hpos hw hstop =>
      execSendStop_first hi hphase henv hpos hw hstop⟩
    have hmaster : s.stopSent.flag .master = s.flag .master := by
      show (s.reg.st &&& 0xC7).getLsbD 1 = s.reg.st.getLsbD 1
      simp
    have hread : readValue s.stopSent .ctl1 = (s.reg.ctl1 &&& 0x97) ||| 0x02 := ctl1_stored s.reg.ctl1 rfl
    rw [execSendStop_timeout hi hphase hq hpos, ← hread, ← hmaster, List.map_map, List.map_map]
    rfl

end Sys2Proof.Machine
end

section
/-! PROOFS. SEND_ADDRESS (42_primitives.md R100). -/

namespace Sys2Proof.Machine

/-! ## The samples of the stall wait and the inspection -/

theorem stallSample_none {v : Byte} : stallSample v = none ↔ v.getLsbD 3 = false ∧ v.getLsbD 5 = false := by
  unfold stallSample Flag.isSet Flag.bit
  cases v.getLsbD 3 <;> cases v.getLsbD 5 <;> simp

theorem stallSample_some {v : Byte} {k : Kind} (h : stallSample v = some k) : v.getLsbD 3 = true ∨ v.getLsbD 5 = true := by
  by_contra hne
  rw [not_or, Bool.not_eq_true, Bool.not_eq_true] at hne
  rw [stallSample_none.2 hne] at h
  cases h

theorem stallSample_isSome (s : State) : (stallSample (readValue s .st)).isSome = (s.flag .stastr || s.flag .ber) := by
  unfold stallSample
  rw [isSet_readSt (f := .stastr) rfl, isSet_readSt (f := .ber) rfl]
  cases s.flag .stastr || s.flag .ber <;> rfl

theorem inspect_code (v : Byte) :
    (inspect v).code = if v.getLsbD 4 = true then 1 else if v.getLsbD 5 = true then 2 else 0 := by
  unfold inspect
  rw [apply_ite Kind.code, apply_ite Kind.code]
  rfl

theorem inspect_readValue (s : State) : inspect (readValue s .st) =
    if s.flag .negack = true then .nack else if s.flag .ber = true then .busError else .ok := by
  unfold inspect
  rw [isSet_readSt (f := .negack) rfl, isSet_readSt (f := .ber) rfl]

/-- The inspection, once the line engine's moves before it are known. -/
theorem inspectAddress_eq {s u : State} (hu : lePoint s = .ok u) :
    inspectAddress s = .ok (inspect (readValue u .st), (u.pushAcc (.rd .st (readValue u .st))).withX
      (if inspect (readValue u .st) = .ok then { u.x with phase := .addressed } else u.x)) := by
  rw [inspectAddress, Op.bind_eq (rd_pureRead rfl hu)]
  obtain hv | hv | hv := inspect_result (readValue u .st) <;> rw [hv] <;> rfl

theorem inspectAddress_ok {s t : State} {k : Kind} (h : inspectAddress s = .ok (k, t)) :
    ∃ v, k = inspect v ∧ t.acc = s.acc ++ [.rd .st v] := by
  obtain ⟨v, w, hrd, -⟩ := Op.bind_ok.1 h
  obtain ⟨u, hu, -, -⟩ := rd_ok.1 hrd
  cases (inspectAddress_eq hu).symm.trans h
  refine ⟨_, rfl, ?_⟩
  rw [State.withX_acc, State.pushAcc_acc, (lePoint_frame hu).acc]

/-! ## In every environment -/

/-- `send_address` with a stall, taken apart; how the wait ends is not looked at (R100). -/
theorem sendAddress_stall_ok {b : Byte} {s t : State} {k : Kind} (h : sendAddress b true s = .ok (k, t)) :
    ∃ u w o y, setbits .ctl1 (Flag.mask .stastre) s = .ok ((), u) ∧ wr .data b u = .ok ((), w) ∧
      poll s.cfg.tStall .st stallSample w = .ok (o, y) ∧ inspectAddress y = .ok (k, t) := by
  obtain ⟨_, u, hset, h⟩ := Op.bind_ok.1 h
  obtain ⟨_, w, hwr, h⟩ := Op.bind_ok.1 h
  obtain ⟨c, _, hc, h⟩ := Op.bind_ok.1 h
  cases hc
  obtain ⟨o, y, hpoll, h⟩ := Op.bind_ok.1 h
  have hcfg : w.cfg = s.cfg := (SeqFrame.along.trans (setbits_seq _ _ _ _ _ hset) (wr_seq _ _ _ _ _ hwr)).cfg
  exact ⟨u, w, o, y, hset, hwr, hcfg ▸ hpoll, h⟩

section Polled
variable {byte : Byte} {s : State} (hp : s.polled) (hi : s.initialised = true) (hphase : s.x.phase = .started)
include hp hi hphase

theorem execSendAddress_polled (stall : Bool) : ∃ t k, sendAddress byte stall s = .ok (k, t) ∧
    exec (.sendAddress stall byte) s = .next (t.setResult k) := by
  obtain ⟨k, t, hbody, -⟩ := sendAddress_ends byte stall s hp
  exact ⟨t, k, hbody, runPrimitive_eq hi (legalAddress_of_phase hphase) hbody⟩

end Polled

/-- Settles O29, from what `send_address` leaves of the sequencer. -/
theorem sendAddressOutcomes : Obligations.SendAddressOutcomes := by
  intro stall byte s hp hi hphase
  obtain ⟨t, k, hbody, hexec⟩ := execSendAddress_polled (byte := byte) hp hi hphase stall
  have hconfig := setResult_config (sendAddress_config _ _) hbody
  obtain ⟨u, hu, hend⟩ := sendAddress_spec hbody
  have hhost : ∀ x, HostFrame s (u.withX x) := fun x => (OuterFrame.along.trans hu.outer (.withX u x)).host
  obtain ⟨rfl, rfl⟩ | ⟨rfl | rfl, rfl⟩ := hend
  · exact ⟨_, hexec, hhost _, hconfig, .inl (by simp [State.setResult, hu.x, Kind.code])⟩
  · exact ⟨_, hexec, hhost _, hconfig, .inr (.inl (by simp [State.setResult, hu.x, Kind.code]))⟩
  · exact ⟨_, hexec, hhost _, hconfig, .inr (.inr (by simp [State.setResult, hu.x, Kind.code]))⟩

/-- The accesses of `send_address` with a stall. -/
theorem sendAddress_stall_samples {b : Byte} {s t : State} {k : Kind} (h : sendAddress b true s = .ok (k, t)) :
    ∃ (c : Byte) (waits : List Byte) (v : Byte),
      t.acc = s.acc ++ [.rd .ctl1 c, .wr .ctl1 (c ||| 0x80), .wr .data b] ++ waits.map (fun w => .rd .st w) ++ [.rd .st v] ∧
      waits.length ≤ s.cfg.tStall ∧
      (∀ w ∈ waits.dropLast, w.getLsbD 3 = false ∧ w.getLsbD 5 = false) ∧
      (waits.length < s.cfg.tStall → ∃ w, waits.getLast? = some w ∧ (w.getLsbD 3 = true ∨ w.getLsbD 5 = true)) ∧
      k = inspect v := by
  obtain ⟨u, w, o, y, hset, hwr, hpoll, hinspect⟩ := sendAddress_stall_ok h
  obtain ⟨c, hc⟩ := setbits_ctl1_acc hset
  obtain ⟨vs, hvs⟩ := poll_samples rfl hpoll
  obtain ⟨v, hk, hv⟩ := inspectAddress_ok hinspect
  refine ⟨c, vs, v, ?_, hvs.length, fun w hw => stallSample_none.1 (hvs.undecided w hw), fun hlt => ?_, hk⟩
  · have hmask : Flag.mask .stastre = 0x80 := rfl
    rw [hv, hvs.acc, wr_data_acc hwr, hc, hmask]
    simp
  · cases o with
    | none => exact absurd (hvs.exhausted rfl).1 (Nat.ne_of_lt hlt)
    | some j =>
      obtain ⟨w, hw, hj⟩ := hvs.decided j rfl
      exact ⟨w, hw, stallSample_some hj⟩

/-! ## In an idle environment -/

/-- The sequencer registers after the inspection of `s`. -/
def State.inspectedX (s : State) : SeqRegs :=
  if s.flag .negack = true then { s.x with result := 1 }
  else if s.flag .ber = true then { s.x with result := 2 }
  else { s.x with phase := .addressed, result := 0 }

theorem inspectAddress_quiet {s : State} (h : s.quiet) : ∃ k t, inspectAddress s = .ok (k, t) ∧
    t.setResult k = (s.pushAcc (.rd .st (readValue s .st))).withX s.inspectedX := by
  refine ⟨_, _, inspectAddress_eq (lePoint_quiet h), ?_⟩
  rw [inspect_readValue, State.inspectedX]
  split
  · rfl
  · split <;> rfl

theorem dataWritten_inspectedX (s : State) (b : Byte) : (s.dataWritten b).inspectedX = s.inspectedX := by
  rw [State.inspectedX, dataWritten_flag _ _ (by decide), dataWritten_flag _ _ (by decide)]
  rfl

/-- Setting other bits of `CTL1` than `START` does not change how a byte is queued. -/
theorem txKindOf_ctl1Set (s : State) {m : Byte} (hm : m.getLsbD 0 = false) : txKindOf (s.ctl1Set m) = txKindOf s := by
  have hstart : (s.ctl1Set m).flag .start = s.flag .start := by
    show ((s.reg.ctl1 &&& 0x97) ||| m).getLsbD 0 = s.reg.ctl1.getLsbD 0
    rw [BitVec.getLsbD_or, hm]
    simp
  unfold txKindOf
  rw [hstart]
  rfl

section Quiet
variable {s : State} (h : s.quiet) (b : Byte)
include h

theorem sendAddress_quiet : ∃ k t, sendAddress b false s = .ok (k, t) ∧
    t.setResult k =
      ((s.dataWritten b).pushAcc (.rd .st (readValue (s.dataWritten b) .st))).withX (s.dataWritten b).inspectedX := by
  obtain ⟨k, t, hinspect, ht⟩ := inspectAddress_quiet (s := s.dataWritten b) h
  exact ⟨k, t, (Op.bind_eq (wr_data_quiet h b)).trans hinspect, ht⟩

/-- With a stall: the request, the byte, and a wait of which only the number of samples is seen afterwards. -/
theorem sendAddress_stall_quiet {q : State} (hq : q = ((s.ctl1Set 0x80).dataWritten b).sampled .st
    (if (s.flag .stastr || s.flag .ber) = true then min 1 s.cfg.tStall else s.cfg.tStall)) :
    ∃ k t, sendAddress b true s = .ok (k, t) ∧
      t.setResult k = (q.pushAcc (.rd .st (readValue q .st))).withX q.inspectedX := by
  have hstall : (stallSample (readValue ((s.ctl1Set 0x80).dataWritten b) .st)).isSome = (s.flag .stastr || s.flag .ber) := by
    rw [stallSample_isSome, dataWritten_flag _ _ (by decide), dataWritten_flag _ _ (by decide)]
    rfl
  obtain ⟨o, hpoll⟩ := poll_quiet (r := .st) (s := (s.ctl1Set 0x80).dataWritten b) h rfl s.cfg.tStall stallSample
  rw [hstall, ← hq] at hpoll
  obtain ⟨k, t, hinspect, ht⟩ := inspectAddress_quiet (s := q) (by rw [hq]; exact h)
  have hset : setbits .ctl1 (Flag.mask .stastre) s = .ok ((), s.ctl1Set 0x80) := setbits_ctl1_quiet h rfl
  refine ⟨k, t, (Op.bind_eq hset).trans ((Op.bind_eq (wr_data_quiet (s := s.ctl1Set 0x80) h b)).trans ?_), ht⟩
  exact (Op.bind_eq (getCfg_run _)).trans ((Op.bind_eq hpoll).trans hinspect)

end Quiet

/-- Settles O30: exactly in an idle environment, and in every environment by its accesses. -/
theorem sendAddressExactly : Obligations.SendAddressExactly := by
  refine ⟨fun byte s x le hq hi hphase hx hle => ⟨?_, ?_⟩, fun byte s hp hi hphase => ?_⟩
  · obtain ⟨k, t, hbody, ht⟩ := sendAddress_quiet hq byte
    have hexec : exec (.sendAddress false byte) s = _ := runPrimitive_eq hi (legalAddress_of_phase hphase) hbody
    have hx' : s.inspectedX = x := hx.symm
    rw [hexec, ht, dataWritten_inspectedX, hx', readSt_dataWritten, hle, ← txKindOf_eq]
    simp [State.dataWritten, State.pushAcc, State.withX]
  · obtain ⟨k, t, hbody, ht⟩ := sendAddress_stall_quiet hq byte rfl
    have hexec : exec (.sendAddress true byte) s = _ := runPrimitive_eq hi (legalAddress_of_phase hphase) hbody
    rw [hexec, ht, hle, ← txKindOf_eq]
    generalize (if (s.flag .stastr || s.flag .ber) = true then min 1 s.cfg.tStall else s.cfg.tStall) = n
    have hx' : (((s.ctl1Set 0x80).dataWritten byte).sampled .st n).inspectedX = x :=
      (dataWritten_inspectedX _ _).trans hx.symm
    have hread : readValue (((s.ctl1Set 0x80).dataWritten byte).sampled .st n) .st = s.reg.st &&& 0x3A :=
      readSt_dataWritten _ _
    rw [hx', hread, State.sampled, readSt_dataWritten, State.dataWritten, txKindOf_ctl1Set s (by decide)]
    simp [State.ctl1Set, State.pushAcc, State.withX]
  · obtain ⟨t, k, hbody, hexec⟩ := execSendAddress_polled (byte := byte) hp hi hphase true
    obtain ⟨c, waits, v, hacc, hlen, hwaits, hend, rfl⟩ := sendAddress_stall_samples hbody
    exact ⟨_, c, waits, v, hexec, hacc, hlen, hwaits, hend, inspect_code v⟩

end Sys2Proof.Machine
end

section
/-! PROOFS. The waits of the data phase, SEND_BYTE, RECV_BYTE and RECV_LAST exactly, in an idle environment
(42_primitives.md R101, R102, R106 to R108). -/

namespace Sys2Proof.Machine

/-! ## The two waits -/

/-- What a sample of `ST` says of the fields it shows. -/
theorem dataReadySample_readValue (s : State) : dataReadySample (readValue s .st) =
    if s.flag .negack = true then some .nack else if s.flag .ber = true then some .busError
    else if s.flag .sdast = true then some .ok else none := by
  unfold dataReadySample
  rw [isSet_readSt (f := .negack) rfl, isSet_readSt (f := .ber) rfl, isSet_readSt (f := .sdast) rfl]

theorem dataReadySample_decided {s : State} (h : (s.flag .negack || s.flag .ber || s.flag .sdast) = true) :
    ∃ k, dataReadySample (readValue s .st) = some k ∧
      k.code = if s.flag .negack = true then 1 else if s.flag .ber = true then 2 else 0 := by
  rw [dataReadySample_readValue]
  by_cases hnegack : s.flag .negack = true
  · exact ⟨.nack, if_pos hnegack, (if_pos hnegack).symm⟩
  · rw [if_neg hnegack, if_neg hnegack]
    by_cases hber : s.flag .ber = true
    · exact ⟨.busError, if_pos hber, (if_pos hber).symm⟩
    · have hsdast : s.flag .sdast = true := by simpa [hnegack, hber] using h
      exact ⟨.ok, by rw [if_neg hber, if_pos hsdast], (if_neg hber).symm⟩

theorem dataReadySample_undecided {s : State} (h : ¬(s.flag .negack || s.flag .ber || s.flag .sdast) = true) :
    dataReadySample (readValue s .st) = none := by
  rw [dataReadySample_readValue]
  simp only [Bool.or_eq_true, not_or] at h
  obtain ⟨⟨hnegack, hber⟩, hsdast⟩ := h
  rw [if_neg hnegack, if_neg hber, if_neg hsdast]

theorem ackClearedSample_readValue (s : State) :
    ackClearedSample (readValue s .ctl1) = if s.flag .ack = true then none else some .ok := by
  unfold ackClearedSample
  rw [isSet_readCtl1 (f := .ack) rfl]

/-- The phase of a wait for data (R101, R102). -/
def State.atData (s : State) : State := s.withX { s.x with phase := .data }

section Waits
variable {s : State} {n : Nat} (h : s.quiet)
include h

theorem pollDataReady_quiet_decided {k : Kind} (hn : 0 < n) (hk : dataReadySample (readValue s .st) = some k) :
    pollDataReady n s = .ok (k, s.atData.sampled .st 1) :=
  (Op.bind_eq (setPhase_run _ _)).trans (pollOrTimeout_quiet_decided (s := s.atData) h rfl hn hk)

theorem pollDataReady_quiet_exhausted (hk : n = 0 ∨ dataReadySample (readValue s .st) = none) :
    pollDataReady n s = .ok (.timeout, s.atData.sampled .st n) :=
  (Op.bind_eq (setPhase_run _ _)).trans (pollOrTimeout_quiet_exhausted (s := s.atData) h rfl hk)

/-- Data-ready at the first sample. -/
theorem pollDataReady_quiet_ready
    (hready : 0 < n ∧ s.flag .negack = false ∧ s.flag .ber = false ∧ s.flag .sdast = true) :
    pollDataReady n s = .ok (.ok, s.atData.sampled .st 1) := by
  obtain ⟨hn, hnegack, hber, hsdast⟩ := hready
  refine pollDataReady_quiet_decided h hn ?_
  rw [dataReadySample_readValue, hnegack, hber, hsdast]
  rfl

theorem pollDataReady_quiet_failed
    (hready : ¬(0 < n ∧ s.flag .negack = false ∧ s.flag .ber = false ∧ s.flag .sdast = true)) :
    ∃ k t, pollDataReady n s = .ok (k, t) ∧ k ≠ .ok ∧ t.setResult k = s.dataWaitFailed n := by
  unfold State.dataWaitFailed
  by_cases hfail : (s.flag .negack || s.flag .ber) = true ∧ 0 < n
  · obtain ⟨hlatch, hn⟩ := hfail
    obtain ⟨k, hk, hcode⟩ := dataReadySample_decided (s := s) (by rw [hlatch]; rfl)
    have hcode' : k.code = if s.flag .negack = true then 1 else 2 := by
      rw [hcode]
      revert hlatch
      cases s.flag .negack <;> cases s.flag .ber <;> simp
    have hne : k ≠ .ok := by
      rintro rfl
      revert hcode'
      cases s.flag .negack <;> decide
    rw [if_pos ⟨hlatch, hn⟩, ← hcode']
    exact ⟨k, _, pollDataReady_quiet_decided h hn hk, hne, rfl⟩
  · have hnone : n = 0 ∨ dataReadySample (readValue s .st) = none := by
      refine or_iff_not_imp_left.2 fun hn => dataReadySample_undecided fun hany => ?_
      have hpos := Nat.pos_of_ne_zero hn
      revert hany hready hfail
      cases s.flag .negack <;> cases s.flag .ber <;> cases s.flag .sdast <;> simp [hpos]
    rw [if_neg hfail]
    exact ⟨.timeout, _, pollDataReady_quiet_exhausted h hnone, by decide, rfl⟩

theorem pollAckCleared_quiet_cleared (hn : 0 < n) (hack : s.flag .ack = false) :
    pollAckCleared n s = .ok (.ok, s.atData.sampled .ctl1 1) := by
  have hsample : ackClearedSample (readValue s .ctl1) = some .ok := by
    rw [ackClearedSample_readValue, hack]; rfl
  exact (Op.bind_eq (setPhase_run _ _)).trans (pollOrTimeout_quiet_decided (s := s.atData) h rfl hn hsample)

theorem pollAckCleared_quiet_failed (hcleared : ¬(0 < n ∧ s.flag .ack = false)) :
    pollAckCleared n s = .ok (.timeout, s.atData.sampled .ctl1 n) := by
  have hnone : n = 0 ∨ ackClearedSample (readValue s .ctl1) = none := by
    refine or_iff_not_imp_left.2 fun hn => ?_
    rw [ackClearedSample_readValue, if_pos]
    by_contra hack
    exact hcleared ⟨Nat.pos_of_ne_zero hn, by simpa using hack⟩
  exact (Op.bind_eq (setPhase_run _ _)).trans (pollOrTimeout_quiet_exhausted (s := s.atData) h rfl hnone)

end Waits

/-- Settles O31: the first sample decides when a flag is set, and no sample does otherwise. -/
theorem pollDataReadySamples : Obligations.PollDataReadySamples := by
  intro timeout s hq hi hphase
  have hlegal := legalData_of_phase hphase
  by_cases hc : (s.flag .negack || s.flag .ber || s.flag .sdast) = true ∧ 0 < timeout.toNat
  · obtain ⟨k, hk, hcode⟩ := dataReadySample_decided hc.1
    rw [if_pos hc, ← hcode]
    exact runPrimitive_eq hi hlegal (pollDataReady_quiet_decided hq hc.2 hk)
  · have hnone : timeout.toNat = 0 ∨ dataReadySample (readValue s .st) = none := by
      refine or_iff_not_imp_left.2 fun hn => dataReadySample_undecided fun hany => ?_
      exact hc ⟨hany, Nat.pos_of_ne_zero hn⟩
    rw [if_neg hc]
    exact runPrimitive_eq hi hlegal (pollDataReady_quiet_exhausted hq hnone)

/-- Settles O32: `CTL1.ACK` does not change in an idle environment, so the first sample decides or none does. -/
theorem pollAckClearedSamples : Obligations.PollAckClearedSamples := by
  intro timeout s hq hi hphase
  have hlegal := legalData_of_phase hphase
  by_cases hc : s.flag .ack = false ∧ 0 < timeout.toNat
  · rw [if_pos hc]
    exact runPrimitive_eq hi hlegal (pollAckCleared_quiet_cleared hq hc.2 hc.1)
  · rw [if_neg hc]
    exact runPrimitive_eq hi hlegal (pollAckCleared_quiet_failed hq (mt And.symm hc))

/-! ## A wait and what follows it -/

section OrReturn
variable {wait rest : Op Kind} {s t u : State} {j k : Kind}

theorem orReturn_of_ok (hwait : wait s = .ok (.ok, t)) (hrest : rest t = .ok (k, u)) : orReturn wait rest s = .ok (k, u) :=
  orReturn_ok.2 ⟨.ok, t, hwait, .inl ⟨rfl, hrest⟩⟩

theorem orReturn_of_ne (hwait : wait s = .ok (k, t)) (hk : k ≠ .ok) : orReturn wait rest s = .ok (k, t) :=
  orReturn_ok.2 ⟨k, t, hwait, .inr ⟨hk, rfl, rfl⟩⟩

end OrReturn

/-- Settles O33: a wait that succeeds at its first sample, and the write of `DATA` after it; or the failed wait alone. -/
theorem sendByteWrites : Obligations.SendByteWrites := by
  intro byte s hq hi hphase
  have hlegal := legalData_of_phase hphase
  by_cases hc : 0 < s.cfg.tSda ∧ s.flag .negack = false ∧ s.flag .ber = false ∧ s.flag .sdast = true
  · have hwait := pollDataReady_quiet_ready hq hc
    have hwrite : (do wr .data byte; pure .ok : Op Kind) (s.atData.sampled .st 1) =
        .ok (.ok, (s.atData.sampled .st 1).dataWritten byte) :=
      Op.bind_eq (wr_data_quiet (s := s.atData.sampled .st 1) hq byte)
    have hbody : sendByteBody byte s = _ := (Op.bind_eq (getCfg_run s)).trans (orReturn_of_ok hwait hwrite)
    have hexec : exec (.sendByte byte) s = _ := runPrimitive_eq hi hlegal hbody
    rw [if_pos hc, hexec, ← txKindOf_eq, List.append_cons s.acc]
    rfl
  · obtain ⟨k, t, hwait, hne, hfailed⟩ := pollDataReady_quiet_failed hq hc
    have hbody : sendByteBody byte s = _ := (Op.bind_eq (getCfg_run s)).trans (orReturn_of_ne hwait hne)
    rw [if_neg hc, ← hfailed]
    exact runPrimitive_eq hi hlegal hbody

/-! ## The read of `DATA` and the NACK request -/

/-- The hidden state after a read of `DATA` (20_memory.md R56). -/
def State.rearmed (s : State) : LeState := if rearms s = true then { s.le with owed := .rxByte } else s.le

theorem rearmed_eq (s : State) : s.rearmed =
    if s.flag .master = true ∧ s.le.dir = .rx ∧ s.le.addrPhase = false ∧ s.le.last = false then
      { s.le with owed := .rxByte } else s.le := if_congr (rearms_iff s) rfl rfl

/-- `DATA` has been read into `x[RDATA]`. -/
def State.byteTaken (s : State) : State :=
  { s with
    x := { s.x with rdata := s.reg.data }
    reg := { s.reg with st := s.reg.st &&& 0xBF }
    le := s.rearmed
    acc := s.acc ++ [.rd .data s.reg.data] }

/-- A read of `DATA` into `x[RDATA]`, once the line engine's moves before it are known. -/
theorem takeByte_eq {f : Unit → Op Kind} {s u : State} (hu : lePoint s = .ok u) :
    (rd .data >>= fun v => setRdata v >>= f) s = f () u.byteTaken := by
  refine (Op.bind_eq (rd_eq hu .data)).trans ((Op.bind_eq (setRdata_run _ _)).trans ?_)
  rw [afterRead_data, ← rearmed_eq]
  rfl

/-- The line engine does not move between the two accesses: because they are one step with the read of `DATA` (R117), or because
it is idle. -/
theorem requestNackAfterRead_eq {s : State} (h : s.cfg.atomicNackLookahead = true ∨ s.quiet) :
    requestNackAfterRead s = .ok ((), s.ctl1Set 0x10) := by
  refine (Op.bind_eq (getCfg_run s)).trans ?_
  by_cases hatomic : s.cfg.atomicNackLookahead = true
  · rw [if_pos hatomic]
    refine (Op.bind_eq (rdNow_run .ctl1 s)).trans ?_
    exact congrArg (fun t => Except.ok ((), t)) (afterWrite_ctl1_set s (m := 0x10) rfl)
  · rw [if_neg hatomic]
    exact setbits_ctl1_quiet (h.resolve_left hatomic) rfl

/-! ## RECV_BYTE -/

/-- The byte has been received and, with `NACKNEXT`, the NACK of the next one requested. -/
def State.byteReceived (s : State) (nackNext : Bool) : State :=
  if nackNext = true then s.byteTaken.ctl1Set 0x10 else s.byteTaken

section RecvByte
variable {nackNext : Bool} {s p u : State} (hwait : pollDataReady s.cfg.tSda s = .ok (.ok, p)) (hu : lePoint p = .ok u)
  (hnack : nackNext = false ∨ u.cfg.atomicNackLookahead = true ∨ u.quiet)
include hwait hu hnack

theorem recvByteBody_eq : recvByteBody nackNext s = .ok (.ok, u.byteReceived nackNext) := by
  refine (Op.bind_eq (getCfg_run s)).trans (orReturn_of_ok hwait ((takeByte_eq hu).trans ?_))
  cases nackNext with
  | false => rfl
  | true =>
    have h : u.byteTaken.cfg.atomicNackLookahead = true ∨ u.byteTaken.quiet := hnack.resolve_left (by decide)
    exact Op.bind_eq (requestNackAfterRead_eq h)

theorem execRecvByte_eq (hi : s.initialised = true) (hphase : s.x.phase = .addressed ∨ s.x.phase = .data) :
    exec (.recvByte nackNext) s = .next { u with
      x := { u.x with rdata := u.reg.data, result := 0 }
      reg := { u.reg with st := u.reg.st &&& 0xBF,
                          ctl1 := if nackNext = true then (u.reg.ctl1 &&& 0x97) ||| 0x10 else u.reg.ctl1 }
      le := if u.flag .master = true ∧ u.le.dir = .rx ∧ u.le.addrPhase = false ∧ u.le.last = false then
          { u.le with owed := .rxByte } else u.le
      acc := u.acc ++ [.rd .data u.reg.data] ++
        (if nackNext = true then [.rd .ctl1 (u.reg.ctl1 &&& 0x97), .wr .ctl1 ((u.reg.ctl1 &&& 0x97) ||| 0x10)] else []) } := by
  have hexec : exec (.recvByte nackNext) s = _ :=
    runPrimitive_eq hi (legalData_of_phase hphase) (recvByteBody_eq hwait hu hnack)
  rw [hexec, ← rearmed_eq]
  cases nackNext with
  | true => rfl
  | false =>
    rw [if_neg (by decide), if_neg (by decide), List.append_nil]
    rfl

end RecvByte

/-- Settles O34: a wait that succeeds, and the read and the NACK request in one step after it; or the failed wait alone. -/
theorem recvByteReads : Obligations.RecvByteReads := by
  refine ⟨fun nackNext s p u hi hphase hwait hu hnack => ?_, fun nackNext s hq hi hphase => ?_⟩
  · have hseq := SeqFrame.along.trans (pollDataReady_spec hwait).1 (lePoint_frame hu).seq
    have hnack' : nackNext = false ∨ u.cfg.atomicNackLookahead = true ∨ u.quiet :=
      hnack.imp_right fun h => .inl (hseq.cfg ▸ h)
    rw [execRecvByte_eq hwait hu hnack' hi hphase, hseq.x]
    rfl
  · by_cases hc : 0 < s.cfg.tSda ∧ s.flag .negack = false ∧ s.flag .ber = false ∧ s.flag .sdast = true
    · have hwait := pollDataReady_quiet_ready hq hc
      have hpoint := lePoint_quiet (s := s.atData.sampled .st 1) hq
      rw [if_pos hc, execRecvByte_eq hwait hpoint (.inr (.inr hq)) hi hphase, List.append_cons s.acc]
      rfl
    · obtain ⟨k, t, hwait, hne, hfailed⟩ := pollDataReady_quiet_failed hq hc
      have hbody : recvByteBody nackNext s = _ := (Op.bind_eq (getCfg_run s)).trans (orReturn_of_ne hwait hne)
      rw [if_neg hc, ← hfailed]
      exact runPrimitive_eq hi (legalData_of_phase hphase) hbody

/-! ## RECV_LAST -/

/-- The STOP has been sent, the final byte taken and the NACK latch cleared (R108). -/
def State.lastReceived (s : State) : State :=
  { s with
    x := { s.x with started := false, phase := .idle, rdata := s.reg.data }
    reg := { s.reg with ctl1 := (s.reg.ctl1 &&& 0x97) ||| 0x02, st := s.reg.st &&& 0x87 }
    le := s.rearmed
    acc := s.acc ++ [.rd .ctl1 (s.reg.ctl1 &&& 0x97), .wr .ctl1 ((s.reg.ctl1 &&& 0x97) ||| 0x02), .wr .st 0x38,
      .rd .data s.reg.data, .wr .st 0x10] }

theorem readTail_quiet {s : State} (h : s.quiet) : readTail setRdata s = .ok (.ok, s.lastReceived) := by
  have hmaster : s.stopSent.flag .master = s.flag .master := by
    show (s.reg.st &&& 0xC7).getLsbD 1 = s.reg.st.getLsbD 1
    simp
  have hrearmed : s.stopSent.rearmed = s.rearmed := by
    rw [rearmed_eq, rearmed_eq, hmaster]; rfl
  have hst : s.reg.st &&& 0x87 = s.reg.st &&& 0xC7 &&& 0xBF &&& 0xEF := by
    rw [BitVec.and_assoc, BitVec.and_assoc]; rfl
  have hacc (a b c d e : Access) : s.acc ++ [a, b, c, d, e] = s.acc ++ [a, b, c] ++ [d] ++ [e] := by simp
  refine (Op.bind_eq (sendStop_zero_quiet h)).trans ((takeByte_eq (lePoint_quiet (s := s.stopSent) h)).trans ?_)
  refine (Op.bind_eq (wr_quiet (s := s.stopSent.byteTaken) h .st (Flag.mask .negack))).trans ?_
  rw [State.lastReceived, hst, hacc, ← hrearmed]
  rfl

/-- The wait that RECV_LAST makes (R108). -/
def lastWait (ackWait : Bool) (c : Config) : Op Kind := if ackWait then pollAckCleared c.tAck else pollDataReady c.tSda

section RecvLast
variable (ackWait : Bool) {s t : State} {k : Kind}

theorem recvLastBody_eq_done (hq : t.quiet) (hwait : lastWait ackWait s.cfg s = .ok (.ok, t)) :
    recvLastBody ackWait s = .ok (.ok, t.lastReceived) :=
  (Op.bind_eq (getCfg_run s)).trans (orReturn_of_ok hwait (readTail_quiet hq))

theorem recvLastBody_eq_failed (hwait : lastWait ackWait s.cfg s = .ok (k, t)) (hk : k ≠ .ok) :
    recvLastBody ackWait s = .ok (k, t) :=
  (Op.bind_eq (getCfg_run s)).trans (orReturn_of_ne hwait hk)

end RecvLast

/-- Settles O35: a wait that succeeds at its first sample and the tail of a read after it; or the failed wait alone. -/
theorem recvLastStopsThenReads : Obligations.RecvLastStopsThenReads := by
  intro ackWait s hq hi hphase
  have hlegal := legalData_of_phase hphase
  cases ackWait with
  | true =>
    by_cases hc : 0 < s.cfg.tAck ∧ s.flag .ack = false
    · have hbody := recvLastBody_eq_done true (t := s.atData.sampled .ctl1 1) hq
        (pollAckCleared_quiet_cleared hq hc.1 hc.2)
      have hexec : exec (.recvLast true) s = _ := runPrimitive_eq hi hlegal hbody
      rw [if_pos (.inl ⟨rfl, hc⟩), hexec, ← rearmed_eq, if_pos rfl, List.append_cons s.acc]
      rfl
    · have hbody := recvLastBody_eq_failed true (pollAckCleared_quiet_failed hq hc) (by decide)
      rw [if_neg (by simpa using hc), if_pos rfl]
      exact runPrimitive_eq hi hlegal hbody
  | false =>
    by_cases hc : 0 < s.cfg.tSda ∧ s.flag .negack = false ∧ s.flag .ber = false ∧ s.flag .sdast = true
    · have hbody := recvLastBody_eq_done false (t := s.atData.sampled .st 1) hq (pollDataReady_quiet_ready hq hc)
      have hexec : exec (.recvLast false) s = _ := runPrimitive_eq hi hlegal hbody
      rw [if_pos (.inr ⟨rfl, hc⟩), hexec, ← rearmed_eq, if_neg (by decide), List.append_cons s.acc]
      rfl
    · obtain ⟨k, t, hwait, hne, hfailed⟩ := pollDataReady_quiet_failed hq hc
      have hbody := recvLastBody_eq_failed false hwait hne
      rw [if_neg (by simpa using hc), if_neg (by decide), ← hfailed]
      exact runPrimitive_eq hi hlegal hbody

end Sys2Proof.Machine
end

section
/-! PROOFS. What the data-phase primitives leave alone in every environment, and that a failed one has only sampled
(42_primitives.md R101, R102, R106 to R108). -/

namespace Sys2Proof.Machine

/-! ## The wait -/

/-- From `s` to `t` a data-phase wait on `r` has been made and nothing else. -/
structure Waited (r : RegId) (s t : State) : Prop where
  seq : SeqFrame s.atData t
  samples : ∃ vs : List Byte, t.acc = s.acc ++ vs.map (fun v => .rd r v)

theorem Waited.of_pollOrTimeout {n : Nat} {r : RegId} {f : Byte → Option Kind} {s t : State} {k : Kind} (hr : r.pureRead = true)
    (h : pollOrTimeout n r f s.atData = .ok (k, t)) : Waited r s t := by
  obtain ⟨o, hpoll, -⟩ := pollOrTimeout_ok.1 h
  obtain ⟨vs, hvs⟩ := poll_samples hr hpoll
  exact ⟨pollOrTimeout_seq _ _ _ _ _ _ h, vs, hvs.acc⟩

theorem pollDataReady_waited {n : Nat} {s t : State} {k : Kind} (h : pollDataReady n s = .ok (k, t)) : Waited .st s t := by
  obtain ⟨_, u, hphase, hwait⟩ := Op.bind_ok.1 h
  cases hphase
  exact .of_pollOrTimeout rfl hwait

theorem pollAckCleared_waited {n : Nat} {s t : State} {k : Kind} (h : pollAckCleared n s = .ok (k, t)) : Waited .ctl1 s t := by
  obtain ⟨_, u, hphase, hwait⟩ := Op.bind_ok.1 h
  cases hphase
  exact .of_pollOrTimeout rfl hwait

/-! ## How a data-phase primitive ends -/

/-- The commands of the data phase. -/
def DataCommand (i : Instr) : Prop :=
  (∃ n, i = .pollDataReady n ∨ i = .pollAckCleared n) ∨ (∃ b, i = .sendByte b) ∨ (∃ f, i = .recvByte f ∨ i = .recvLast f)

/-- The register the wait of such a command samples. -/
def waitRegister : Instr → RegId
  | .pollAckCleared _ => .ctl1
  | .recvLast ackWait => if ackWait then .ctl1 else .st
  | _ => .st

/-- How the body of a data-phase command `i` ends. -/
inductive DataExit (i : Instr) (s t : State) : Kind → Prop
  /-- With its wait. -/
  | waited {k : Kind} (h : Waited (waitRegister i) s t) : DataExit i s t k
  /-- With the byte written. -/
  | sent (ho : OuterFrame s t) (hx : t.x = { s.x with phase := .data }) : DataExit i s t .ok
  /-- With a byte received. -/
  | received {v : Byte} (hi : ∃ f, i = .recvByte f) (ho : OuterFrame s t)
    (hx : t.x = { s.x with phase := .data, rdata := v }) : DataExit i s t .ok
  /-- With the final byte received and the STOP requested. -/
  | last {v : Byte} (hi : ∃ f, i = .recvLast f) (ho : OuterFrame s t)
    (hx : t.x = { s.x with started := false, phase := .idle, rdata := v }) : DataExit i s t .ok

section Bodies
variable {s t : State} {k : Kind}

theorem Waited.outer {r : RegId} (h : Waited r s t) : OuterFrame s t := OuterFrame.along.trans (.withX s _) h.seq.outer

theorem Waited.x {r : RegId} (h : Waited r s t) : t.x = { s.x with phase := .data } := h.seq.x

theorem sendByteBody_exit {b : Byte} (h : sendByteBody b s = .ok (k, t)) : DataExit (.sendByte b) s t k := by
  obtain ⟨j, u, hwait, hend⟩ := orReturn_ok.1 ((Op.bind_eq (getCfg_run s)).symm.trans h)
  have hw := pollDataReady_waited hwait
  obtain ⟨-, hrest⟩ | ⟨-, -, rfl⟩ := hend
  · obtain ⟨_, w, hwr, hpure⟩ := Op.bind_ok.1 hrest
    cases hpure
    have hseq := wr_seq _ _ _ _ _ hwr
    exact .sent (OuterFrame.along.trans hw.outer hseq.outer) (hseq.x.trans hw.x)
  · exact .waited hw

/-- What follows the wait of RECV_BYTE. -/
theorem takeByte_seq {nackNext : Bool} {u : State}
    (h : (do
      let v ← rd .data
      setRdata v
      if nackNext then requestNackAfterRead
      pure Kind.ok : Op Kind) u = .ok (k, t)) :
    k = .ok ∧ OuterFrame u t ∧ ∃ v, t.x = { u.x with rdata := v } := by
  obtain ⟨v, w, hrd, h⟩ := Op.bind_ok.1 h
  obtain ⟨_, y, hset, h⟩ := Op.bind_ok.1 h
  cases hset
  have hread := rd_seq _ _ _ _ hrd
  have hnack : k = .ok ∧ SeqFrame (w.withX { w.x with rdata := v }) t := by
    cases nackNext with
    | false => cases h; exact ⟨rfl, SeqFrame.along.refl _⟩
    | true =>
      obtain ⟨_, z, hnack, hpure⟩ := Op.bind_ok.1 h
      cases hpure
      exact ⟨rfl, requestNackAfterRead_seq _ _ _ hnack⟩
  obtain ⟨rfl, hseq⟩ := hnack
  exact ⟨rfl, OuterFrame.along.trans hread.outer (OuterFrame.along.trans (.withX w _) hseq.outer), v,
    hseq.x.trans (by rw [State.withX_x, hread.x])⟩

theorem recvByteBody_exit {f : Bool} (h : recvByteBody f s = .ok (k, t)) : DataExit (.recvByte f) s t k := by
  obtain ⟨j, u, hwait, hend⟩ := orReturn_ok.1 ((Op.bind_eq (getCfg_run s)).symm.trans h)
  have hw := pollDataReady_waited hwait
  obtain ⟨-, hrest⟩ | ⟨-, -, rfl⟩ := hend
  · obtain ⟨rfl, ho, v, hx⟩ := takeByte_seq hrest
    exact .received ⟨f, rfl⟩ (OuterFrame.along.trans hw.outer ho) (hx.trans (by rw [hw.x]))
  · exact .waited hw

theorem lastWait_waited {f : Bool} {c : Config} (h : lastWait f c s = .ok (k, t)) : Waited (waitRegister (.recvLast f)) s t := by
  cases f with
  | false => exact pollDataReady_waited h
  | true => exact pollAckCleared_waited h

theorem recvLastBody_exit {f : Bool} (h : recvLastBody f s = .ok (k, t)) : DataExit (.recvLast f) s t k := by
  obtain ⟨j, u, hwait, hend⟩ := orReturn_ok.1 ((Op.bind_eq (getCfg_run s)).symm.trans h)
  have hw := lastWait_waited (f := f) hwait
  obtain ⟨-, hrest⟩ | ⟨-, -, rfl⟩ := hend
  · obtain ⟨rfl, v, p, q, hpx, hpo, hstore, hseq⟩ := readTail_spec hrest
    cases hstore
    have ho := OuterFrame.along.trans hw.outer (OuterFrame.along.trans hpo (OuterFrame.along.trans (.withX p _) hseq.outer))
    exact .last (v := v) ⟨f, rfl⟩ ho (hseq.x.trans (by rw [State.withX_x, hpx, hw.x]))
  · exact .waited hw

end Bodies

/-! ## No configuration field changes -/

theorem sendByteBody_config (b : Byte) : Op.Keeps ConfigFrame (sendByteBody b) :=
  bind_config getCfg_config (fun _ => .orReturn ConfigFrame.along (pollDataReady_config _)
    (bind_config (wr_data_config _) (fun _ => pure_config _)))

theorem recvByteBody_config (f : Bool) : Op.Keeps ConfigFrame (recvByteBody f) := by
  refine bind_config getCfg_config (fun _ => .orReturn ConfigFrame.along (pollDataReady_config _)
    (bind_config (rd_config _) (fun v => bind_config (modifyX_config _) (fun _ => ?_))))
  cases f with
  | false => exact pure_config _
  | true => exact bind_config requestNackAfterRead_config (fun _ => pure_config _)

theorem recvLastBody_config (f : Bool) : Op.Keeps ConfigFrame (recvLastBody f) := by
  refine bind_config getCfg_config (fun _ => .orReturn ConfigFrame.along ?_ (readTail_config (fun _ => modifyX_config _)))
  cases f with
  | false => exact pollDataReady_config _
  | true => exact pollAckCleared_config _

/-! ## The commands -/

theorem execData_exit {i : Instr} {s t : State} (hdata : DataCommand i) (hphase : s.x.phase = .addressed ∨ s.x.phase = .data)
    (h : exec i s = .next t) : ∃ k u, t = u.setResult k ∧ DataExit i s u k ∧ ConfigFrame s (u.setResult k) := by
  have hlegal := legalData_of_phase hphase
  obtain ⟨k, u, hbody, rfl⟩ := exec_next h
  have hconfig {m : Op Kind} (hm : Op.Keeps ConfigFrame m) (e : m s = .ok (k, u)) := setResult_config hm e
  obtain ⟨n, rfl | rfl⟩ | ⟨b, rfl⟩ | ⟨f, rfl | rfl⟩ := hdata <;> replace hbody := (inPhase_legal hlegal).symm.trans hbody
  · exact ⟨k, u, rfl, .waited (pollDataReady_waited hbody), hconfig (pollDataReady_config _) hbody⟩
  · exact ⟨k, u, rfl, .waited (pollAckCleared_waited hbody), hconfig (pollAckCleared_config _) hbody⟩
  · exact ⟨k, u, rfl, sendByteBody_exit hbody, hconfig (sendByteBody_config _) hbody⟩
  · exact ⟨k, u, rfl, recvByteBody_exit hbody, hconfig (recvByteBody_config _) hbody⟩
  · exact ⟨k, u, rfl, recvLastBody_exit hbody, hconfig (recvLastBody_config _) hbody⟩

theorem waitRegister_ctl1 {i : Instr} (h : DataCommand i) :
    waitRegister i = .ctl1 ↔ (∃ n, i = .pollAckCleared n) ∨ i = .recvLast true := by
  obtain ⟨n, rfl | rfl⟩ | ⟨b, rfl⟩ | ⟨f, rfl | rfl⟩ := h
  case inr.inr.inr => cases f <;> simp [waitRegister]
  all_goals simp [waitRegister]

theorem waitRegister_cases (i : Instr) : waitRegister i = .st ∨ waitRegister i = .ctl1 := by
  unfold waitRegister
  split <;> simp

/-- Settles O36: each primitive ends with its wait, in which it has only sampled, or with `OK`. -/
theorem dataPhaseFrame : Obligations.DataPhaseFrame := by
  intro i s t hi _ _ hphase h
  obtain ⟨k, u, rfl, hexit, hconfig⟩ := execData_exit hi hphase h
  have houter : OuterFrame s u → HostFrame s (u.setResult k) := fun ho => (OuterFrame.along.trans ho (.withX u _)).host
  cases hexit with
  | waited hw =>
    obtain ⟨vs, hvs⟩ := hw.samples
    have hx : (u.setResult k).x = { s.x with phase := .data, result := k.code } :=
      congrArg (fun x => { x with result := k.code }) hw.x
    have hctl1 := waitRegister_ctl1 hi
    refine ⟨houter hw.outer, hconfig, .inl ?_, fun _ => ?_, fun _ => ⟨?_, _, vs, hctl1, waitRegister_cases i, hvs⟩⟩ <;>
      rw [hx]
  | sent ho hx =>
    refine ⟨houter ho, hconfig, .inl ?_, fun _ => ?_, fun hne => absurd rfl hne⟩ <;> simp [State.setResult, hx]
  | received hrecv ho hx =>
    obtain ⟨f, rfl⟩ := hrecv
    exact ⟨houter ho, hconfig, .inl (by simp [State.setResult, hx]), fun hne => absurd rfl (hne f).1,
      fun hne => absurd rfl hne⟩
  | last hrecv ho hx =>
    obtain ⟨f, rfl⟩ := hrecv
    exact ⟨houter ho, hconfig, .inr ⟨⟨f, rfl⟩, by simp [State.setResult, hx, Kind.code]⟩, fun hne => absurd rfl (hne f).2,
      fun hne => absurd rfl hne⟩

end Sys2Proof.Machine
end

section
/-! PROOFS. READ and WRITE in every environment (43_transactions.md R113 to R119): their steps, taken apart, and how each
transfer ends. -/

namespace Sys2Proof.Machine

/-! ## Writes of `CTL1` that put `INTEN` back -/

/-- A read of `CTL1` shows what the state after it holds. -/
theorem rd_ctl1_shows {f : Flag} (hf : f.reg = .ctl1) {s t : State} {c : Byte} (h : rd .ctl1 s = .ok (c, t)) :
    f.isSet c = t.flag f := by
  obtain ⟨u, -, rfl, rfl⟩ := rd_ok.1 h
  exact isSet_readCtl1 hf u

theorem wr_ctl1_config {v : Byte} {s t : State} {a : Unit} (hv : Flag.isSet .inten v = s.flag .inten)
    (h : wr .ctl1 v s = .ok (a, t)) : ConfigFrame s t := by
  obtain ⟨u, hu, rfl⟩ := wr_ok.1 h
  have hwrite : ConfigFrame u (afterWrite u .ctl1 v) := afterWrite_ctl1_config (hv.trans (lePoint_frame hu).inten.symm)
  exact ConfigFrame.along.trans (lePoint_frame hu).config (ConfigFrame.along.trans hwrite (.pushAcc _ _))

theorem inten_clear {m : Byte} (hm : Flag.isSet .inten m = false) (c : Byte) :
    Flag.isSet .inten (c &&& ~~~m) = Flag.isSet .inten c := by
  unfold Flag.isSet at *
  rw [BitVec.getLsbD_and, BitVec.getLsbD_not, hm]
  simp [Flag.bit]

theorem clrbits_ctl1_config {m : Byte} (hm : Flag.isSet .inten m = false) : Op.Keeps ConfigFrame (clrbits .ctl1 m) := by
  intro s a t h
  obtain ⟨c, u, hrd, hwr⟩ := Op.bind_ok.1 h
  have hshown := rd_ctl1_shows (f := .inten) rfl hrd
  exact ConfigFrame.along.trans (rd_config _ _ _ _ hrd) (wr_ctl1_config ((inten_clear hm c).trans hshown) hwr)

theorem releaseStall_config (keep : Bool) : Op.Keeps ConfigFrame (releaseStall keep) := by
  intro s a t h
  obtain ⟨c, u, hrd, h⟩ := Op.bind_ok.1 h
  have hread := rd_config _ _ _ _ hrd
  have hshown := rd_ctl1_shows (f := .inten) rfl hrd
  split at h
  · obtain ⟨_, w, hwr, h⟩ := Op.bind_ok.1 h
    have hwrite := wr_ctl1_config ((inten_clear (m := Flag.mask .stastre) rfl c).trans hshown) hwr
    refine ConfigFrame.along.trans hread (ConfigFrame.along.trans hwrite ?_)
    cases keep with
    | true => exact pure_config _ _ _ _ h
    | false => exact wr_st_config _ _ _ _ h
  · cases h
    exact hread

/-! ## No transfer changes a configuration field -/

theorem memWrite_config (a : BitVec 32) (v : Byte) : Op.Keeps ConfigFrame (memWrite a v) := by
  intro s b t h; cases h; exact ⟨rfl, rfl, rfl, rfl, rfl⟩

theorem memRead_config (a : BitVec 32) : Op.Keeps ConfigFrame (memRead a) := by
  intro s b t h; cases h; exact ConfigFrame.along.refl s

theorem readSingle_config (keep : Bool) (base : BitVec 32) : Op.Keeps ConfigFrame (readSingle keep base) :=
  bind_config (setbits_ctl1_config rfl) (fun _ => bind_config (releaseStall_config keep) (fun _ =>
    bind_config getCfg_config (fun _ => .orReturn ConfigFrame.along (pollDataReady_config _)
      (readTail_config (memWrite_config base)))))

theorem readMulti_config (n : Nat) (a : BitVec 32) : Op.Keeps ConfigFrame (readMulti n a) := by
  induction n generalizing a with
  | zero => exact pure_config _
  | succ n ih =>
    cases n with
    | zero =>
      exact bind_config getCfg_config (fun _ => .orReturn ConfigFrame.along (pollAckCleared_config _)
        (readTail_config (memWrite_config a)))
    | succ n =>
      refine bind_config getCfg_config (fun _ => .orReturn ConfigFrame.along (pollDataReady_config _)
        (bind_config (rd_config _) (fun v => bind_config (memWrite_config a v) (fun _ => ?_))))
      split
      · exact bind_config requestNackAfterRead_config (fun _ => ih _)
      · exact ih _

theorem readMessage_config (keep : Bool) (a : Addr7) (len : Nat) (base : BitVec 32) :
    Op.Keeps ConfigFrame (readMessage keep a len base) := by
  unfold readMessage
  split
  · exact pure_config _
  · refine bind_config getCfg_config (fun _ => .orReturn ConfigFrame.along (sendStart_config _)
      (.orReturn ConfigFrame.along (sendAddress_config _ _) ?_))
    unfold readData
    split
    · exact readSingle_config keep base
    · exact readMulti_config len base

theorem writeLoop_config (n : Nat) (a : BitVec 32) : Op.Keeps ConfigFrame (writeLoop n a) := by
  induction n generalizing a with
  | zero => exact pure_config _
  | succ n ih =>
    exact bind_config getCfg_config (fun _ => .orReturn ConfigFrame.along (pollDataReady_config _)
      (bind_config (memRead_config a) (fun v => bind_config (wr_data_config v) (fun _ => ih _))))

theorem writeMessage_config (a : Addr7) (len : Nat) (base : BitVec 32) : Op.Keeps ConfigFrame (writeMessage a len base) := by
  refine bind_config getCfg_config (fun _ => .orReturn ConfigFrame.along (sendStart_config _)
    (bind_config (.orReturn ConfigFrame.along (sendAddress_config _ _) (writeLoop_config _ _)) (fun _ => ?_)))
  split
  · exact bind_config (clrbits_ctl1_config rfl) (fun _ => pure_config _)
  · exact pure_config _

/-! ## START and address, one result at a time -/

theorem sendStart_started {n : Nat} {s t : State} (h : sendStart n s = .ok (.ok, t)) :
    t.x = { s.x with started := true, phase := .started } := by
  obtain ⟨u, hu, ⟨-, rfl⟩ | ⟨hk | hk, -⟩⟩ := sendStart_spec h
  · rw [State.withX_x, hu.x]
  · cases hk
  · cases hk

theorem sendStart_failed {n : Nat} {s t : State} {k : Kind} (h : sendStart n s = .ok (k, t)) (hk : k ≠ .ok) :
    (k = .busError ∨ k = .timeout) ∧ t.x = s.x := by
  obtain ⟨u, hu, ⟨hok, -⟩ | ⟨hk', rfl⟩⟩ := sendStart_spec h
  · exact absurd hok hk
  · exact ⟨hk', hu.x⟩

theorem sendAddress_addressed {b : Byte} {stall : Bool} {s t : State} (h : sendAddress b stall s = .ok (.ok, t)) :
    t.x = { s.x with phase := .addressed } := by
  obtain ⟨u, hu, ⟨-, rfl⟩ | ⟨hk | hk, -⟩⟩ := sendAddress_spec h
  · rw [State.withX_x, hu.x]
  · cases hk
  · cases hk

theorem sendAddress_failed {b : Byte} {stall : Bool} {s t : State} {k : Kind} (h : sendAddress b stall s = .ok (k, t))
    (hk : k ≠ .ok) : (k = .nack ∨ k = .busError) ∧ t.x = s.x := by
  obtain ⟨u, hu, ⟨hok, -⟩ | ⟨hk', rfl⟩⟩ := sendAddress_spec h
  · exact absurd hok hk
  · exact ⟨hk', hu.x⟩

/-! ## The steps of READ -/

/-- The step at which a read of at least one byte ends (R113). -/
inductive ReadSteps (keep : Bool) (a : Addr7) (len : Nat) (base : BitVec 32) (s t : State) : Kind → Prop
  /-- The START fails. -/
  | noStart {k : Kind} (hk : k ≠ .ok) (h : sendStart s.cfg.tStart s = .ok (k, t)) : ReadSteps keep a len base s t k
  /-- The address phase fails. -/
  | noAddress {k : Kind} {p : State} (hk : k ≠ .ok) (hp : sendStart s.cfg.tStart s = .ok (.ok, p))
    (h : sendAddress (addrByte a .read) (decide (len = 1)) p = .ok (k, t)) : ReadSteps keep a len base s t k
  /-- The data phase runs. -/
  | data {k : Kind} {p q : State} (hp : sendStart s.cfg.tStart s = .ok (.ok, p))
    (hq : sendAddress (addrByte a .read) (decide (len = 1)) p = .ok (.ok, q))
    (h : readData keep len base q = .ok (k, t)) : ReadSteps keep a len base s t k

theorem readMessage_steps {keep : Bool} {a : Addr7} {len : Nat} {base : BitVec 32} {s t : State} {k : Kind} (hlen : len ≠ 0)
    (h : readMessage keep a len base s = .ok (k, t)) : ReadSteps keep a len base s t k := by
  rw [readMessage, if_neg hlen, Op.bind_eq (getCfg_run s)] at h
  obtain ⟨r, p, hp, ⟨rfl, h⟩ | ⟨hr, rfl, rfl⟩⟩ := orReturn_ok.1 h
  · obtain ⟨r, q, hq, ⟨rfl, h⟩ | ⟨hr, rfl, rfl⟩⟩ := orReturn_ok.1 h
    · exact .data hp hq h
    · exact .noAddress hr hp hq
  · exact .noStart hr hp

theorem readData_spec {keep : Bool} {len : Nat} {base : BitVec 32} {s t : State} {k : Kind} (hlen : len ≠ 0)
    (h : readData keep len base s = .ok (k, t)) : DataPhase base len s t k := by
  unfold readData at h
  split at h
  · next h1 => subst h1; exact readSingle_spec h
  · obtain ⟨n, rfl⟩ := Nat.exists_eq_succ_of_ne_zero hlen
    exact readMulti_spec h

/-! ## How READ ends -/

/-- The exits of R116 for a read of at least one byte, with the phase in which a failed one has stopped. -/
inductive ReadEnd (s t : State) : Kind → Prop
  /-- The START failed. -/
  | noStart {k : Kind} (hk : k = .busError ∨ k = .timeout) (hx : t.x = s.x) : ReadEnd s t k
  /-- A later step failed. -/
  | failed {k : Kind} {p : Phase} (hk : k.waitFailure) (hp : p = .started ∨ p = .data)
    (hx : t.x = { s.x with started := true, phase := p }) : ReadEnd s t k
  /-- The transfer completed. -/
  | complete (hx : t.x = { s.x with started := false, phase := .idle }) : ReadEnd s t .ok

theorem ReadSteps.end {keep : Bool} {a : Addr7} {len : Nat} {base : BitVec 32} {s t : State} {k : Kind} (hlen : len ≠ 0)
    (h : ReadSteps keep a len base s t k) : ReadEnd s t k := by
  cases h with
  | noStart hk h => exact .noStart (sendStart_failed h hk).1 (sendStart_failed h hk).2
  | noAddress hk hp h =>
    obtain ⟨hkind, hx⟩ := sendAddress_failed h hk
    exact .failed (hkind.imp_right .inl) (.inl rfl) (hx.trans (sendStart_started hp))
  | data hp hq h =>
    have hx := sendAddress_addressed hq
    rw [sendStart_started hp] at hx
    obtain ⟨rfl, ht⟩ | ⟨hk, ht⟩ := (readData_spec hlen h).exit
    · exact .complete (by rw [ht, hx])
    · exact .failed hk (.inr rfl) (by rw [ht, hx])

/-- The address of byte `k` of a buffer, as the statements write it (20_memory.md R48). -/
theorem bufAddr_toNat (base : BitVec 32) (k : Nat) : (bufAddr base k).toNat = (base.toNat + k) % 2 ^ 32 := by
  simp [bufAddr]

theorem Kind.waitFailure.code {k : Kind} (h : k.waitFailure) : k.code = 1 ∨ k.code = 2 ∨ k.code = 3 := by
  obtain rfl | rfl | rfl := h <;> simp [Kind.code]

/-- Settles O37: what READ leaves of the host's, and the step at which it ends. -/
theorem readExits : Obligations.ReadExits := by
  intro a len base s hp hi
  obtain ⟨k, t, hbody, -⟩ := readMessage_ends false a len.toNat base s hp
  obtain ⟨hframe, -⟩ := readMessage_spec hbody
  have hbuf : ∀ x, (∀ k < len.toNat, x ≠ (base.toNat + k) % 2 ^ 32) → t.buf.read x = s.buf.read x :=
    fun x hx => hframe.buf x fun k hk => bufAddr_toNat base k ▸ hx k hk
  refine ⟨_, runInitialised_eq hi hbody, setResult_config (readMessage_config _ _ _ _) hbody, hframe.log, hframe.cp,
    hframe.program, hframe.cfg, hframe.initialised.trans hi, hframe.pinmux, hbuf, ?_⟩
  by_cases hlen : len = 0
  · subst hlen
    cases hbody
    exact .inl ⟨rfl, rfl⟩
  · have hpos : len.toNat ≠ 0 := fun h => hlen (BitVec.eq_of_toNat_eq h)
    refine .inr ?_
    cases (readMessage_steps hpos hbody).end hpos with
    | noStart hk hx =>
      refine .inl ⟨hlen, hk.imp (fun hk => ?_) (fun hk => ?_)⟩ <;> simp [State.setResult, hx, hk, Kind.code]
    | failed hk hphase hx => exact .inr (.inl ⟨hlen, ⟨_, hphase, by simp [State.setResult, hx]⟩, hk.code⟩)
    | complete hx => exact .inr (.inr ⟨hlen, by simp [State.setResult, hx, Kind.code]⟩)

/-! ## The last accesses of READ -/

/-- Both pieces end with `OK`. -/
theorem orReturn_done {m k : Op Kind} {s u : State} :
    orReturn m k s = .ok (.ok, u) ↔ ∃ t, m s = .ok (.ok, t) ∧ k t = .ok (.ok, u) := by
  rw [orReturn_ok]
  constructor
  · rintro ⟨r, t, hm, ⟨rfl, hk⟩ | ⟨hr, rfl, -⟩⟩
    · exact ⟨t, hm, hk⟩
    · exact absurd rfl hr
  · rintro ⟨t, hm, hk⟩
    exact ⟨.ok, t, hm, .inl ⟨rfl, hk⟩⟩

/-- A data phase that ends with `OK` ends with the tail of a read (R114, R115). -/
theorem readMulti_tail {n : Nat} {a : BitVec 32} {s t : State} (h : readMulti (n + 1) a s = .ok (.ok, t)) :
    ∃ b u, readTail (memWrite b) u = .ok (.ok, t) := by
  induction n generalizing a s with
  | zero =>
    rw [readMulti, Op.bind_eq (getCfg_run s)] at h
    obtain ⟨u, -, h⟩ := orReturn_done.1 h
    exact ⟨a, u, h⟩
  | succ n ih =>
    rw [readMulti, Op.bind_eq (getCfg_run s)] at h
    obtain ⟨u, -, h⟩ := orReturn_done.1 h
    obtain ⟨v, w, -, h⟩ := Op.bind_ok.1 h
    obtain ⟨_, y, -, h⟩ := Op.bind_ok.1 h
    split at h
    · obtain ⟨_, z, -, h⟩ := Op.bind_ok.1 h
      exact ih h
    · exact ih h

theorem readData_tail {keep : Bool} {len : Nat} {base : BitVec 32} {s t : State} (hlen : len ≠ 0)
    (h : readData keep len base s = .ok (.ok, t)) : ∃ b u, readTail (memWrite b) u = .ok (.ok, t) := by
  unfold readData at h
  split at h
  · obtain ⟨_, u, -, h⟩ := Op.bind_ok.1 h
    obtain ⟨_, w, -, h⟩ := Op.bind_ok.1 h
    rw [Op.bind_eq (getCfg_run w)] at h
    obtain ⟨y, -, h⟩ := orReturn_done.1 h
    exact ⟨base, y, h⟩
  · obtain ⟨n, rfl⟩ := Nat.exists_eq_succ_of_ne_zero hlen
    exact readMulti_tail h

theorem rd_acc {r : RegId} {s t : State} {v : Byte} (h : rd r s = .ok (v, t)) : t.acc = s.acc ++ [.rd r v] := by
  obtain ⟨u, hu, rfl, rfl⟩ := rd_ok.1 h
  rw [State.pushAcc_acc, afterRead_acc, (lePoint_frame hu).acc]

theorem wr_st_acc {b : Byte} {s t : State} {a : Unit} (h : wr .st b s = .ok (a, t)) : t.acc = s.acc ++ [.wr .st b] := by
  obtain ⟨u, hu, rfl⟩ := wr_ok.1 h
  rw [State.pushAcc_acc, afterWrite_st, State.withReg_acc, (lePoint_frame hu).acc]

/-- `send_stop(0)` makes three accesses: the STOP is requested, then the latches are cleared (42_primitives.md R99). -/
theorem sendStop_zero_acc {s t : State} {k : Kind} (h : sendStop 0 s = .ok (k, t)) :
    ∃ c, t.acc = s.acc ++ [.rd .ctl1 c, .wr .ctl1 (c ||| 0x02), .wr .st 0x38] := by
  obtain ⟨_, u, hset, h⟩ := Op.bind_ok.1 h
  obtain ⟨_, w, hwr, h⟩ := Op.bind_ok.1 h
  obtain ⟨c, hc⟩ := setbits_ctl1_acc hset
  cases h
  have hlatches : stLatches = 0x38 := rfl
  have hmask : Flag.mask .stop = 0x02 := rfl
  refine ⟨c, ?_⟩
  rw [State.withX_acc, State.withX_acc, wr_st_acc hwr, hc, hlatches, hmask, List.append_assoc]
  rfl

theorem readTail_acc {a : BitVec 32} {s t : State} {k : Kind} (h : readTail (memWrite a) s = .ok (k, t)) :
    ∃ c v, t.acc = s.acc ++ [.rd .ctl1 c, .wr .ctl1 (c ||| 0x02), .wr .st 0x38, .rd .data v, .wr .st 0x10] := by
  obtain ⟨j, u, hstop, h⟩ := Op.bind_ok.1 h
  obtain ⟨v, w, hrd, h⟩ := Op.bind_ok.1 h
  obtain ⟨_, y, hmem, h⟩ := Op.bind_ok.1 h
  cases hmem
  obtain ⟨_, z, hwr, h⟩ := Op.bind_ok.1 h
  cases h
  obtain ⟨c, hc⟩ := sendStop_zero_acc hstop
  have hmask : Flag.mask .negack = 0x10 := rfl
  refine ⟨c, v, ?_⟩
  rw [wr_st_acc hwr, State.withBuf_acc, rd_acc hrd, hc, hmask]
  simp

theorem Kind.eq_ok_of_code {k : Kind} (h : k.code = 0) : k = .ok := by
  cases k with
  | ok => rfl
  | _ => cases h

/-- Settles O42: a read that ends with `OK` has run the tail of its data phase, which makes these accesses. -/
theorem stopBeforeFinalRead : Obligations.StopBeforeFinalRead := by
  intro a len base s t h hres
  obtain ⟨k, u, hbody, rfl⟩ := exec_next h
  obtain rfl : k = .ok := Kind.eq_ok_of_code hres
  have hlen : len.toNat ≠ 0 := by
    intro h0
    have hrejected : readMessage false a len.toNat base s = .ok (.invalidArgument, s) := by
      rw [h0]; rfl
    cases hrejected.symm.trans hbody
  cases readMessage_steps hlen hbody with
  | noStart hk => exact absurd rfl hk
  | noAddress hk => exact absurd rfl hk
  | data _ _ hdata =>
    obtain ⟨b, w, htail⟩ := readData_tail hlen hdata
    obtain ⟨c, v, hacc⟩ := readTail_acc htail
    exact ⟨w.acc, c, v, hacc⟩

/-! ## The steps of WRITE -/

/-- The step at which a write ends (R118). -/
inductive WriteSteps (a : Addr7) (len : Nat) (base : BitVec 32) (s t : State) : Kind → Prop
  /-- The START fails. -/
  | noStart {k : Kind} (hk : k ≠ .ok) (h : sendStart s.cfg.tStart s = .ok (k, t)) : WriteSteps a len base s t k
  /-- The address phase and the bytes, and what a write of length 0 does after them. -/
  | sent {k : Kind} {p q : State} (hp : sendStart s.cfg.tStart s = .ok (.ok, p))
    (hq : orReturn (sendAddress (addrByte a .write) (decide (len = 0))) (writeLoop len base) p = .ok (k, q))
    (h : (len = 0 ∧ clrbits .ctl1 (Flag.mask .stastre) q = .ok ((), t)) ∨ (len ≠ 0 ∧ t = q)) :
    WriteSteps a len base s t k

theorem writeMessage_steps {a : Addr7} {len : Nat} {base : BitVec 32} {s t : State} {k : Kind}
    (h : writeMessage a len base s = .ok (k, t)) : WriteSteps a len base s t k := by
  rw [writeMessage, Op.bind_eq (getCfg_run s)] at h
  obtain ⟨r, p, hp, ⟨rfl, h⟩ | ⟨hr, rfl, rfl⟩⟩ := orReturn_ok.1 h
  · obtain ⟨r, q, hq, h⟩ := Op.bind_ok.1 h
    split at h
    · next hlen =>
      obtain ⟨_, w, hclr, h⟩ := Op.bind_ok.1 h
      cases h
      exact .sent hp hq (.inl ⟨hlen, hclr⟩)
    · next hlen =>
      cases h
      exact .sent hp hq (.inr ⟨hlen, rfl⟩)
  · exact .noStart hr hp

theorem clrbits_ctl1_flag {f : Flag} (hf : f.reg = .ctl1) {s t : State} {a : Unit}
    (h : clrbits .ctl1 f.mask s = .ok (a, t)) : t.flag f = false := by
  obtain ⟨c, u, -, hwr⟩ := Op.bind_ok.1 h
  obtain ⟨w, -, rfl⟩ := wr_ok.1 hwr
  refine (writeStorage_ctl1_flag w _ f hf).trans ?_
  simp [Flag.isSet, Flag.mask, f.bit_lt]

/-- Settles O38: from the exits of WRITE, none of which is behind a STOP; a write of length 0 clears the stall enable last. -/
theorem writeExits : Obligations.WriteExits := by
  intro a len base s hp hi
  obtain ⟨k, t, hbody, -⟩ := writeMessage_ends a len.toNat base s hp
  obtain ⟨houter, hexit⟩ := writeMessage_spec hbody
  refine ⟨_, runInitialised_eq hi hbody, (OuterFrame.along.trans houter (.withX t _)).host,
    setResult_config (writeMessage_config _ _ _) hbody, ?_, ?_⟩
  · cases hexit with
    | noStart hk hx =>
      refine .inl (hk.imp (fun hk => ?_) (fun hk => ?_)) <;> simp [State.setResult, hx, hk, Kind.code]
    | started hk hout =>
      obtain ⟨p, hphase, hx⟩ := hout
      refine .inr ⟨⟨p, hphase, by simp [State.setResult, hx]⟩, hk.imp (fun hk => ?_) Kind.waitFailure.code⟩
      simp [State.setResult, hk, Kind.code]
  · rintro rfl ⟨u, hstart⟩
    show t.flag .stastre = false
    cases writeMessage_steps hbody with
    | noStart hk h =>
      cases hstart.symm.trans h
      exact absurd rfl hk
    | sent _ _ h =>
      obtain ⟨-, hclr⟩ | ⟨hlen, -⟩ := h
      · exact clrbits_ctl1_flag rfl hclr
      · exact absurd rfl hlen

end Sys2Proof.Machine
end

section
/-! PROOFS. A target that would refuse a data byte behaves like one that would not as long as no data byte is sent
(20_memory.md R60, the reference environment's `txNack`). -/

namespace Sys2Proof.Machine

/-- The same target, refusing the data byte `k`. -/
def EnvRef.refusing (e : EnvRef) (k : Option Nat) : EnvRef := { e with txNack := k }

/-- The same environment, with a target that refuses the data byte `k` if it is the reference environment. -/
def Env.refusing (e : Env) (k : Option Nat) : Env :=
  match e with
  | .ref e => .ref (e.refusing k)
  | .script points => .script points

/-- The same state, with a target that refuses the data byte `k`. -/
def State.refusing (s : State) (k : Option Nat) : State := s.withEnv (s.env.refusing k)

/-- A data byte has been sent. -/
def WireEvent.isData : WireEvent → Bool
  | .tx _ _ => true
  | _ => false

/-- How many data bytes have been sent. -/
def State.dataSent (s : State) : Nat := s.wire.countP WireEvent.isData

theorem LeFrame.dataSent_le {s t : State} (h : LeFrame s t) : s.dataSent ≤ t.dataSent := h.wire.sublist.countP_le

theorem AccessFrame.dataSent_le {s t : State} (h : AccessFrame s t) : s.dataSent ≤ t.dataSent := h.wire.sublist.countP_le

theorem LeFrame.polled_of {s t : State} (h : LeFrame s t) (hp : s.polled) : t.polled := by
  rw [State.polled_iff] at hp ⊢
  exact ⟨h.flag_fifoEn.trans hp.1, h.inten.trans hp.2⟩

/-- The events of the reference environment do not depend on the environment data that the state carries. -/
theorem refLoop_withEnv {n : Nat} {e : EnvRef} {s : State} (hp : s.polled) (x : Env) :
    refLoop n e (s.withEnv x) = refLoop n e s := by
  induction n generalizing e s with
  | zero => rfl
  | succ n ih =>
    have hsame : e.choose (s.withEnv x) = e.choose s := rfl
    cases hc : e.choose s with
    | none => rw [refLoop_stop hc, refLoop_stop (hsame.trans hc), withEnv_withEnv]
    | some ev =>
      have hafter : e.after ev (s.withEnv x) = e.after ev s := by cases ev <;> rfl
      rw [refLoop_fire hc hp, refLoop_fire (hsame.trans hc) hp, effect_withEnv, hafter]
      exact ih ((effect_frame ev s).polled_of hp)

theorem State.refusing_of_ref {s : State} {e : EnvRef} (h : s.env = .ref e) (k : Option Nat) :
    s.refusing k = s.withEnv (.ref (e.refusing k)) := by
  unfold State.refusing Env.refusing
  rw [h]

theorem dataSent_txAck {s : State} (h : LeEvent.txAck.guard s = true) :
    (LeEvent.txAck.effect s).dataSent = s.dataSent + 1 := by
  have hhead : s.headKind = some .data := by
    simp only [LeEvent.guard, txGuard, Bool.and_eq_true, decide_eq_true_iff] at h
    exact h.2
  unfold State.headKind at hhead
  show (effTxAck s).dataSent = _
  unfold effTxAck
  cases htxb : s.le.txb with
  | nil => rw [htxb] at hhead; cases hhead
  | cons p rest => simp [State.dataSent, State.pushWire, State.withLe, WireEvent.isData]

section Refusing
variable {e : EnvRef} (he : e.txNack = none) (k : Option Nat)

theorem EnvRef.after_refusing (ev : LeEvent) (s : State) :
    (e.refusing k).after ev s = (e.after ev s).refusing k := by
  cases ev with
  | addrAck =>
    simp only [EnvRef.after]
    cases s.le.txb <;> rfl
  | _ => rfl

theorem EnvRef.after_txNack (ev : LeEvent) (s : State) : (e.after ev s).txNack = e.txNack := by
  cases ev with
  | addrAck =>
    simp only [EnvRef.after]
    cases s.le.txb <;> rfl
  | _ => rfl

include he

/-- Only the answer to a data byte differs. -/
theorem choose_refusing {s : State} (h : e.choose s ≠ some .txAck) : (e.refusing k).choose s = e.choose s := by
  have hanswer : e.txAnswer = .txAck := by simp [EnvRef.txAnswer, he]
  have haddr : (e.refusing k).addrAnswer s = e.addrAnswer s := rfl
  have hrx : (e.refusing k).nextRx = e.nextRx := rfl
  rw [choose_eq, hanswer] at h
  rw [choose_eq, choose_eq, haddr, hrx]
  split_ifs at h ⊢ <;> trivial

theorem refLoop_refusing {n : Nat} {s t : State} (hp : s.polled) (h : refLoop n e s = .ok t) :
    s.dataSent ≤ t.dataSent ∧
      (t.dataSent = s.dataSent → refLoop n (e.refusing k) s = .ok (t.refusing k)) := by
  induction n generalizing e s with
  | zero =>
    cases h
    exact ⟨Nat.le_refl _, fun _ => rfl⟩
  | succ n ih =>
    cases hc : e.choose s with
    | none =>
      rw [refLoop_stop hc] at h
      cases h
      exact ⟨Nat.le_refl _, fun _ => refLoop_stop ((choose_refusing he k (by rw [hc]; nofun)).trans hc)⟩
    | some ev =>
      rw [refLoop_fire hc hp] at h
      have hf := effect_frame ev s
      obtain ⟨hle, hrun⟩ := ih ((e.after_txNack ev s).trans he) (hf.polled_of hp) h
      refine ⟨Nat.le_trans hf.dataSent_le hle, fun hsent => ?_⟩
      have hev : ev ≠ .txAck := by
        rintro rfl
        have hsend := dataSent_txAck (List.find?_some (p := fun ev => LeEvent.guard ev s) hc)
        omega
      have hc' := (choose_refusing he k (by rw [hc]; simpa using hev)).trans hc
      rw [refLoop_fire hc' hp, e.after_refusing]
      exact hrun (by have := hf.dataSent_le; omega)

end Refusing

section Point
variable {s t : State} {e : EnvRef} (hs : s.env = .ref e) (he : e.txNack = none) (hp : s.polled) (h : lePoint s = .ok t)
  (k : Option Nat)
include hs he hp h

theorem lePoint_refusing (hsent : t.dataSent = s.dataSent) : lePoint (s.refusing k) = .ok (t.refusing k) := by
  rw [State.refusing_of_ref hs]
  unfold lePoint at h ⊢
  rw [hs] at h
  have hlines : LeFrame s (effLines e.sclLevel (e.sdaLevel s.le.pulses) s) := .withLines s _ _
  cases hm : s.flag .master with
  | true =>
    simp only [refPoint, hm, if_true] at h
    have hrun := (refLoop_refusing he k hp h).2 hsent
    rw [← refLoop_withEnv hp (.ref (e.refusing k))] at hrun
    simp only [refPoint, State.withEnv_env, State.flag_withEnv, hm, if_true]
    exact hrun
  | false =>
    simp only [refPoint, hm, if_false, Bool.false_eq_true] at h
    have hrun := (refLoop_refusing he k (hlines.polled_of hp) h).2 hsent
    rw [← refLoop_withEnv (hlines.polled_of hp) (.ref (e.refusing k))] at hrun
    simp only [refPoint, State.withEnv_env, State.flag_withEnv, hm, if_false, Bool.false_eq_true]
    exact hrun

end Point


/-! ## An access, in both worlds -/

theorem readValue_refusing (s : State) (k : Option Nat) (r : RegId) : readValue (s.refusing k) r = readValue s r := by
  cases r with
  | brc =>
    have hlevels : brcLevels (s.refusing k) = brcLevels s := by
      unfold brcLevels State.refusing
      rw [State.withEnv_env]
      cases s.env <;> rfl
    show brcByte (brcLevels (s.refusing k)).1 (brcLevels (s.refusing k)).2 = _
    rw [hlevels]
    rfl
  | _ => rfl

theorem afterRead_withEnv (s : State) (x : Env) (r : RegId) : afterRead (s.withEnv x) r = (afterRead s r).withEnv x := by
  cases r with
  | data =>
    rw [afterRead_data, afterRead_data]
    rfl
  | brc =>
    show (if s.flag .master then (s.withEnv x).withDraws (s.draws + 1) else s.withEnv x) =
      (if s.flag .master then s.withDraws (s.draws + 1) else s).withEnv x
    split <;> rfl
  | _ => rfl

theorem afterWrite_withEnv (s : State) (x : Env) (r : RegId) (b : Byte) :
    afterWrite (s.withEnv x) r b = (afterWrite s r b).withEnv x := by
  cases r with
  | ctl2 =>
    rw [afterWrite_ctl2, afterWrite_ctl2]
    show (if s.reg.ctl2.getLsbD 0 = true ∧ b.getLsbD 0 = false then _ else _) = State.withEnv (if _ then _ else _) x
    split <;> rfl
  | brc =>
    show (if b.getLsbD tgsclBit then togglePulse (s.withEnv x) else s.withEnv x) =
      (if b.getLsbD tgsclBit then togglePulse s else s).withEnv x
    unfold togglePulse
    rw [show (s.withEnv x).g0 = s.g0 from rfl]
    split
    · split <;> rfl
    · rfl
  | _ => rfl

theorem afterRead_refusing (s : State) (k : Option Nat) (r : RegId) :
    afterRead (s.refusing k) r = (afterRead s r).refusing k := by
  unfold State.refusing
  rw [afterRead_withEnv, (afterRead_frame s r).env]

theorem afterWrite_refusing (s : State) (k : Option Nat) (r : RegId) (b : Byte) :
    afterWrite (s.refusing k) r b = (afterWrite s r b).refusing k := by
  unfold State.refusing
  rw [afterWrite_withEnv, (afterWrite_frame s r b).env]

/-! ## Pieces of a command -/

/-- A piece of a command that takes every state showing one view to a state showing another, with a known result; and it
does the same with a target that would refuse a data byte, if it sends none. -/
def Plays (s0 : State) {α : Type} (v : BusView) (m : Op α) (a : α) (w : BusView) : Prop :=
  ∀ s, Shows s0 v s → ∃ t, m s = .ok (a, t) ∧ Shows s0 w t ∧ s.dataSent ≤ t.dataSent ∧
    (t.dataSent = s.dataSent → ∀ k, m (s.refusing k) = .ok (a, t.refusing k))

section Plays
variable {s0 : State} {α β : Type} {v w u : BusView}

theorem Plays.pure (a : α) : Plays s0 v (pure a) a v := fun s h => ⟨s, rfl, h, Nat.le_refl _, fun _ _ => rfl⟩

theorem Plays.bind {m : Op α} {f : α → Op β} {a : α} {b : β} (h1 : Plays s0 v m a w) (h2 : Plays s0 w (f a) b u) :
    Plays s0 v (m >>= f) b u := by
  intro s h
  obtain ⟨t, ht, hw, hle, hm⟩ := h1 s h
  obtain ⟨q, hq, hu, hle', hf⟩ := h2 t hw
  refine ⟨q, by rw [Op.bind_eq ht, hq], hu, Nat.le_trans hle hle', fun hsent k => ?_⟩
  rw [Op.bind_eq (hm (by omega) k)]
  exact hf (by omega) k

theorem Plays.orReturn {m k : Op Kind} {b : Kind} (h1 : Plays s0 v m .ok w) (h2 : Plays s0 w k b u) :
    Plays s0 v (orReturn m k) b u := by
  unfold Sys2Proof.Machine.orReturn
  exact h1.bind (by rw [if_pos rfl]; exact h2)

theorem Plays.getCfg : Plays s0 v getCfg s0.cfg v := fun s h =>
  ⟨s, by rw [getCfg_run, h.cfg], h, Nat.le_refl _, fun _ k => by rw [getCfg_run, ← h.cfg]; rfl⟩

theorem Plays.getX : Plays s0 v getX v.x v := fun s h =>
  ⟨s, by rw [getX_run, h.x], h, Nat.le_refl _, fun _ k => by rw [getX_run, ← h.x]; rfl⟩

theorem Plays.modifyX (f : SeqRegs → SeqRegs) : Plays s0 v (modifyX f) () { v with x := f v.x } := fun s h =>
  ⟨_, by rw [modifyX_run, h.x], h.withX _, Nat.le_refl _, fun _ k => by rw [modifyX_run, ← h.x]; rfl⟩

theorem Plays.memRead (a : BitVec 32) : Plays s0 v (memRead a) (v.buf.read a.toNat) v := fun s h =>
  ⟨s, by rw [memRead_run, h.buf], h, Nat.le_refl _, fun _ k => by rw [memRead_run, ← h.buf]; rfl⟩

theorem Plays.memWrite (a : BitVec 32) (b : Byte) :
    Plays s0 v (memWrite a b) () { v with buf := v.buf.write a.toNat b } := fun s h =>
  ⟨_, by rw [memWrite_run, h.buf], h.withBuf _, Nat.le_refl _, fun _ k => by rw [memWrite_run, ← h.buf]; rfl⟩

theorem Plays.rd {r : RegId} {b : Byte} (hr : Runs s0 v (rd r) b w) : Plays s0 v (rd r) b w := by
  intro s h
  obtain ⟨t, ht, hw⟩ := hr s h
  obtain ⟨q, hq, rfl, rfl⟩ := rd_ok.1 ht
  have hsq := (lePoint_frame hq).dataSent_le
  have hqt := (afterRead_frame q r).dataSent_le
  refine ⟨_, ht, hw, Nat.le_trans hsq hqt, fun hsent k => ?_⟩
  have hk := lePoint_refusing h.env h.willing h.polled hq k (Nat.le_antisymm (hqt.trans hsent.le) hsq)
  rw [rd_eq hk, readValue_refusing]
  rw [afterRead_refusing]
  rfl

theorem Plays.wr {r : RegId} {b : Byte} (hr : Runs s0 v (wr r b) () w) : Plays s0 v (wr r b) () w := by
  intro s h
  obtain ⟨t, ht, hw⟩ := hr s h
  obtain ⟨q, hq, rfl⟩ := wr_ok.1 ht
  have hsq := (lePoint_frame hq).dataSent_le
  have hqt := (afterWrite_frame q r b).dataSent_le
  refine ⟨_, ht, hw, Nat.le_trans hsq hqt, fun hsent k => ?_⟩
  have hk := lePoint_refusing h.env h.willing h.polled hq k (Nat.le_antisymm (hqt.trans hsent.le) hsq)
  rw [wr_eq hk]
  rw [afterWrite_refusing]
  rfl

/-- A wait that succeeds at its first sample. -/
theorem Plays.poll {n : Nat} {r : RegId} {f : Byte → Option Kind} {b : Byte} {k : Kind} (hn : 0 < n)
    (hr : Plays s0 v (Machine.rd r) b w) (hf : f b = some k) : Plays s0 v (poll n r f) (some k) w := by
  obtain ⟨m, rfl⟩ := Nat.exists_eq_succ_of_ne_zero (Nat.ne_of_gt hn)
  unfold Machine.poll
  exact hr.bind (by rw [hf]; exact Plays.pure _)

theorem Plays.pollOrTimeout {n : Nat} {r : RegId} {f : Byte → Option Kind} {b : Byte} {k : Kind} (hn : 0 < n)
    (hr : Plays s0 v (Machine.rd r) b w) (hf : f b = some k) : Plays s0 v (pollOrTimeout n r f) k w := by
  unfold Machine.pollOrTimeout
  exact (Plays.poll hn hr hf).bind (Plays.pure _)

end Plays

end Sys2Proof.Machine
end

section
/-! PROOFS. Transfers in the reference environment (46_line_engine.md R157), on what a transfer depends on (`BusView`): the
events at one interleaving point, the accesses and waits there, then START, address phase and STOP. -/

namespace Sys2Proof.Machine

/-- `x <- x'`. -/
def BusView.withX (v : BusView) (x : SeqRegs) : BusView := { v with x := x }

/-- `reg[CTL1] <- c`. -/
def BusView.withCtl1 (v : BusView) (c : Byte) : BusView := { v with ctl1 := c }

/-! ## The events at one interleaving point -/

/-- The reference environment fires `n` events in `v`, one after another, and none is enabled in `w`. -/
inductive Fires : Nat → BusView → BusView → Prop
  | done {v : BusView} (h : v.choose = none) : Fires 0 v v
  | next {n : Nat} {v u w : BusView} (ev : LeEvent) (h : v.choose = some ev) (hin : ev.inView = true)
    (he : v.effect ev = u) (rest : Fires n u w) : Fires (n + 1) v w

theorem Fires.rest {n : Nat} {v w : BusView} (h : Fires n v w) : w.choose = none := by
  induction h with
  | done h => exact h
  | next _ _ _ _ _ ih => exact ih

theorem Fires.run {n m : Nat} {v w : BusView} (h : Fires n v w) (hm : n ≤ m) : v.run m = w ∧ v.wanted m := by
  induction h generalizing m with
  | done h =>
    cases m with
    | zero => exact ⟨rfl, trivial⟩
    | succ m =>
      unfold BusView.run BusView.wanted
      rw [h]
      exact ⟨rfl, trivial⟩
  | next ev h hin he _ ih =>
    subst he
    obtain ⟨m, rfl⟩ := Nat.exists_eq_succ_of_ne_zero (Nat.ne_of_gt (Nat.lt_of_lt_of_le (Nat.succ_pos _) hm))
    obtain ⟨hrun, hwanted⟩ := ih (Nat.le_of_succ_le_succ hm)
    unfold BusView.run BusView.wanted
    rw [h]
    exact ⟨hrun, hin, hwanted⟩

/-- No event looks at the sequencer registers. -/
theorem BusView.effect_withX (v : BusView) (ev : LeEvent) (x : SeqRegs) :
    (v.withX x).effect ev = (v.effect ev).withX x := by
  cases ev with
  | addrAck | txAck =>
    unfold BusView.effect BusView.withX
    cases v.le.txb <;> rfl
  | _ => rfl

theorem BusView.effect_x (v : BusView) (ev : LeEvent) : (v.effect ev).x = v.x := by
  have h : v.effect ev = (v.effect ev).withX v.x := effect_withX v ev v.x
  rw [h]
  rfl

theorem Fires.withX {n : Nat} {v w : BusView} (h : Fires n v w) (x : SeqRegs) :
    Fires n (v.withX x) (w.withX x) := by
  induction h with
  | done h => exact .done h
  | next ev h hin he _ ih => exact .next ev h hin ((BusView.effect_withX _ _ _).trans (by rw [he])) ih

theorem Fires.x {n : Nat} {v w : BusView} (h : Fires n v w) : w.x = v.x := by
  induction h with
  | done _ => rfl
  | next ev _ _ he _ ih => rw [ih, ← he, BusView.effect_x]

/-- An interleaving point takes `v` to `w`, where nothing is enabled. -/
def Settles (v w : BusView) : Prop := ∃ n ≤ 2 * v.le.txb.length + 3, Fires n v w

section Settles
variable {v w : BusView} (h : Settles v w)

theorem Settles.of_none (hv : v.choose = none) : Settles v v := ⟨0, Nat.zero_le _, .done hv⟩

include h

theorem Settles.rest : w.choose = none := by obtain ⟨n, -, h⟩ := h; exact h.rest

theorem Settles.again : Settles w w := .of_none h.rest

theorem Settles.point : v.point = w := by obtain ⟨n, hn, h⟩ := h; exact (h.run hn).1

theorem Settles.welcome : v.welcome := by obtain ⟨n, hn, h⟩ := h; exact (h.run hn).2

theorem Settles.withX (x : SeqRegs) : Settles (v.withX x) (w.withX x) := by
  obtain ⟨n, hn, h⟩ := h; exact ⟨n, hn, h.withX x⟩

theorem Settles.x : w.x = v.x := by obtain ⟨n, -, h⟩ := h; exact h.x

end Settles

/-! ## What a read of `ST` says -/

theorem startSample_stByte (v : BusView) : startSample v.stByte = if v.master = true then some .ok else none := by
  unfold BusView.stByte
  cases v.master <;> cases v.stastr <;> cases v.sdast <;> rfl

theorem stallSample_stByte (v : BusView) : stallSample v.stByte = if v.stastr = true then some .ok else none := by
  unfold BusView.stByte
  cases v.master <;> cases v.stastr <;> cases v.sdast <;> rfl

theorem dataReadySample_stByte (v : BusView) : dataReadySample v.stByte = if v.sdast = true then some .ok else none := by
  unfold BusView.stByte
  cases v.master <;> cases v.stastr <;> cases v.sdast <;> rfl

theorem inspect_stByte (v : BusView) : inspect v.stByte = .ok := by
  unfold BusView.stByte
  cases v.master <;> cases v.stastr <;> cases v.sdast <;> rfl

/-! ## Accesses and waits at a point whose events are known -/

section Accesses
variable {s0 : State} {v w : BusView} (h : Settles v w)
include h

theorem Settles.rdSt : Plays s0 v (rd .st) w.stByte w := .rd (h.point ▸ Runs.rdSt h.welcome)

theorem Settles.rdCtl1 : Plays s0 v (rd .ctl1) (w.ctl1 &&& 0x97) w := .rd (h.point ▸ Runs.rdCtl1 h.welcome)

theorem Settles.rdData : Plays s0 v (rd .data) w.data w.afterData := .rd (h.point ▸ Runs.rdData h.welcome)

theorem Settles.wrSt (b : Byte) : Plays s0 v (wr .st b) () { w with stastr := w.stastr && !b.getLsbD 3 } :=
  .wr (h.point ▸ Runs.wrSt h.welcome b)

theorem Settles.wrCtl1 {b c : Byte} (hb : b.getLsbD 2 = false) (hc : b &&& 0x97 = c) :
    Plays s0 v (wr .ctl1 b) () (w.withCtl1 c) := hc ▸ .wr (h.point ▸ Runs.wrCtl1 h.welcome hb)

theorem Settles.wrData (b : Byte) : Plays s0 v (wr .data b) () { w with
    data := b, sdast := false, le := { w.le with txb := w.le.txb ++ [(b, w.kind)] } } :=
  .wr (h.point ▸ Runs.wrData h.welcome b)

/-- Bits of `CTL1` are set. -/
theorem Settles.setbits {m c : Byte} (hb : ((w.ctl1 &&& 0x97) ||| m).getLsbD 2 = false)
    (hc : ((w.ctl1 &&& 0x97) ||| m) &&& 0x97 = c) : Plays s0 v (setbits .ctl1 m) () (w.withCtl1 c) :=
  h.rdCtl1.bind (h.again.wrCtl1 hb hc)

/-- Bits of `CTL1` are cleared. -/
theorem Settles.clrbits {m c : Byte} (hb : (w.ctl1 &&& 0x97 &&& ~~~m).getLsbD 2 = false)
    (hc : (w.ctl1 &&& 0x97 &&& ~~~m) &&& 0x97 = c) : Plays s0 v (clrbits .ctl1 m) () (w.withCtl1 c) :=
  h.rdCtl1.bind (h.again.wrCtl1 hb hc)

/-- The wait for data, when a byte can move (42_primitives.md R101). -/
theorem Settles.pollDataReady {n : Nat} (hn : 0 < n) (hw : w.sdast = true) :
    Plays s0 v (pollDataReady n) .ok (w.withX { v.x with phase := .data }) := by
  refine (Plays.modifyX (fun x => { x with phase := .data })).bind (Plays.pollOrTimeout hn (h.withX _).rdSt ?_)
  rw [dataReadySample_stByte]
  exact if_pos hw

/-- The wait for the NACK request, when it has been used up (42_primitives.md R102). -/
theorem Settles.pollAckCleared {n : Nat} (hn : 0 < n) (hw : w.ctl1 = 0) :
    Plays s0 v (pollAckCleared n) .ok (w.withX { v.x with phase := .data }) := by
  refine (Plays.modifyX (fun x => { x with phase := .data })).bind (Plays.pollOrTimeout hn (h.withX _).rdCtl1 ?_)
  show ackClearedSample (w.ctl1 &&& 0x97) = some .ok
  rw [hw]
  rfl

/-- The inspection of the address phase (42_primitives.md R100). -/
theorem Settles.inspectAddress : Plays s0 v inspectAddress .ok (w.withX { w.x with phase := .addressed }) := by
  refine h.rdSt.bind ?_
  rw [inspect_stByte]
  exact (Plays.modifyX (fun x => { x with phase := .addressed })).bind (Plays.pure _)

/-- The stall wait may have no sample; the point after it shows the stall in any case. -/
theorem Settles.stallWait (hw : w.stastr = true) (n : Nat) :
    ∃ o u, Plays s0 v (poll n .st stallSample) o u ∧ Settles u w := by
  obtain rfl | hn := Nat.eq_zero_or_pos n
  · exact ⟨none, v, Plays.pure _, h⟩
  · exact ⟨some .ok, w, Plays.poll hn h.rdSt (by rw [stallSample_stByte, if_pos hw]), h.again⟩

end Accesses

/-! ## START -/

/-- The bus is free: the engine is not bus master, has no request and no stall latch, and nothing waits to be sent. -/
structure BusView.Free (v : BusView) : Prop where
  master : v.master = false
  ctl1 : v.ctl1 = 0
  stastr : v.stastr = false
  txb : v.le.txb = []

/-- The START is on the bus and marked (42_primitives.md R98). -/
def BusView.begun (v : BusView) : BusView :=
  { v with
    x := { v.x with started := true, phase := .started }
    master := true
    le := { v.le with addrPhase := true, dir := .none, owed := .none, last := false }
    wire := v.wire ++ [.start] }

theorem BusView.Free.rest {v : BusView} (h : v.Free) : v.choose = none := by
  simp [BusView.choose, h.master, h.ctl1]

theorem putBit_one : putBit 1#8 0 false = 0#8 := rfl

theorem putBit_two : putBit 2#8 1 false = 0#8 := rfl

/-- The START request of a free bus is answered at once. -/
theorem BusView.Free.start {v : BusView} (h : v.Free) : Settles (v.withCtl1 1) (v.begun.withX v.x) := by
  refine ⟨1, by omega, .next .startDone ?_ rfl ?_ (.done ?_)⟩
  · simp [BusView.choose, BusView.withCtl1, BusView.head, h.stastr, h.txb]
  · simp [BusView.effect, BusView.withCtl1, BusView.withX, BusView.begun, h.master, h.ctl1, putBit_one]
  · simp [BusView.choose, BusView.withX, BusView.begun, BusView.head, h.ctl1, h.txb]

theorem sendStart_plays {s0 : State} {v : BusView} (h : v.Free) {n : Nat} (hn : 0 < n) :
    Plays s0 v (sendStart n) .ok v.begun := by
  have hset : Plays s0 v (setbits .ctl1 (Flag.mask .start)) () (v.withCtl1 1) :=
    (Settles.of_none h.rest).setbits (by rw [h.ctl1]; decide) (by rw [h.ctl1]; decide)
  refine hset.bind (Plays.orReturn (Plays.pollOrTimeout hn h.start.rdSt ?_) ?_)
  · rw [startSample_stByte]; rfl
  · exact (Plays.modifyX (fun x => { x with started := true, phase := .started })).bind (Plays.pure _)

/-! ## The address phase -/

/-- A START is on the bus and no address byte has been written yet; `CTL1` holds no request. -/
structure BusView.Opened (v : BusView) : Prop where
  master : v.master = true
  noStart : v.ctl1[0] = false
  noStop : v.ctl1[1] = false
  stastr : v.stastr = false
  txb : v.le.txb = []
  addrPhase : v.le.addrPhase = true
  owed : v.le.owed = .none
  last : v.le.last = false

theorem BusView.Free.opened {v : BusView} (h : v.Free) : v.begun.Opened :=
  ⟨rfl, by simp [BusView.begun, h.ctl1], by simp [BusView.begun, h.ctl1], h.stastr, h.txb, rfl, rfl, rfl⟩

/-- The address byte `b` has been written and acknowledged, with a stall if `STASTRE` is set (46_line_engine.md R142). -/
def BusView.answered (v : BusView) (b : Byte) : BusView :=
  { v with
    data := b
    stastr := v.ctl1.getLsbD 7
    sdast := false
    le := { v.le with
      txb := [], addrPhase := false, dir := if b.getLsbD 0 then .rx else .tx,
      owed := if b.getLsbD 0 then .rxByte else .txReady }
    wire := v.wire ++ [.addr b .ack]
    e := { v.e with current := targetOf b, txIndex := 0 } }

section Opened
variable {s0 : State} {v w : BusView} {b : Byte} (h : v.Opened)
include h

theorem BusView.Opened.rest : v.choose = none := by
  simp [BusView.choose, BusView.head, h.noStart, h.noStop, h.txb, h.owed]

/-- The address byte is queued as such. -/
theorem BusView.Opened.wrData (b : Byte) :
    Plays s0 v (wr .data b) () { v with data := b, sdast := false, le := { v.le with txb := [(b, .addr)] } } := by
  have hwr := (Settles.of_none h.rest).wrData (s0 := s0) b
  have hkind : v.kind = .addr := by simp [BusView.kind, h.addrPhase]
  rwa [hkind, h.txb] at hwr

variable (hb : v.e.targets.contains (targetOf b) = true)
include hb

/-- A target that is there answers the queued address byte, and what it answers with follows at the same point. -/
theorem BusView.Opened.answer (hw : Settles (v.answered b) w) :
    Settles { v with data := b, sdast := false, le := { v.le with txb := [(b, .addr)] } } w := by
  obtain ⟨n, hn, hw⟩ := hw
  refine ⟨n + 1, by simp [BusView.answered] at hn ⊢; omega, .next .addrAck ?_ rfl ?_ hw⟩
  · rw [List.contains_eq_mem, decide_eq_true_iff] at hb
    simp [BusView.choose, BusView.head, h.master, h.noStart, h.noStop, h.stastr, h.addrPhase, hb]
  · simp [BusView.effect, BusView.answered, h.stastr]

theorem sendAddress_plays (hw : Settles (v.answered b) w) :
    Plays s0 v (sendAddress b false) .ok (w.withX { v.x with phase := .addressed }) := by
  have hx : w.x = v.x := hw.x
  exact hx ▸ (h.wrData b).bind (h.answer hb hw).inspectAddress

end Opened

/-- The address byte `b` has been written and acknowledged with a stall. -/
def BusView.held (v : BusView) (b : Byte) : BusView := (v.withCtl1 0x80).answered b

/-- With a stall the line engine is held after the answer (46_line_engine.md R137). -/
theorem held_rest (v : BusView) (b : Byte) : (v.held b).choose = none := by
  simp [BusView.choose, BusView.held, BusView.withCtl1, BusView.answered, BusView.head]

theorem sendAddress_stall_plays {s0 : State} {v : BusView} {b : Byte} (h : v.Opened) (hctl1 : v.ctl1 = 0)
    (hb : v.e.targets.contains (targetOf b) = true) :
    Plays s0 v (sendAddress b true) .ok ((v.held b).withX { v.x with phase := .addressed }) := by
  have hset : Plays s0 v (setbits .ctl1 (Flag.mask .stastre)) () (v.withCtl1 0x80) :=
    (Settles.of_none h.rest).setbits (by rw [hctl1]; decide) (by rw [hctl1]; decide)
  have hopen : (v.withCtl1 0x80).Opened :=
    { h with noStart := by simp [BusView.withCtl1], noStop := by simp [BusView.withCtl1] }
  have hstall : (v.held b).stastr = true := by simp [BusView.held, BusView.withCtl1, BusView.answered]
  obtain ⟨o, u, hwait, hu⟩ := (hopen.answer hb (.of_none (held_rest v b))).stallWait (s0 := s0) hstall s0.cfg.tStall
  exact hset.bind ((hopen.wrData b).bind (Plays.getCfg.bind (hwait.bind hu.inspectAddress)))

/-! ## STOP -/

/-- The engine is bus master with no request, and the line engine is at rest with nothing to send. -/
structure BusView.Waiting (w : BusView) : Prop where
  master : w.master = true
  ctl1 : w.ctl1 = 0
  txb : w.le.txb = []
  rest : w.choose = none

/-- The STOP is on the bus. -/
def BusView.stopped (w : BusView) : BusView :=
  { w with ctl1 := 0, master := false, stastr := false, le := w.le.idle, wire := w.wire ++ [.stop] }

theorem stopped_rest (w : BusView) : w.stopped.choose = none := by simp [BusView.choose, BusView.stopped]

/-- Once nothing stalls the bus a STOP request is answered at once. -/
theorem BusView.Waiting.stop {w : BusView} (h : w.Waiting) : Settles { w with ctl1 := 2, stastr := false } w.stopped := by
  refine ⟨1, by simp [h.txb], .next (.stopDone true) ?_ rfl ?_ (.done (stopped_rest w))⟩
  · simp [BusView.choose, h.txb]
  · simp [BusView.effect, BusView.stopped, h.master, putBit_two]

/-- The STOP is on the bus at the point after the latches are cleared, at the latest: a stall latch holds it until then. -/
theorem BusView.Waiting.clearLatches {s0 : State} {w : BusView} (h : w.Waiting) :
    ∃ u, Plays s0 (w.withCtl1 2) (wr .st stLatches) () u ∧ Settles u w.stopped := by
  have h3 : stLatches.getLsbD 3 = true := by decide
  cases hst : w.stastr with
  | false =>
    have hw : Settles (w.withCtl1 2) w.stopped := by
      have hstop := h.stop
      rwa [← hst] at hstop
    exact ⟨_, hw.wrSt stLatches, .of_none (stopped_rest w)⟩
  | true =>
    have hrest : (w.withCtl1 2).choose = none := by simp [BusView.choose, BusView.withCtl1, BusView.head, hst, h.txb]
    refine ⟨_, (Settles.of_none hrest).wrSt stLatches, ?_⟩
    rw [h3, Bool.not_true, Bool.and_false]
    exact h.stop

section Stop
variable {s0 : State} {v w : BusView} (h : Settles v w) (hw : w.Waiting)
include h hw

/-- The first two steps of `send_stop` (42_primitives.md R99). -/
theorem requestStop_plays : ∃ u, Plays s0 v (setbits .ctl1 (Flag.mask .stop)) () (w.withCtl1 2) ∧
    Plays s0 (w.withCtl1 2) (wr .st stLatches) () u ∧ Settles u w.stopped := by
  obtain ⟨u, hu, hstop⟩ := hw.clearLatches (s0 := s0)
  exact ⟨u, h.setbits (by rw [hw.ctl1]; decide) (by rw [hw.ctl1]; decide), hu, hstop⟩

/-- `send_stop` with a budget: its first sample shows that the request has been answered. -/
theorem sendStop_plays {n : Nat} (hn : 0 < n) :
    Plays s0 v (sendStop n) .ok (w.stopped.withX { v.x with started := false, phase := .idle }) := by
  obtain ⟨u, hset, hclear, hstop⟩ := requestStop_plays (s0 := s0) h hw
  have hx : u.x = v.x := hstop.x.symm.trans h.x
  refine hset.bind (hclear.bind ((Plays.modifyX (fun x => { x with started := false, phase := .stopped })).bind ?_))
  rw [if_neg (Nat.ne_of_gt hn), hx]
  have hsample : stopSample (0 &&& 0x97) = some .ok := by decide
  refine (Plays.poll hn (hstop.withX _).rdCtl1 hsample).bind ?_
  exact (Plays.modifyX (fun x => { x with phase := .idle })).bind (Plays.pure _)

/-- `send_stop(0)`: the request is answered by the next point. -/
theorem sendStop_zero_plays : ∃ u, Plays s0 v (sendStop 0) .ok u ∧
    Settles u (w.stopped.withX { v.x with started := false, phase := .idle }) := by
  obtain ⟨u, hset, hclear, hstop⟩ := requestStop_plays (s0 := s0) h hw
  have hx : u.x = v.x := hstop.x.symm.trans h.x
  refine ⟨_, hset.bind (hclear.bind ((Plays.modifyX (fun x => { x with started := false, phase := .stopped })).bind
    ((Plays.modifyX (fun x => { x with phase := .idle })).bind (Plays.pure _)))), ?_⟩
  rw [hx]
  exact hstop.withX _

end Stop

end Sys2Proof.Machine
end

section
/-! PROOFS. From a state with a free bus, in the reference environment, to the end of a command: how views give the whole run of
READ, WRITE and EXCHANGE of one message. -/

namespace Sys2Proof.Machine

/-! ## A state with a free bus -/

/-- The bus is free: an enabled, polled engine that is not bus master, with no request and nothing to send, in the reference
environment with free lines. -/
structure State.FreeBus (s : State) (e : EnvRef) : Prop where
  env : s.reference e
  polled : s.polled
  free : e.stuck = none
  enable : s.flag .enable = true
  master : s.flag .master = false
  ctl1 : s.reg.ctl1 = 0
  txb : s.le.txb = []

/-- A state's view. -/
def State.view (s : State) (e : EnvRef) : BusView where
  x := s.x
  data := s.reg.data
  ctl1 := s.reg.ctl1
  master := s.flag .master
  stastr := s.flag .stastr
  sdast := s.flag .sdast
  le := s.le
  wire := s.wire
  buf := s.buf
  e := e

section FreeBus
variable {s : State} {e : EnvRef} (h : s.FreeBus e)
include h

/-- Nothing happens at a point but that the lines show that they are free. -/
theorem State.FreeBus.point : lePoint s = .ok (s.withLines .high .high) := by
  have hlines : effLines e.sclLevel (e.sdaLevel s.le.pulses) s = s.withLines .high .high := by
    simp [effLines, EnvRef.sclLevel, EnvRef.sdaLevel, h.free]
  have hchoose : e.choose (s.withLines .high .high) = none := by
    have hstart : s.flag .start = false := by simp [State.flag, Flag.isSet, Flag.reg, HwRegs.get, h.ctl1]
    have hstop : s.flag .stop = false := by simp [State.flag, Flag.isSet, Flag.reg, HwRegs.get, h.ctl1]
    simp [choose_eq, LeEvent.guard, addrGuard, txGuard, h.master, hstart, hstop]
  unfold lePoint
  rw [h.env]
  simp only [refPoint, h.master, Bool.false_eq_true, if_false]
  rw [hlines, refLoop_stop hchoose, ← h.env]
  rfl

theorem State.FreeBus.withLines : (s.withLines .high .high).FreeBus e := { h with }

/-- What clearing the latches leaves of it. -/
theorem State.FreeBus.cleared : ((afterWrite (s.withLines .high .high) .st 0xFF).pushAcc (.wr .st 0xFF)).FreeBus e where
  env := h.env
  polled := afterWrite_polled (s := s.withLines .high .high) h.polled rfl
  free := h.free
  enable := h.enable
  master := by
    refine (writeLatches_st_flag' _ _ .master rfl).trans ?_
    show (s.flag .master && _) = false
    rw [h.master, Bool.false_and]
  ctl1 := h.ctl1
  txb := h.txb

/-- With free lines and no failure latch it shows its view, but for a data byte that the target would refuse. -/
theorem State.FreeBus.shows (hscl : s.scl = .high) (hsda : s.sda = .high) (hnegack : s.flag .negack = false)
    (hber : s.flag .ber = false) : Shows s (s.view (e.refusing none)) (s.refusing none) :=
  { x := rfl, data := rfl, ctl1 := rfl, master := rfl, stastr := rfl, sdast := rfl, negack := hnegack, ber := hber, le := rfl
    wire := rfl, buf := rfl, env := congrArg (Env.refusing · none) h.env, scl := hscl, sda := hsda, ctl2 := rfl, ctl3 := rfl
    b0ectl := rfl, log := rfl, cp := rfl, program := rfl, initialised := rfl, pinmux := rfl, cfg := rfl, enable := h.enable
    fifoEn := ((State.polled_iff s).1 h.polled).1, inten := ((State.polled_iff s).1 h.polled).2, free := h.free, willing := rfl }

end FreeBus

/-! ## The end of a command -/

/-- A command has ended with `OK` where its view is `f`; the rest of the state is as in `s`. -/
structure State.Finished (s : State) (f : BusView) (t : State) : Prop where
  x : t.x = { f.x with result := 0 }
  buf : t.buf = f.buf
  wire : t.wire = f.wire
  le : t.le = f.le
  ctl1 : t.reg.ctl1 = f.ctl1
  master : t.flag .master = f.master
  log : t.log = s.log
  cp : t.cp = s.cp
  program : t.program = s.program
  initialised : t.initialised = s.initialised
  pinmux : t.pinmux = s.pinmux
  cfg : t.cfg = s.cfg
  config : ConfigFrame s t

/-- The state after the last access. -/
theorem Shows.finished {s t : State} {f : BusView} (hs : s.polled) (h : Shows s f t) (k : Option Nat) :
    s.Finished f ((t.refusing k).setResult .ok) where
  x := congrArg (fun x : SeqRegs => { x with result := 0 }) h.x
  buf := h.buf
  wire := h.wire
  le := h.le
  ctl1 := h.ctl1
  master := h.master
  log := h.log
  cp := h.cp
  program := h.program
  initialised := h.initialised
  pinmux := h.pinmux
  cfg := h.cfg
  config := ⟨h.ctl2, h.ctl3, h.b0ectl, h.fifoEn.trans ((State.polled_iff s).1 hs).1.symm,
    h.inten.trans ((State.polled_iff s).1 hs).2.symm⟩

theorem State.Finished.hostFrame {s t : State} {f : BusView} (h : s.Finished f t) (hbuf : f.buf = s.buf) : HostFrame s t :=
  ⟨fun a => by rw [h.buf, hbuf], h.log, h.program, h.cp, h.cfg, h.initialised, h.pinmux⟩

theorem State.refusing_refusing (s : State) (j k : Option Nat) : (s.refusing j).refusing k = s.refusing k := by
  unfold State.refusing
  rw [State.withEnv_env, withEnv_withEnv]
  cases s.env <;> rfl

theorem State.refusing_self {s : State} {e : EnvRef} (h : s.env = .ref e) : s.refusing e.txNack = s := by
  rw [State.refusing_of_ref h]
  show s.withEnv (.ref e) = s
  rw [← h]
  rfl

/-- A body that plays from the view of a state with a free bus runs from that state, if the target refuses no data byte or
gets none. -/
theorem State.FreeBus.runBody {s : State} {e : EnvRef} {f : BusView} {m : Op Kind} (h : s.FreeBus e) (hscl : s.scl = .high)
    (hsda : s.sda = .high) (hnegack : s.flag .negack = false) (hber : s.flag .ber = false)
    (hm : Plays s (s.view (e.refusing none)) m .ok f)
    (htx : e.txNack = none ∨ f.wire.countP WireEvent.isData = s.wire.countP WireEvent.isData) :
    ∃ t, runBody m s = .next t ∧ s.Finished f t := by
  obtain ⟨t, ht, hf, -, hrefuse⟩ := hm _ (h.shows hscl hsda hnegack hber)
  refine ⟨(t.refusing e.txNack).setResult .ok, runBody_eq ?_, hf.finished h.polled e.txNack⟩
  obtain hnone | hsent := htx
  · have hs := State.refusing_self h.env
    have ht' := State.refusing_self hf.env
    rw [hnone] at hs ⊢
    rw [hf.willing] at ht'
    rwa [hs, ← ht'] at ht
  · have hrun := hrefuse (by unfold State.dataSent; rw [hf.wire]; exact hsent) e.txNack
    rwa [State.refusing_refusing, State.refusing_self h.env] at hrun


/-! ## READ and WRITE -/

/-- The state at the first interleaving point. -/
def State.linesFree (s : State) : State := s.withLines .high .high

theorem linesFree_config (s : State) : ConfigFrame s s.linesFree := ⟨rfl, rfl, rfl, rfl, rfl⟩

/-- An operation that begins with an access does the same before and after an interleaving point at which the line engine comes
to rest. -/
theorem sendStart_point {s u : State} (h : lePoint s = .ok u) (hu : lePoint u = .ok u) (n : Nat) :
    sendStart n s = sendStart n u := by
  have hrd : rd .ctl1 s = rd .ctl1 u := by rw [rd_eq h, rd_eq hu]
  have hset : setbits .ctl1 (Flag.mask .start) s = setbits .ctl1 (Flag.mask .start) u := by
    unfold setbits
    rw [Op.bind_run, Op.bind_run, hrd]
  unfold sendStart
  rw [Op.bind_run, Op.bind_run, hset]

section FreeBus
variable {s : State} {e : EnvRef} (h : s.FreeBus e) (hinit : s.initialised = true)
include h

theorem State.FreeBus.sendStart_eq (n : Nat) : sendStart n s = sendStart n s.linesFree :=
  sendStart_point h.point h.withLines.point n

theorem State.FreeBus.writeMessage_eq (a : Addr7) (len : Nat) (base : BitVec 32) :
    writeMessage a len base s = writeMessage a len base s.linesFree := by
  unfold writeMessage orReturn
  rw [Op.bind_eq (getCfg_run s), Op.bind_eq (getCfg_run _), Op.bind_run, Op.bind_run, h.sendStart_eq]
  rfl

theorem State.FreeBus.readMessage_eq (keep : Bool) (a : Addr7) {len : Nat} (hlen : len ≠ 0) (base : BitVec 32) :
    readMessage keep a len base s = readMessage keep a len base s.linesFree := by
  unfold readMessage orReturn
  rw [if_neg hlen, Op.bind_eq (getCfg_run s), Op.bind_eq (getCfg_run _), Op.bind_run, Op.bind_run, h.sendStart_eq]
  rfl

include hinit

/-- The command READ or WRITE, from the view of the state. -/
theorem State.FreeBus.command {f : BusView} {m : Message} (hm : m.dir = .read → m.len.toNat ≠ 0)
    (hnegack : s.flag .negack = false) (hber : s.flag .ber = false)
    (hplay : Plays s.linesFree (s.linesFree.view (e.refusing none)) (runMessage false m) .ok f)
    (htx : e.txNack = none ∨ f.wire.countP WireEvent.isData = s.wire.countP WireEvent.isData) :
    ∃ t, exec (messageCommand m) s = .next t ∧ s.Finished f t := by
  obtain ⟨t, ht, hf⟩ := h.withLines.runBody rfl rfl hnegack hber hplay htx
  have hexec : exec (messageCommand m) s = Machine.runBody (runMessage false m) s := by
    unfold messageCommand runMessage
    cases m.dir <;> exact if_pos hinit
  have hsame : runMessage false m s = runMessage false m s.linesFree := by
    unfold runMessage
    cases hd : m.dir with
    | read => exact h.readMessage_eq false m.addr (hm hd) m.base
    | write => exact h.writeMessage_eq m.addr m.len.toNat m.base
  refine ⟨t, ?_, { hf with config := ConfigFrame.along.trans (linesFree_config s) hf.config }⟩
  rw [hexec]
  unfold Machine.runBody
  rw [hsame]
  exact ht

end FreeBus

/-! ## EXCHANGE of one message -/

/-- The state after the latches have been cleared at the first interleaving point. -/
def State.latchesCleared (s : State) : State := (afterWrite s.linesFree .st 0xFF).pushAcc (.wr .st 0xFF)

theorem latchesCleared_config (s : State) : ConfigFrame s s.latchesCleared :=
  ConfigFrame.along.trans (ConfigFrame.along.trans (linesFree_config s) (afterWrite_st_config s.linesFree 0xFF)) (.pushAcc _ _)

theorem latchesCleared_flag (s : State) {f : Flag} (hf : f.reg = .st)
    (hbit : ((0xFF : Byte).getLsbD f.bit && (0x38#8).getLsbD f.bit) = true) :
    s.latchesCleared.flag f = false := by
  refine (writeLatches_st_flag' s.linesFree 0xFF f hf).trans ?_
  rw [hbit, Bool.not_true, Bool.and_false]

theorem nextMessage_none (m : Message) : nextMessage none m = runMessage false m := by
  funext s
  simp [nextMessage, heldOver]

section FreeBus
variable {s : State} {e : EnvRef} (h : s.FreeBus e) (hinit : s.initialised = true)
include h hinit

theorem State.FreeBus.exchange {u f : BusView} {m : Message}
    (hplay : Plays s.latchesCleared (s.latchesCleared.view (e.refusing none)) (runMessage false m) .ok u)
    (hstop : Plays s.latchesCleared u forcedStop () f)
    (htx : e.txNack = none ∨ f.wire.countP WireEvent.isData = s.wire.countP WireEvent.isData) :
    ∃ t, exec (.exchange [m]) s = .next t ∧ s.Finished f t := by
  have hclear : clearAllStatus s = .ok ((), s.latchesCleared) := wr_eq h.point .st 0xFF
  have hbody : Plays s.latchesCleared (s.latchesCleared.view (e.refusing none)) (do
      let failed ← runMessages none [m]
      forcedStop
      if failed then errorPath (lastAddr [m]) else pure .ok) .ok f := by
    have hall : Plays s.latchesCleared (s.latchesCleared.view (e.refusing none)) (runMessages none [m]) false u := by
      unfold runMessages
      rw [nextMessage_none]
      exact hplay.bind (Plays.bind (Plays.pure false) (Plays.pure _))
    exact hall.bind (hstop.bind (Plays.pure _))
  obtain ⟨t, ht, hf⟩ := State.FreeBus.runBody h.cleared rfl rfl (latchesCleared_flag s (f := .negack) rfl rfl)
    (latchesCleared_flag s (f := .ber) rfl rfl) hbody htx
  refine ⟨t, ?_, { hf with config := ConfigFrame.along.trans (latchesCleared_config s) hf.config }⟩
  refine (if_pos hinit).trans ?_
  unfold Machine.runBody at ht ⊢
  unfold Machine.exchange
  rw [if_pos (.inl rfl), Op.bind_eq hclear]
  exact ht

end FreeBus

end Sys2Proof.Machine
end

section
/-! PROOFS. A WRITE to a target that acknowledges, in the reference environment (43_transactions.md R118 to R120). -/

namespace Sys2Proof.Machine

/-! ## Between the bytes of a write -/

/-- A write is going on: the target wants a byte, is about to ask for one, or is about to take the one that is queued. -/
structure BusView.Sending (v : BusView) : Prop where
  master : v.master = true
  ctl1 : v.ctl1 = 0
  stastr : v.stastr = false
  addrPhase : v.le.addrPhase = false
  dir : v.le.dir = .tx
  turn : (v.le.txb = [] ∧ v.le.owed = .none ∧ v.sdast = true) ∨ (v.le.txb = [] ∧ v.le.owed = .txReady) ∨
    ∃ d, v.le.txb = [(d, .data)]

/-- What has been sent, with the byte that is still queued. -/
def BusView.sent (v : BusView) : List WireEvent := v.wire ++ v.le.txb.map (fun p => .tx p.1 .ack)

/-- From `v` to `w` the queue has been sent, and the target wants a byte. -/
structure BusView.Drained (v w : BusView) : Prop where
  sending : w.Sending
  txb : w.le.txb = []
  owed : w.le.owed = .none
  sdast : w.sdast = true
  wire : w.wire = v.sent
  x : w.x = v.x
  buf : w.buf = v.buf

/-- The target asks for a byte: nothing is left to do. -/
theorem BusView.Sending.fires_none {v : BusView} (h : v.Sending) (htxb : v.le.txb = []) (howed : v.le.owed = .none)
    (hsdast : v.sdast = true) : Fires 0 v v ∧ v.Drained v := by
  refine ⟨.done ?_, h, htxb, howed, hsdast, by simp [BusView.sent, htxb], rfl, rfl⟩
  simp [BusView.choose, BusView.head, h.ctl1, h.addrPhase, htxb, howed]

/-- The target is about to ask for a byte. -/
theorem BusView.Sending.fires_txReady {v : BusView} (h : v.Sending) (htxb : v.le.txb = []) (howed : v.le.owed = .txReady) :
    ∃ w, Fires 1 v w ∧ v.Drained w := by
  have hw : BusView.Sending { v with sdast := true, le := { v.le with owed := .none } } :=
    { h with turn := .inl ⟨htxb, rfl, rfl⟩ }
  obtain ⟨hdone, -⟩ := hw.fires_none htxb rfl rfl
  refine ⟨_, .next .txReady ?_ rfl rfl hdone, hw, htxb, rfl, rfl, by simp [BusView.sent, htxb], rfl, rfl⟩
  simp [BusView.choose, BusView.head, h.master, h.ctl1, h.stastr, h.addrPhase, htxb, howed]

/-- The target takes the queued byte and asks for another. -/
theorem BusView.Sending.fires_txAck {v : BusView} {d : Byte} (h : v.Sending) (htxb : v.le.txb = [(d, .data)]) :
    ∃ w, Fires 2 v w ∧ v.Drained w := by
  have hu : BusView.Sending (v.effect .txAck) := by
    simp only [BusView.effect, htxb]
    exact { h with turn := .inr (.inl ⟨rfl, rfl⟩) }
  obtain ⟨w, hw, hd⟩ := hu.fires_txReady (by simp [BusView.effect, htxb]) (by simp [BusView.effect, htxb])
  refine ⟨w, .next .txAck ?_ rfl rfl hw, hd.sending, hd.txb, hd.owed, hd.sdast, ?_, hd.x.trans (v.effect_x _), ?_⟩
  · simp [BusView.choose, BusView.head, h.master, h.ctl1, h.stastr, h.addrPhase, h.dir, htxb]
  · rw [hd.wire]
    simp [BusView.effect, BusView.sent, htxb]
  · rw [hd.buf]
    simp [BusView.effect, htxb]

theorem BusView.Sending.settles {v : BusView} (h : v.Sending) : ∃ w, Settles v w ∧ v.Drained w := by
  obtain ⟨htxb, howed, hsdast⟩ | ⟨htxb, howed⟩ | ⟨d, htxb⟩ := h.turn
  · obtain ⟨hf, hd⟩ := h.fires_none htxb howed hsdast
    exact ⟨v, ⟨0, by omega, hf⟩, hd⟩
  · obtain ⟨w, hf, hd⟩ := h.fires_txReady htxb howed
    exact ⟨w, ⟨1, by omega, hf⟩, hd⟩
  · obtain ⟨w, hf, hd⟩ := h.fires_txAck htxb
    exact ⟨w, ⟨2, by omega, hf⟩, hd⟩

theorem BusView.Drained.waiting {v w : BusView} (h : v.Drained w) : w.Waiting :=
  ⟨h.sending.master, h.sending.ctl1, h.txb, (h.sending.fires_none h.txb h.owed h.sdast).1.rest⟩

/-! ## The write loop -/

/-- One byte of the write loop: from `v` to `u` the byte `d` has been handed over. -/
structure BusView.Handed (d : Byte) (v u : BusView) : Prop where
  sending : u.Sending
  sent : u.sent = v.sent ++ [.tx d .ack]
  x : u.x = { v.x with phase := .data }
  buf : u.buf = v.buf

theorem sendData_plays {s0 : State} {v : BusView} (h : v.Sending) {n : Nat} (hn : 0 < n) (d : Byte) :
    ∃ w u, Plays s0 v (pollDataReady n) .ok w ∧ w.buf = v.buf ∧ Plays s0 w (wr .data d) () u ∧ v.Handed d u := by
  obtain ⟨w, hw, hd⟩ := h.settles
  have hpoll := hw.pollDataReady (s0 := s0) hn hd.sdast
  have hwr := (hw.again.withX { v.x with phase := .data }).wrData (s0 := s0) d
  have hkind : (w.withX { v.x with phase := .data }).kind = .data := by
    simp [BusView.kind, BusView.withX, hd.sending.ctl1, hd.sending.addrPhase, hd.sending.master]
  refine ⟨_, _, hpoll, hd.buf, hwr, { hd.sending with turn := ?_ }, ?_, rfl, hd.buf⟩
  · refine .inr (.inr ⟨d, ?_⟩)
    rw [hkind]
    exact congrArg (· ++ [(d, .data)]) hd.txb
  · simp [BusView.sent, BusView.withX, hd.txb, hd.wire]

/-- The bytes of a buffer as events on the wire. -/
def sentBytes (buf : Memory) (a : BitVec 32) (n : Nat) : List WireEvent :=
  (List.range n).map (fun k => .tx (buf.read (bufAddr a k).toNat) .ack)

theorem sentBytes_succ (buf : Memory) (a : BitVec 32) (n : Nat) :
    sentBytes buf a (n + 1) = .tx (buf.read a.toNat) .ack :: sentBytes buf (a + 1) n := by
  unfold sentBytes
  rw [List.range_succ_eq_map, List.map_cons, List.map_map, bufAddr_zero]
  refine congrArg _ (List.map_congr_left fun k _ => ?_)
  rw [bufAddr_succ]
  rfl

theorem writeLoop_plays {s0 : State} (hsda : 0 < s0.cfg.tSda) {n : Nat} {a : BitVec 32} {v : BusView} (h : v.Sending) :
    ∃ u, Plays s0 v (writeLoop n a) .ok u ∧ u.Sending ∧ u.sent = v.sent ++ sentBytes v.buf a n ∧
      u.x = { v.x with phase := if n = 0 then v.x.phase else .data } ∧ u.buf = v.buf := by
  induction n generalizing a v with
  | zero => exact ⟨v, Plays.pure _, h, by simp [sentBytes], rfl, rfl⟩
  | succ n ih =>
    obtain ⟨w, u, hpoll, hbuf, hwr, hu⟩ := sendData_plays (s0 := s0) h hsda (v.buf.read a.toNat)
    obtain ⟨q, hrest, hq, hsent, hx, hqbuf⟩ := ih (a := a + 1) hu.sending
    have hread := Plays.memRead (s0 := s0) (v := w) a
    rw [hbuf] at hread
    refine ⟨q, Plays.getCfg.bind (hpoll.orReturn (hread.bind (hwr.bind hrest))), hq, ?_, ?_, hqbuf.trans hu.buf⟩
    · rw [hsent, hu.sent, hu.buf, sentBytes_succ, List.append_assoc]
      rfl
    · rw [hx, hu.x]
      simp

/-! ## WRITE -/

/-- An address byte names its target and tells the direction in bit 0 (20_memory.md R52). -/
theorem targetOf_addrByte (a : Addr7) (d : MsgDir) : targetOf (addrByte a d) = a := by
  ext i hi
  have h8 : 1 + i < 8 := by omega
  cases d <;> simp [targetOf, addrByte, h8, BitVec.getLsbD_eq_getElem hi]

theorem addrByte_write_bit (a : Addr7) : (addrByte a .write)[0] = false := by simp [addrByte]

/-- How a WRITE that has sent `bytes` ends: no STOP, and at the next point the line engine has sent the last byte too. -/
structure BusView.Written (v : BusView) (x : SeqRegs) (bytes : List WireEvent) (u : BusView) : Prop where
  master : u.master = true
  ctl1 : u.ctl1 = 0
  x : u.x = x
  buf : u.buf = v.buf
  sent : u.sent = v.wire ++ bytes
  settles : ∃ w, Settles u w ∧ w.Waiting ∧ w.wire = u.sent ∧ w.buf = u.buf

theorem BusView.Sending.written {v u : BusView} {x : SeqRegs} {bytes : List WireEvent} (h : u.Sending) (hx : u.x = x)
    (hbuf : u.buf = v.buf) (hsent : u.sent = v.wire ++ bytes) : v.Written x bytes u := by
  obtain ⟨w, hw, hd⟩ := h.settles
  exact ⟨h.master, h.ctl1, hx, hbuf, hsent, w, hw, hd.waiting, hd.wire, hd.buf⟩

/-- The stall that answers an address byte holds the line engine after `STASTRE` has been cleared too. -/
theorem held_waiting (v : BusView) (b : Byte) (x : SeqRegs) : (((v.begun.held b).withX x).withCtl1 0).Waiting := by
  refine ⟨rfl, rfl, rfl, ?_⟩
  simp [BusView.choose, BusView.withX, BusView.withCtl1, BusView.held, BusView.answered, BusView.head]

/-- `CTL1` with `STASTRE` alone is cleared to 0, which does not set `INTEN`. -/
theorem stastre_cleared : ((0x80 : Byte) &&& 0x97 &&& ~~~(Flag.mask .stastre)).getLsbD 2 = false := by decide

theorem stastre_stored : ((0x80 : Byte) &&& 0x97 &&& ~~~(Flag.mask .stastre)) &&& 0x97 = 0 := by decide

section Write
variable {s0 : State} {v : BusView} (h : v.Free) {a : Addr7} (ha : a ∈ v.e.targets) (base : BitVec 32)
  (hstart : 0 < s0.cfg.tStart)

include ha in
theorem targets_contains (d : MsgDir) : v.begun.e.targets.contains (targetOf (addrByte a d)) = true := by
  rw [targetOf_addrByte, List.contains_eq_mem, decide_eq_true_iff]
  exact ha

include h ha hstart

/-- The address byte is answered, and the bytes follow (R118). -/
theorem writeMessage_plays_bytes (hsda : 0 < s0.cfg.tSda) {len : Nat} (hlen : len ≠ 0) :
    ∃ u, Plays s0 v (writeMessage a len base) .ok u ∧ v.Written { v.x with started := true, phase := .data }
      ([.start, .addr (addrByte a .write) .ack] ++ sentBytes v.buf base len) u := by
  have hanswered : BusView.Sending (v.begun.answered (addrByte a .write)) := by
    refine ⟨rfl, h.ctl1, ?_, rfl, ?_, .inr (.inl ⟨rfl, ?_⟩)⟩ <;>
      simp [BusView.answered, BusView.begun, h.ctl1, addrByte_write_bit]
  obtain ⟨w, hw, hd⟩ := hanswered.settles
  have haddress := sendAddress_plays (s0 := s0) h.opened (targets_contains ha .write) hw
  obtain ⟨u, hloop, hu, hsent, hx, hbuf⟩ := writeLoop_plays (s0 := s0) hsda (n := len) (a := base)
    (v := w.withX { v.begun.x with phase := .addressed }) { hd.sending with }
  have hwsent : (w.withX { v.begun.x with phase := .addressed }).sent =
      (v.begun.answered (addrByte a .write)).sent := by
    rw [← hd.wire]
    simp [BusView.sent, BusView.withX, hd.txb]
  refine ⟨u, Plays.getCfg.bind ((sendStart_plays h hstart).orReturn ?_), hu.written ?_ (hbuf.trans hd.buf) ?_⟩
  · rw [decide_eq_false hlen]
    simp only [if_neg hlen]
    exact (haddress.orReturn hloop).bind (Plays.pure _)
  · rw [hx, if_neg hlen]
    rfl
  · have hb : w.buf = v.buf := hd.buf
    rw [hsent, hwsent]
    simp [BusView.sent, BusView.answered, BusView.begun, BusView.withX, hb]

/-- The address-only probe: the stall that answers the address byte outlives the stall enable (R119). -/
theorem writeMessage_plays_probe : ∃ u, Plays s0 v (writeMessage a 0 base) .ok u ∧
    v.Written { v.x with started := true, phase := .addressed } [.start, .addr (addrByte a .write) .ack] u := by
  have haddress := sendAddress_stall_plays (s0 := s0) h.opened h.ctl1 (targets_contains ha .write)
  have hwait := held_waiting v (addrByte a .write) { v.begun.x with phase := .addressed }
  have hclear := ((Settles.of_none (held_rest v.begun (addrByte a .write))).withX
    { v.begun.x with phase := .addressed }).clrbits (s0 := s0) (m := Flag.mask .stastre) (c := 0)
    stastre_cleared stastre_stored
  have htxb := hwait.txb
  refine ⟨_, Plays.getCfg.bind ((sendStart_plays h hstart).orReturn ((haddress.orReturn (Plays.pure _)).bind
    (hclear.bind (Plays.pure _)))), rfl, rfl, rfl, rfl, ?_, _, .of_none hwait.rest, hwait, ?_, rfl⟩
  · simp [BusView.sent, BusView.withX, BusView.withCtl1, BusView.held, BusView.answered, BusView.begun]
  · unfold BusView.sent
    rw [htxb, List.map_nil, List.append_nil]

theorem writeMessage_plays (hsda : 0 < s0.cfg.tSda) (len : BitVec 16) :
    ∃ u, Plays s0 v (writeMessage a len.toNat base) .ok u ∧
    v.Written { v.x with started := true, phase := if len = 0 then .addressed else .data }
      ([.start, .addr (addrByte a .write) .ack] ++ sentBytes v.buf base len.toNat) u := by
  obtain rfl | hlen := eq_or_ne len 0
  · exact writeMessage_plays_probe h ha base hstart
  · rw [if_neg hlen]
    exact writeMessage_plays_bytes h ha base hstart hsda fun h0 => hlen (BitVec.eq_of_toNat_eq h0)

end Write

/-- The forced STOP after a WRITE. -/
theorem BusView.Written.forcedStop {s0 : State} {v u : BusView} {x : SeqRegs} {bytes : List WireEvent}
    (h : v.Written x bytes u) (hx : x.started = true) :
    ∃ f, Plays s0 u forcedStop () f ∧ f.master = false ∧ f.ctl1 = 0 ∧
      f.x = { x with started := false, phase := .idle } ∧ f.buf = v.buf ∧ f.wire = v.wire ++ bytes ++ [.stop] := by
  obtain ⟨w, hw, hwait, hwire, hbuf⟩ := h.settles
  have hstop := sendStop_plays (s0 := s0) hw hwait (n := s0.cfg.tStop) (Nat.succ_pos _)
  refine ⟨w.stopped.withX { u.x with started := false, phase := .idle }, Plays.getX.bind (Plays.getCfg.bind ?_), rfl, rfl,
    by rw [h.x]; rfl, hbuf.trans h.buf, ?_⟩
  · rw [if_pos (h.x ▸ hx)]
    exact hstop.bind (Plays.pure ())
  · show w.wire ++ [.stop] = _
    rw [hwire, h.sent]

/-! ## The obligation -/

/-- Settles O40, by playing the write on views: the engine waits at each byte until the target has taken the one before, and
the STOP waits for the last. -/
theorem writeOnTheWire : Obligations.WriteOnTheWire := by
  unfold Obligations.WriteOnTheWire
  intro a len base s e bytes henv hp hinit hfree htx ha hstart hsda henable hmaster hctl1 htxb hphase hstarted hbytes
  have h : s.FreeBus e := ⟨henv, hp, hfree, henable, hmaster, hctl1, htxb⟩
  have hsent : sentBytes s.buf base len.toNat = bytes := by
    rw [hbytes]
    unfold sentBytes
    simp only [bufAddr_toNat]
  constructor
  · have hv : (s.latchesCleared.view (e.refusing none)).Free :=
      ⟨h.cleared.master, hctl1, latchesCleared_flag s rfl rfl, htxb⟩
    obtain ⟨u, hplay, hu⟩ := writeMessage_plays (s0 := s.latchesCleared) hv ha base hstart hsda len
    obtain ⟨f, hstop, hfm, hfc, hfx, hfb, hfw⟩ := hu.forcedStop (s0 := s.latchesCleared) rfl
    obtain ⟨t, ht, hf⟩ := h.exchange hinit (m := ⟨.write, a, len, base⟩) hplay hstop (.inl htx)
    refine ⟨t, ht, ?_, ?_, hf.hostFrame hfb, hf.config, hf.master.trans hfm, hf.ctl1.trans hfc⟩
    · rw [hf.x, hfx]
      show ({ s.x with started := false, phase := .idle, result := 0 } : SeqRegs) = _
      rw [← hphase, ← hstarted]
    · rw [hf.wire, hfw]
      show s.wire ++ ([.start, .addr (addrByte a .write) .ack] ++ sentBytes s.buf base len.toNat) ++ [.stop] = _
      rw [hsent, ← List.append_assoc]
      rfl
  · intro hnegack hber hstastr
    have hv : (s.linesFree.view (e.refusing none)).Free := ⟨hmaster, hctl1, hstastr, htxb⟩
    obtain ⟨u, hplay, hu⟩ := writeMessage_plays (s0 := s.linesFree) hv ha base hstart hsda len
    obtain ⟨t, ht, hf⟩ := h.command hinit (m := ⟨.write, a, len, base⟩) nofun hnegack hber hplay (.inl htx)
    refine ⟨t, ht, ?_, ?_, hf.hostFrame hu.buf, hf.config, hf.master.trans hu.master, hf.ctl1.trans hu.ctl1⟩
    · rw [hf.x, hu.x]
      rfl
    · rw [hf.wire, hf.le]
      refine hu.sent.trans ?_
      show s.wire ++ ([.start, .addr (addrByte a .write) .ack] ++ sentBytes s.buf base len.toNat) = _
      rw [hsent, ← List.append_assoc]
      rfl

end Sys2Proof.Machine
end

section
/-! PROOFS. A READ from a target that answers, in the reference environment (43_transactions.md R113 to R117). -/

namespace Sys2Proof.Machine

/-! ## What the target returns -/

theorem lookup_dropRx (a : Addr7) (rx : List (Addr7 × List Byte)) :
    ((rx.map (fun p => if p.1 = a then (p.1, p.2.drop 1) else p)).lookup a).getD [] = ((rx.lookup a).getD []).drop 1 := by
  induction rx with
  | nil => rfl
  | cons p rx ih =>
    obtain ⟨b, bytes⟩ := p
    rw [List.map_cons]
    by_cases hb : b = a
    · subst hb
      simp
    · have hne : (a == b) = false := by simpa using Ne.symm hb
      rw [if_neg hb, List.lookup_cons, List.lookup_cons, hne]
      exact ih

/-- A byte has been returned. -/
theorem remaining_dropRx (e : EnvRef) : ({ e with rx := e.dropRx } : EnvRef).remaining = e.remaining.drop 1 :=
  lookup_dropRx e.current e.rx

/-- The next `n` bytes of a target that has `rem` left to return. -/
def nextBytes (rem : List Byte) (n : Nat) : List Byte := (List.range n).map (fun k => rem.getD k 0xFF)

theorem nextBytes_succ (rem : List Byte) (n : Nat) :
    nextBytes rem (n + 1) = rem.headD 0xFF :: nextBytes (rem.drop 1) n := by
  unfold nextBytes
  rw [List.range_succ_eq_map, List.map_cons, List.map_map]
  cases rem <;> simp [Function.comp_def]

/-- Bytes as a READ puts them on the wire: all acknowledged but the last. -/
def readWire : List Byte → List WireEvent
  | [] => []
  | [b] => [.rx b .nack]
  | b :: c :: rest => .rx b .ack :: readWire (c :: rest)

/-! ## What a READ stores -/

/-- Bytes stored from an address on. -/
def Memory.stored (buf : Memory) (a : BitVec 32) : List Byte → Memory
  | [] => buf
  | b :: rest => Memory.stored (buf.write a.toNat b) (a + 1) rest

theorem Memory.stored_read_ne {buf : Memory} {a : BitVec 32} {bytes : List Byte} {x : Nat}
    (hx : ∀ k < bytes.length, x ≠ (bufAddr a k).toNat) : (buf.stored a bytes).read x = buf.read x := by
  induction bytes generalizing buf a with
  | nil => rfl
  | cons b bytes ih =>
    have hfirst : a.toNat ≠ x := by
      have := hx 0 (Nat.succ_pos _)
      rw [bufAddr_zero] at this
      exact this.symm
    refine (ih fun k hk => ?_).trans (Memory.read_write_ne _ _ _ _ hfirst)
    rw [bufAddr_succ]
    exact hx (k + 1) (Nat.succ_lt_succ hk)

theorem Memory.stored_read {buf : Memory} (hbuf : buf.wf) {a : BitVec 32} {bytes : List Byte} (hlen : bytes.length ≤ 2 ^ 32)
    {k : Nat} (hk : k < bytes.length) : (buf.stored a bytes).read (bufAddr a k).toNat = bytes[k] := by
  induction bytes generalizing buf a k with
  | nil => cases hk
  | cons b bytes ih =>
    cases k with
    | zero =>
      have hlater : ∀ j < bytes.length, a.toNat ≠ (bufAddr (a + 1) j).toNat := by
        intro j hj
        have ha := a.isLt
        rw [bufAddr_succ, bufAddr_toNat]
        simp only [List.length_cons] at hlen
        omega
      rw [bufAddr_zero]
      exact (Memory.stored_read_ne hlater).trans ((Memory.read_write _ hbuf _ _ _).trans (if_pos rfl))
    | succ k =>
      rw [← bufAddr_succ]
      exact ih (Memory.write_wf _ hbuf _ a.isLt b) (Nat.le_of_succ_le hlen) (Nat.lt_of_succ_lt_succ hk)

/-! ## Receiving a byte -/

/-- The target is about to return a byte, and no request but perhaps the NACK of that byte is set in `CTL1`. -/
structure BusView.Awaits (v : BusView) (c : Byte) : Prop where
  master : v.master = true
  ctl1 : v.ctl1 = c
  stastr : v.stastr = false
  sdast : v.sdast = false
  addrPhase : v.le.addrPhase = false
  dir : v.le.dir = .rx
  last : v.le.last = false
  owed : v.le.owed = .rxByte
  txb : v.le.txb = []

/-- The next byte has been received. -/
def BusView.received (v : BusView) : BusView := v.effect (.rxByte v.e.nextRx)

/-- A byte is received at the next point. -/
theorem BusView.Awaits.settles {v : BusView} {c : Byte} (h : v.Awaits c) (hc : c = 0 ∨ c = 0x10) :
    Settles v v.received := by
  refine ⟨1, by omega, .next _ ?_ rfl rfl (.done ?_)⟩
  · obtain rfl | rfl := hc <;>
      simp [BusView.choose, BusView.head, h.master, h.ctl1, h.stastr, h.sdast, h.addrPhase, h.owed, h.txb]
  · obtain rfl | rfl := hc <;>
      simp [BusView.effect, BusView.choose, BusView.head, h.ctl1, h.addrPhase, h.txb, putBit]

theorem received_x {v p : BusView} (hv : Settles v p.received) : v.x = p.x := hv.x.symm.trans (BusView.effect_x _ _)

/-- A byte that is acknowledged is taken: another can follow. -/
theorem BusView.Awaits.take {s0 : State} {v p : BusView} (h : p.Awaits 0) (hv : Settles v p.received) {n : Nat} (hn : 0 < n) :
    ∃ w u, Plays s0 v (pollDataReady n) .ok w ∧ Plays s0 w (rd .data) (p.e.remaining.headD 0xFF) u ∧
      u.Awaits 0 ∧ u.x = { p.x with phase := .data } ∧ u.buf = p.buf ∧
      u.wire = p.wire ++ [.rx (p.e.remaining.headD 0xFF) .ack] ∧
      u.e.remaining = p.e.remaining.drop 1 := by
  have hpoll := hv.pollDataReady (s0 := s0) hn rfl
  rw [received_x hv] at hpoll
  have hrd := (hv.again.withX { p.x with phase := .data }).rdData (s0 := s0)
  refine ⟨_, _, hpoll, hrd, ?_, rfl, rfl, ?_, remaining_dropRx p.e⟩
  · constructor <;>
      simp [BusView.afterData, BusView.received, BusView.effect, BusView.withX, h.master, h.ctl1, h.stastr, h.addrPhase,
        h.dir, h.last, h.txb]
  · simp [BusView.afterData, BusView.received, BusView.effect, BusView.withX, h.ctl1, EnvRef.nextRx]

theorem putBit_four : putBit 0x10#8 4 false = 0#8 := rfl

/-- With the NACK sent the target waits for the STOP. -/
theorem BusView.Awaits.stops {v : BusView} (h : v.Awaits 0x10) : v.received.Waiting where
  master := h.master
  ctl1 := by simp [BusView.received, BusView.effect, h.ctl1, putBit_four]
  txb := h.txb
  rest := (h.settles (.inr rfl)).rest

/-- A READ has ended with `OK`: it has received the bytes `bytes` and issued its STOP. -/
structure BusView.ReadDone (v : BusView) (base : BitVec 32) (bytes : List Byte) (f : BusView) : Prop where
  master : f.master = false
  ctl1 : f.ctl1 = 0
  x : f.x = { v.x with started := false, phase := .idle }
  buf : f.buf = v.buf.stored base bytes
  wire : f.wire = v.wire ++ readWire bytes ++ [.stop]

/-- The final byte is read and stored when the bus is free. -/
theorem BusView.Free.storeLast {s0 : State} {u w : BusView} (h : w.Free) (hu : Settles u w) (a : BitVec 32) :
    ∃ f, Plays s0 u (do let v ← rd .data; memWrite a v; clearNackLatch; pure Kind.ok) .ok f ∧
      f.master = false ∧ f.ctl1 = 0 ∧ f.x = w.x ∧ f.buf = w.buf.write a.toNat w.data ∧ f.wire = w.wire := by
  have hfree : BusView.Free { w.afterData with buf := w.buf.write a.toNat w.data } :=
    ⟨h.master, h.ctl1, h.stastr, by simp [BusView.afterData, h.master, h.txb]⟩
  have hplay := hu.rdData.bind (f := fun v => do memWrite a v; clearNackLatch; pure Kind.ok)
    ((Plays.memWrite (s0 := s0) a w.data).bind (((Settles.of_none hfree.rest).wrSt (Flag.mask .negack)).bind
      (Plays.pure Kind.ok)))
  exact ⟨_, hplay, h.master, h.ctl1, rfl, rfl, rfl⟩

/-- The tail of a READ, once its last byte has been received (R114). -/
theorem BusView.Awaits.readTail {s0 : State} {v : BusView} (h : v.Awaits 0x10) (x : SeqRegs) (a : BitVec 32) :
    ∃ f, Plays s0 (v.received.withX x) (readTail (memWrite a)) .ok f ∧
      (v.withX x).ReadDone a [v.e.remaining.headD 0xFF] f := by
  have hwait : (v.received.withX x).Waiting := { h.stops with }
  obtain ⟨u, hstop, hu⟩ := sendStop_zero_plays (s0 := s0) (.of_none hwait.rest) hwait
  obtain ⟨f, hplay, hmaster, hctl1, hx, hbuf, hwire⟩ := BusView.Free.storeLast (s0 := s0) ⟨rfl, rfl, rfl, rfl⟩ hu a
  refine ⟨f, hstop.bind hplay, hmaster, hctl1, hx, hbuf, hwire.trans ?_⟩
  simp [BusView.received, BusView.effect, BusView.withX, BusView.stopped, h.ctl1, EnvRef.nextRx, readWire]

/-! ## The data phase -/

/-- The look-ahead is one step with the read of `DATA` before it (R117). -/
theorem requestNackAfterRead_plays {s0 : State} (hatomic : s0.cfg.atomicNackLookahead = true) {v : BusView}
    (hctl1 : v.ctl1 = 0) : Plays s0 v requestNackAfterRead () (v.withCtl1 0x10) := by
  intro s h
  have hs : s.cfg.atomicNackLookahead = true := by rw [h.cfg]; exact hatomic
  refine ⟨s.ctl1Set 0x10, requestNackAfterRead_eq (.inl hs), ?_, Nat.le_refl _, fun _ k => ?_⟩
  · exact { h with
      ctl1 := by show (s.reg.ctl1 &&& 0x97) ||| 0x10 = 0x10; rw [h.ctl1, hctl1]; rfl
      inten := by
        have hreg : s.reg.ctl1 = 0 := h.ctl1.trans hctl1
        show Flag.isSet .inten ((s.reg.ctl1 &&& 0x97) ||| 0x10) = false
        rw [hreg]
        rfl }
  · exact requestNackAfterRead_eq (s := s.refusing k) (.inl hs)

/-- When one byte is left its NACK is requested, and `CTL1` then holds nothing else (R115). -/
theorem lookAhead_plays {s0 : State} (hatomic : s0.cfg.atomicNackLookahead = true) (n : Nat) {v : BusView} (h : v.Awaits 0) :
    ∃ q, q.Awaits (if n = 0 then 0x10 else 0) ∧ q.x = v.x ∧ q.buf = v.buf ∧ q.wire = v.wire ∧ q.e = v.e ∧
      ∀ {k : Op Kind} {r : Kind} {f : BusView}, Plays s0 q k r f →
        Plays s0 v (if n = 0 then requestNackAfterRead >>= fun _ => k else k) r f := by
  split
  · exact ⟨v.withCtl1 0x10, { h with ctl1 := rfl }, rfl, rfl, rfl, rfl, fun hk =>
      (requestNackAfterRead_plays hatomic h.ctl1).bind hk⟩
  · exact ⟨v, h, rfl, rfl, rfl, rfl, id⟩

theorem BusView.ReadDone.cons {v u f : BusView} {a : BitVec 32} {b c : Byte} {bytes : List Byte}
    (h : u.ReadDone (a + 1) (c :: bytes) f) (hx : u.x = { v.x with phase := .data }) (hbuf : u.buf = v.buf.write a.toNat b)
    (hwire : u.wire = v.wire ++ [.rx b .ack]) : v.ReadDone a (b :: c :: bytes) f where
  master := h.master
  ctl1 := h.ctl1
  x := by rw [h.x, hx]
  buf := by rw [h.buf, hbuf]; rfl
  wire := by rw [h.wire, hwire]; simp [readWire]

section Data
variable {s0 : State} (hsda : 0 < s0.cfg.tSda) (hack : 0 < s0.cfg.tAck) (hatomic : s0.cfg.atomicNackLookahead = true)
include hsda hack hatomic

/-- The multi-byte path: the NACK of the last byte is requested before it is received (R115). -/
theorem readMulti_plays {n : Nat} {a : BitVec 32} {v p : BusView} (h : p.Awaits (if n = 0 then 0x10 else 0))
    (hv : Settles v p.received) :
    ∃ f, Plays s0 v (readMulti (n + 1) a) .ok f ∧ p.ReadDone a (nextBytes p.e.remaining (n + 1)) f := by
  induction n generalizing a v p with
  | zero =>
    have hpoll := hv.pollAckCleared (s0 := s0) hack h.stops.ctl1
    obtain ⟨f, htail, hf⟩ := h.readTail (s0 := s0) { v.x with phase := .data } a
    rw [received_x hv] at hpoll htail hf
    rw [nextBytes_succ]
    exact ⟨f, Plays.getCfg.bind (hpoll.orReturn htail), { hf with }⟩
  | succ n ih =>
    rw [if_neg (Nat.succ_ne_zero n)] at h
    obtain ⟨w, u, hpoll, hrd, hu, hx, hbuf, hwire, hrem⟩ := h.take (s0 := s0) hv hsda
    have hwrite := Plays.memWrite (s0 := s0) (v := u) a (p.e.remaining.headD 0xFF)
    obtain ⟨q, hq, hqx, hqbuf, hqwire, hqe, hnack⟩ := lookAhead_plays hatomic n (v := { u with
      buf := u.buf.write a.toNat (p.e.remaining.headD 0xFF) }) { hu with }
    obtain ⟨f, hrest, hf⟩ := ih (a := a + 1) hq (hq.settles (by split <;> simp))
    rw [hqe, hrem, nextBytes_succ] at hf
    refine ⟨f, Plays.getCfg.bind (hpoll.orReturn (hrd.bind (hwrite.bind (hnack hrest)))), ?_⟩
    rw [nextBytes_succ, nextBytes_succ]
    exact hf.cons (hqx.trans hx) (hqbuf.trans (by rw [hbuf])) (hqwire.trans hwire)

end Data

/-- A byte is on its way under a stall: `STASTRE` and the stall latch are set. -/
structure BusView.Stalled (v : BusView) : Prop where
  master : v.master = true
  ctl1 : v.ctl1 = 0x80
  stastr : v.stastr = true
  released : BusView.Awaits { v with ctl1 := 0x10, stastr := false } 0x10

/-- Under a stall the line engine does nothing. -/
theorem BusView.Stalled.settles {v : BusView} (h : v.Stalled) (c : Byte) : Settles (v.withCtl1 c) (v.withCtl1 c) := by
  refine .of_none ?_
  simp [BusView.choose, BusView.withCtl1, h.stastr]

/-- The stall is released once the NACK has been requested (R114). -/
theorem BusView.Stalled.readSingle {s0 : State} (hsda : 0 < s0.cfg.tSda) {v : BusView} (h : v.Stalled) (base : BitVec 32) :
    ∃ f, Plays s0 v (readSingle false base) .ok f ∧ v.ReadDone base (nextBytes v.e.remaining 1) f := by
  have hself : v.withCtl1 0x80 = v := by rw [← h.ctl1]; rfl
  have hat := h.settles 0x80
  rw [hself] at hat
  have hnack : Plays s0 v requestNack () (v.withCtl1 0x90) :=
    hat.setbits (by rw [h.ctl1]; decide) (by rw [h.ctl1]; decide)
  have hrelease : Plays s0 (v.withCtl1 0x90) (releaseStall false) () { v with ctl1 := 0x10, stastr := false } := by
    have hlatch := (h.settles 0x10).wrSt (s0 := s0) (Flag.mask .stastr)
    have hbit : (Flag.mask .stastr).getLsbD 3 = true := by decide
    rw [hbit, Bool.not_true, Bool.and_false] at hlatch
    have hclear : Plays s0 (v.withCtl1 0x90) (wr .ctl1 ((0x90 &&& 0x97) &&& ~~~(Flag.mask .stastre))) () (v.withCtl1 0x10) :=
      (h.settles 0x90).wrCtl1 (by decide) (by decide)
    have hset : Flag.isSet .stastre ((0x90 : Byte) &&& 0x97) = true := by decide
    refine (h.settles 0x90).rdCtl1.bind ?_
    rw [if_pos (show Flag.isSet .stastre ((v.withCtl1 0x90).ctl1 &&& 0x97) = true from hset)]
    exact hclear.bind hlatch
  have hpoll := (h.released.settles (.inr rfl)).pollDataReady (s0 := s0) hsda rfl
  obtain ⟨f, htail, hf⟩ := h.released.readTail (s0 := s0) { v.x with phase := .data } base
  rw [nextBytes_succ]
  exact ⟨f, hnack.bind (hrelease.bind (Plays.getCfg.bind (hpoll.orReturn htail))), { hf with }⟩

/-! ## READ -/

/-- The START and the address byte of a READ are on the wire. -/
def BusView.readBegun (v : BusView) (a : Addr7) : BusView :=
  { v with wire := v.wire ++ [.start, .addr (addrByte a .read) .ack] }

theorem addrByte_read_bit (a : Addr7) : (addrByte a .read)[0] = true := by simp [addrByte]

section Read
variable {s0 : State} {v : BusView} {a : Addr7}

/-- The target that has acknowledged its address has all its bytes left. -/
theorem answered_remaining (v : BusView) (a : Addr7) (d : MsgDir) :
    (v.begun.answered (addrByte a d)).e.remaining = (v.e.rx.lookup a).getD [] := by
  show (v.e.rx.lookup (targetOf (addrByte a d))).getD [] = _
  rw [targetOf_addrByte]

theorem held_stalled (v : BusView) (a : Addr7) (x : SeqRegs) : ((v.begun.held (addrByte a .read)).withX x).Stalled := by
  refine ⟨rfl, rfl, ?_, ?_⟩
  · simp [BusView.held, BusView.withX, BusView.withCtl1, BusView.answered]
  · constructor <;> simp [BusView.held, BusView.withX, BusView.withCtl1, BusView.answered, BusView.begun, addrByte_read_bit]

/-- A READ has ended with `OK` after its START and address byte. -/
theorem BusView.ReadDone.ofAnswered {u f : BusView} {base : BitVec 32} {bytes : List Byte} (hu : u.ReadDone base bytes f)
    (hx : u.x = { v.x with started := true, phase := .addressed }) (hbuf : u.buf = v.buf)
    (hwire : u.wire = v.begun.wire ++ [.addr (addrByte a .read) .ack]) :
    (v.readBegun a).ReadDone base bytes f where
  master := hu.master
  ctl1 := hu.ctl1
  x := by rw [hu.x, hx]; rfl
  buf := by rw [hu.buf, hbuf]; rfl
  wire := by rw [hu.wire, hwire]; simp [BusView.begun, BusView.readBegun]

variable (h : v.Free)
include h

theorem answered_awaits (x : SeqRegs) : ((v.begun.answered (addrByte a .read)).withX x).Awaits 0 := by
  constructor <;> simp [BusView.answered, BusView.begun, BusView.withX, h.ctl1, addrByte_read_bit]

/-- The READ that a target answers (R113). -/
theorem readMessage_plays (ha : a ∈ v.e.targets) (base : BitVec 32) (hstart : 0 < s0.cfg.tStart) (hsda : 0 < s0.cfg.tSda)
    (hack : 0 < s0.cfg.tAck) (hatomic : s0.cfg.atomicNackLookahead = true) {len : Nat} (hlen : len ≠ 0) :
    ∃ f, Plays s0 v (readMessage false a len base) .ok f ∧
      (v.readBegun a).ReadDone base
        (nextBytes ((v.e.rx.lookup a).getD []) len) f := by
  obtain ⟨f, hdata, hf⟩ : ∃ f, Plays s0 v.begun (orReturn (sendAddress (addrByte a .read) (decide (len = 1)))
      (readData false len base)) .ok f ∧ (v.readBegun a).ReadDone base
        (nextBytes ((v.e.rx.lookup a).getD []) len) f := by
    rw [← answered_remaining v a .read]
    obtain rfl | hone := eq_or_ne len 1
    · have haddress := sendAddress_stall_plays (s0 := s0) h.opened h.ctl1 (targets_contains ha .read)
      obtain ⟨f, hread, hf⟩ := (held_stalled v a { v.begun.x with phase := .addressed }).readSingle hsda base
      exact ⟨f, haddress.orReturn hread, hf.ofAnswered rfl rfl rfl⟩
    · obtain ⟨n, rfl⟩ : ∃ n, len = n + 1 + 1 := ⟨len - 2, by omega⟩
      have hp := answered_awaits (a := a) h { v.begun.x with phase := .addressed }
      have haddress := sendAddress_plays (s0 := s0) h.opened (targets_contains ha .read)
        ((answered_awaits h v.begun.x).settles (.inl rfl))
      obtain ⟨f, hread, hf⟩ := readMulti_plays (s0 := s0) hsda hack hatomic (a := base) (n := n + 1) hp
        (hp.settles (.inl rfl)).again
      rw [decide_eq_false hone]
      refine ⟨f, haddress.orReturn ?_, hf.ofAnswered rfl rfl rfl⟩
      unfold readData
      rw [if_neg hone]
      exact hread
  refine ⟨f, ?_, hf⟩
  unfold readMessage
  rw [if_neg hlen]
  exact Plays.getCfg.bind ((sendStart_plays h hstart).orReturn hdata)

end Read

/-! ## The obligation -/

theorem readWire_nextBytes (rem : List Byte) (n : Nat) : readWire (nextBytes rem (n + 1)) =
    (List.range n).map (fun k => .rx (rem.getD k 0xFF) .ack) ++ [.rx (rem.getD n 0xFF) .nack] := by
  induction n generalizing rem with
  | zero => cases rem <;> rfl
  | succ n ih =>
    have hrest := ih (rem.drop 1)
    rw [nextBytes_succ] at hrest ⊢
    rw [nextBytes_succ, List.range_succ_eq_map, List.map_cons, List.map_map]
    simp only [readWire, hrest]
    cases rem <;> simp [Function.comp_def]

/-- No data byte is sent by a READ. -/
theorem readWire_isData (bytes : List Byte) : (readWire bytes).countP WireEvent.isData = 0 := by
  induction bytes using readWire.induct with
  | case1 => rfl
  | case2 b => rfl
  | case3 b c rest ih => simpa [readWire, WireEvent.isData] using ih

theorem BusView.ReadDone.countP_isData {v f : BusView} {a : Addr7} {base : BitVec 32} {bytes : List Byte}
    (h : (v.readBegun a).ReadDone base bytes f) :
    f.wire.countP WireEvent.isData = v.wire.countP WireEvent.isData := by
  rw [h.wire]
  simp [BusView.readBegun, readWire_isData, WireEvent.isData]

/-- After a READ there is nothing left to stop. -/
theorem BusView.ReadDone.forcedStop {s0 : State} {v f : BusView} {base : BitVec 32} {bytes : List Byte}
    (h : v.ReadDone base bytes f) : Plays s0 f forcedStop () f := by
  refine Plays.getX.bind (Plays.getCfg.bind ?_)
  rw [if_neg (by rw [h.x]; exact Bool.false_ne_true)]
  exact Plays.pure ()

/-- The READ, as a command or as the only message of an EXCHANGE, from a state with a free bus. -/
theorem State.FreeBus.read {s : State} {e : EnvRef} (h : s.FreeBus e) (hinit : s.initialised = true) {i : Instr} {a : Addr7}
    {len : BitVec 16} {base : BitVec 32} (hi : i = .exchange [⟨.read, a, len, base⟩] ∨
      (i = .read a len base ∧ s.flag .negack = false ∧ s.flag .ber = false ∧ s.flag .stastr = false))
    (ha : a ∈ e.targets) (hlen : len.toNat ≠ 0) (hatomic : s.cfg.atomicNackLookahead = true) (hstart : 0 < s.cfg.tStart)
    (hsda : 0 < s.cfg.tSda) (hack : 0 < s.cfg.tAck) :
    ∃ t f, exec i s = .next t ∧ s.Finished f t ∧
      ((s.view e).readBegun a).ReadDone base
        (nextBytes ((e.rx.lookup a).getD []) len.toNat) f := by
  obtain rfl | ⟨rfl, hnegack, hber, hstastr⟩ := hi
  · have hv : (s.latchesCleared.view (e.refusing none)).Free :=
      ⟨h.cleared.master, h.ctl1, latchesCleared_flag s rfl rfl, h.txb⟩
    obtain ⟨f, hplay, hf⟩ := readMessage_plays (s0 := s.latchesCleared) hv ha base hstart hsda hack hatomic hlen
    obtain ⟨t, ht, hfin⟩ := h.exchange hinit (m := ⟨.read, a, len, base⟩) hplay hf.forcedStop (.inr hf.countP_isData)
    exact ⟨t, f, ht, hfin, { hf with }⟩
  · have hv : (s.linesFree.view (e.refusing none)).Free := ⟨h.master, h.ctl1, hstastr, h.txb⟩
    obtain ⟨f, hplay, hf⟩ := readMessage_plays (s0 := s.linesFree) hv ha base hstart hsda hack hatomic hlen
    obtain ⟨t, ht, hfin⟩ := h.command hinit (m := ⟨.read, a, len, base⟩) (fun _ => hlen) hnegack hber hplay
      (.inr hf.countP_isData)
    exact ⟨t, f, ht, hfin, { hf with }⟩

/-- Settles O41, by playing the READ on views: each byte is received at the point after the one before has been read, and the
last under the NACK that was requested before; what the target would do with a byte sent to it does not matter. -/
theorem readOnTheWire : Obligations.ReadOnTheWire := by
  unfold Obligations.ReadOnTheWire
  intro i a len base s e byte hi henv hp hinit hfree ha hlen hbyte hatomic hbuf hstart hsda hack henable hmaster hctl1 htxb
    hphase hstarted
  have h : s.FreeBus e := ⟨henv, hp, hfree, henable, hmaster, hctl1, htxb⟩
  obtain ⟨t, f, ht, hfin, hf⟩ := h.read hinit hi ha (by omega) hatomic hstart hsda hack
  have hcount : (nextBytes ((e.rx.lookup a).getD []) len.toNat).length = len.toNat := by simp [nextBytes]
  refine ⟨t, ht, ?_, fun k hk => ?_, fun x hx => ?_, ?_, hfin.master.trans hf.master, hfin.ctl1.trans hf.ctl1, hfin.config,
    hfin.cp, hfin.log⟩
  · rw [hfin.x, hf.x]
    show ({ s.x with started := false, phase := .idle, result := 0 } : SeqRegs) = _
    rw [← hphase, ← hstarted]
  · rw [hfin.buf, hf.buf, ← bufAddr_toNat, hbyte]
    refine (Memory.stored_read hbuf (by have := len.isLt; omega) (by omega)).trans ?_
    simp [nextBytes]
  · rw [hfin.buf, hf.buf]
    exact Memory.stored_read_ne fun k hk => by rw [bufAddr_toNat]; exact hx k (by omega)
  · obtain ⟨n, hn⟩ : ∃ n, len.toNat = n + 1 := ⟨len.toNat - 1, by omega⟩
    rw [hfin.wire, hf.wire, hn, readWire_nextBytes, hbyte]
    simp [BusView.readBegun, State.view, addrByte]

end Sys2Proof.Machine
end

section
/-! PROOFS. The controller reset brings an enabled controller to its baseline, in every environment
(44_recovery_and_diagnostics.md R130). -/

namespace Sys2Proof.Machine

/-! ## A controller at rest -/

/-- Not bus master, no request, no byte ready, and the line engine idle: it has nothing to do. -/
structure State.Rested (s : State) : Prop where
  master : s.flag .master = false
  start : s.flag .start = false
  stop : s.flag .stop = false
  sdast : s.flag .sdast = false
  idle : s.le = s.le.idle

/-- At rest only the lines and the busy flags move. -/
theorem State.Rested.guard {s : State} (h : s.Rested) {ev : LeEvent} (hg : ev.guard s = true) :
    (∃ scl sda, ev = .lines scl sda) ∨ ∃ bb eo, ev = .foreign bb eo := by
  cases ev with
  | lines scl sda => exact .inl ⟨scl, sda, rfl⟩
  | foreign bb eo => exact .inr ⟨bb, eo, rfl⟩
  | _ => simp [LeEvent.guard, addrGuard, txGuard, h.master, h.start, h.stop] at hg

/-- The fields of the controller that the baseline speaks of are the same. -/
structure SameCore (s t : State) : Prop where
  st : t.reg.st = s.reg.st
  ctl1 : t.reg.ctl1 = s.reg.ctl1
  ctl2 : t.reg.ctl2 = s.reg.ctl2
  b0fifctl : t.reg.b0fifctl = s.reg.b0fifctl
  le : t.le = s.le

theorem SameCore.rested {s t : State} (h : SameCore s t) (hs : s.Rested) : t.Rested where
  master := (congrArg (Flag.isSet .master) h.st).trans hs.master
  start := (congrArg (Flag.isSet .start) h.ctl1).trans hs.start
  stop := (congrArg (Flag.isSet .stop) h.ctl1).trans hs.stop
  sdast := (congrArg (Flag.isSet .sdast) h.st).trans hs.sdast
  idle := by rw [h.le]; exact hs.idle

theorem SameCore.refl (s : State) : SameCore s s := ⟨rfl, rfl, rfl, rfl, rfl⟩

/-- An interleaving point leaves a controller at rest as it is. -/
theorem State.Rested.lePoint {s t : State} (hs : s.Rested) (h : lePoint s = .ok t) : SameCore s t := by
  refine lePoint_induct (R := fun s t => s.Rested → SameCore s t) (fun s _ => SameCore.refl s) ?_ ?_ ?_ h hs
  · intro s t u hst htu hs
    have h1 := hst hs
    have h2 := htu (h1.rested hs)
    exact ⟨h2.st.trans h1.st, h2.ctl1.trans h1.ctl1, h2.ctl2.trans h1.ctl2, h2.b0fifctl.trans h1.b0fifctl,
      h2.le.trans h1.le⟩
  · intro ev s hg hs
    obtain ⟨scl, sda, rfl⟩ | ⟨bb, eo, rfl⟩ := hs.guard hg
    · exact ⟨rfl, rfl, rfl, rfl, rfl⟩
    · exact ⟨rfl, rfl, rfl, rfl, rfl⟩
  · exact fun s e _ => ⟨rfl, rfl, rfl, rfl, rfl⟩

/-! ## Accesses that keep it at rest -/

/-- From a controller at rest: still at rest, `CTL2` is the same, and no flag of `ST` and not `FIFO_EN` has been set. -/
def KeepsRest (s t : State) : Prop := s.Rested → t.Rested ∧ t.reg.ctl2 = s.reg.ctl2 ∧
  (s.flag .fifoEn = false → t.flag .fifoEn = false) ∧ ∀ f : Flag, f.reg = .st → s.flag f = false → t.flag f = false

theorem KeepsRest.along : Along KeepsRest where
  refl _ hs := ⟨hs, rfl, id, fun _ _ => id⟩
  trans h k hs := by
    obtain ⟨ht, hc, hf, hst⟩ := h hs
    obtain ⟨hu, hc', hf', hst'⟩ := k ht
    exact ⟨hu, hc'.trans hc, hf' ∘ hf, fun f hr => hst' f hr ∘ hst f hr⟩

theorem flag_of_st {s t : State} (h : t.reg.st = s.reg.st) {f : Flag} (hr : f.reg = .st) : t.flag f = s.flag f := by
  unfold State.flag
  rw [hr]
  exact congrArg f.isSet h

theorem SameCore.keepsRest {s t : State} (h : SameCore s t) : KeepsRest s t := fun hs =>
  ⟨h.rested hs, h.ctl2, (congrArg (Flag.isSet .fifoEn) h.b0fifctl).trans, fun _ hr => (flag_of_st h.st hr).trans⟩

theorem KeepsRest.pushAcc (s : State) (a : Access) : KeepsRest s (s.pushAcc a) :=
  SameCore.keepsRest ⟨rfl, rfl, rfl, rfl, rfl⟩

theorem lePoint_keepsRest {s t : State} (h : lePoint s = .ok t) : KeepsRest s t := fun hs => (hs.lePoint h).keepsRest hs

theorem wr_keepsRest {r : RegId} {v : Byte} (h : ∀ s, KeepsRest s (afterWrite s r v)) : Op.Keeps KeepsRest (wr r v) := by
  intro s a t e
  obtain ⟨u, hu, rfl⟩ := wr_ok.1 e
  exact KeepsRest.along.trans (lePoint_keepsRest hu) (KeepsRest.along.trans (h u) (.pushAcc _ _))

theorem wr_cst_keepsRest (v : Byte) : Op.Keeps KeepsRest (wr .cst v) :=
  wr_keepsRest fun _ => SameCore.keepsRest ⟨rfl, rfl, rfl, rfl, rfl⟩

theorem wr_b0est_keepsRest (v : Byte) : Op.Keeps KeepsRest (wr .b0est v) :=
  wr_keepsRest fun _ => SameCore.keepsRest ⟨rfl, rfl, rfl, rfl, rfl⟩

theorem wr_b1fifcts_keepsRest (v : Byte) : Op.Keeps KeepsRest (wr .b1fifcts v) :=
  wr_keepsRest fun _ => SameCore.keepsRest ⟨rfl, rfl, rfl, rfl, rfl⟩

/-- A write to `ST` sets no flag. -/
theorem wr_st_keepsRest (v : Byte) : Op.Keeps KeepsRest (wr .st v) := by
  refine wr_keepsRest fun s hs => ?_
  have hclear : ∀ f : Flag, f.reg = .st → s.flag f = false → (afterWrite s .st v).flag f = false := fun f hr hf => by
    refine (writeLatches_st_flag' s v f hr).trans ?_
    rw [hf, Bool.false_and]
  exact ⟨⟨hclear .master rfl hs.master, hs.start, hs.stop, hclear .sdast rfl hs.sdast, hs.idle⟩, rfl, id, hclear⟩

theorem wr_ctl1_zero_keepsRest : Op.Keeps KeepsRest (wr .ctl1 0) :=
  wr_keepsRest fun s hs =>
    have hclear : ∀ f : Flag, f.reg = .ctl1 → (afterWrite s .ctl1 0).flag f = false := fun f hr =>
      (writeStorage_ctl1_flag s 0 f hr).trans BitVec.getLsbD_zero
    ⟨⟨hs.master, hclear .start rfl, hclear .stop rfl, hs.sdast, hs.idle⟩, rfl, id,
      fun _ hr => (flag_of_st (s := s) (t := afterWrite s .ctl1 0) rfl hr).trans⟩

/-- `FIFO_EN` has been cleared. -/
theorem clrbits_fifoEn {s t : State} {a : Unit} (h : clrbits .b0fifctl (Flag.mask .fifoEn) s = .ok (a, t)) :
    KeepsRest s t ∧ t.flag .fifoEn = false := by
  obtain ⟨v, u, hrd, hwr⟩ := Op.bind_ok.1 h
  obtain ⟨p, hp, -, rfl⟩ := rd_ok.1 hrd
  obtain ⟨q, hq, rfl⟩ := wr_ok.1 hwr
  have hflag : (afterWrite q .b0fifctl (v &&& ~~~Flag.mask .fifoEn)).flag .fifoEn = false := by
    show ((v &&& ~~~Flag.mask .fifoEn) &&& readMask .b0fifctl).getLsbD (Flag.bit .fifoEn) = false
    simp [Flag.mask, Flag.bit_lt]
  have hread : KeepsRest s (p.pushAcc (.rd .b0fifctl (readValue p .b0fifctl))) :=
    KeepsRest.along.trans (lePoint_keepsRest hp) (.pushAcc _ _)
  have hwrite : KeepsRest q (afterWrite q .b0fifctl (v &&& ~~~Flag.mask .fifoEn)) := fun hs =>
    ⟨⟨hs.master, hs.start, hs.stop, hs.sdast, hs.idle⟩, rfl, fun _ => hflag,
      fun _ hr => (flag_of_st (s := q) (t := afterWrite q .b0fifctl _) rfl hr).trans⟩
  exact ⟨KeepsRest.along.trans hread (KeepsRest.along.trans (lePoint_keepsRest hq)
    (KeepsRest.along.trans hwrite (.pushAcc _ _))), hflag⟩

/-! ## Off and on -/

/-- The module has been disabled: it is at rest (46_line_engine.md R153). -/
theorem clrbits_enable {s t : State} {a : Unit} (hs : s.flag .enable = true)
    (h : clrbits .ctl2 (Flag.mask .enable) s = .ok (a, t)) : t.Rested := by
  obtain ⟨v, u, hrd, hwr⟩ := Op.bind_ok.1 h
  obtain ⟨p, hp, -, rfl⟩ := rd_ok.1 hrd
  obtain ⟨q, hq, rfl⟩ := wr_ok.1 hwr
  have hon : q.reg.ctl2.getLsbD 0 = true := by
    rw [(lePoint_frame hq).ctl2]
    show p.reg.ctl2.getLsbD 0 = true
    rw [(lePoint_frame hp).ctl2]
    exact hs
  have hoff : (v &&& ~~~Flag.mask .enable).getLsbD 0 = false := by simp [Flag.mask, Flag.bit]
  rw [afterWrite_ctl2, if_pos ⟨hon, hoff⟩, moduleDisable_eq]
  constructor <;> simp [State.flag, Flag.isSet, Flag.reg, Flag.bit, HwRegs.get, LeState.idle]

/-- It has been enabled again. -/
theorem setbits_enable {s t : State} {a : Unit} (hs : s.Rested) (h : setbits .ctl2 (Flag.mask .enable) s = .ok (a, t)) :
    t.Rested ∧ t.flag .enable = true := by
  obtain ⟨v, u, hrd, hwr⟩ := Op.bind_ok.1 h
  obtain ⟨p, hp, -, rfl⟩ := rd_ok.1 hrd
  obtain ⟨q, hq, rfl⟩ := wr_ok.1 hwr
  have hp' := (hs.lePoint hp).rested hs
  have hq' : q.Rested := (State.Rested.lePoint (s := (afterRead p .ctl2).pushAcc _) { hp' with } hq).rested { hp' with }
  have hon : (v ||| Flag.mask .enable).getLsbD 0 = true := by simp [Flag.mask, Flag.bit]
  rw [afterWrite_ctl2_of_enable fun _ => hon]
  exact ⟨{ hq' with }, hon⟩

/-- The controller reset on an enabled module (R130). -/
theorem ctrlReset_baseline {s t : State} {a : Unit} (hs : s.flag .enable = true) (h : ctrlReset s = .ok (a, t)) :
    AtBaseline t := by
  obtain ⟨_, s1, h1, h⟩ := Op.bind_ok.1 h
  obtain ⟨_, s2, h2, h⟩ := Op.bind_ok.1 h
  obtain ⟨_, s3, h3, h⟩ := Op.bind_ok.1 h
  obtain ⟨_, s4, h4, h⟩ := Op.bind_ok.1 h
  obtain ⟨_, s5, h5, h⟩ := Op.bind_ok.1 h
  obtain ⟨_, s6, h6, h⟩ := Op.bind_ok.1 h
  obtain ⟨_, s7, h7, h8⟩ := Op.bind_ok.1 h
  obtain ⟨hrest2, hon⟩ := setbits_enable (clrbits_enable hs h1) h2
  have k4 := KeepsRest.along.trans (wr_cst_keepsRest _ _ _ _ h3) (wr_st_keepsRest _ _ _ _ h4)
  have k7 := KeepsRest.along.trans (wr_b1fifcts_keepsRest _ _ _ _ h5) (KeepsRest.along.trans (wr_b0est_keepsRest _ _ _ _ h6)
    (clrbits_fifoEn h7).1)
  have k8 := wr_ctl1_zero_keepsRest _ _ _ h8
  obtain ⟨hrest4, hctl4, -, -⟩ := k4 hrest2
  obtain ⟨hrest7, hctl7, -, hst7⟩ := k7 hrest4
  obtain ⟨hrest, hctl, hfifo, hst⟩ := k8 hrest7
  obtain ⟨u4, -, rfl⟩ := wr_ok.1 h4
  obtain ⟨u8, -, rfl⟩ := wr_ok.1 h8
  have hclear : ∀ f : Flag, f.reg = .st → ((0xFF : Byte).getLsbD f.bit && (0x38#8).getLsbD f.bit) = true →
      ((afterWrite u8 .ctl1 0).pushAcc (.wr .ctl1 0)).flag f = false := fun f hr hbit =>
    hst f hr (hst7 f hr ((writeLatches_st_flag' u4 0xFF f hr).trans (by rw [hbit, Bool.not_true, Bool.and_false])))
  exact ⟨(congrArg (Flag.isSet .enable) (hctl.trans (hctl7.trans hctl4))).trans hon, rfl, hfifo (clrbits_fifoEn h7).2,
    hrest.master, hrest.sdast, hclear .stastr rfl rfl, hclear .negack rfl rfl, hclear .ber rfl rfl, hrest.idle⟩

/-! ## The configured speed -/

/-- The divider, `CTL3` and the hold time are as they were. -/
structure SpeedFrame (s t : State) : Prop where
  low : t.reg.ctl2.extractLsb' 1 7 = s.reg.ctl2.extractLsb' 1 7
  ctl3 : t.reg.ctl3 = s.reg.ctl3
  b0ectl : t.reg.b0ectl = s.reg.b0ectl

theorem SpeedFrame.along : Along SpeedFrame where
  refl _ := ⟨rfl, rfl, rfl⟩
  trans h k := ⟨k.low.trans h.low, k.ctl3.trans h.ctl3, k.b0ectl.trans h.b0ectl⟩

theorem ConfigFrame.speed {s t : State} (h : ConfigFrame s t) : SpeedFrame s t := ⟨by rw [h.ctl2], h.ctl3, h.b0ectl⟩

theorem SpeedFrame.divider {s t : State} (h : SpeedFrame s t) : t.reg.divider = s.reg.divider := by
  rw [HwRegs.divider, HwRegs.divider, h.low, h.ctl3]

theorem rd_speed (r : RegId) : Op.Keeps SpeedFrame (rd r) := (rd_config r).mono ConfigFrame.speed

theorem wr_speed {r : RegId} {v : Byte} (h : ∀ s, SpeedFrame s (afterWrite s r v)) : Op.Keeps SpeedFrame (wr r v) := by
  intro s a t e
  obtain ⟨u, hu, rfl⟩ := wr_ok.1 e
  exact SpeedFrame.along.trans (lePoint_frame hu).config.speed (SpeedFrame.along.trans (h u) (ConfigFrame.pushAcc _ _).speed)

/-- `CTL2` is written with the same divider field as before. -/
theorem wr_ctl2_speed {v : Byte} {s t : State} {a : Unit} (hv : v.extractLsb' 1 7 = s.reg.ctl2.extractLsb' 1 7)
    (h : wr .ctl2 v s = .ok (a, t)) : SpeedFrame s t := by
  obtain ⟨u, hu, rfl⟩ := wr_ok.1 h
  have hlow : v.extractLsb' 1 7 = u.reg.ctl2.extractLsb' 1 7 := by rw [hv, (lePoint_frame hu).ctl2]
  have hwrite : SpeedFrame u (afterWrite u .ctl2 v) := by
    rw [afterWrite_ctl2]
    split
    · rw [moduleDisable_eq]
      exact ⟨hlow, rfl, rfl⟩
    · exact ⟨hlow, rfl, rfl⟩
  exact SpeedFrame.along.trans (lePoint_frame hu).config.speed (SpeedFrame.along.trans hwrite (ConfigFrame.pushAcc _ _).speed)

theorem rd_ctl2_value {s t : State} {v : Byte} (h : rd .ctl2 s = .ok (v, t)) : v = t.reg.ctl2 := by
  obtain ⟨u, -, rfl, rfl⟩ := rd_ok.1 h
  rfl

/-- Clearing `ENABLE` keeps the divider. -/
theorem field_clear_enable (c2 : Byte) : (c2 &&& ~~~Flag.mask .enable).extractLsb' 1 7 = c2.extractLsb' 1 7 := by
  ext i hi
  interval_cases i <;> simp [Flag.mask, Flag.bit]

theorem clrbits_enable_speed : Op.Keeps SpeedFrame (clrbits .ctl2 (Flag.mask .enable)) := by
  intro s a t h
  obtain ⟨v, u, hrd, hwr⟩ := Op.bind_ok.1 h
  rw [rd_ctl2_value hrd] at hwr
  exact SpeedFrame.along.trans (rd_speed _ _ _ _ hrd) (wr_ctl2_speed (field_clear_enable _) hwr)

theorem setbits_enable_speed : Op.Keeps SpeedFrame (setbits .ctl2 (Flag.mask .enable)) := by
  intro s a t h
  obtain ⟨v, u, hrd, hwr⟩ := Op.bind_ok.1 h
  rw [rd_ctl2_value hrd] at hwr
  exact SpeedFrame.along.trans (rd_speed _ _ _ _ hrd) (wr_ctl2_speed (field_or_enable _) hwr)

theorem ctrlReset_speed : Op.Keeps SpeedFrame ctrlReset := by
  have b {α β : Type} {m : Op α} {f : α → Op β} := @Op.Keeps.bind α β SpeedFrame SpeedFrame.along m f
  refine b clrbits_enable_speed fun _ => b setbits_enable_speed fun _ => b (wr_speed ?_) fun _ => b (wr_speed ?_) fun _ =>
    b (wr_speed ?_) fun _ => b (wr_speed ?_) fun _ =>
    b (.clrbits SpeedFrame.along (rd_speed _) (fun v => wr_speed ?_) _) fun _ => wr_speed ?_ <;>
  exact fun s => ⟨rfl, rfl, rfl⟩

/-! ## Recovery -/

theorem delay_config : Op.Keeps ConfigFrame delay := by
  intro s a t h
  exact (lePoint_frame (point_ok.1 h)).config

theorem wr_brc_config (v : Byte) : Op.Keeps ConfigFrame (wr .brc v) := wr_config fun s => by
  show ConfigFrame s (writeBrc s v)
  unfold writeBrc togglePulse
  split
  · split <;> exact ⟨rfl, rfl, rfl, rfl, rfl⟩
  · exact ConfigFrame.along.refl s

theorem toggleLoop_config (n : Nat) : Op.Keeps ConfigFrame (toggleLoop n) := by
  induction n with
  | zero => exact pure_config _
  | succ n ih =>
    refine bind_config (wr_brc_config _) (fun _ => bind_config delay_config (fun _ => bind_config (rd_config _) (fun b => ?_)))
    split
    · exact pure_config _
    · exact ih

theorem forcedStart_config (a : Addr7) : Op.Keeps ConfigFrame (forcedStart a) := by
  refine bind_config getCfg_config (fun _ => bind_config (wr_data_config _) (fun _ =>
    bind_config (sendStart_config _) (fun r => ?_)))
  split
  · exact bind_config delay_config (fun _ => bind_config (sendStop_config 0) (fun _ => bind_config delay_config (fun _ =>
      logEvent_config _)))
  · exact logEvent_config _

theorem unstick_config (a : Addr7) : Op.Keeps ConfigFrame (unstick a) := by
  refine bind_config (toggleLoop_config _) (fun done => ?_)
  split
  · exact forcedStart_config a
  · exact logEvent_config _

/-- Recovery ends with the controller reset, before which it has left the configuration alone (R125). -/
theorem recover_reset {a : Addr7} {s t : State} {k : Kind} (h : recover a s = .ok (k, t)) :
    ∃ u b, ConfigFrame s u ∧ ctrlReset u = .ok (b, t) := by
  obtain ⟨v, p, hrd, h⟩ := Op.bind_ok.1 h
  have hread := rd_config _ _ _ _ hrd
  split at h
  · obtain ⟨b, u, hreset, hend⟩ := Op.bind_ok.1 h
    cases hend
    exact ⟨p, b, hread, hreset⟩
  · obtain ⟨_, q, hunstick, h⟩ := Op.bind_ok.1 h
    obtain ⟨b, u, hreset, hend⟩ := Op.bind_ok.1 h
    cases hend
    exact ⟨q, b, ConfigFrame.along.trans hread (unstick_config a _ _ _ hunstick), hreset⟩

theorem recover_baseline {a : Addr7} {s t : State} {k : Kind} (hs : s.flag .enable = true) (h : recover a s = .ok (k, t)) :
    AtBaseline t := by
  obtain ⟨u, b, hconf, hreset⟩ := recover_reset h
  exact ctrlReset_baseline ((congrArg (Flag.isSet .enable) hconf.ctl2).trans hs) hreset

theorem recover_speed (a : Addr7) : Op.Keeps SpeedFrame (recover a) := by
  intro s k t h
  obtain ⟨u, b, hconf, hreset⟩ := recover_reset h
  exact SpeedFrame.along.trans hconf.speed (ctrlReset_speed _ _ _ hreset)

end Sys2Proof.Machine
end

section
/-! PROOFS. A message under a stall latch that an earlier message has left (43_transactions.md R121 (d),
70_reset_and_hazards.md R201): the latch holds the line engine, so no byte becomes ready and no wait for data succeeds. -/

namespace Sys2Proof.Machine

/-- Under a stall latch: the latch is kept, and no byte becomes ready. -/
def HoldKept (s t : State) : Prop :=
  s.flag .stastr = true → t.flag .stastr = true ∧ (s.flag .sdast = false → t.flag .sdast = false)

theorem HoldKept.along : Along HoldKept where
  refl _ h := ⟨h, id⟩
  trans h k hs := ⟨(k (h hs).1).1, (k (h hs).1).2 ∘ (h hs).2⟩

theorem HoldKept.of_st {s t : State} (h : t.reg.st = s.reg.st) : HoldKept s t := fun hs =>
  ⟨(flag_of_st h rfl).trans hs, (flag_of_st h rfl).trans⟩

/-- Only two events report a byte ready. -/
theorem effect_sdast {ev : LeEvent} (s : State) (htx : ev ≠ .txReady) (hrx : ∀ b, ev ≠ .rxByte b) :
    (ev.effect s).flag .sdast = s.flag .sdast := by
  cases ev with
  | txReady => exact absurd rfl htx
  | rxByte b => exact absurd rfl (hrx b)
  | startDone => simp [LeEvent.effect, effStartDone]
  | ber m => simp [LeEvent.effect, effBer, State.leIdle]
  | addrAck =>
    show (effAddrAck s).flag .sdast = _
    unfold effAddrAck
    split
    · rfl
    · dsimp only
      split <;> simp
  | addrNack =>
    show (effAddrNack s).flag .sdast = _
    unfold effAddrNack
    split <;> simp
  | txAck =>
    show (effTxAck s).flag .sdast = _
    unfold effTxAck
    split <;> simp
  | txNack =>
    show (effTxNack s).flag .sdast = _
    unfold effTxNack
    split <;> simp
  | stopDone eo =>
    show (effStopDone eo s).flag .sdast = _
    unfold effStopDone
    split <;> simp [State.leIdle]
  | lines scl sda => rfl
  | foreign bb eo => simp [LeEvent.effect, effForeign]

/-- Under a hold neither of them happens. -/
theorem effect_holdKept {ev : LeEvent} {s : State} (hg : ev.guard s = true) : HoldKept s (ev.effect s) := by
  intro hs
  have htx : ev ≠ .txReady := by
    rintro rfl
    simp [LeEvent.guard, State.hold, hs] at hg
  have hrx : ∀ b, ev ≠ .rxByte b := by
    rintro b rfl
    simp [LeEvent.guard, State.hold, hs] at hg
  exact ⟨(effect_frame ev s).stastr hs, (effect_sdast s htx hrx).trans⟩

theorem lePoint_holdKept {s t : State} (h : lePoint s = .ok t) : HoldKept s t :=
  lePoint_induct HoldKept.along.refl HoldKept.along.trans (fun _ _ => effect_holdKept) (fun _ _ => .of_st rfl) h

/-! ## The operations -/

theorem pure_holdKept {α : Type} (a : α) : Op.Keeps HoldKept (pure a) := .pure HoldKept.along a

theorem bind_holdKept {α β : Type} {m : Op α} {f : α → Op β} (hm : Op.Keeps HoldKept m)
    (hf : ∀ a, Op.Keeps HoldKept (f a)) : Op.Keeps HoldKept (m >>= f) := .bind HoldKept.along hm hf

theorem getCfg_holdKept : Op.Keeps HoldKept getCfg := by
  intro s a t h; cases h; exact HoldKept.along.refl s

theorem modifyX_holdKept (f : SeqRegs → SeqRegs) : Op.Keeps HoldKept (modifyX f) := by
  intro s a t h; cases h; exact .of_st rfl

theorem afterRead_holdKept (s : State) (r : RegId) : HoldKept s (afterRead s r) := by
  cases r with
  | data =>
    have hsdast : (afterReadData s).flag .sdast = false ∧ (afterReadData s).flag .stastr = s.flag .stastr := by
      unfold afterReadData
      dsimp only
      split <;> simp
    exact fun hs => ⟨hsdast.2.trans hs, fun _ => hsdast.1⟩
  | brc =>
    obtain ⟨n, hn⟩ := afterRead_brc s
    rw [hn]
    exact .of_st rfl
  | _ => exact HoldKept.along.refl s

theorem rd_holdKept (r : RegId) : Op.Keeps HoldKept (rd r) :=
  .rd HoldKept.along lePoint_holdKept (fun s r _ => HoldKept.along.trans (afterRead_holdKept s r) (.of_st rfl)) r

theorem wr_holdKept {r : RegId} {v : Byte} (h : ∀ s, HoldKept s (afterWrite s r v)) : Op.Keeps HoldKept (wr r v) := by
  intro s a t e
  obtain ⟨u, hu, rfl⟩ := wr_ok.1 e
  exact HoldKept.along.trans (lePoint_holdKept hu) (HoldKept.along.trans (h u) (.of_st rfl))

theorem wr_ctl1_holdKept (v : Byte) : Op.Keeps HoldKept (wr .ctl1 v) := wr_holdKept fun _ => .of_st rfl

theorem afterWrite_data_held (s : State) (v : Byte) : (afterWrite s .data v).flag .sdast = false ∧
    (afterWrite s .data v).flag .stastr = s.flag .stastr := by
  show (writeData s v).flag .sdast = false ∧ (writeData s v).flag .stastr = _
  unfold writeData
  exact ⟨by simp, by simp⟩

theorem wr_data_holdKept (v : Byte) : Op.Keeps HoldKept (wr .data v) := wr_holdKept fun s hs =>
  ⟨(afterWrite_data_held s v).2.trans hs, fun _ => (afterWrite_data_held s v).1⟩

theorem setbits_ctl1_holdKept (m : Byte) : Op.Keeps HoldKept (setbits .ctl1 m) :=
  .setbits HoldKept.along (rd_holdKept _) wr_ctl1_holdKept m

theorem clrbits_ctl1_holdKept (m : Byte) : Op.Keeps HoldKept (clrbits .ctl1 m) :=
  .clrbits HoldKept.along (rd_holdKept _) wr_ctl1_holdKept m

theorem pollOrTimeout_holdKept (n : Nat) (r : RegId) (f : Byte → Option Kind) : Op.Keeps HoldKept (pollOrTimeout n r f) :=
  .pollOrTimeout HoldKept.along (rd_holdKept r) f n

theorem sendStart_holdKept (n : Nat) : Op.Keeps HoldKept (sendStart n) :=
  bind_holdKept (setbits_ctl1_holdKept _) (fun _ => .orReturn HoldKept.along (pollOrTimeout_holdKept _ _ _)
    (bind_holdKept (modifyX_holdKept _) (fun _ => pure_holdKept _)))

theorem inspectAddress_holdKept : Op.Keeps HoldKept inspectAddress := by
  refine bind_holdKept (rd_holdKept _) (fun v => ?_)
  split
  · exact bind_holdKept (modifyX_holdKept _) (fun _ => pure_holdKept _)
  · exact pure_holdKept _

theorem pollDataReady_holdKept (n : Nat) : Op.Keeps HoldKept (pollDataReady n) :=
  bind_holdKept (modifyX_holdKept _) (fun _ => pollOrTimeout_holdKept _ _ _)

theorem releaseStall_holdKept : Op.Keeps HoldKept (releaseStall true) := by
  refine bind_holdKept (rd_holdKept _) (fun c => ?_)
  split
  · exact bind_holdKept (wr_ctl1_holdKept _) (fun _ => pure_holdKept _)
  · exact pure_holdKept _

/-! ## No byte becomes ready -/

/-- A stall latch holds the bus, and no byte is ready. -/
def State.starved (s : State) : Prop := s.flag .stastr = true ∧ s.flag .sdast = false

theorem State.starved.keep {α : Type} {m : Op α} {s t : State} {a : α} (h : s.starved) (hm : Op.Keeps HoldKept m)
    (e : m s = .ok (a, t)) : t.starved := ⟨(hm s a t e h.1).1, (hm s a t e h.1).2 h.2⟩

/-- Once the address byte has been written no byte is ready. -/
theorem wr_data_starved {b : Byte} {s t : State} {a : Unit} (hs : s.flag .stastr = true) (h : wr .data b s = .ok (a, t)) :
    t.starved := by
  refine ⟨(wr_data_holdKept b s a t h hs).1, ?_⟩
  obtain ⟨u, -, rfl⟩ := wr_ok.1 h
  exact (afterWrite_data_held u b).1

theorem sendAddress_starved {b : Byte} {stall : Bool} {s t : State} {k : Kind} (hs : s.flag .stastr = true)
    (h : sendAddress b stall s = .ok (k, t)) : t.starved := by
  unfold sendAddress at h
  split at h
  · obtain ⟨_, p, hset, h⟩ := Op.bind_ok.1 h
    obtain ⟨_, q, hwr, h⟩ := Op.bind_ok.1 h
    have hp := (setbits_ctl1_holdKept _ _ _ _ hset hs).1
    exact (wr_data_starved hp hwr).keep (bind_holdKept getCfg_holdKept (fun _ => bind_holdKept
      (.poll HoldKept.along (rd_holdKept _) _ _) (fun _ => inspectAddress_holdKept))) h
  · obtain ⟨_, q, hwr, h⟩ := Op.bind_ok.1 h
    exact (wr_data_starved hs hwr).keep inspectAddress_holdKept h

theorem dataReadySample_starved {s t : State} {v : Byte} (h : rd .st s = .ok (v, t)) (ht : t.starved) :
    dataReadySample v ≠ some .ok := by
  obtain ⟨u, -, rfl, rfl⟩ := rd_ok.1 h
  have hsdast : u.flag .sdast = false := ht.2
  rw [dataReadySample_readValue, hsdast]
  cases u.flag .negack <;> cases u.flag .ber <;> simp

theorem poll_starved {n : Nat} {s t : State} {k : Kind} (hs : s.starved)
    (h : poll n .st dataReadySample s = .ok (some k, t)) : k ≠ .ok := by
  induction n generalizing s with
  | zero => cases h
  | succ n ih =>
    obtain ⟨v, u, hrd, h⟩ := Op.bind_ok.1 h
    have hu := hs.keep (rd_holdKept .st) hrd
    cases hv : dataReadySample v with
    | some j =>
      rw [hv] at h
      cases h
      rintro rfl
      exact dataReadySample_starved hrd hu hv
    | none =>
      rw [hv] at h
      exact ih hu h

/-- The wait for data fails. -/
theorem pollDataReady_starved {n : Nat} {s t : State} {k : Kind} (hs : s.starved) (h : pollDataReady n s = .ok (k, t)) :
    k ≠ .ok := by
  obtain ⟨_, u, hx, h⟩ := Op.bind_ok.1 h
  obtain ⟨o, w, hpoll, h⟩ := Op.bind_ok.1 h
  have hu := hs.keep (modifyX_holdKept _) hx
  split at h
  · cases h
    exact poll_starved hu hpoll
  · cases h
    nofun

/-- A piece that begins with the wait for data ends with it. -/
theorem orReturn_starved {n : Nat} {m : Op Kind} {s t : State} {k : Kind} (hs : s.starved)
    (h : orReturn (pollDataReady n) m s = .ok (k, t)) : k ≠ .ok ∧ t.flag .stastr = true := by
  obtain ⟨r, u, hpoll, ⟨rfl, -⟩ | ⟨hr, rfl, rfl⟩⟩ := orReturn_ok.1 h
  · exact absurd rfl (pollDataReady_starved hs hpoll)
  · exact ⟨hr, (hs.keep (pollDataReady_holdKept n) hpoll).1⟩

/-! ## The messages -/

/-- A READ under a stall latch that it does not release fails and keeps the latch; only a READ of one byte can release it. -/
theorem readMessage_held {keep : Bool} {a : Addr7} {len : Nat} {base : BitVec 32} {s t : State} {k : Kind}
    (hs : s.flag .stastr = true) (hkeep : len = 1 → keep = true) (h : readMessage keep a len base s = .ok (k, t)) :
    k ≠ .ok ∧ t.flag .stastr = true := by
  obtain rfl | hlen := eq_or_ne len 0
  · cases h
    exact ⟨nofun, hs⟩
  cases readMessage_steps hlen h with
  | noStart hk hstart => exact ⟨hk, (sendStart_holdKept _ _ _ _ hstart hs).1⟩
  | noAddress hk hstart haddress =>
    exact ⟨hk, (sendAddress_starved (sendStart_holdKept _ _ _ _ hstart hs).1 haddress).1⟩
  | data hstart haddress hdata =>
    have hq := sendAddress_starved (sendStart_holdKept _ _ _ _ hstart hs).1 haddress
    unfold readData at hdata
    split at hdata
    · next hone =>
      rw [hkeep hone] at hdata
      obtain ⟨_, p, hnack, hdata⟩ := Op.bind_ok.1 hdata
      obtain ⟨_, r, hrelease, hdata⟩ := Op.bind_ok.1 hdata
      rw [Op.bind_eq (getCfg_run r)] at hdata
      exact orReturn_starved ((hq.keep (setbits_ctl1_holdKept _) hnack).keep releaseStall_holdKept hrelease) hdata
    · next hone =>
      obtain ⟨n, rfl⟩ : ∃ n, len = n + 2 := ⟨len - 2, by omega⟩
      rw [readMulti, Op.bind_eq (getCfg_run _)] at hdata
      exact orReturn_starved hq hdata

theorem writeLoop_starved {len : Nat} {base : BitVec 32} {s t : State} {k : Kind} (hs : s.starved)
    (h : writeLoop len base s = .ok (k, t)) : (len ≠ 0 → k ≠ .ok) ∧ t.flag .stastr = true := by
  cases len with
  | zero =>
    cases h
    exact ⟨fun h0 => absurd rfl h0, hs.1⟩
  | succ n =>
    rw [writeLoop, Op.bind_eq (getCfg_run s)] at h
    obtain ⟨hk, ht⟩ := orReturn_starved hs h
    exact ⟨fun _ => hk, ht⟩

/-- A WRITE under a stall latch keeps it, and fails unless it has no byte to send. -/
theorem writeMessage_held {a : Addr7} {len : Nat} {base : BitVec 32} {s t : State} {k : Kind} (hs : s.flag .stastr = true)
    (h : writeMessage a len base s = .ok (k, t)) : (len ≠ 0 → k ≠ .ok) ∧ t.flag .stastr = true := by
  cases writeMessage_steps h with
  | noStart hk hstart => exact ⟨fun _ => hk, (sendStart_holdKept _ _ _ _ hstart hs).1⟩
  | @sent p q hstart hsend hend =>
    have hp := (sendStart_holdKept _ _ _ _ hstart hs).1
    have hsent : (len ≠ 0 → k ≠ .ok) ∧ q.flag .stastr = true := by
      obtain ⟨r, u, haddress, ⟨rfl, hloop⟩ | ⟨hr, rfl, rfl⟩⟩ := orReturn_ok.1 hsend
      · exact writeLoop_starved (sendAddress_starved hp haddress) hloop
      · exact ⟨fun _ => hr, (sendAddress_starved hp haddress).1⟩
    obtain ⟨-, hclear⟩ | ⟨-, rfl⟩ := hend
    · exact ⟨hsent.1, (clrbits_ctl1_holdKept _ _ _ _ hclear hsent.2).1⟩
    · exact hsent

end Sys2Proof.Machine
end

section
/-! PROOFS. EXCHANGE: its messages as commands, the forced STOP, and recovery when one has failed (43_transactions.md R120 to
R122, 60_exceptions.md R175, R176). -/

namespace Sys2Proof.Machine

/-! ## The transfer and its end -/

/-- An exchange up to its end: the latches, the messages and the forced STOP; whether a message has failed. -/
def transfer (ms : List Message) : Op Bool := do
  clearAllStatus
  let failed ← runMessages none ms
  forcedStop
  pure failed

theorem exchange_eq {ms : List Message} (hms : ms.length = 1 ∨ ms.length = 2) :
    exchange ms = transfer ms >>= fun failed => if failed = true then errorPath (lastAddr ms) else pure .ok := by
  unfold exchange transfer
  rw [if_pos hms]
  simp only [bind_assoc, pure_bind]

/-- An exchange ends with its transfer, or with recovery after it (R175). -/
theorem exchange_ok {ms : List Message} (hms : ms.length = 1 ∨ ms.length = 2) {s t : State} {k : Kind} :
    exchange ms s = .ok (k, t) ↔ ∃ failed u, transfer ms s = .ok (failed, u) ∧
      ((failed = false ∧ k = .ok ∧ t = u) ∨
        (failed = true ∧ k = .ioError ∧ ∃ j, recover (lastAddr ms) u = .ok (j, t))) := by
  rw [exchange_eq hms, Op.bind_ok]
  refine exists_congr fun failed => exists_congr fun u => and_congr_right fun _ => ?_
  cases failed with
  | false => simp [Prod.ext_iff, eq_comm]
  | true =>
    rw [if_pos rfl, errorPath, Op.bind_ok]
    constructor
    · rintro ⟨j, w, hj, h⟩
      cases h
      exact .inr ⟨rfl, rfl, j, hj⟩
    · rintro (⟨h, -⟩ | ⟨-, rfl, j, hj⟩)
      · cases h
      · exact ⟨j, t, hj, rfl⟩

/-! ## What an exchange leaves of the controller's configuration -/

theorem runMessage_config (keep : Bool) (m : Message) : Op.Keeps ConfigFrame (runMessage keep m) := by
  unfold runMessage
  split
  · exact readMessage_config _ _ _ _
  · exact writeMessage_config _ _ _

theorem runMessages_config (before : Option Message) (ms : List Message) : Op.Keeps ConfigFrame (runMessages before ms) := by
  induction ms generalizing before with
  | nil => exact pure_config _
  | cons m ms ih =>
    exact bind_config (fun s => runMessage_config (heldOver before s) m s) (fun _ =>
      bind_config (ih _) (fun _ => pure_config _))

theorem forcedStop_config : Op.Keeps ConfigFrame forcedStop := by
  refine bind_config (fun s a t h => ?_) (fun x => bind_config getCfg_config (fun c => ?_))
  · cases h
    exact ConfigFrame.along.refl s
  · split
    · exact bind_config (sendStop_config _) (fun _ => pure_config _)
    · exact pure_config _

theorem transfer_config (ms : List Message) : Op.Keeps ConfigFrame (transfer ms) :=
  bind_config (wr_st_config _) (fun _ => bind_config (runMessages_config _ _) (fun _ =>
    bind_config forcedStop_config (fun _ => pure_config _)))

section Exchange
variable {ms : List Message} (hms : ms.length = 1 ∨ ms.length = 2) {s t : State} {k : Kind} (h : exchange ms s = .ok (k, t))
include hms h

theorem exchange_speed : SpeedFrame s t := by
  obtain ⟨failed, u, htransfer, hend⟩ := (exchange_ok hms).1 h
  have hu := (transfer_config ms _ _ _ htransfer).speed
  obtain ⟨-, -, rfl⟩ | ⟨-, -, j, hrecover⟩ := hend
  · exact hu
  · exact SpeedFrame.along.trans hu (recover_speed _ _ _ _ hrecover)

/-- A failed exchange leaves an enabled controller at its baseline (R176). -/
theorem exchange_baseline (hs : s.flag .enable = true) (hk : k = .ioError) : AtBaseline t := by
  subst hk
  obtain ⟨failed, u, htransfer, ⟨-, hok, -⟩ | ⟨-, -, j, hrecover⟩⟩ := (exchange_ok hms).1 h
  · cases hok
  · exact recover_baseline ((congrArg (Flag.isSet .enable) (transfer_config ms _ _ _ htransfer).ctl2).trans hs) hrecover

end Exchange

/-- Between commands no START is outstanding exactly in the phase IDLE (10_state.md R17). -/
theorem phase_idle {x : SeqRegs} (hx : x.consistent = true) (hstop : x.phase ≠ .stopped) (hstarted : x.started = false) :
    x = { x with started := false, phase := .idle } := by
  obtain ⟨started, phase, result, rdata, modidx, inputClk, targetHz⟩ := x
  simp only [SeqRegs.consistent, Bool.and_eq_true, beq_iff_eq] at hx hstop hstarted
  subst hstarted
  cases phase <;> simp [Phase.outstanding] at hx hstop ⊢

/-- The first clause of O39: what EXCHANGE leaves in every environment. -/
theorem exchange_leaves {ms : List Message} {s : State} (hp : s.polled) (hinit : s.initialised = true)
    (hms : ms.length = 1 ∨ ms.length = 2) (hx : s.x.consistent = true) (hphase : s.x.phase ≠ .stopped) :
    ∃ t, exec (.exchange ms) s = .next t ∧ (t.x.result = 0 ∨ t.x.result = 9) ∧
      t.x = { s.x with started := false, phase := .idle, result := t.x.result } ∧
      (∀ x, (∀ m ∈ ms, m.dir = .read → ∀ k < m.len.toNat, x ≠ (m.base.toNat + k) % 2 ^ 32) →
        t.buf.read x = s.buf.read x) ∧
      t.cp = s.cp ∧ t.program = s.program ∧ t.cfg = s.cfg ∧ t.initialised = true ∧ t.pinmux = s.pinmux ∧
      t.reg.divider = s.reg.divider ∧ t.reg.ctl3 = s.reg.ctl3 ∧ t.reg.b0ectl = s.reg.b0ectl ∧
      (t.x.result = 9 → s.flag .enable = true → AtBaseline t) := by
  obtain ⟨k, t, hbody, -⟩ := exchange_ends ms s hp
  have hout := exchange_spec hms hbody
  have hspeed := exchange_speed hms hbody
  refine ⟨t.setResult k, runInitialised_eq hinit hbody, ?_, ?_, fun x hx => hout.buf x ?_, hout.cp, hout.program, hout.cfg,
    hout.initialised.trans hinit, hout.pinmux, hspeed.divider, hspeed.ctl3, hspeed.b0ectl, fun h9 hs => ?_⟩
  · obtain rfl | rfl := hout.result
    · exact .inl rfl
    · exact .inr rfl
  · have hxt : t.x = { s.x with started := false, phase := .idle } := by
      obtain h | ⟨hstarted, h⟩ := hout.x
      · exact h
      · exact h.trans (phase_idle hx hphase hstarted)
    show ({ t.x with result := k.code } : SeqRegs) = _
    rw [hxt]
    rfl
  · rintro ⟨m, hm, hdir, i, hi, heq⟩
    exact hx m hm hdir i hi (heq.trans (bufAddr_toNat _ _))
  · obtain rfl | rfl := hout.result
    · cases h9
    · exact { exchange_baseline hms hbody hs rfl with }

/-! ## The messages as commands -/

/-- The latches have been cleared at the first interleaving point, which has led to `u`. -/
def State.statusCleared (u : State) : State :=
  { u with reg := { u.reg with st := u.reg.st &&& 0xC7 }, acc := u.acc ++ [.wr .st 0xFF] }

theorem clearAllStatus_eq {s u : State} (h : lePoint s = .ok u) :
    clearAllStatus s = .ok ((), u.statusCleared) := wr_eq h .st 0xFF

/-- What an operation does with some result in `x[RESULT]` it does with any. -/
theorem Op.Blind.of_ok {α : Type} {m : Op α} (hm : m.Blind) {s t : State} {a : α} {c : BitVec 4}
    (h : m (s.endedWith c) = .ok (a, t)) : ∃ u, m s = .ok (a, u) ∧ t = u.endedWith c := by
  rw [hm] at h
  cases hs : m s with
  | error r => rw [hs] at h; cases h
  | ok p =>
    rw [hs] at h
    cases h
    exact ⟨p.2, rfl, rfl⟩

theorem runBody_blind {m : Op Kind} (hm : m.Blind) {s t : State} {c : BitVec 4} (h : runBody m (s.endedWith c) = .next t) :
    ∃ k u, m s = .ok (k, u) ∧ t = u.endedWith k.code := by
  obtain ⟨k, q, hq, rfl⟩ := runBody_next h
  obtain ⟨u, hu, rfl⟩ := hm.of_ok hq
  exact ⟨k, u, hu, rfl⟩

theorem exec_messageCommand (m : Message) (s : State) :
    exec (messageCommand m) s = runInitialised (runMessage false m) s := by
  unfold messageCommand runMessage
  cases m.dir <;> rfl

theorem messageCommand_run {m : Message} {s t : State} {c : BitVec 4}
    (h : exec (messageCommand m) (s.endedWith c) = .next t) :
    ∃ k u, runMessage false m s = .ok (k, u) ∧ t = u.endedWith k.code := by
  rw [exec_messageCommand] at h
  unfold runInitialised at h
  split at h
  · exact runBody_blind (.runMessage false m) h
  · cases h

/-- The second message of an exchange, by itself and after the first. -/
theorem secondMessage_run {first m : Message} {s t : State} {c : BitVec 4}
    (h : secondMessage first m (s.endedWith c) = .next t) :
    ∃ k u, nextMessage (some first) m s = .ok (k, u) ∧ t = u.endedWith k.code := by
  have hheld : heldOver (some first) (s.endedWith c) = heldOver (some first) s := rfl
  unfold secondMessage at h
  unfold nextMessage
  rw [hheld] at h
  split at h
  · next hkeep =>
    rw [hkeep]
    exact runBody_blind (.runMessage true m) h
  · next hkeep =>
    rw [Bool.eq_false_of_not_eq_true hkeep]
    exact messageCommand_run h

theorem runMessages_one {m : Message} {before : Option Message} {s t : State} {k : Kind}
    (h : nextMessage before m s = .ok (k, t)) : runMessages before [m] s = .ok (decide (k ≠ .ok), t) := by
  rw [runMessages, Op.bind_eq h]
  show Except.ok (decide (k ≠ .ok) || false, t) = _
  rw [Bool.or_false]

theorem runMessages_two {first m : Message} {s t u : State} {j k : Kind} (h1 : nextMessage none first s = .ok (j, t))
    (h2 : nextMessage (some first) m t = .ok (k, u)) :
    runMessages none [first, m] s = .ok (decide (j ≠ .ok) || decide (k ≠ .ok), u) := by
  rw [runMessages, Op.bind_eq h1, Op.bind_eq (runMessages_one h2)]
  rfl

/-- The forced STOP, its result not used (R122). -/
theorem forcedStop_run {s t v : State} {c : BitVec 4} {k : Kind} (ht : t = s.endedWith c)
    (h : (t.x.started = true ∧ sendStop s.cfg.tStop t = .ok (k, v)) ∨ (t.x.started = false ∧ v = t)) :
    ∃ u, forcedStop s = .ok ((), u) ∧ v = u.endedWith c := by
  subst ht
  unfold forcedStop
  rw [Op.bind_eq (getX_run s), Op.bind_eq (getCfg_run s)]
  obtain ⟨hstarted, hstop⟩ | ⟨hstarted, rfl⟩ := h
  · obtain ⟨u, hu, rfl⟩ := (Op.Blind.sendStop _).of_ok hstop
    refine ⟨u, ?_, rfl⟩
    rw [if_pos (show s.x.started = true from hstarted), Op.bind_eq hu]
    rfl
  · exact ⟨s, by rw [if_neg (by rw [show s.x.started = false from hstarted]; exact Bool.false_ne_true)]; rfl, rfl⟩

theorem transfer_run {ms : List Message} {s u t v : State} {failed : Bool} (hu : lePoint s = .ok u)
    (hmessages : runMessages none ms u.statusCleared = .ok (failed, t)) (hstop : forcedStop t = .ok ((), v)) :
    transfer ms s = .ok (failed, v) := by
  unfold transfer
  rw [Op.bind_eq (clearAllStatus_eq hu), Op.bind_eq hmessages, Op.bind_eq hstop]
  rfl

/-- The end of an exchange from its transfer, with the recovery as a command. -/
theorem exec_exchange_of_transfer {ms : List Message} (hms : ms.length = 1 ∨ ms.length = 2) {s v : State} {failed : Bool}
    (hinit : s.initialised = true) (h : transfer ms s = .ok (failed, v)) (c : BitVec 4) :
    (failed = false → exec (.exchange ms) s = .next ((v.endedWith c).endedWith 0)) ∧
    (∀ w, failed = true → exec (.recover (lastAddr ms)) (v.endedWith c) = .next w →
      exec (.exchange ms) s = .next (w.endedWith 9)) := by
  constructor
  · rintro rfl
    exact runInitialised_eq hinit ((exchange_ok hms).2 ⟨_, _, h, .inl ⟨rfl, rfl, rfl⟩⟩)
  · rintro w rfl hw
    obtain ⟨-, j, q, hq, rfl⟩ := runInitialised_next (show runInitialised _ _ = _ from hw)
    obtain ⟨p, hp, rfl⟩ := (Op.Blind.recover _).of_ok hq
    exact runInitialised_eq hinit ((exchange_ok hms).2 ⟨_, _, h, .inr ⟨rfl, rfl, j, hp⟩⟩)

theorem Kind.code_ne_zero {k : Kind} : k.code ≠ 0 ↔ k ≠ .ok :=
  ⟨fun h hk => h (hk ▸ rfl), fun h h0 => h (Kind.eq_ok_of_code h0)⟩

/-- The messages run as commands, from the state in which the latches have been cleared, to `t`. -/
def ranAsCommands (ms : List Message) (last : Message) (u t : State) (failed : Prop) : Prop :=
  (ms = [last] ∧ exec (messageCommand last) (u.ended { u.reg with st := u.reg.st &&& 0xC7 } [.wr .st 0xFF]) = .next t ∧
    (failed ↔ t.x.result ≠ 0)) ∨
  (∃ first t1, ms = [first, last] ∧
    exec (messageCommand first) (u.ended { u.reg with st := u.reg.st &&& 0xC7 } [.wr .st 0xFF]) = .next t1 ∧
    secondMessage first last t1 = .next t ∧ (failed ↔ t1.x.result ≠ 0 ∨ t.x.result ≠ 0))

theorem ranAsCommands.runMessages {ms : List Message} {last : Message} {u t : State} {failed : Prop}
    (h : ranAsCommands ms last u t failed) : ∃ b q c, runMessages none ms u.statusCleared = .ok (b, q) ∧
      t = q.endedWith c ∧ (failed ↔ b = true) ∧ lastAddr ms = last.addr ∧ (ms.length = 1 ∨ ms.length = 2) := by
  obtain ⟨rfl, hlast, hfailed⟩ | ⟨first, t1, rfl, hfirst, hlast, hfailed⟩ := h
  · obtain ⟨k, q, hq, rfl⟩ := messageCommand_run (s := u.statusCleared) (c := 0) hlast
    rw [← nextMessage_none] at hq
    refine ⟨_, q, _, runMessages_one hq, rfl, hfailed.trans ?_, rfl, .inl rfl⟩
    exact Kind.code_ne_zero.trans decide_eq_true_iff.symm
  · obtain ⟨j, q1, hq1, rfl⟩ := messageCommand_run (s := u.statusCleared) (c := 0) hfirst
    obtain ⟨k, q, hq, rfl⟩ := secondMessage_run hlast
    rw [← nextMessage_none] at hq1
    refine ⟨_, q, _, runMessages_two hq1 hq, rfl, hfailed.trans ?_, rfl, .inr rfl⟩
    rw [Bool.or_eq_true, decide_eq_true_iff, decide_eq_true_iff]
    exact or_congr Kind.code_ne_zero Kind.code_ne_zero

/-- The second clause of O39: an exchange is made of its messages as commands. -/
theorem exchange_composition {ms : List Message} {last : Message} {s u t v w : State} {failed : Prop} {k : Kind}
    (hinit : s.initialised = true) (hu : lePoint s = .ok u) (hmessages : ranAsCommands ms last u t failed)
    (hstop : (t.x.started = true ∧ sendStop s.cfg.tStop t = .ok (k, v)) ∨ (t.x.started = false ∧ v = t)) :
    (¬ failed → exec (.exchange ms) s = .next (v.endedWith 0)) ∧
    (failed → exec (.recover last.addr) v = .next w → exec (.exchange ms) s = .next (w.endedWith 9)) := by
  obtain ⟨b, q, c, hq, rfl, hfailed, hlast, hms⟩ := hmessages.runMessages
  have hcfg : q.cfg = s.cfg := (runMessages_spec hq).cfg.trans (lePoint_frame hu).cfg
  rw [← hcfg] at hstop
  obtain ⟨p, hp, rfl⟩ := forcedStop_run rfl hstop
  obtain ⟨hok, herror⟩ := exec_exchange_of_transfer hms hinit (transfer_run hu hq hp) c
  rw [hfailed, ← hlast]
  exact ⟨fun h => hok (Bool.eq_false_of_not_eq_true h), fun h => herror w h⟩

/-! ## A stall latch left by the first message -/

/-- The second message fails, unless it has no byte to move, and keeps the latch. -/
theorem nextMessage_held {first last : Message} {s t : State} {k : Kind} (hprobe : isProbe first = true)
    (hs : s.flag .stastr = true) (hlast : s.cfg.staleStallHolds = true ∨ last.dir = .write ∨ last.len ≠ 1)
    (h : nextMessage (some first) last s = .ok (k, t)) :
    (¬(last.dir = .write ∧ last.len = 0) → k ≠ .ok) ∧ t.flag .stastr = true := by
  unfold nextMessage runMessage at h
  cases hdir : last.dir with
  | read =>
    rw [hdir] at h
    have hkeep : last.len.toNat = 1 → heldOver (some first) s = true := by
      intro hone
      obtain hcfg | hwrite | hlen := hlast
      · simp [heldOver, hcfg, State.hold, hs, hprobe]
      · rw [hdir] at hwrite
        cases hwrite
      · exact absurd (BitVec.eq_of_toNat_eq hone) hlen
    obtain ⟨hk, ht⟩ := readMessage_held hs hkeep h
    exact ⟨fun _ => hk, ht⟩
  | write =>
    rw [hdir] at h
    obtain ⟨hk, ht⟩ := writeMessage_held hs h
    exact ⟨fun hbytes => hk fun h0 => hbytes ⟨rfl, BitVec.eq_of_toNat_eq h0⟩, ht⟩

theorem secondMessage_of_run {first m : Message} {s t : State} {k : Kind} (hinit : s.initialised = true)
    (h : nextMessage (some first) m s = .ok (k, t)) (c : BitVec 4) :
    secondMessage first m (s.endedWith c) = .next (t.endedWith k.code) := by
  have hheld : heldOver (some first) (s.endedWith c) = heldOver (some first) s := rfl
  unfold nextMessage at h
  unfold secondMessage
  rw [hheld]
  split
  · next hkeep =>
    rw [hkeep] at h
    exact runBody_eq (t := t.endedWith c) ((Op.Blind.runMessage true m).ok h c)
  · next hkeep =>
    rw [Bool.eq_false_of_not_eq_true hkeep] at h
    rw [exec_messageCommand]
    exact runInitialised_eq (t := t.endedWith c) hinit ((Op.Blind.runMessage false m).ok h c)

/-- A polled exchange of which a message has failed ends with `IoError`. -/
theorem exchange_two_failed {first last : Message} {s u q1 q : State} {j k : Kind} (hinit : s.initialised = true)
    (hu : lePoint s = .ok u) (h1 : nextMessage none first u.statusCleared = .ok (j, q1))
    (h2 : nextMessage (some first) last q1 = .ok (k, q)) (hq : q.polled) (hk : k ≠ .ok) :
    ∃ v, exec (.exchange [first, last]) s = .next v ∧ v.x.result = 9 := by
  have hfailed : (decide (j ≠ .ok) || decide (k ≠ .ok)) = true := by simp [hk]
  obtain ⟨_, v, hstop, hv⟩ := forcedStop_ends q hq
  obtain ⟨i, w, hrecover, -⟩ := recover_ends (lastAddr [first, last]) v hv
  have htransfer := transfer_run hu (runMessages_two h1 h2) hstop
  have hend := (exchange_ok (.inr rfl)).2 ⟨_, _, htransfer, .inr ⟨hfailed, rfl, i, hrecover⟩⟩
  exact ⟨_, runInitialised_eq hinit hend, rfl⟩

/-- The third clause of O39: the latch that a probe has left is still set after the second message, which fails unless it is a
probe too. -/
theorem secondMessage_held {first last : Message} {s u t1 : State} (hp : s.polled) (hinit : s.initialised = true)
    (hu : lePoint s = .ok u) (hdir : first.dir = .write) (hlen : first.len = 0)
    (h1 : exec (messageCommand first) (u.ended { u.reg with st := u.reg.st &&& 0xC7 } [.wr .st 0xFF]) = .next t1)
    (hheld : t1.flag .stastr = true) (hlast : s.cfg.staleStallHolds = true ∨ last.dir = .write ∨ last.len ≠ 1) :
    ∃ t, secondMessage first last t1 = .next t ∧ t.flag .stastr = true ∧
      ((last.dir = .write ∧ last.len = 0) ∨
        (t.x.result ≠ 0 ∧ ∃ v, exec (.exchange [first, last]) s = .next v ∧ v.x.result = 9)) := by
  obtain ⟨j, q1, hq1, rfl⟩ := messageCommand_run (s := u.statusCleared) (c := 0) h1
  have hu' : u.polled := lePoint_keeps_polled hp hu
  have hpolled : q1.polled := by
    obtain ⟨_, p, hrun, hp1⟩ := runMessage_ends false first u.statusCleared hu'
    cases hrun.symm.trans hq1
    exact hp1
  rw [← nextMessage_none] at hq1
  have hframe := nextMessage_spec hq1
  obtain ⟨k, q, hq, hqp⟩ := nextMessage_ends (some first) last q1 hpolled
  have hcfg : q1.cfg = s.cfg := hframe.cfg.trans (lePoint_frame hu).cfg
  have hq1init : q1.initialised = true := hframe.initialised.trans ((lePoint_frame hu).initialised.trans hinit)
  rw [← hcfg] at hlast
  have hprobe1 : isProbe first = true := by simp [isProbe, hdir, hlen]
  obtain ⟨hk, hst⟩ := nextMessage_held (s := q1) hprobe1 hheld hlast hq
  refine ⟨q.endedWith k.code, secondMessage_of_run hq1init hq _, hst, ?_⟩
  by_cases hprobe : last.dir = .write ∧ last.len = 0
  · exact .inl hprobe
  · exact .inr ⟨Kind.code_ne_zero.2 (hk hprobe), exchange_two_failed hinit hu hq1 hq hqp (hk hprobe)⟩

/-- Settles O39: the exchange is its transfer and, if a message has failed, recovery; each message is a command but for the
latch that a probe before it has left. -/
theorem exchangeOutcomes : Obligations.ExchangeOutcomes := by
  unfold Obligations.ExchangeOutcomes
  refine ⟨?_, ?_, ?_⟩
  · intro ms s hp hinit hms hx hphase
    exact exchange_leaves hp hinit hms hx hphase
  · intro ms last s u t v w failed k hinit hu hmessages hstop
    exact exchange_composition hinit hu hmessages hstop
  · intro first last s u t1 hp hinit hu hdir hlen h1 hheld hlast
    exact secondMessage_held hp hinit hu hdir hlen h1 hheld hlast

end Sys2Proof.Machine
end

section
/-! PROOFS. DUMP (44_recovery_and_diagnostics.md R132): ten reads, and the event that shows them. -/

namespace Sys2Proof.Machine

/-- Each read is recorded with the byte it gives. -/
theorem readAll_acc {rs : List RegId} {s t : State} {vals : List (RegId × Byte)} (h : readAll rs s = .ok (vals, t)) :
    t.acc = s.acc ++ vals.map (fun p => .rd p.1 p.2) := by
  induction rs generalizing s vals with
  | nil => cases h; exact (List.append_nil _).symm
  | cons r rs ih =>
    obtain ⟨v, u, hrd, hrest⟩ := Op.bind_ok.1 h
    obtain ⟨ws, w, hall, hend⟩ := Op.bind_ok.1 hrest
    obtain ⟨p, hp, rfl, rfl⟩ := rd_ok.1 hrd
    cases hend
    rw [ih hall, State.pushAcc_acc, afterRead_acc, (lePoint_frame hp).acc, List.append_assoc]
    rfl

/-- The dump, taken apart: the reads of `DUMP_SET` and the event that shows their bytes in the host's layout. -/
theorem dump_ok {s t : State} {a : Unit} (h : dump s = .ok (a, t)) :
    ∃ vals u, readAll dumpSet s = .ok (vals, u) ∧ t = u.pushLog (.dump (shownValues u.cfg.layout vals)) := by
  obtain ⟨vals, u, hall, hlog⟩ := Op.bind_ok.1 h
  cases hlog
  exact ⟨vals, u, hall, rfl⟩

/-- Settles O46: the bytes of the event are those of the ten recorded reads; in an idle environment a dump only records. -/
theorem dumpReadsTen : Obligations.DumpReadsTen := by
  intro s hp
  obtain ⟨_, t, hdump, -⟩ := dump_ends s hp
  have hconfig := ConfigFrame.along.trans (dump_config _ _ _ hdump) (.withX t { t.x with result := 0 })
  have hquiet : s.quiet → t = s.dumped := fun hq => by cases hdump.symm.trans (dump_quiet hq); rfl
  obtain ⟨vals, u, hall, ht⟩ := dump_ok hdump
  obtain ⟨hseq, hregs⟩ := readAll_spec hall
  have hlog : t.log = s.log ++ [.dump (shownValues s.cfg.layout vals)] := by
    rw [ht, State.pushLog_log, hseq.log, hseq.cfg]
  have hexec : exec .dump s = .next (t.setResult .ok) := runBody_eq (Op.bind_eq hdump)
  refine ⟨_, vals, hexec, ?_, hregs, hlog, ?_, ?_, ?_, ?_, ?_, ?_, hconfig, ?_⟩
  · simp [State.setResult, Kind.code, ht, hseq.x]
  · simp [State.setResult, ht, readAll_acc hall]
  · simp [State.setResult, ht, hseq.buf]
  · simp [State.setResult, ht, hseq.cp]
  · simp [State.setResult, ht, hseq.program]
  · simp [State.setResult, ht, hseq.cfg]
  · simp [State.setResult, ht, hseq.initialised]
  · intro hq
    rw [hquiet hq]
    exact ⟨rfl, rfl, rfl, rfl, rfl⟩

end Sys2Proof.Machine
end

section
/-! PROOFS. CTRL_RESET (44_recovery_and_diagnostics.md R130, R131). -/

namespace Sys2Proof.Machine

/-! ## In an idle environment -/

/-- The controller has been reset: what `ctrl_reset` does to an enabled module when nothing comes between its accesses. -/
def State.wasReset (s : State) : State :=
  { s with
    reg := { s.reg with
      st := s.reg.st &&& 0x85, cst := s.reg.cst &&& 0xFD, ctl1 := 0, b0est := s.reg.b0est &&& 0x7F, b0fifctl := 0 }
    le := s.le.idle
    acc := s.acc ++ [.rd .ctl2 s.reg.ctl2, .wr .ctl2 (s.reg.ctl2 &&& 0xFE), .rd .ctl2 (s.reg.ctl2 &&& 0xFE),
      .wr .ctl2 s.reg.ctl2, .wr .cst 0x02, .wr .st 0xFF, .wr .b1fifcts 0x40, .wr .b0est 0x80,
      .rd .b0fifctl (s.reg.b0fifctl &&& 0x10), .wr .b0fifctl 0, .wr .ctl1 0] }

/-- The module has been disabled (46_line_engine.md R153). -/
def State.switchedOff (s : State) : State :=
  { s with
    reg := { s.reg with st := s.reg.st &&& 0xBD, ctl1 := s.reg.ctl1 &&& 0xFC, ctl2 := s.reg.ctl2 &&& 0xFE }
    le := s.le.idle
    acc := s.acc ++ [.rd .ctl2 s.reg.ctl2, .wr .ctl2 (s.reg.ctl2 &&& 0xFE)] }

/-- And enabled again. -/
def State.switchedOn (s : State) : State :=
  { s.switchedOff with
    reg := { s.switchedOff.reg with ctl2 := s.reg.ctl2 }
    acc := s.switchedOff.acc ++ [.rd .ctl2 (s.reg.ctl2 &&& 0xFE), .wr .ctl2 s.reg.ctl2] }

/-- An access does not wake the environment. -/
theorem quiet_afterWrite {s : State} (h : s.quiet) (r : RegId) (v : Byte) (a : Access) :
    ((afterWrite s r v).pushAcc a).quiet := (afterWrite_frame s r v).env.trans h

/-- Single-byte mode has been forced. -/
def State.singleByte (s : State) : State :=
  { s with
    reg := { s.reg with b0fifctl := 0 }
    acc := s.acc ++ [.rd .b0fifctl (s.reg.b0fifctl &&& 0x10), .wr .b0fifctl 0] }

theorem quiet_singleByte {s : State} (h : s.quiet) : s.singleByte.quiet := h

theorem clrbits_fifoEn_quiet {s : State} (hq : s.quiet) :
    clrbits .b0fifctl (Flag.mask .fifoEn) s = .ok ((), s.singleByte) := by
  have hoff : s.reg.b0fifctl &&& 0x10 &&& ~~~Flag.mask .fifoEn = 0 := by
    rw [BitVec.and_assoc]; exact BitVec.and_zero
  have hread : (s.pushAcc (.rd .b0fifctl (s.reg.b0fifctl &&& 0x10))).quiet := hq
  refine (rd_bind_quiet hq (readValue_b0fifctl s) rfl).trans ?_
  rw [hoff, wr_quiet hread]
  simp [State.singleByte, afterWrite, writeStorage, HwRegs.set, State.withReg, State.pushAcc]

/-- What `ctrl_reset` does once the module is on again. -/
def State.latchesReset (s : State) : State :=
  { s with
    reg := { s.reg with
      st := s.reg.st &&& 0xC7, cst := s.reg.cst &&& 0xFD, ctl1 := 0, b0est := s.reg.b0est &&& 0x7F, b0fifctl := 0 }
    acc := s.acc ++ [.wr .cst 0x02, .wr .st 0xFF, .wr .b1fifcts 0x40, .wr .b0est 0x80,
      .rd .b0fifctl (s.reg.b0fifctl &&& 0x10), .wr .b0fifctl 0, .wr .ctl1 0] }

theorem clearLatches_quiet {s : State} (hq : s.quiet) : (do
      wr .cst (Flag.mask .bb)
      wr .st 0xFF
      wr .b1fifcts clrFifoMask
      wr .b0est (Flag.mask .eoBusy)
      clrbits .b0fifctl (Flag.mask .fifoEn)
      wr .ctl1 0 : Op Unit) s = .ok ((), s.latchesReset) := by
  have hbb : Flag.mask .bb = 0x02 := rfl
  have heoBusy : Flag.mask .eoBusy = 0x80 := rfl
  have h1 := quiet_afterWrite hq .cst (Flag.mask .bb) (.wr .cst (Flag.mask .bb))
  have h2 := quiet_afterWrite h1 .st 0xFF (.wr .st 0xFF)
  have h3 := quiet_afterWrite h2 .b1fifcts clrFifoMask (.wr .b1fifcts clrFifoMask)
  have h4 := quiet_afterWrite h3 .b0est (Flag.mask .eoBusy) (.wr .b0est (Flag.mask .eoBusy))
  rw [Op.bind_eq (wr_quiet hq _ _), Op.bind_eq (wr_quiet h1 _ _), Op.bind_eq (wr_quiet h2 _ _), Op.bind_eq (wr_quiet h3 _ _),
    Op.bind_eq (clrbits_fifoEn_quiet h4), wr_quiet (quiet_singleByte h4)]
  simp [State.latchesReset, State.singleByte, afterWrite, writeLatches, writeStorage, HwRegs.set, State.withReg, State.pushAcc,
    latchMask, hbb, heoBusy, clrFifoMask]

section Quiet
variable {s : State} (hq : s.quiet) (he : s.flag .enable = true)
include hq he

theorem clrbits_enable_quiet : clrbits .ctl2 (Flag.mask .enable) s = .ok ((), s.switchedOff) := by
  have hoff : (s.reg.ctl2 &&& 0xFE).getLsbD 0 = false := by simp
  have hread : (s.pushAcc (.rd .ctl2 s.reg.ctl2)).quiet := hq
  have hwrite : wr .ctl2 (s.reg.ctl2 &&& 0xFE) (s.pushAcc (.rd .ctl2 s.reg.ctl2)) = .ok ((), s.switchedOff) := by
    rw [wr_quiet hread, afterWrite_ctl2, if_pos ⟨he, hoff⟩, moduleDisable_eq]
    simp [State.switchedOff, State.withReg, State.withLe, State.pushAcc]
  exact (rd_bind_quiet hq rfl rfl).trans hwrite

theorem setbits_enable_quiet : setbits .ctl2 (Flag.mask .enable) s.switchedOff = .ok ((), s.switchedOn) := by
  have hread : s.switchedOff.quiet := hq
  have hon : (s.reg.ctl2 &&& 0xFE) ||| 0x01 = s.reg.ctl2 := by
    have he : s.reg.ctl2.getLsbD 0 = true := he
    ext i hi
    interval_cases i <;> simp_all
  have hwrite : wr .ctl2 ((s.reg.ctl2 &&& 0xFE) ||| 0x01) (s.switchedOff.pushAcc (.rd .ctl2 (s.reg.ctl2 &&& 0xFE))) =
      .ok ((), s.switchedOn) := by
    rw [hon, wr_quiet (s := s.switchedOff.pushAcc _) hread, afterWrite_ctl2_of_enable fun _ => by exact he]
    simp [State.switchedOn, State.withReg, State.pushAcc]
  exact (rd_bind_quiet hread rfl rfl).trans hwrite

theorem ctrlReset_quiet : ctrlReset s = .ok ((), s.wasReset) := by
  have hst : s.reg.st &&& 0xBD &&& 0xC7 = s.reg.st &&& 0x85 := by rw [BitVec.and_assoc]; rfl
  refine (Op.bind_eq (clrbits_enable_quiet hq he)).trans ((Op.bind_eq (setbits_enable_quiet hq he)).trans
    ((clearLatches_quiet (s := s.switchedOn) hq).trans ?_))
  simp [State.wasReset, State.latchesReset, State.switchedOn, State.switchedOff]
  exact hst

end Quiet

/-- Where no reserved bit is set, the reset clears every register it writes but `CTL2`. -/
theorem wasReset_of_reservedZero {s : State} (h : s.reg.reservedZero = true) : s.wasReset = { s with
    reg := { s.reg with st := 0, cst := 0, ctl1 := 0, b0est := 0, b0fifctl := 0 }
    le := s.le.idle
    acc := s.acc ++ [.rd .ctl2 s.reg.ctl2, .wr .ctl2 (s.reg.ctl2 &&& 0xFE), .rd .ctl2 (s.reg.ctl2 &&& 0xFE),
      .wr .ctl2 s.reg.ctl2, .wr .cst 0x02, .wr .st 0xFF, .wr .b1fifcts 0x40, .wr .b0est 0x80,
      .rd .b0fifctl s.reg.b0fifctl, .wr .b0fifctl 0, .wr .ctl1 0] } := by
  simp only [HwRegs.reservedZero, Bool.and_eq_true, beq_iff_eq] at h
  obtain ⟨⟨⟨⟨⟨hst, hcst⟩, -⟩, -⟩, hb0est⟩, hfifo⟩ := h
  have hst : s.reg.st &&& 0x85 = 0 := hst
  have hcst : s.reg.cst &&& 0xFD = 0 := hcst
  have hb0est : s.reg.b0est &&& 0x7F = 0 := hb0est
  have hfifo : s.reg.b0fifctl &&& 0x10 = s.reg.b0fifctl := by
    have hsplit : s.reg.b0fifctl &&& 0x10 ||| s.reg.b0fifctl &&& 0xEF = s.reg.b0fifctl := by
      rw [← BitVec.and_or_distrib_left]; exact BitVec.and_allOnes
    rw [show s.reg.b0fifctl &&& 0xEF = 0 from hfifo] at hsplit
    exact BitVec.or_zero.symm.trans hsplit
  rw [State.wasReset, hst, hcst, hb0est, hfifo]

/-! ## In every environment -/

/-- `CTL2` is its divider field and `ENABLE`. -/
theorem ctl2_ext {c d : Byte} (hfield : c.extractLsb' 1 7 = d.extractLsb' 1 7) (henable : c.getLsbD 0 = d.getLsbD 0) : c = d := by
  apply BitVec.eq_of_getLsbD_eq
  intro i hi
  cases i with
  | zero => exact henable
  | succ i =>
    have hbit := congrArg (·.getLsbD i) hfield
    simpa [BitVec.getLsbD_extractLsb', show i < 7 by omega, Nat.add_comm] using hbit

/-- Settles O45: exactly from its eleven accesses, and in every environment from the baseline it brings the controller to. -/
theorem controllerReset : Obligations.ControllerReset := by
  refine ⟨fun s hq hi he hreserved => ?_, fun s hp hi he => ?_⟩
  · have hbody : (do ctrlReset; pure .ok : Op Kind) s = .ok (.ok, s.wasReset) := Op.bind_eq (ctrlReset_quiet hq he)
    rw [wasReset_of_reservedZero hreserved] at hbody
    exact runInitialised_eq hi hbody
  · obtain ⟨_, t, hreset, -⟩ := ctrlReset_ends s hp
    have hexec : exec .ctrlReset s = .next (t.setResult .ok) := runInitialised_eq hi (Op.bind_eq hreset)
    have hseq := ctrlReset_seq _ _ _ hreset
    have hspeed := ctrlReset_speed _ _ _ hreset
    have hbase := ctrlReset_baseline he hreset
    have hctl2 : t.reg.ctl2 = s.reg.ctl2 := ctl2_ext hspeed.low (hbase.enable.trans he.symm)
    have hle : t.le = t.le.idle := hbase.idle
    refine ⟨_, hexec, by simp [State.setResult, Kind.code, hseq.x], (OuterFrame.along.trans hseq.outer (.withX t _)).host,
      hctl2, hspeed.ctl3, hspeed.b0ectl, hbase.ctl1, hbase.master, hbase.sdast, hbase.stastr, hbase.negack, hbase.ber,
      hbase.fifoEn, ?_⟩
    show t.le.txb = [] ∧ t.le.addrPhase = false ∧ t.le.dir = .none ∧ t.le.owed = .none ∧ t.le.last = false
    rw [hle]
    exact ⟨rfl, rfl, rfl, rfl, rfl⟩

end Sys2Proof.Machine
end

section
/-! PROOFS. RECOVER in every environment (44_recovery_and_diagnostics.md R125, R126, R129): its steps, taken apart, how many pulses
it drives, and how it ends. -/

namespace Sys2Proof.Machine

/-! ## Only a write of `BRC` drives a pulse (46_line_engine.md R151) -/

/-- No pulse has been driven. -/
def SamePulses (s t : State) : Prop := t.le.pulses = s.le.pulses

theorem SamePulses.along : Along SamePulses := ⟨fun _ => rfl, fun h k => k.trans h⟩

theorem effect_pulses (e : LeEvent) (s : State) : SamePulses s (e.effect s) := by
  cases e with
  | addrAck =>
    show (effAddrAck s).le.pulses = _
    unfold effAddrAck
    split
    · rfl
    · dsimp only
      split <;> rfl
  | addrNack =>
    show (effAddrNack s).le.pulses = _
    unfold effAddrNack
    split <;> rfl
  | txAck =>
    show (effTxAck s).le.pulses = _
    unfold effTxAck
    split <;> rfl
  | txNack =>
    show (effTxNack s).le.pulses = _
    unfold effTxNack
    split <;> rfl
  | rxByte b =>
    show (effRxByte b s).le.pulses = _
    unfold effRxByte
    dsimp only
    split <;> rfl
  | stopDone eo =>
    show (effStopDone eo s).le.pulses = _
    unfold effStopDone
    dsimp only
    split <;> rfl
  | startDone | ber | txReady | lines | foreign => rfl

theorem lePoint_pulses {s t : State} (h : lePoint s = .ok t) : SamePulses s t :=
  lePoint_induct SamePulses.along.refl SamePulses.along.trans (fun e s _ => effect_pulses e s) (fun _ _ => rfl) h

theorem afterRead_pulses (s : State) (r : RegId) : SamePulses s (afterRead s r) := by
  cases r with
  | data =>
    rw [afterRead_data]
    show (if _ then _ else s.le).pulses = _
    split <;> rfl
  | brc => obtain ⟨n, hn⟩ := afterRead_brc s; rw [hn]; rfl
  | _ => rfl

theorem afterWrite_pulses (s : State) {r : RegId} (hr : r ≠ .brc) (v : Byte) : SamePulses s (afterWrite s r v) := by
  cases r with
  | data => rw [afterWrite_data]; rfl
  | ctl2 =>
    rw [afterWrite_ctl2]
    split
    · rw [moduleDisable_eq]; rfl
    · rfl
  | brc => exact absurd rfl hr
  | _ => rfl

theorem rd_pulses (r : RegId) : Op.Keeps SamePulses (rd r) :=
  .rd SamePulses.along lePoint_pulses (fun s r _ => afterRead_pulses s r) r

theorem wr_pulses {r : RegId} (hr : r ≠ .brc) (v : Byte) : Op.Keeps SamePulses (wr r v) := by
  intro s a t h
  obtain ⟨u, hu, rfl⟩ := wr_ok.1 h
  exact SamePulses.along.trans (lePoint_pulses hu) (afterWrite_pulses u hr v)

theorem point_pulses : Op.Keeps SamePulses point := fun _ _ _ h => lePoint_pulses (point_ok.1 h)

theorem modifyX_pulses (f : SeqRegs → SeqRegs) : Op.Keeps SamePulses (modifyX f) := by
  intro s a t h; cases h; rfl

theorem bind_pulses {α β : Type} {m : Op α} {f : α → Op β} (hm : Op.Keeps SamePulses m)
    (hf : ∀ a, Op.Keeps SamePulses (f a)) : Op.Keeps SamePulses (m >>= f) := .bind SamePulses.along hm hf

theorem setbits_pulses {r : RegId} (hr : r ≠ .brc) (m : Byte) : Op.Keeps SamePulses (setbits r m) :=
  .setbits SamePulses.along (rd_pulses r) (wr_pulses hr) m

theorem clrbits_pulses {r : RegId} (hr : r ≠ .brc) (m : Byte) : Op.Keeps SamePulses (clrbits r m) :=
  .clrbits SamePulses.along (rd_pulses r) (wr_pulses hr) m

theorem sendStart_pulses (n : Nat) : Op.Keeps SamePulses (sendStart n) :=
  bind_pulses (setbits_pulses (by decide) _) fun _ => .orReturn SamePulses.along
    (.pollOrTimeout SamePulses.along (rd_pulses _) _ _) (bind_pulses (modifyX_pulses _) fun _ => .pure SamePulses.along _)

theorem sendStop_zero_pulses : Op.Keeps SamePulses (sendStop 0) :=
  bind_pulses (setbits_pulses (by decide) _) fun _ => bind_pulses (wr_pulses (by decide) _) fun _ =>
    bind_pulses (modifyX_pulses _) fun _ => bind_pulses (modifyX_pulses _) fun _ => .pure SamePulses.along _

theorem ctrlReset_pulses : Op.Keeps SamePulses ctrlReset :=
  bind_pulses (clrbits_pulses (by decide) _) fun _ => bind_pulses (setbits_pulses (by decide) _) fun _ =>
    bind_pulses (wr_pulses (by decide) _) fun _ => bind_pulses (wr_pulses (by decide) _) fun _ =>
    bind_pulses (wr_pulses (by decide) _) fun _ => bind_pulses (wr_pulses (by decide) _) fun _ =>
    bind_pulses (clrbits_pulses (by decide) _) fun _ => wr_pulses (by decide) _

/-! ## The toggle loop -/

theorem afterWrite_toggle (s : State) : afterWrite s .brc tgsclMask = togglePulse s := by
  show writeBrc s tgsclMask = _
  exact if_pos (by decide)

/-- One pulse, if the module is enabled. -/
theorem wr_toggle_pulses {s t : State} {a : Unit} (h : wr .brc tgsclMask s = .ok (a, t)) :
    t.le.pulses = s.le.pulses + if s.flag .enable = true then 1 else 0 := by
  obtain ⟨u, hu, rfl⟩ := wr_ok.1 h
  rw [afterWrite_toggle, State.pushAcc_le, ← lePoint_pulses hu, ← (lePoint_frame hu).flag_enable]
  unfold togglePulse State.g0
  split <;> rfl

theorem ConfigFrame.enable {s t : State} (h : ConfigFrame s t) : t.flag .enable = s.flag .enable :=
  congrArg (Flag.isSet .enable) h.ctl2

/-- The loop ends after its `k`-th iteration, which has seen SDA high, or after `n` that have not (R126). -/
theorem toggleLoop_pulses {n : Nat} {s t : State} {d : Bool} (h : toggleLoop n s = .ok (d, t)) :
    ∃ k ≤ n, (d = true → 0 < k) ∧ (d = false → k = n) ∧
      t.le.pulses = s.le.pulses + if s.flag .enable = true then k else 0 := by
  induction n generalizing s with
  | zero => cases h; exact ⟨0, Nat.le_refl 0, nofun, fun _ => rfl, by simp⟩
  | succ n ih =>
    obtain ⟨_, p, hwr, h⟩ := Op.bind_ok.1 h
    obtain ⟨_, q, hdelay, h⟩ := Op.bind_ok.1 h
    obtain ⟨b, w, hrd, h⟩ := Op.bind_ok.1 h
    have hpulse : w.le.pulses = s.le.pulses + if s.flag .enable = true then 1 else 0 := by
      rw [rd_pulses _ _ _ _ hrd, point_pulses _ _ _ hdelay, wr_toggle_pulses hwr]
    have henable : w.flag .enable = s.flag .enable :=
      (ConfigFrame.along.trans (wr_brc_config _ _ _ _ hwr) (ConfigFrame.along.trans (delay_config _ _ _ hdelay)
        (rd_config _ _ _ _ hrd))).enable
    split at h
    · cases h
      exact ⟨1, by omega, fun _ => Nat.one_pos, nofun, hpulse⟩
    · obtain ⟨k, hk, hhigh, hlow, hcount⟩ := ih h
      refine ⟨k + 1, by omega, fun _ => Nat.succ_pos k, fun hd => by rw [hlow hd], ?_⟩
      rw [hcount, hpulse, henable]
      split <;> omega

/-! ## The forced START -/

/-- The forced START, taken apart (R125). -/
theorem forcedStart_ok {a : Addr7} {s t : State} {b : Unit} (h : forcedStart a s = .ok (b, t)) :
    ∃ p k q, wr .data (recByteOf s.cfg.recByte a) s = .ok ((), p) ∧ sendStart s.cfg.tRecStart p = .ok (k, q) ∧
      ((k = .ok ∧ ∃ j u v w, delay q = .ok ((), u) ∧ sendStop 0 u = .ok (j, v) ∧ delay v = .ok ((), w) ∧
          t = w.pushLog .recDone) ∨
        (k ≠ .ok ∧ t = q.pushLog .recStartFailed)) := by
  obtain ⟨c, _, hcfg, h⟩ := Op.bind_ok.1 h
  cases hcfg
  obtain ⟨_, p, hwr, h⟩ := Op.bind_ok.1 h
  obtain ⟨k, q, hstart, h⟩ := Op.bind_ok.1 h
  refine ⟨p, k, q, hwr, hstart, ?_⟩
  split at h
  next hk =>
    obtain ⟨_, u, hdelay1, h⟩ := Op.bind_ok.1 h
    obtain ⟨j, v, hstop, h⟩ := Op.bind_ok.1 h
    obtain ⟨_, w, hdelay2, h⟩ := Op.bind_ok.1 h
    cases h
    exact .inl ⟨hk, j, u, v, w, hdelay1, hstop, hdelay2, rfl⟩
  next hk =>
    cases h
    exact .inr ⟨hk, rfl⟩

theorem forcedStart_pulses (a : Addr7) : Op.Keeps SamePulses (forcedStart a) := by
  intro s b t h
  obtain ⟨p, k, q, hwr, hstart, ⟨-, j, u, v, w, hdelay1, hstop, hdelay2, rfl⟩ | ⟨-, rfl⟩⟩ := forcedStart_ok h
  · have hq := (sendStart_pulses _ _ _ _ hstart).trans (wr_pulses (by decide) _ _ _ _ hwr)
    have hv := (sendStop_zero_pulses _ _ _ hstop).trans (point_pulses _ _ _ hdelay1)
    exact (point_pulses _ _ _ hdelay2).trans (hv.trans hq)
  · exact (sendStart_pulses _ _ _ _ hstart).trans (wr_pulses (by decide) _ _ _ _ hwr)

/-- A START that succeeds, and the STOP after it, leave the sequencer with no START outstanding. -/
theorem startThenStop_seq {n : Nat} {s q u v w : State} {j : Kind} (hstart : sendStart n s = .ok (.ok, q))
    (hdelay1 : delay q = .ok ((), u)) (hstop : sendStop 0 u = .ok (j, v)) (hdelay2 : delay v = .ok ((), w)) :
    w.log = s.log ∧ w.x = { s.x with started := false, phase := .idle } := by
  have hu := point_seq _ _ _ hdelay1
  have hv := sendStop_spec hstop
  have hw := point_seq _ _ _ hdelay2
  obtain ⟨y, hy, ⟨-, rfl⟩ | ⟨hk, -⟩⟩ := sendStart_spec hstart
  · obtain ⟨-, hvlog⟩ | ⟨-, hpos, -⟩ := hv.result
    · exact ⟨by rw [hw.log, hvlog, hu.log, State.withX_log, hy.log], by simp [hw.x, hv.x, hu.x, hy.x]⟩
    · exact absurd hpos (Nat.lt_irrefl 0)
  · obtain hk | hk := hk <;> cases hk

/-- Where the START succeeds a STOP follows it; where it fails nothing does (R129). -/
theorem forcedStart_end {a : Addr7} {s t : State} {b : Unit} (h : forcedStart a s = .ok (b, t)) :
    (t.log = s.log ++ [.recDone] ∧ t.x = { s.x with started := false, phase := .idle }) ∨
      (t.log = s.log ++ [.recStartFailed] ∧ t.x = s.x) := by
  obtain ⟨p, k, q, hwr, hstart, ⟨rfl, j, u, v, w, hdelay1, hstop, hdelay2, rfl⟩ | ⟨hk, rfl⟩⟩ := forcedStart_ok h
  · have hp := wr_seq _ _ _ _ _ hwr
    obtain ⟨hlog, hx⟩ := startThenStop_seq hstart hdelay1 hstop hdelay2
    exact .inl ⟨by rw [State.pushLog_log, hlog, hp.log], by rw [State.pushLog_x, hx, hp.x]⟩
  · have hp := wr_seq _ _ _ _ _ hwr
    obtain ⟨y, hy, ⟨hok, -⟩ | ⟨-, rfl⟩⟩ := sendStart_spec hstart
    · exact absurd hok hk
    · exact .inr ⟨by rw [State.pushLog_log, hy.log, hp.log], by rw [State.pushLog_x, hy.x, hp.x]⟩

/-! ## RECOVER -/

/-- What recovery does about a stuck bus, taken apart. -/
theorem unstick_ok {a : Addr7} {s t : State} {b : Unit} (h : unstick a s = .ok (b, t)) :
    ∃ d q, toggleLoop Config.recIter s = .ok (d, q) ∧
      ((d = true ∧ forcedStart a q = .ok ((), t)) ∨ (d = false ∧ t = q.pushLog .recSdaStuck)) := by
  obtain ⟨d, q, hloop, h⟩ := Op.bind_ok.1 h
  cases d with
  | true => exact ⟨true, q, hloop, .inl ⟨rfl, h⟩⟩
  | false => cases h; exact ⟨false, q, hloop, .inr ⟨rfl, rfl⟩⟩

/-- Recovery, taken apart: the first look at the lines, what is done about a stuck bus, and the controller reset. -/
theorem recover_ok {a : Addr7} {s t : State} {k : Kind} (h : recover a s = .ok (k, t)) :
    ∃ v p q, rd .brc s = .ok (v, p) ∧ k = .ok ∧ ctrlReset q = .ok ((), t) ∧
      (((v.getLsbD sclLvlBit && v.getLsbD sdaLvlBit) = true ∧ q = p) ∨
        ((v.getLsbD sclLvlBit && v.getLsbD sdaLvlBit) = false ∧ unstick a p = .ok ((), q))) := by
  obtain ⟨v, p, hrd, h⟩ := Op.bind_ok.1 h
  split at h
  next hfree =>
    obtain ⟨_, _, hreset, h⟩ := Op.bind_ok.1 h
    cases h
    exact ⟨v, p, p, hrd, rfl, hreset, .inl ⟨hfree, rfl⟩⟩
  next hfree =>
    obtain ⟨_, q, hunstick, h⟩ := Op.bind_ok.1 h
    obtain ⟨_, _, hreset, h⟩ := Op.bind_ok.1 h
    cases h
    exact ⟨v, p, q, hrd, rfl, hreset, .inr ⟨Bool.eq_false_iff.2 hfree, hunstick⟩⟩

/-- The rows of R129: the event in `LOG`, the sequencer registers, and the number `k` of iterations of the toggle loop. -/
inductive RecoverRow (s t : State) : Nat → Prop
  | free (log : t.log = s.log) (x : t.x = s.x) : RecoverRow s t 0
  | done {k : Nat} (log : t.log = s.log ++ [.recDone]) (x : t.x = { s.x with started := false, phase := .idle }) (pos : 0 < k) :
    RecoverRow s t k
  | startFailed {k : Nat} (log : t.log = s.log ++ [.recStartFailed]) (x : t.x = s.x) (pos : 0 < k) : RecoverRow s t k
  | sdaStuck (log : t.log = s.log ++ [.recSdaStuck]) (x : t.x = s.x) : RecoverRow s t 27

theorem unstick_row {a : Addr7} {s t : State} {b : Unit} (h : unstick a s = .ok (b, t)) :
    ∃ k ≤ 27, RecoverRow s t k ∧ t.le.pulses = s.le.pulses + if s.flag .enable = true then k else 0 := by
  obtain ⟨d, q, hloop, hend⟩ := unstick_ok h
  obtain ⟨k, hk, hhigh, hlow, hpulses⟩ := toggleLoop_pulses hloop
  have hq := toggleLoop_seq _ _ _ _ hloop
  refine ⟨k, hk, ?_⟩
  obtain ⟨hd, hforced⟩ | ⟨hd, rfl⟩ := hend
  · refine ⟨?_, (forcedStart_pulses a _ _ _ hforced).trans hpulses⟩
    obtain ⟨hlog, hx⟩ | ⟨hlog, hx⟩ := forcedStart_end hforced
    · exact .done (by rw [hlog, hq.log]) (by rw [hx, hq.x]) (hhigh hd)
    · exact .startFailed (by rw [hlog, hq.log]) (hx.trans hq.x) (hhigh hd)
  · obtain rfl : k = 27 := hlow hd
    exact ⟨.sdaStuck (by rw [State.pushLog_log, hq.log]) hq.x, hpulses⟩

/-- A row of what lies between two pieces that leave the sequencer alone. -/
theorem RecoverRow.between {s p q t : State} {k : Nat} (hp : SeqFrame s p) (h : RecoverRow p q k) (ht : SeqFrame q t) :
    RecoverRow s t k := by
  cases h with
  | free log x => exact .free (by rw [ht.log, log, hp.log]) (by rw [ht.x, x, hp.x])
  | done log x pos => exact .done (by rw [ht.log, log, hp.log]) (by rw [ht.x, x, hp.x]) pos
  | startFailed log x pos => exact .startFailed (by rw [ht.log, log, hp.log]) (by rw [ht.x, x, hp.x]) pos
  | sdaStuck log x => exact .sdaStuck (by rw [ht.log, log, hp.log]) (by rw [ht.x, x, hp.x])

/-- RECOVER ends in a row of R129, with as many pulses on an enabled module as its toggle loop has had iterations. -/
theorem recover_row {a : Addr7} {s t : State} {j : Kind} (h : recover a s = .ok (j, t)) :
    ∃ k ≤ 27, RecoverRow s t k ∧ t.le.pulses = s.le.pulses + if s.flag .enable = true then k else 0 := by
  obtain ⟨v, p, q, hrd, -, hreset, ⟨-, rfl⟩ | ⟨-, hunstick⟩⟩ := recover_ok h
  · have ht := SeqFrame.along.trans (rd_seq _ _ _ _ hrd) (ctrlReset_seq _ _ _ hreset)
    have hpulses := (ctrlReset_pulses _ _ _ hreset).trans (rd_pulses _ _ _ _ hrd)
    exact ⟨0, Nat.zero_le _, .free ht.log ht.x, by simpa using hpulses⟩
  · obtain ⟨k, hk, hrow, hpulses⟩ := unstick_row hunstick
    refine ⟨k, hk, .between (rd_seq _ _ _ _ hrd) hrow (ctrlReset_seq _ _ _ hreset), ?_⟩
    rw [ctrlReset_pulses _ _ _ hreset, hpulses, rd_pulses _ _ _ _ hrd, (rd_config _ _ _ _ hrd).enable]

/-- Settles O43, from the row of R129 in which it ends and the controller reset at its end. -/
theorem recoverOutcomes : Obligations.RecoverOutcomes := by
  intro a s hp hi
  obtain ⟨k, t, hbody, -⟩ := recover_ends a s hp
  have hout := recover_spec hbody
  have hspeed := recover_speed a _ _ _ hbody
  obtain ⟨n, hn, hrow, hpulses⟩ := recover_row hbody
  obtain rfl : k = .ok := hout.result
  have hle : (t.setResult .ok).le.pulses = s.le.pulses + if s.flag .enable = true then n else 0 := hpulses
  have hx : (t.setResult .ok).x = { t.x with result := 0 } := rfl
  have hexec : exec (.recover a) s = .next (t.setResult .ok) := runInitialised_eq hi hbody
  refine ⟨_, hexec, rfl, ?_, fun y => congrArg (·.read y) hout.buf, hout.cp, hout.program, hout.cfg, ?_, ?_,
    hspeed.divider, hspeed.ctl3, hspeed.b0ectl, fun he => { recover_baseline he hbody with }⟩
  · cases hrow with
    | free log x => exact .inl ⟨log, by rw [hx, x], by simpa using hle⟩
    | done log x pos =>
      exact .inr (.inl ⟨log, by rw [hx, x], fun he => by rw [hle, if_pos he]; exact Nat.lt_add_of_pos_right pos⟩)
    | startFailed log x pos =>
      exact .inr (.inr (.inl ⟨log, by rw [hx, x], fun he => by rw [hle, if_pos he]; exact Nat.lt_add_of_pos_right pos⟩))
    | sdaStuck log x => exact .inr (.inr (.inr ⟨log, by rw [hx, x], fun he => by rw [hle, if_pos he]⟩))
  · rw [hle]; exact Nat.le_add_right _ _
  · rw [hle]; split <;> omega

end Sys2Proof.Machine
end

section
/-! PROOFS. RECOVER by the levels of the lines, in an idle environment (44_recovery_and_diagnostics.md R126 to R129). -/

namespace Sys2Proof.Machine

/-! ## The levels -/

/-- The byte `BRC` shows while the engine is not bus master. -/
def State.levelByte (s : State) : Byte := brcByte (decide (s.scl = .high)) (decide (s.sda = .high))

theorem rd_brc_levels {s u : State} (hu : lePoint s = .ok u) (hm : u.flag .master = false) :
    rd .brc s = .ok (u.levelByte, u.pushAcc (.rd .brc u.levelByte)) := by
  have hafter : afterRead u .brc = u := if_neg (by rw [hm]; nofun)
  have hread : readValue u .brc = u.levelByte := by rw [readValue_brc, brcLevels_not_master hm]; rfl
  rw [rd_eq hu, hafter, hread]

/-! ## One iteration of the toggle loop -/

/-- A pulse has been driven where the lines stand at `c` and `d`. -/
def State.driven (s : State) (c d : Level) : State :=
  { s with
    le := { s.le with pulses := s.le.pulses + 1 }
    scl := c
    sda := d
    wire := s.wire ++ [.pulse]
    acc := s.acc ++ [.wr .brc 0x20] }

/-- An iteration has sampled the levels `c` and `d`. -/
def State.pulsed (s : State) (c d : Level) : State :=
  { s with
    le := { s.le with pulses := s.le.pulses + 1 }
    scl := c
    sda := d
    wire := s.wire ++ [.pulse]
    acc := s.acc ++ [.wr .brc 0x20, .rd .brc (brcByte (decide (c = .high)) (decide (d = .high)))] }

/-- The pulse of an enabled module moves the lines, and nothing else happens at the interleaving points of the iteration. -/
theorem toggleLoop_succ {s : State} {c0 d0 c d : Level} (n : Nat) (he : s.flag .enable = true) (hm : s.flag .master = false)
    (h1 : lePoint s = .ok (s.withLines c0 d0)) (h2 : lePoint (s.driven c0 d0) = .ok (s.driven c d))
    (h3 : lePoint (s.driven c d) = .ok (s.driven c d)) :
    toggleLoop (n + 1) s = if d = .high then .ok (true, s.pulsed c d) else toggleLoop n (s.pulsed c d) := by
  have hwr : wr .brc tgsclMask s = .ok ((), s.driven c0 d0) := by
    have hpulse : togglePulse (s.withLines c0 d0) = ((s.withLines c0 d0).pushWire .pulse).withLe
        { s.le with pulses := s.le.pulses + 1 } := if_pos he
    rw [wr_eq h1, afterWrite_toggle, hpulse]
    rfl
  have hrd : rd .brc (s.driven c d) = .ok ((s.driven c d).levelByte, s.pulsed c d) := by
    rw [rd_brc_levels h3 hm, State.pushAcc, show (s.driven c d).acc = s.acc ++ [.wr .brc 0x20] from rfl, List.append_assoc]
    rfl
  have hsda : (s.driven c d).levelByte.getLsbD sdaLvlBit = decide (d = .high) := brcByte_sdaLvl _ _
  have hdelay : delay (s.driven c0 d0) = .ok ((), s.driven c d) := point_ok.2 h2
  rw [toggleLoop, Op.bind_eq hwr, Op.bind_eq hdelay, Op.bind_eq hrd, hsda]
  cases d <;> rfl

/-- `k` iterations have been made: `k` pulses, two accesses each, and nothing else but the lines. -/
structure Pulsed (k : Nat) (s t : State) : Prop where
  wire : t.wire = s.wire ++ List.replicate k .pulse
  le : t.le = { s.le with pulses := s.le.pulses + k }
  reg : t.reg = s.reg
  env : t.env = s.env
  acc : t.acc.length = s.acc.length + 2 * k

theorem Pulsed.one (s : State) (c d : Level) : Pulsed 1 s (s.pulsed c d) :=
  ⟨rfl, rfl, rfl, rfl, by simp [State.pulsed]⟩

theorem Pulsed.zero (s : State) : Pulsed 0 s s := ⟨by simp, rfl, rfl, rfl, rfl⟩

theorem Pulsed.succ {k : Nat} {s t : State} {c d : Level} (h : Pulsed k (s.pulsed c d) t) : Pulsed (k + 1) s t where
  wire := by rw [h.wire, List.replicate_succ]; simp [State.pulsed]
  le := by rw [h.le]; simp [State.pulsed, Nat.add_assoc, Nat.add_comm 1]
  reg := h.reg
  env := h.env
  acc := by rw [h.acc]; simp [State.pulsed]; omega

section Quiet
variable {s : State} (hq : s.quiet) (he : s.flag .enable = true) (hm : s.flag .master = false)
include hq he hm

theorem toggleLoop_succ_quiet (n : Nat) : toggleLoop (n + 1) s =
    if s.sda = .high then .ok (true, s.pulsed s.scl s.sda) else toggleLoop n (s.pulsed s.scl s.sda) :=
  have hdriven : (s.driven s.scl s.sda).quiet := hq
  toggleLoop_succ n he hm (lePoint_quiet hq) (lePoint_quiet hdriven) (lePoint_quiet hdriven)

/-- SDA never rises. -/
theorem toggleLoop_quiet_low (hsda : s.sda = .low) (n : Nat) : ∃ t, toggleLoop n s = .ok (false, t) ∧ Pulsed n s t := by
  induction n generalizing s with
  | zero => exact ⟨s, rfl, .zero s⟩
  | succ n ih =>
    obtain ⟨t, ht, hpulsed⟩ := ih (s := s.pulsed s.scl s.sda) hq he hm hsda
    refine ⟨t, ?_, hpulsed.succ⟩
    rw [toggleLoop_succ_quiet hq he hm, if_neg (by rw [hsda]; nofun), ht]

end Quiet

/-! ## A START that nothing answers -/

/-- Not bus master: the wait ends with a bus error that is already latched, at its first sample, or runs out. -/
theorem sendStart_unanswered {s : State} (hq : s.quiet) (hm : s.flag .master = false) (n : Nat) : ∃ k, k ≠ .ok ∧
    sendStart n s = .ok (k, (s.ctl1Set (Flag.mask .start)).sampled .st (if s.flag .ber = true then min 1 n else n)) := by
  have hsample : startSample (readValue (s.ctl1Set (Flag.mask .start)) .st) =
      if s.flag .ber = true then some .busError else if s.flag .master = true then some .ok else none := startSample_readValue s
  rw [hm] at hsample
  have hq' : (s.ctl1Set (Flag.mask .start)).quiet := hq
  by_cases hber : s.flag .ber = true ∧ 0 < n
  · obtain ⟨hber, hn⟩ := hber
    rw [if_pos hber] at hsample ⊢
    rw [Nat.min_eq_left hn]
    exact ⟨.busError, nofun, sendStart_quiet hq (pollOrTimeout_quiet_decided hq' rfl hn hsample)⟩
  · have hnone : n = 0 ∨ startSample (readValue (s.ctl1Set (Flag.mask .start)) .st) = none := by
      obtain h | h := not_and_or.1 hber
      · exact .inr (by rw [hsample, if_neg h]; rfl)
      · exact .inl (Nat.eq_zero_of_not_pos h)
    have hcount : (if s.flag .ber = true then min 1 n else n) = n := by
      split
      next h => rw [Nat.eq_zero_of_not_pos (not_and.1 hber h)]; rfl
      next => rfl
    rw [hcount]
    exact ⟨.timeout, nofun, sendStart_quiet hq (pollOrTimeout_quiet_exhausted hq' rfl hnone)⟩

/-- The recovery byte has been written and the START request made, sampled and left unanswered. -/
def State.startLeft (s : State) (r : Byte) : State :=
  ((((s.dataWritten r).ctl1Set (Flag.mask .start)).sampled .st
    (if s.flag .ber = true then min 1 s.cfg.tRecStart else s.cfg.tRecStart)).pushLog .recStartFailed)

theorem startLeft_acc (s : State) (r : Byte) : (s.startLeft r).acc = s.acc ++
    [Access.wr .data r, .rd .ctl1 (s.reg.ctl1 &&& 0x97), .wr .ctl1 ((s.reg.ctl1 &&& 0x97) ||| 0x01)] ++
    List.replicate (if s.flag .ber = true then min 1 s.cfg.tRecStart else s.cfg.tRecStart)
      (Access.rd .st (s.reg.st &&& 0x3A)) := by
  have hst : readValue ((s.dataWritten r).ctl1Set (Flag.mask .start)) .st = s.reg.st &&& 0x3A := readSt_dataWritten s r
  have hacc : ((s.dataWritten r).ctl1Set (Flag.mask .start)).acc = s.acc ++
      [Access.wr .data r, .rd .ctl1 (s.reg.ctl1 &&& 0x97), .wr .ctl1 ((s.reg.ctl1 &&& 0x97) ||| 0x01)] :=
    List.append_assoc _ _ _
  rw [State.startLeft, State.pushLog_acc, State.sampled, hst, hacc]

theorem wasReset_acc (s : State) : ∃ resets, s.wasReset.acc = s.acc ++ resets ∧ resets.length = 11 := ⟨_, rfl, rfl⟩

theorem forcedStart_unanswered {s : State} (hq : s.quiet) (hm : s.flag .master = false) (a : Addr7) :
    forcedStart a s = .ok ((), s.startLeft (recByteOf s.cfg.recByte a)) := by
  have hq' : (s.dataWritten (recByteOf s.cfg.recByte a)).quiet := hq
  have hm' := (dataWritten_flag s (recByteOf s.cfg.recByte a) (f := .master) nofun).trans hm
  obtain ⟨k, hk, hstart⟩ := sendStart_unanswered hq' hm' s.cfg.tRecStart
  rw [dataWritten_flag s _ (f := .ber) nofun] at hstart
  refine (Op.bind_eq (getCfg_run s)).trans ((Op.bind_eq (wr_data_quiet hq _)).trans ((Op.bind_eq hstart).trans ?_))
  rw [if_neg hk]
  rfl

/-! ## RECOVER -/

theorem recover_of_free {a : Addr7} {s p t : State} {v : Byte} (hrd : rd .brc s = .ok (v, p))
    (hv : (v.getLsbD sclLvlBit && v.getLsbD sdaLvlBit) = true) (hreset : ctrlReset p = .ok ((), t)) :
    recover a s = .ok (.ok, t) := by
  unfold recover
  rw [Op.bind_eq hrd, hv]
  exact Op.bind_eq hreset

theorem recover_of_stuck {a : Addr7} {s p q t : State} {v : Byte} (hrd : rd .brc s = .ok (v, p))
    (hv : (v.getLsbD sclLvlBit && v.getLsbD sdaLvlBit) = false) (hunstick : unstick a p = .ok ((), q))
    (hreset : ctrlReset q = .ok ((), t)) : recover a s = .ok (.ok, t) := by
  unfold recover
  rw [Op.bind_eq hrd, hv]
  exact (Op.bind_eq hunstick).trans (Op.bind_eq hreset)

theorem levelByte_levels (s : State) : (s.levelByte.getLsbD sclLvlBit && s.levelByte.getLsbD sdaLvlBit) =
    (decide (s.scl = .high) && decide (s.sda = .high)) := congrArg₂ _ (brcByte_sclLvl _ _) (brcByte_sdaLvl _ _)

section Quiet
variable {s : State} (hq : s.quiet) (he : s.flag .enable = true) (hm : s.flag .master = false) (a : Addr7)
include hq he hm

/-- Both lines high: the look at them and the reset. -/
theorem recover_quiet_free (hscl : s.scl = .high) (hsda : s.sda = .high) :
    recover a s = .ok (.ok, (s.pushAcc (.rd .brc s.levelByte)).wasReset) := by
  have hfree : (s.levelByte.getLsbD sclLvlBit && s.levelByte.getLsbD sdaLvlBit) = true := by
    rw [levelByte_levels, hscl, hsda]; rfl
  have hq' : (s.pushAcc (.rd .brc s.levelByte)).quiet := hq
  exact recover_of_free (rd_brc_levels (lePoint_quiet hq) hm) hfree (ctrlReset_quiet hq' he)

/-- SDA never rises: 27 pulses and the reset. -/
theorem recover_quiet_sdaLow (hsda : s.sda = .low) :
    ∃ p, Pulsed 27 (s.pushAcc (.rd .brc s.levelByte)) p ∧ SeqFrame (s.pushAcc (.rd .brc s.levelByte)) p ∧
      recover a s = .ok (.ok, (p.pushLog .recSdaStuck).wasReset) := by
  have hstuck : (s.levelByte.getLsbD sclLvlBit && s.levelByte.getLsbD sdaLvlBit) = false := by
    rw [levelByte_levels, hsda]; simp
  have hq' : (s.pushAcc (.rd .brc s.levelByte)).quiet := hq
  obtain ⟨p, hloop, hpulsed⟩ := toggleLoop_quiet_low hq' he hm hsda 27
  have hunstick : unstick a (s.pushAcc (.rd .brc s.levelByte)) = .ok ((), p.pushLog .recSdaStuck) := Op.bind_eq hloop
  have hquiet : (p.pushLog .recSdaStuck).quiet := hpulsed.env.trans hq
  have henable : (p.pushLog .recSdaStuck).flag .enable = true := (State.flag_congr (s := s) hpulsed.reg .enable).trans he
  exact ⟨p, hpulsed, toggleLoop_seq _ _ _ _ hloop,
    recover_of_stuck (rd_brc_levels (lePoint_quiet hq) hm) hstuck hunstick (ctrlReset_quiet hquiet henable)⟩

/-- SCL low and SDA high: one pulse, the forced START that nothing answers, and the reset. -/
theorem recover_quiet_sclLow (hscl : s.scl = .low) (hsda : s.sda = .high) :
    recover a s = .ok (.ok, (((s.pushAcc (.rd .brc 0x40)).pulsed .low .high).startLeft (recByteOf s.cfg.recByte a)).wasReset) := by
  have hbyte : s.levelByte = 0x40 := by unfold State.levelByte; rw [hscl, hsda]; rfl
  have hrd := rd_brc_levels (lePoint_quiet hq) hm
  rw [hbyte] at hrd
  have hq' : (s.pushAcc (.rd .brc 0x40)).quiet := hq
  have hloop := toggleLoop_succ_quiet (s := s.pushAcc (.rd .brc 0x40)) hq' he hm 26
  rw [State.pushAcc_sda, State.pushAcc_scl, hscl, hsda, if_pos rfl] at hloop
  have hquiet : ((s.pushAcc (.rd .brc 0x40)).pulsed .low .high).quiet := hq
  have hunstick : unstick a (s.pushAcc (.rd .brc 0x40)) =
      .ok ((), ((s.pushAcc (.rd .brc 0x40)).pulsed .low .high).startLeft (recByteOf s.cfg.recByte a)) :=
    (Op.bind_eq hloop).trans (forcedStart_unanswered hquiet hm a)
  have hleft : (((s.pushAcc (.rd .brc 0x40)).pulsed .low .high).startLeft (recByteOf s.cfg.recByte a)).quiet := hq
  exact recover_of_stuck hrd (by decide) hunstick (ctrlReset_quiet hleft he)

end Quiet

/-- The rows of R129 in an idle environment, by the levels at entry. -/
theorem recover_quiet_rows {s : State} (hq : s.quiet) (he : s.flag .enable = true) (hm : s.flag .master = false) (a : Addr7) :
    ∃ t, recover a s = .ok (.ok, t) ∧ t.x = s.x ∧
      (s.scl = .high → s.sda = .high → t.wire = s.wire ∧ t.log = s.log ∧ t.reg.data = s.reg.data ∧
        t.acc.length = s.acc.length + 12) ∧
      (s.sda = .low → t.wire = s.wire ++ List.replicate 27 WireEvent.pulse ∧ t.log = s.log ++ [.recSdaStuck] ∧
        t.reg.data = s.reg.data ∧ t.acc.length = s.acc.length + 66) ∧
      (s.scl = .low → s.sda = .high → t.wire = s.wire ++ [.pulse] ∧ t.log = s.log ++ [.recStartFailed] ∧
        t.reg.data = recByteOf s.cfg.recByte a ∧
        ∃ resets : List Access, t.acc = s.acc ++ [Access.rd .brc 0x40, .wr .brc 0x20, .rd .brc 0x40,
            .wr .data (recByteOf s.cfg.recByte a),
            .rd .ctl1 (s.reg.ctl1 &&& 0x97), .wr .ctl1 ((s.reg.ctl1 &&& 0x97) ||| 0x01)] ++
          List.replicate (if s.flag .ber = true then min 1 s.cfg.tRecStart else s.cfg.tRecStart)
            (Access.rd .st (s.reg.st &&& 0x3A)) ++ resets ∧ resets.length = 11) := by
  cases hsda : s.sda with
  | low =>
    obtain ⟨p, hpulsed, hseq, hrun⟩ := recover_quiet_sdaLow hq he hm a hsda
    refine ⟨_, hrun, hseq.x, nofun, fun _ => ⟨hpulsed.wire, ?_, ?_, ?_⟩, nofun⟩
    · show p.log ++ _ = _
      rw [hseq.log, State.pushAcc_log]
    · show p.reg.data = _
      rw [hpulsed.reg, State.pushAcc_reg]
    · simp [State.wasReset, hpulsed.acc]
  | high =>
    cases hscl : s.scl with
    | high =>
      refine ⟨_, recover_quiet_free hq he hm a hscl hsda, rfl, fun _ _ => ⟨rfl, rfl, rfl, ?_⟩, nofun, nofun⟩
      simp [State.wasReset]
    | low =>
      refine ⟨_, recover_quiet_sclLow hq he hm a hscl hsda, rfl, nofun, nofun, fun _ _ => ⟨rfl, rfl, rfl, ?_⟩⟩
      obtain ⟨resets, hresets, hlength⟩ :=
        wasReset_acc (((s.pushAcc (.rd .brc 0x40)).pulsed .low .high).startLeft (recByteOf s.cfg.recByte a))
      refine ⟨resets, ?_, hlength⟩
      have hacc : ((s.pushAcc (.rd .brc 0x40)).pulsed .low .high).acc = s.acc ++
          [Access.rd .brc 0x40, .wr .brc 0x20, .rd .brc 0x40] := List.append_assoc _ _ _
      rw [hresets, startLeft_acc, hacc, List.append_assoc s.acc]
      rfl

end Sys2Proof.Machine
end

section
/-! PROOFS. RECOVER in the reference environment (46_line_engine.md R157) with SDA low until a pulse frees it: the forced START,
the answer to the recovery byte and the STOP (44_recovery_and_diagnostics.md R126, R127, R129). -/

namespace Sys2Proof.Machine

/-! ## Off the bus -/

/-- Not bus master and no request pending: the line engine starts nothing. -/
structure State.OffBus (s : State) : Prop where
  master : s.flag .master = false
  start : s.flag .start = false
  stop : s.flag .stop = false

theorem State.OffBus.guard {s : State} (h : s.OffBus) {ev : LeEvent} (hg : ev.guard s = true) :
    (∃ scl sda, ev = .lines scl sda) ∨ ∃ bb eo, ev = .foreign bb eo := by
  cases ev with
  | lines scl sda => exact .inl ⟨scl, sda, rfl⟩
  | foreign bb eo => exact .inr ⟨bb, eo, rfl⟩
  | _ => simp [LeEvent.guard, addrGuard, txGuard, h.master, h.start, h.stop] at hg

theorem State.OffBus.choose {s : State} (h : s.OffBus) (e : EnvRef) : e.choose s = none := by
  simp [choose_eq, LeEvent.guard, addrGuard, txGuard, h.master, h.start, h.stop]

/-- The reference environment only sets the lines. -/
theorem State.OffBus.refPoint {s : State} {e : EnvRef} (h : s.OffBus) (hs : s.reference e) :
    lePoint s = .ok (s.withLines e.sclLevel (e.sdaLevel s.le.pulses)) := by
  have hoff : (s.withLines e.sclLevel (e.sdaLevel s.le.pulses)).OffBus := ⟨h.master, h.start, h.stop⟩
  unfold lePoint
  rw [hs]
  simp only [Machine.refPoint, h.master, Bool.false_eq_true, if_false, effLines]
  rw [refLoop_stop (hoff.choose e), ← hs]
  rfl

/-- An engine off the bus stays off it and puts nothing on it. -/
def StaysOff (s t : State) : Prop := s.OffBus → t.OffBus ∧ t.wire = s.wire

theorem StaysOff.along : Along StaysOff where
  refl _ h := ⟨h, rfl⟩
  trans h k hs := by
    obtain ⟨ht, hw⟩ := h hs
    obtain ⟨hu, hw'⟩ := k ht
    exact ⟨hu, hw'.trans hw⟩

theorem lePoint_staysOff {s t : State} (h : lePoint s = .ok t) : StaysOff s t := by
  refine lePoint_induct StaysOff.along.refl StaysOff.along.trans ?_ (fun s e hs => ⟨⟨hs.master, hs.start, hs.stop⟩, rfl⟩) h
  intro ev s hg hs
  obtain ⟨scl, sda, rfl⟩ | ⟨bb, eo, rfl⟩ := hs.guard hg
  · exact ⟨⟨hs.master, hs.start, hs.stop⟩, rfl⟩
  · exact ⟨⟨hs.master, hs.start, hs.stop⟩, rfl⟩

/-- A write to `ST` sets no flag, one to `CTL1` that is 0 makes no request, and only one to `BRC` shows on the bus. -/
theorem afterWrite_staysOff (s : State) {r : RegId} {v : Byte} (hr : r ≠ .brc) (hv : r = .ctl1 → v = 0) :
    StaysOff s (afterWrite s r v) := by
  intro hs
  cases r with
  | brc => exact absurd rfl hr
  | data =>
    have hflag : ∀ f : Flag, f ≠ .sdast → (writeData s v).flag f = s.flag f := fun f hf => by simp [writeData, hf.symm]
    exact ⟨⟨(hflag .master nofun).trans hs.master, (hflag .start nofun).trans hs.start, (hflag .stop nofun).trans hs.stop⟩,
      rfl⟩
  | st => exact ⟨⟨(writeLatches_st_flag' s v .master rfl).trans (by rw [hs.master]; rfl), hs.start, hs.stop⟩, rfl⟩
  | ctl1 =>
    obtain rfl := hv rfl
    exact ⟨⟨hs.master, writeStorage_ctl1_flag s 0 .start rfl, writeStorage_ctl1_flag s 0 .stop rfl⟩, rfl⟩
  | ctl2 =>
    rw [afterWrite_ctl2]
    split
    · exact ⟨⟨by simp [moduleDisable], by simp [moduleDisable], by simp [moduleDisable]⟩, rfl⟩
    · exact ⟨⟨hs.master, hs.start, hs.stop⟩, rfl⟩
  | _ => exact ⟨⟨hs.master, hs.start, hs.stop⟩, rfl⟩

theorem pushAcc_staysOff (s : State) (a : Access) : StaysOff s (s.pushAcc a) := fun hs =>
  ⟨⟨hs.master, hs.start, hs.stop⟩, rfl⟩

theorem wr_staysOff {r : RegId} {v : Byte} (hr : r ≠ .brc) (hv : r = .ctl1 → v = 0) : Op.Keeps StaysOff (wr r v) := by
  intro s a t h
  obtain ⟨u, hu, rfl⟩ := wr_ok.1 h
  exact StaysOff.along.trans (lePoint_staysOff hu)
    (StaysOff.along.trans (afterWrite_staysOff u hr hv) (pushAcc_staysOff _ _))

theorem rd_staysOff {r : RegId} (hr : r.pureRead = true) : Op.Keeps StaysOff (rd r) := by
  intro s v t h
  obtain ⟨u, hu, -, rfl⟩ := rd_ok.1 h
  rw [afterRead_pureRead hr]
  exact StaysOff.along.trans (lePoint_staysOff hu) (pushAcc_staysOff u _)

theorem bind_staysOff {α β : Type} {m : Op α} {f : α → Op β} (hm : Op.Keeps StaysOff m)
    (hf : ∀ a, Op.Keeps StaysOff (f a)) : Op.Keeps StaysOff (m >>= f) := .bind StaysOff.along hm hf

theorem setbits_staysOff {r : RegId} (hread : r.pureRead = true) (hr : r ≠ .ctl1) (m : Byte) :
    Op.Keeps StaysOff (setbits r m) :=
  .setbits StaysOff.along (rd_staysOff hread) (fun _ => wr_staysOff (by rintro rfl; cases hread) (fun h => absurd h hr)) m

theorem clrbits_staysOff {r : RegId} (hread : r.pureRead = true) (hr : r ≠ .ctl1) (m : Byte) :
    Op.Keeps StaysOff (clrbits r m) :=
  .clrbits StaysOff.along (rd_staysOff hread) (fun _ => wr_staysOff (by rintro rfl; cases hread) (fun h => absurd h hr)) m

theorem ctrlReset_staysOff : Op.Keeps StaysOff ctrlReset :=
  bind_staysOff (clrbits_staysOff rfl (by decide) _) fun _ => bind_staysOff (setbits_staysOff rfl (by decide) _) fun _ =>
    bind_staysOff (wr_staysOff (by decide) nofun) fun _ => bind_staysOff (wr_staysOff (by decide) nofun) fun _ =>
    bind_staysOff (wr_staysOff (by decide) nofun) fun _ => bind_staysOff (wr_staysOff (by decide) nofun) fun _ =>
    bind_staysOff (clrbits_staysOff rfl (by decide) _) fun _ => wr_staysOff (by decide) fun _ => rfl

/-! ## The toggle loop -/

/-- SDA is low until the `k`-th pulse from here. -/
theorem toggleLoop_ref {e : EnvRef} {k n : Nat} (hk : 1 ≤ k) (hkn : k ≤ n) {s : State} (hs : s.reference e)
    (he : s.flag .enable = true) (hoff : s.OffBus) (hstuck : e.stuck = some (some (s.le.pulses + k), false)) :
    ∃ t, toggleLoop n s = .ok (true, t) ∧ Pulsed k s t := by
  induction k generalizing n s with
  | zero => exact absurd hk (by decide)
  | succ k ih =>
    obtain ⟨n, rfl⟩ := Nat.exists_eq_succ_of_ne_zero (Nat.ne_of_gt (Nat.lt_of_lt_of_le (Nat.succ_pos k) hkn))
    have hpoint : ∀ c d, lePoint (s.driven c d) = .ok (s.driven e.sclLevel (e.sdaLevel (s.le.pulses + 1))) := fun c d =>
      State.OffBus.refPoint (s := s.driven c d) ⟨hoff.master, hoff.start, hoff.stop⟩ hs
    have hloop := toggleLoop_succ n he hoff.master (hoff.refPoint hs) (hpoint _ _) (hpoint _ _)
    rw [hloop]
    cases k with
    | zero =>
      have hhigh : e.sdaLevel (s.le.pulses + 1) = .high := by simp [EnvRef.sdaLevel, hstuck]
      rw [hhigh, if_pos rfl]
      exact ⟨_, rfl, .one s _ _⟩
    | succ k =>
      have hlow : e.sdaLevel (s.le.pulses + 1) = .low := by simp [EnvRef.sdaLevel, hstuck]
      rw [hlow, if_neg nofun]
      obtain ⟨t, ht, hpulsed⟩ := ih (s := s.pulsed e.sclLevel .low) (Nat.succ_pos k) (Nat.le_of_succ_le_succ hkn) hs he
        ⟨hoff.master, hoff.start, hoff.stop⟩ (by rw [hstuck]; simp [State.pulsed]; omega)
      exact ⟨t, ht, hpulsed.succ⟩

/-! ## The START and the answer to the byte that waits -/

/-- Bus master in the reference environment, with no request and nothing to send, where nothing more happens by itself. -/
structure State.Parked (s : State) (e : EnvRef) : Prop where
  env : s.reference e
  polled : s.polled
  enable : s.flag .enable = true
  master : s.flag .master = true
  noHold : s.flag .stastr = false
  ctl1 : s.reg.ctl1 = 0
  txb : s.le.txb = []
  rest : e.choose s = none

theorem State.Parked.point {s : State} {e : EnvRef} (h : s.Parked e) : lePoint s = .ok s := by
  unfold lePoint
  rw [h.env]
  simp only [refPoint, h.master, if_true]
  rw [refLoop_stop h.rest, ← h.env]
  rfl

theorem choose_pushAcc (e : EnvRef) (s : State) (a : Access) : e.choose (s.pushAcc a) = e.choose s := by
  rw [choose_eq, choose_eq]; rfl

theorem State.Parked.pushAcc {s : State} {e : EnvRef} (h : s.Parked e) (a : Access) : (s.pushAcc a).Parked e :=
  { h with rest := (choose_pushAcc e s a).trans h.rest }

theorem State.Parked.withX {s : State} {e : EnvRef} (h : s.Parked e) (x : SeqRegs) : (s.withX x).Parked e :=
  { h with rest := (choose_withX e s x).trans h.rest }

theorem flag_of_ctl1 {s : State} (h : s.reg.ctl1 = 0) {f : Flag} (hf : f.reg = .ctl1) : s.flag f = false := by
  unfold State.flag Flag.isSet
  rw [hf, HwRegs.get_ctl1, h]
  exact BitVec.getLsbD_zero

/-- A bus master with nothing to send and nothing owed. -/
structure State.Unoccupied (s : State) : Prop where
  polled : s.polled
  enable : s.flag .enable = true
  master : s.flag .master = true
  noHold : s.flag .stastr = false
  ctl1 : s.reg.ctl1 = 0
  txb : s.le.txb = []
  owed : s.le.owed = .none

theorem State.Unoccupied.choose {s : State} (h : s.Unoccupied) (e : EnvRef) : e.choose s = none := by
  have hstart := flag_of_ctl1 h.ctl1 (f := .start) rfl
  have hstop := flag_of_ctl1 h.ctl1 (f := .stop) rfl
  simp [choose_eq, LeEvent.guard, addrGuard, txGuard, State.headKind, hstart, hstop, h.txb, h.owed]

theorem State.Unoccupied.parked {s : State} (h : s.Unoccupied) (e : EnvRef) : (s.withEnv (.ref e)).Parked e :=
  { h with env := rfl, rest := h.choose e }

/-- The START is on the bus, and the byte `b` waits to be sent as an address. -/
structure State.Addressing (s : State) (b : Byte) : Prop where
  polled : s.polled
  enable : s.flag .enable = true
  master : s.flag .master = true
  noHold : s.flag .stastr = false
  ber : s.flag .ber = false
  sdast : s.flag .sdast = false
  ctl1 : s.reg.ctl1 = 0
  txb : s.le.txb = [(b, .addr)]
  addrPhase : s.le.addrPhase = true

/-- The address has been acknowledged (46_line_engine.md R142). -/
def State.acked (s : State) (b : Byte) : State :=
  (s.withLe { s.le with
    txb := [], addrPhase := false, dir := if b.getLsbD 0 then .rx else .tx,
    owed := if b.getLsbD 0 then .rxByte else .txReady }).pushWire (.addr b .ack)

/-- It has been refused (R143). -/
def State.nacked (s : State) (b : Byte) : State :=
  ((s.withLe { s.le with txb := [], addrPhase := false, dir := .none, owed := .none }).setFlag .negack true).pushWire
    (.addr b .nack)

/-- The target has sent the byte `x` (R147). -/
def State.received (s : State) (x : Byte) : State :=
  (((s.withReg { s.reg with data := x }).setFlag .sdast true).withLe { s.le with owed := .none }).pushWire (.rx x .ack)

@[simp] theorem acked_flag (s : State) (b : Byte) (f : Flag) : (s.acked b).flag f = s.flag f := rfl

theorem received_flag (s : State) (x : Byte) {f : Flag} (hf : f ≠ .sdast) : (s.received x).flag f = s.flag f := by
  simp [State.received, hf.symm]

/-- What the START and the address byte `b` are on the bus, with the answer of the reference environment. -/
def EnvRef.called (e : EnvRef) (b : Byte) : List WireEvent :=
  [WireEvent.start, WireEvent.addr b (if targetOf b ∈ e.targets then .ack else .nack)]

/-- What the reference environment does once the START is on the bus: it answers the address, with at most a byte after it, and
then nothing more happens. -/
structure State.Answered (s : State) (e : EnvRef) (b : Byte) (u : State) (e' : EnvRef) (rest : List WireEvent) : Prop where
  parked : u.Parked e'
  ber : u.flag .ber = false
  wire : u.wire = s.wire ++ [WireEvent.addr b (if targetOf b ∈ e.targets then .ack else .nack)] ++ rest
  write : b.getLsbD 0 = false → rest = []

section Addressing
variable {s : State} {b : Byte} (h : s.Addressing b) {e : EnvRef}
include h

theorem State.Addressing.choose : e.choose s = some (e.addrAnswer s) := by
  have hstart := flag_of_ctl1 h.ctl1 (f := .start) rfl
  have hstop := flag_of_ctl1 h.ctl1 (f := .stop) rfl
  simp [choose_eq, LeEvent.guard, addrGuard, State.g0, State.hold, State.headKind, hstart, hstop, h.enable, h.master, h.noHold,
    h.addrPhase, h.txb]

theorem State.Addressing.ack : LeEvent.addrAck.effect s = s.acked b := by
  have hstastre := flag_of_ctl1 h.ctl1 (f := .stastre) rfl
  show effAddrAck s = _
  simp [effAddrAck, h.txb, hstastre, State.acked]

theorem State.Addressing.nack : LeEvent.addrNack.effect s = s.nacked b := by
  show effAddrNack s = _
  simp [effAddrNack, h.txb, State.nacked]

theorem State.Addressing.acked_polled : (s.acked b).polled := h.ack ▸ (effect_frame .addrAck s).polled_of h.polled

/-- No target has the address. -/
theorem State.Addressing.refused (hin : targetOf b ∉ e.targets) (n : Nat) :
    ∃ u, refLoop (n + 1) e s = .ok u ∧ s.Answered e b u (e.after .addrNack s) [] := by
  have hanswer : e.choose s = some .addrNack := by
    rw [h.choose]; simp [EnvRef.addrAnswer, h.txb, hin]
  have hidle : (s.nacked b).Unoccupied :=
    { polled := h.nack ▸ (effect_frame .addrNack s).polled_of h.polled
      enable := by simp [State.nacked, h.enable]
      master := by simp [State.nacked, h.master]
      noHold := by simp [State.nacked, h.noHold]
      ctl1 := h.ctl1, txb := rfl, owed := rfl }
  refine ⟨_, ?_, hidle.parked _, ?_, ?_, fun _ => rfl⟩
  · rw [refLoop_fire hanswer h.polled, h.nack]
    exact refLoop_stop (hidle.choose _)
  · simp [State.nacked, h.ber]
  · simp [State.nacked, hin]

/-- A target has it, to be written to: the engine is told that it can send. -/
theorem State.Addressing.accepted_write (hin : targetOf b ∈ e.targets) (hb : b.getLsbD 0 = false) (n : Nat) :
    ∃ u, refLoop (n + 2) e s = .ok u ∧ s.Answered e b u (e.after .addrAck s) [] := by
  have hanswer : e.choose s = some .addrAck := by
    rw [h.choose]; simp [EnvRef.addrAnswer, h.txb, hin]
  have hstart := flag_of_ctl1 (s := s.acked b) h.ctl1 (f := .start) rfl
  have hstop := flag_of_ctl1 (s := s.acked b) h.ctl1 (f := .stop) rfl
  have hb0 : b[0] = false := hb
  have hready : (e.after .addrAck s).choose (s.acked b) = some .txReady := by
    simp only [choose_eq, LeEvent.guard, addrGuard, txGuard, State.g0, State.hold, State.headKind, hstart, hstop]
    simp [State.acked, hb0, h.enable, h.master, h.noHold]
  have hidle : (effTxReady (s.acked b)).Unoccupied :=
    { polled := (effect_frame .txReady _).polled_of h.acked_polled
      enable := by simp [effTxReady, h.enable]
      master := by simp [effTxReady, h.master]
      noHold := by simp [effTxReady, h.noHold]
      ctl1 := h.ctl1, txb := rfl, owed := rfl }
  refine ⟨_, ?_, hidle.parked _, ?_, ?_, fun _ => rfl⟩
  · rw [refLoop_fire hanswer h.polled, h.ack, refLoop_fire hready h.acked_polled]
    exact refLoop_stop (hidle.choose _)
  · simp [effTxReady, h.ber]
  · simp [effTxReady, State.acked, hin]

/-- A target has it, to be read from: it sends its first byte. -/
theorem State.Addressing.accepted_read (hin : targetOf b ∈ e.targets) (hb : b.getLsbD 0 = true) (n : Nat) :
    ∃ u e' x, refLoop (n + 2) e s = .ok u ∧ s.Answered e b u e' [.rx x .ack] := by
  have hanswer : e.choose s = some .addrAck := by
    rw [h.choose]; simp [EnvRef.addrAnswer, h.txb, hin]
  have hstart := flag_of_ctl1 (s := s.acked b) h.ctl1 (f := .start) rfl
  have hstop := flag_of_ctl1 (s := s.acked b) h.ctl1 (f := .stop) rfl
  have hack := flag_of_ctl1 (s := s.acked b) h.ctl1 (f := .ack) rfl
  have hb0 : b[0] = true := hb
  let e1 := e.after .addrAck s
  have hbyte : e1.choose (s.acked b) = some (.rxByte e1.nextRx) := by
    simp only [choose_eq, LeEvent.guard, addrGuard, txGuard, State.g0, State.hold, State.headKind, hstart, hstop]
    simp [State.acked, hb0, h.enable, h.master, h.noHold, h.sdast]
  have heffect : (LeEvent.rxByte e1.nextRx).effect (s.acked b) = (s.acked b).received e1.nextRx := by
    show effRxByte _ _ = _
    rw [effRxByte, hack]
    rfl
  have hidle : ((s.acked b).received e1.nextRx).Unoccupied :=
    { polled := heffect ▸ (effect_frame (.rxByte e1.nextRx) _).polled_of h.acked_polled
      enable := (received_flag _ _ (f := .enable) nofun).trans h.enable
      master := (received_flag _ _ (f := .master) nofun).trans h.master
      noHold := (received_flag _ _ (f := .stastr) nofun).trans h.noHold
      ctl1 := h.ctl1, txb := rfl, owed := rfl }
  refine ⟨_, e1.after (.rxByte e1.nextRx) (s.acked b), e1.nextRx, ?_, hidle.parked _, ?_, ?_,
    fun hw => absurd (hb.symm.trans hw) nofun⟩
  · rw [refLoop_fire hanswer h.polled, h.ack, refLoop_fire hbyte h.acked_polled, heffect]
    exact refLoop_stop (hidle.choose _)
  · exact (received_flag _ _ (f := .ber) nofun).trans h.ber
  · simp [State.received, State.acked, hin]

theorem State.Addressing.answer (n : Nat) : ∃ u e' rest, refLoop (n + 2) e s = .ok u ∧ s.Answered e b u e' rest := by
  by_cases hin : targetOf b ∈ e.targets
  · cases hb : b.getLsbD 0 with
    | false =>
      obtain ⟨u, hu, ha⟩ := h.accepted_write hin hb n
      exact ⟨u, _, _, hu, ha⟩
    | true =>
      obtain ⟨u, e', x, hu, ha⟩ := h.accepted_read hin hb n
      exact ⟨u, e', _, hu, ha⟩
  · obtain ⟨u, hu, ha⟩ := h.refused hin (n + 1)
    exact ⟨u, _, _, hu, ha⟩

end Addressing

/-- Off the bus, with free lines, the byte `b` waits for a START; `CTL1` holds `c`. -/
structure State.Offers (s : State) (e : EnvRef) (b : Byte) (c : Byte) : Prop where
  env : s.reference e
  polled : s.polled
  enable : s.flag .enable = true
  master : s.flag .master = false
  noHold : s.flag .stastr = false
  ber : s.flag .ber = false
  sdast : s.flag .sdast = false
  ctl1 : s.reg.ctl1 = c
  txb : s.le.txb = [(b, .addr)]
  scl : e.sclLevel = .high
  sda : e.sdaLevel s.le.pulses = .high

/-- With no request nothing happens. -/
theorem State.Offers.point {s : State} {e : EnvRef} {b : Byte} (h : s.Offers e b 0) :
    lePoint s = .ok (s.withLines .high .high) := by
  have hoff : s.OffBus := ⟨h.master, flag_of_ctl1 h.ctl1 rfl, flag_of_ctl1 h.ctl1 rfl⟩
  rw [hoff.refPoint h.env, h.scl, h.sda]

theorem State.Offers.withLines {s : State} {e : EnvRef} {b c : Byte} (h : s.Offers e b c) (scl sda : Level) :
    (s.withLines scl sda).Offers e b c := { h with }

theorem State.Offers.pushAcc {s : State} {e : EnvRef} {b c : Byte} (h : s.Offers e b c) (a : Access) :
    (s.pushAcc a).Offers e b c := { h with }

theorem State.Offers.write {s : State} {e : EnvRef} {b c : Byte} (h : s.Offers e b c) : (afterWrite s .ctl1 1).Offers e b 1 :=
  { h with polled := afterWrite_polled h.polled rfl, ctl1 := rfl }

/-- The request is made. -/
theorem State.Offers.request {s : State} {e : EnvRef} {b : Byte} (h : s.Offers e b 0) :
    ∃ t, setbits .ctl1 (Flag.mask .start) s = .ok ((), t) ∧ t.Offers e b 1 ∧ t.wire = s.wire := by
  have hread : readValue (s.withLines .high .high) .ctl1 = 0 := by
    rw [readValue_ctl1, State.withLines_reg, h.ctl1]; rfl
  have hrd : rd .ctl1 s = .ok (0, (s.withLines .high .high).pushAcc (.rd .ctl1 0)) := by
    rw [rd_pureRead rfl h.point, hread]
  have h1 := (h.withLines .high .high).pushAcc (.rd .ctl1 0)
  exact ⟨_, (Op.bind_eq hrd).trans (wr_eq h1.point .ctl1 1), ((h1.withLines .high .high).write).pushAcc _, rfl⟩

/-- The START goes out, and what follows it at the same point. -/
theorem State.Offers.started {s : State} {e : EnvRef} {b : Byte} (h : s.Offers e b 1) :
    ∃ u e' rest, lePoint s = .ok u ∧ u.Parked e' ∧ u.flag .ber = false ∧
      u.wire = s.wire ++ e.called b ++ rest ∧
      (b.getLsbD 0 = false → rest = []) := by
  let q := s.withLines .high .high
  have hstart : q.flag .start = true := by
    show s.reg.ctl1.getLsbD 0 = true
    rw [h.ctl1]; rfl
  have hstop : q.flag .stop = false := by
    show s.reg.ctl1.getLsbD 1 = false
    rw [h.ctl1]; rfl
  have hmaster : q.flag .master = false := h.master
  have henable : q.flag .enable = true := h.enable
  have hber : q.flag .ber = false := h.ber
  have hsdast : q.flag .sdast = false := h.sdast
  have hhold : q.flag .stastr = false := h.noHold
  have htxb : q.le.txb = [(b, .addr)] := h.txb
  have hchoose : e.choose q = some .startDone := by
    have hlines : q.scl = .high ∧ q.sda = .high := ⟨rfl, rfl⟩
    simp [choose_eq, LeEvent.guard, State.g0, State.hold, State.headKind, hstart, hstop, henable, hhold, htxb, hlines]
  have hwire : (effStartDone q).wire = s.wire ++ [.start] := by
    show s.wire ++ [if q.flag .master = true then .restart else .start] = _
    rw [hmaster]; rfl
  have haddr : (effStartDone q).Addressing b :=
    { polled := (effect_frame .startDone q).polled_of h.polled
      enable := by simp [effStartDone, henable]
      master := by simp [effStartDone]
      noHold := by simp [effStartDone, hhold]
      ber := by simp [effStartDone, hber]
      sdast := by simp [effStartDone, hsdast]
      ctl1 := by
        show putBit s.reg.ctl1 0 false = 0
        rw [h.ctl1]; rfl
      txb := h.txb
      addrPhase := rfl }
  obtain ⟨u, e', rest, hu, ha⟩ := haddr.answer (e := e) 2
  have hpoint : lePoint s = .ok u := by
    unfold lePoint
    rw [h.env]
    simp only [refPoint, h.master, Bool.false_eq_true, if_false, effLines, h.scl, h.sda]
    have hfuel : refFuel q = 4 + 1 := by rw [refFuel, htxb]; rfl
    show refLoop (refFuel q) e q = _
    rw [hfuel, refLoop_fire hchoose h.polled]
    exact hu
  exact ⟨u, e', rest, hpoint, ha.parked, ha.ber, by rw [ha.wire, hwire]; simp [EnvRef.called], ha.write⟩

/-- `send_start` sees at its first sample that the START is out. -/
theorem State.Offers.sendStart {s : State} {e : EnvRef} {b : Byte} (h : s.Offers e b 0) {n : Nat} (hn : 0 < n) :
    ∃ t e' rest, sendStart n s = .ok (.ok, t) ∧ t.Parked e' ∧
      t.wire = s.wire ++ e.called b ++ rest ∧
      (b.getLsbD 0 = false → rest = []) := by
  obtain ⟨p, hp, hoffer, hwire⟩ := h.request
  obtain ⟨u, e', rest, hu, hparked, hber, hstarted, hwrite⟩ := hoffer.started
  obtain ⟨n, rfl⟩ := Nat.exists_eq_succ_of_ne_zero (Nat.ne_of_gt hn)
  have hsample : startSample (readValue u .st) = some .ok := by
    rw [startSample_readValue, hber, hparked.master]; rfl
  have hpoll : poll (n + 1) .st startSample p = .ok (some .ok, u.pushAcc (.rd .st (readValue u .st))) := by
    rw [poll, Op.bind_eq (rd_pureRead rfl hu), hsample]; rfl
  have hwait := pollOrTimeout_ok.2 ⟨_, hpoll, rfl⟩
  refine ⟨_, e', rest, (Op.bind_eq hp).trans (orReturn_ok.2 ⟨_, _, hwait, .inl ⟨rfl, rfl⟩⟩), (hparked.pushAcc _).withX _, ?_,
    hwrite⟩
  rw [← hwire]
  exact hstarted

/-! ## The STOP -/

/-- A parked bus master whose STOP request is pending. -/
structure State.Leaving (s : State) (e : EnvRef) : Prop where
  env : s.reference e
  polled : s.polled
  enable : s.flag .enable = true
  master : s.flag .master = true
  noHold : s.flag .stastr = false
  ctl1 : s.reg.ctl1 = 2
  txb : s.le.txb = []

theorem State.Parked.request {s : State} {e : EnvRef} (h : s.Parked e) : (afterWrite s .ctl1 2).Leaving e :=
  { h with polled := afterWrite_polled h.polled rfl, ctl1 := rfl }

theorem State.Leaving.pushAcc {s : State} {e : EnvRef} (h : s.Leaving e) (a : Access) : (s.pushAcc a).Leaving e := { h with }

/-- The STOP goes out. -/
theorem State.Leaving.stopped {s : State} {e : EnvRef} (h : s.Leaving e) :
    ∃ u, lePoint s = .ok u ∧ u.OffBus ∧ u.wire = s.wire ++ [WireEvent.stop] := by
  have hstop : s.flag .stop = true := by
    show s.reg.ctl1.getLsbD 1 = true
    rw [h.ctl1]; rfl
  have hstart : s.flag .start = false := by
    show s.reg.ctl1.getLsbD 0 = false
    rw [h.ctl1]; rfl
  have hchoose : e.choose s = some (.stopDone true) := by
    simp [choose_eq, LeEvent.guard, State.g0, State.hold, hstop, h.enable, h.noHold, h.txb]
  have heffect : (LeEvent.stopDone true).effect s = (((((s.setFlag .stop false).pushWire .stop).setFlag .master false).setFlag
      .bb false).setFlag .eoBusy true).leIdle := if_pos h.master
  have hoff : ((LeEvent.stopDone true).effect s).OffBus := by
    rw [heffect]
    constructor <;> simp [State.leIdle, hstart]
  refine ⟨((LeEvent.stopDone true).effect s).withEnv (.ref e), ?_, ⟨hoff.master, hoff.start, hoff.stop⟩, ?_⟩
  · unfold lePoint
    rw [h.env]
    simp only [refPoint, h.master, if_true]
    have hfuel : refFuel s = 2 + 1 := by rw [refFuel, h.txb]; rfl
    rw [hfuel, refLoop_fire hchoose h.polled]
    exact refLoop_stop (hoff.choose e)
  · rw [State.withEnv_wire, heffect]
    rfl

/-- `send_stop(0)`: the STOP is out before the latches are cleared. -/
theorem State.Parked.sendStop_zero {s v : State} {e : EnvRef} {j : Kind} (h : s.Parked e) (hstop : sendStop 0 s = .ok (j, v)) :
    v.OffBus ∧ v.wire = s.wire ++ [WireEvent.stop] := by
  have hread : readValue s .ctl1 = 0 := by
    rw [readValue_ctl1, h.ctl1]; rfl
  have hrd : rd .ctl1 s = .ok (0, s.pushAcc (.rd .ctl1 0)) := by
    rw [rd_pureRead rfl h.point, hread]
  have h1 := h.pushAcc (.rd .ctl1 0)
  have hset : setbits .ctl1 (Flag.mask .stop) s = .ok ((), _) := (Op.bind_eq hrd).trans (wr_eq h1.point .ctl1 2)
  obtain ⟨u, hu, hoff, hwire⟩ := (h1.request.pushAcc (.wr .ctl1 2)).stopped
  have hclear : wr .st stLatches _ = .ok ((), _) := wr_eq hu .st stLatches
  have hrun : sendStop 0 s = .ok (.ok, _) := (Op.bind_eq hset).trans ((Op.bind_eq hclear).trans rfl)
  cases hstop.symm.trans hrun
  obtain ⟨hstill, hquiet⟩ := StaysOff.along.trans (afterWrite_staysOff u (r := .st) (v := stLatches) nofun nofun)
    (pushAcc_staysOff _ (.wr .st stLatches)) hoff
  exact ⟨⟨hstill.master, hstill.start, hstill.stop⟩, hquiet.trans hwire⟩

/-! ## The forced START -/

/-- Off the bus, with free lines and nothing to send. -/
structure State.Freed (s : State) (e : EnvRef) : Prop where
  env : s.reference e
  polled : s.polled
  enable : s.flag .enable = true
  master : s.flag .master = false
  noHold : s.flag .stastr = false
  ber : s.flag .ber = false
  ctl1 : s.reg.ctl1 = 0
  txb : s.le.txb = []
  scl : e.sclLevel = .high
  sda : e.sdaLevel s.le.pulses = .high

/-- A byte written to `DATA` waits for the START. -/
theorem State.Freed.offer {s : State} {e : EnvRef} (h : s.Freed e) (b : Byte) :
    ∃ t, wr .data b s = .ok ((), t) ∧ t.Offers e b 0 ∧ t.wire = s.wire ∧ t.acc = s.acc ++ [Access.wr .data b] := by
  have hoff : s.OffBus := ⟨h.master, flag_of_ctl1 h.ctl1 rfl, flag_of_ctl1 h.ctl1 rfl⟩
  have hwr : wr .data b s = .ok ((), (s.withLines e.sclLevel (e.sdaLevel s.le.pulses)).dataWritten b) :=
    wr_eq (hoff.refPoint h.env) .data b
  have hkind : txKindOf (s.withLines e.sclLevel (e.sdaLevel s.le.pulses)) = .addr := by
    simp [txKindOf, h.master]
  have hflag := fun f (hf : f ≠ Flag.sdast) => dataWritten_flag (s.withLines e.sclLevel (e.sdaLevel s.le.pulses)) b hf
  refine ⟨_, hwr, ?_, rfl, rfl⟩
  exact
    { env := h.env
      polled := (State.polled_iff _).2 ⟨(hflag .fifoEn nofun).trans ((State.polled_iff s).1 h.polled).1,
        (hflag .inten nofun).trans ((State.polled_iff s).1 h.polled).2⟩
      enable := (hflag .enable nofun).trans h.enable
      master := (hflag .master nofun).trans h.master
      noHold := (hflag .stastr nofun).trans h.noHold
      ber := (hflag .ber nofun).trans h.ber
      sdast := by rw [dataWritten_eq]; simp [writeData]
      ctl1 := h.ctl1
      txb := by
        show s.le.txb ++ [(b, txKindOf _)] = _
        rw [h.txb, hkind]; rfl
      scl := h.scl
      sda := h.sda }

/-- The forced START succeeds, the recovery byte goes out as an address, and the STOP follows (R127, R129). -/
theorem State.Freed.forcedStart {s t : State} {e : EnvRef} {a : Addr7} {r : Byte} (h : s.Freed e)
    (hr : recByteOf s.cfg.recByte a = r) (hn : 0 < s.cfg.tRecStart) (hrun : forcedStart a s = .ok ((), t)) :
    t.OffBus ∧ t.log = s.log ++ [LogEvent.recDone] ∧ t.x = { s.x with started := false, phase := .idle } ∧
      s.acc ++ [Access.wr .data r] <+: t.acc ∧ ∃ rest,
      t.wire = s.wire ++ e.called r ++ rest ++ [WireEvent.stop] ∧
      (r.getLsbD 0 = false → rest = []) := by
  obtain ⟨p, k, q, hwr, hstart, hend⟩ := forcedStart_ok hrun
  rw [hr] at hwr
  obtain ⟨p', hp', hoffer, hpwire, hacc⟩ := h.offer r
  cases hwr.symm.trans hp'
  obtain ⟨q', e', rest, hq', hparked, hqwire, hrest⟩ := hoffer.sendStart hn
  cases hstart.symm.trans hq'
  obtain ⟨-, j, u, v, w, hdelay1, hstop, hdelay2, rfl⟩ | ⟨hk, -⟩ := hend
  · have hp := wr_seq _ _ _ _ _ hwr
    obtain ⟨hlog, hx⟩ := startThenStop_seq hstart hdelay1 hstop hdelay2
    cases (point_ok.1 hdelay1).symm.trans hparked.point
    obtain ⟨hoff, hvwire⟩ := hparked.sendStop_zero hstop
    obtain ⟨hoff, hwwire⟩ := lePoint_staysOff (point_ok.1 hdelay2) hoff
    have hprefix := (sendStart_keeps appends_kept _ _ _ _ hstart).acc.trans
      ((sendStop_keeps appends_kept 0 _ _ _ hstop).acc.trans (appends_kept.pointOp _ _ _ hdelay2).acc)
    refine ⟨⟨hoff.master, hoff.start, hoff.stop⟩, by rw [State.pushLog_log, hlog, hp.log], by rw [State.pushLog_x, hx, hp.x],
      by rw [← hacc]; exact hprefix, rest, ?_, hrest⟩
    rw [State.pushLog_wire, hwwire, hvwire, hqwire, hpwire]
  · exact absurd rfl hk

/-! ## RECOVER -/

theorem recover_ref {s t : State} {e : EnvRef} {a : Addr7} {r : Byte} {k : Nat} {j : Kind} (hs : s.reference e) (hp : s.polled)
    (he : s.flag .enable = true) (hm : s.flag .master = false) (hr : recByteOf s.cfg.recByte a = r)
    (hstuck : e.stuck = some (some (s.le.pulses + k), false)) (hk : 1 ≤ k) (hk27 : k ≤ 27) (hn : 0 < s.cfg.tRecStart)
    (hctl1 : s.reg.ctl1 = 0) (htxb : s.le.txb = []) (hhold : s.flag .stastr = false) (hber : s.flag .ber = false)
    (h : recover a s = .ok (j, t)) :
    t.log = s.log ++ [LogEvent.recDone] ∧ t.x = { s.x with started := false, phase := .idle } ∧
      t.le.pulses = s.le.pulses + k ∧ (∃ pre, pre ++ [Access.wr .data r] <+: t.acc) ∧ ∃ rest,
      t.wire = s.wire ++ List.replicate k WireEvent.pulse ++ e.called r ++ rest ++ [WireEvent.stop] ∧
      (r.getLsbD 0 = false → rest = []) := by
  have hoff : s.OffBus := ⟨hm, flag_of_ctl1 hctl1 rfl, flag_of_ctl1 hctl1 rfl⟩
  have hlow : e.sdaLevel s.le.pulses = .low := by
    simp only [EnvRef.sdaLevel, hstuck]; exact if_neg (by omega)
  have hpoint := hoff.refPoint hs
  rw [hlow] at hpoint
  have hlook := rd_brc_levels hpoint hm
  obtain ⟨v, p, q, hrd, -, hreset, hend⟩ := recover_ok h
  cases hrd.symm.trans hlook
  obtain ⟨hfree, -⟩ | ⟨-, hunstick⟩ := hend
  · rw [levelByte_levels] at hfree
    simp at hfree
  obtain ⟨d, q1, hloop, hend⟩ := unstick_ok hunstick
  obtain ⟨q2, hq2, hpulsed⟩ := toggleLoop_ref hk hk27
    (s := (s.withLines e.sclLevel .low).pushAcc (.rd .brc (s.withLines e.sclLevel .low).levelByte)) hs he
    ⟨hoff.master, hoff.start, hoff.stop⟩ hstuck
  cases hloop.symm.trans hq2
  have hseq := toggleLoop_seq _ _ _ _ hloop
  have hflag : ∀ f, q1.flag f = s.flag f := State.flag_congr hpulsed.reg
  have hpulses : q1.le.pulses = s.le.pulses + k := congrArg LeState.pulses hpulsed.le
  have hcfg : q1.cfg = s.cfg := hseq.cfg
  have hfreed : q1.Freed e :=
    { env := hpulsed.env.trans hs
      polled := State.polled_congr (hflag .inten) (hflag .fifoEn) hp
      enable := (hflag .enable).trans he
      master := (hflag .master).trans hm
      noHold := (hflag .stastr).trans hhold
      ber := (hflag .ber).trans hber
      ctl1 := (congrArg HwRegs.ctl1 hpulsed.reg).trans hctl1
      txb := (congrArg LeState.txb hpulsed.le).trans htxb
      scl := by simp [EnvRef.sclLevel, hstuck]
      sda := by rw [hpulses]; simp [EnvRef.sdaLevel, hstuck] }
  obtain ⟨-, hforced⟩ | ⟨hd, -⟩ := hend
  · obtain ⟨hqoff, hlog, hx, hacc, rest, hwire, hrest⟩ := hfreed.forcedStart (by rw [hcfg, hr]) (by rwa [hcfg]) hforced
    have hreset' := ctrlReset_seq _ _ _ hreset
    refine ⟨by rw [hreset'.log, hlog, hseq.log]; rfl, by rw [hreset'.x, hx, hseq.x]; rfl, ?_,
      ⟨q1.acc, hacc.trans (ctrlReset_keeps appends_kept _ _ _ hreset).acc⟩, rest, ?_, hrest⟩
    · rw [ctrlReset_pulses _ _ _ hreset, forcedStart_pulses a _ _ _ hforced, hpulses]
    · rw [(ctrlReset_staysOff _ _ _ hreset hqoff).2, hwire, hpulsed.wire]
      rfl
  · cases hd

/-- Settles O44: in an idle environment by the levels at entry; in the reference environment by the pulse that frees SDA and the
forced START after it. -/
theorem recoverByLineLevels : Obligations.RecoverByLineLevels := by
  intro a s r hi hm he hr
  have hr : recByteOf s.cfg.recByte a = r := hr.symm
  refine ⟨fun hq => ?_, fun e k hs hp hstuck hk hk27 hn hctl1 htxb hhold hber => ?_⟩
  · subst hr
    obtain ⟨t, hbody, hx, hrows⟩ := recover_quiet_rows hq he hm a
    have hexec : exec (.recover a) s = .next (t.setResult .ok) := runInitialised_eq hi hbody
    exact ⟨_, hexec, by simp [State.setResult, Kind.code, hx], hrows⟩
  · obtain ⟨j, t, hbody, -⟩ := recover_ends a s hp
    have hexec : exec (.recover a) s = .next (t.setResult j) := runInitialised_eq hi hbody
    obtain rfl := (recover_spec hbody).result
    obtain ⟨hlog, hx, hpulses, ⟨pre, post, hacc⟩, rest, hwire, hrest⟩ :=
      recover_ref hs hp he hm hr hstuck hk hk27 hn hctl1 htxb hhold hber hbody
    exact ⟨_, rest, pre, post, hexec, by simp [State.setResult, Kind.code, hx], hlog, hpulses, hacc.symm, hwire, hrest⟩

end Sys2Proof.Machine
end

section
/-! PROOFS. The line engine, event by event (46_line_engine.md R137 to R156): when an event is enabled, what it does to the
state, which flags it leaves alone, and that no two bus events are enabled at once. -/

namespace Sys2Proof.Machine

/-! ## Firing -/

section Fire
variable {e : LeEvent} {s : State}

theorem fire_of_not_guard (h : ¬ e.guard s = true) : fire e s = .ok s := if_neg h

theorem fire_of_guard (hp : s.polled) (h : e.guard s = true) : fire e s = .ok (e.effect s) := by
  unfold fire
  rw [if_pos h, show s.offMode = false from hp, Bool.and_false]
  rfl

/-- Outside the bus events the mode does not matter (log entry 11). -/
theorem fire_not_busEvent (h : e.isBusEvent = false) : fire e s = .ok (if e.guard s = true then e.effect s else s) := by
  unfold fire
  rw [h, Bool.false_and]
  split <;> rfl

theorem State.offMode_iff : s.offMode = true ↔ s.flag .fifoEn = true ∨ s.flag .inten = true := by
  simp [State.offMode]

/-- The one way in which an event ends the run (R138). -/
theorem fire_error_iff {r : Refusal} : fire e s = .error r ↔
    r = .fifoOrInterruptMode ∧ e.isBusEvent = true ∧ e.guard s = true ∧ s.offMode = true := by
  unfold fire
  split
  case isTrue hg =>
    split
    case isTrue hm =>
      rw [Bool.and_eq_true] at hm
      simp [hg, hm, eq_comm]
    case isFalse hm =>
      rw [Bool.and_eq_true] at hm
      exact iff_of_false nofun fun ⟨_, hbus, _, hmode⟩ => hm ⟨hbus, hmode⟩
  case isFalse hg => exact iff_of_false nofun fun ⟨_, _, hguard, _⟩ => hg hguard

end Fire

/-- Settles O53: firing ends in an error in one case only. -/
theorem fifoAndInterruptModesRefused : Obligations.FifoAndInterruptModesRefused := by
  intro e s
  refine ⟨fun hmode hbus hg => fire_error_iff.2 ⟨rfl, hbus, hg, State.offMode_iff.2 hmode⟩, fun r h => ?_⟩
  obtain ⟨hr, hbus, hg, hmode⟩ := fire_error_iff.1 h
  exact ⟨hr, hbus, hg, State.offMode_iff.1 hmode⟩

/-! ## When an event is enabled -/

theorem headKind_iff {s : State} {k : TxKind} : s.headKind = some k ↔ ∃ b rest, s.le.txb = (b, k) :: rest := by
  unfold State.headKind
  cases s.le.txb with
  | nil => simp
  | cons p rest => simp [Prod.ext_iff]

section Guards
variable (s : State)

theorem guard_startDone_iff : LeEvent.startDone.guard s = true ↔
    s.flag .enable = true ∧ s.flag .start = true ∧ s.flag .stop = false ∧ s.flag .stastr = false ∧
      (s.le.txb = [] ∨ ∃ b rest, s.le.txb = (b, .addr) :: rest) ∧
      (s.flag .master = true ∨ (s.scl = .high ∧ s.sda = .high)) := by
  simp [LeEvent.guard, State.g0, State.hold, headKind_iff, and_assoc]

theorem guard_ber_iff (m : Bool) : (LeEvent.ber m).guard s = true ↔
    s.flag .enable = true ∧ (s.flag .start = true ∨ s.flag .master = true) := by
  simp [LeEvent.guard, State.g0]

theorem addrGuard_iff : addrGuard s = true ↔
    s.flag .enable = true ∧ s.flag .master = true ∧ s.le.addrPhase = true ∧ s.flag .start = false ∧ s.flag .stastr = false ∧
      ∃ b rest, s.le.txb = (b, .addr) :: rest := by
  simp [addrGuard, State.g0, State.hold, headKind_iff, and_assoc]

theorem guard_txReady_iff : LeEvent.txReady.guard s = true ↔
    s.flag .enable = true ∧ s.flag .master = true ∧ s.le.owed = .txReady ∧ s.flag .stastr = false ∧ s.le.txb = [] ∧
      s.flag .start = false ∧ s.flag .stop = false := by
  simp [LeEvent.guard, State.g0, State.hold, and_assoc]

theorem txGuard_iff : txGuard s = true ↔
    s.flag .enable = true ∧ s.flag .master = true ∧ s.le.addrPhase = false ∧ s.le.dir = .tx ∧ s.flag .stastr = false ∧
      ∃ d rest, s.le.txb = (d, .data) :: rest := by
  simp [txGuard, State.g0, State.hold, headKind_iff, and_assoc]

theorem guard_rxByte_iff (b : Byte) : (LeEvent.rxByte b).guard s = true ↔
    s.flag .enable = true ∧ s.flag .master = true ∧ s.le.owed = .rxByte ∧ s.flag .stastr = false ∧ s.flag .sdast = false ∧
      s.flag .start = false ∧ s.flag .stop = false := by
  simp [LeEvent.guard, State.g0, State.hold, and_assoc]

theorem guard_stopDone_iff (eo : Bool) : (LeEvent.stopDone eo).guard s = true ↔
    s.flag .enable = true ∧ s.flag .stop = true ∧ s.flag .stastr = false ∧
      (s.flag .master = false ∨ s.le.txb = [] ∨ (s.flag .start = true ∧ ∃ b rest, s.le.txb = (b, .addr) :: rest)) := by
  simp [LeEvent.guard, State.g0, State.hold, headKind_iff, and_assoc, or_assoc]

theorem guard_lines_iff (scl sda : Level) : (LeEvent.lines scl sda).guard s = true ↔ s.flag .master = false := by
  simp [LeEvent.guard]

theorem guard_foreign_iff (bb eo : Bool) : (LeEvent.foreign bb eo).guard s = true ↔
    s.flag .enable = true ∧ s.flag .master = false := by
  simp [LeEvent.guard, State.g0]

end Guards

/-- Every bus event but the bus error waits for the stall latch to be released (R137). -/
theorem stastr_of_busEvent_guard {e : LeEvent} {s : State} (hbus : e.isBusEvent = true) (hber : ∀ m, e ≠ .ber m)
    (hg : e.guard s = true) : s.flag .stastr = false := by
  cases e with
  | startDone => obtain ⟨-, -, -, hhold, -⟩ := (guard_startDone_iff s).1 hg; exact hhold
  | ber m => exact absurd rfl (hber m)
  | addrAck | addrNack => obtain ⟨-, -, -, -, hhold, -⟩ := (addrGuard_iff s).1 hg; exact hhold
  | txReady => obtain ⟨-, -, -, hhold, -⟩ := (guard_txReady_iff s).1 hg; exact hhold
  | txAck | txNack => obtain ⟨-, -, -, -, hhold, -⟩ := (txGuard_iff s).1 hg; exact hhold
  | rxByte b => obtain ⟨-, -, -, hhold, -⟩ := (guard_rxByte_iff s b).1 hg; exact hhold
  | stopDone eo => obtain ⟨-, -, hhold, -⟩ := (guard_stopDone_iff s eo).1 hg; exact hhold
  | lines | foreign => cases hbus

/-! ## What an event does -/

section Effects
variable (s : State)

theorem effStartDone_eq : effStartDone s = { s with
    reg := { s.reg with ctl1 := s.reg.ctl1 &&& 0xFE, st := s.reg.st ||| 0x02, cst := s.reg.cst ||| 0x02 }
    le := { s.le with addrPhase := true, dir := .none, owed := .none, last := false }
    wire := s.wire ++ [if s.flag .master = true then .restart else .start] } := rfl

theorem effBer_eq (m : Bool) : effBer m s = { s with
    reg := { s.reg with ctl1 := s.reg.ctl1 &&& 0xFE,
                        st := if m = true then s.reg.st ||| 0x22 else (s.reg.st ||| 0x20) &&& 0xFD }
    le := { txb := [], addrPhase := false, dir := .none, owed := .none, last := false, pulses := s.le.pulses } } := by
  cases m with
  | false => rfl
  | true =>
    have hst : s.reg.st ||| 0x22 = s.reg.st ||| 0x20 ||| 0x02 := by rw [BitVec.or_assoc]; rfl
    rw [if_pos rfl, hst]
    rfl

theorem effTxReady_eq : effTxReady s =
    { s with reg := { s.reg with st := s.reg.st ||| 0x40 }, le := { s.le with owed := .none } } := rfl

theorem effRxByte_eq (b : Byte) : effRxByte b s =
    if s.flag .ack = true then { s with
      reg := { s.reg with data := b, st := s.reg.st ||| 0x40, ctl1 := s.reg.ctl1 &&& 0xEF }
      le := { s.le with owed := .none, last := true }, wire := s.wire ++ [.rx b .nack] }
    else { s with
      reg := { s.reg with data := b, st := s.reg.st ||| 0x40 }
      le := { s.le with owed := .none }, wire := s.wire ++ [.rx b .ack] } := rfl

theorem effStopDone_eq (eo : Bool) : effStopDone eo s =
    if s.flag .master = true then { s with
      reg := { s.reg with ctl1 := s.reg.ctl1 &&& 0xFD, st := s.reg.st &&& 0xFD, cst := s.reg.cst &&& 0xFD,
                          b0est := if eo = true then s.reg.b0est ||| 0x80 else s.reg.b0est &&& 0x7F }
      le := { txb := [], addrPhase := false, dir := .none, owed := .none, last := false, pulses := s.le.pulses }
      wire := s.wire ++ [.stop] }
    else { s with reg := { s.reg with ctl1 := s.reg.ctl1 &&& 0xFD } } := by
  cases eo <;> rfl

theorem effForeign_eq (bb eo : Bool) : effForeign bb eo s = { s with
    reg := { s.reg with cst := if bb = true then s.reg.cst ||| 0x02 else s.reg.cst &&& 0xFD,
                        b0est := if eo = true then s.reg.b0est ||| 0x80 else s.reg.b0est &&& 0x7F } } := by
  cases bb <;> cases eo <;> rfl

section Head
variable {s} {b : Byte} {k : TxKind} {rest : List (Byte × TxKind)} (h : s.le.txb = (b, k) :: rest)
include h

theorem effAddrAck_eq : effAddrAck s = { s with
    reg := { s.reg with st := if s.flag .stastre = true then s.reg.st ||| 0x08 else s.reg.st }
    le := { s.le with txb := rest, addrPhase := false, dir := if b.getLsbD 0 = true then .rx else .tx,
                      owed := if b.getLsbD 0 = true then .rxByte else .txReady }
    wire := s.wire ++ [.addr b .ack] } := by
  unfold effAddrAck
  rw [h]
  dsimp only
  split <;> rfl

theorem effAddrNack_eq : effAddrNack s = { s with
    reg := { s.reg with st := s.reg.st ||| 0x10 }
    le := { s.le with txb := rest, addrPhase := false, dir := .none, owed := .none }
    wire := s.wire ++ [.addr b .nack] } := by
  unfold effAddrNack
  rw [h]
  rfl

theorem effTxAck_eq : effTxAck s =
    { s with le := { s.le with txb := rest, owed := .txReady }, wire := s.wire ++ [.tx b .ack] } := by
  unfold effTxAck
  rw [h]
  rfl

theorem effTxNack_eq : effTxNack s = { s with
    reg := { s.reg with st := s.reg.st ||| 0x10 }
    le := { s.le with txb := rest, owed := .none }, wire := s.wire ++ [.tx b .nack] } := by
  unfold effTxNack
  rw [h]
  rfl

end Head

end Effects

/-- Settles O47: the stall latch is a part of every guard but three, and the lines and the busy bits are set in every mode. -/
theorem holdBlocksBus : Obligations.HoldBlocksBus := by
  refine ⟨fun ev s hhold hber hlines hforeign => fire_of_not_guard fun hg => ?_, fun m s hp he hreq => ?_,
    fun bb eo scl sda s => ⟨?_, ?_⟩⟩
  · have hbus : ev.isBusEvent = true := by
      cases ev with
      | lines scl sda => exact absurd rfl (hlines scl sda)
      | foreign bb eo => exact absurd rfl (hforeign bb eo)
      | _ => rfl
    rw [stastr_of_busEvent_guard hbus hber hg] at hhold
    cases hhold
  · refine ⟨_, fire_of_guard hp ((guard_ber_iff s m).2 ⟨he, hreq⟩), ?_⟩
    simp [LeEvent.effect, effBer, State.leIdle]
  · rw [fire_not_busEvent rfl, if_congr (guard_lines_iff s scl sda) rfl rfl]
    rfl
  · rw [fire_not_busEvent rfl, ← effForeign_eq, if_congr (guard_foreign_iff s bb eo) rfl rfl]
    rfl

/-- Settles O48: the guards of the three events, met or not, and their effects. -/
theorem conditionEvents : Obligations.ConditionEvents := by
  refine ⟨fun s hp he hstart hstop hhold htxb hlines => ?_, fun s h => ?_, fun s eo hp he hstop hhold hready => ?_,
    fun s eo h => ?_, fun s m hp => ?_⟩
  · rw [fire_of_guard hp ((guard_startDone_iff s).2 ⟨he, hstart, hstop, hhold, htxb, hlines⟩), ← effStartDone_eq]
    rfl
  · refine fire_of_not_guard fun hg => ?_
    obtain ⟨he, hstart, hstop, hhold, htxb, hlines⟩ := (guard_startDone_iff s).1 hg
    have hhead : ¬ ∃ b rest, s.le.txb = (b, .data) :: rest := by
      obtain htxb | ⟨b, rest, htxb⟩ := htxb <;> simp [htxb]
    have hfree : ¬(s.flag .master = false ∧ (s.scl = .low ∨ s.sda = .low)) := by
      obtain hm | ⟨hscl, hsda⟩ := hlines
      · simp [hm]
      · simp [hscl, hsda]
    simp only [he, hstart, hstop, hhold, hhead, hfree, reduceCtorEq, or_self] at h
  · rw [fire_of_guard hp ((guard_stopDone_iff s eo).2 ⟨he, hstop, hhold, hready⟩), ← effStopDone_eq]
    rfl
  · refine fire_of_not_guard fun hg => ?_
    obtain ⟨he, hstop, hhold, hready⟩ := (guard_stopDone_iff s eo).1 hg
    obtain hm | htxb | ⟨hstart, b, rest, htxb⟩ := hready
    · simp [he, hstop, hhold, hm] at h
    · simp [he, hstop, hhold, htxb] at h
    · simp [he, hstop, hhold, hstart, htxb] at h
  · rw [← effBer_eq, ← if_congr (guard_ber_iff s m) rfl rfl]
    split
    case isTrue hg => exact fire_of_guard hp hg
    case isFalse hg => exact fire_of_not_guard hg

/-- Settles O49: the guards of the six events, met or not, and their effects. -/
theorem byteEvents : Obligations.ByteEvents := by
  refine ⟨fun s b rest hp he hm haddr hstart hhold htxb => ?_, fun s hp he hm hhold howed htxb hstart hstop => ?_,
    fun s d rest hp he hm hhold haddr hdir htxb => ?_, fun s b hp he hm hhold howed hsdast hstart hstop => ?_,
    fun e s hevent h => ?_, fun s h => ?_, fun e s hevent h => ?_, fun b s h => ?_⟩
  · have hg : addrGuard s = true := (addrGuard_iff s).2 ⟨he, hm, haddr, hstart, hhold, b, rest, htxb⟩
    rw [← effAddrAck_eq htxb, ← effAddrNack_eq htxb]
    exact ⟨fire_of_guard (e := .addrAck) hp hg, fire_of_guard (e := .addrNack) hp hg⟩
  · rw [← effTxReady_eq]
    exact fire_of_guard hp ((guard_txReady_iff s).2 ⟨he, hm, howed, hhold, htxb, hstart, hstop⟩)
  · have hg : txGuard s = true := (txGuard_iff s).2 ⟨he, hm, haddr, hdir, hhold, d, rest, htxb⟩
    rw [← effTxAck_eq htxb, ← effTxNack_eq htxb]
    exact ⟨fire_of_guard (e := .txAck) hp hg, fire_of_guard (e := .txNack) hp hg⟩
  · rw [← effRxByte_eq]
    exact fire_of_guard hp ((guard_rxByte_iff s b).2 ⟨he, hm, howed, hhold, hsdast, hstart, hstop⟩)
  · have hg : ¬ addrGuard s = true := fun hg => by
      obtain ⟨he, hm, haddr, hstart, hhold, b, rest, htxb⟩ := (addrGuard_iff s).1 hg
      simp [he, hm, haddr, hstart, hhold, htxb] at h
    obtain rfl | rfl := hevent <;> exact fire_of_not_guard hg
  · refine fire_of_not_guard fun hg => ?_
    obtain ⟨he, hm, howed, hhold, htxb, hstart, hstop⟩ := (guard_txReady_iff s).1 hg
    simp [he, hm, howed, hhold, htxb, hstart, hstop] at h
  · have hg : ¬ txGuard s = true := fun hg => by
      obtain ⟨he, hm, haddr, hdir, hhold, d, rest, htxb⟩ := (txGuard_iff s).1 hg
      simp [he, hm, haddr, hdir, hhold, htxb] at h
    obtain rfl | rfl := hevent <;> exact fire_of_not_guard hg
  · refine fire_of_not_guard fun hg => ?_
    obtain ⟨he, hm, howed, hhold, hsdast, hstart, hstop⟩ := (guard_rxByte_iff s b).1 hg
    simp [he, hm, howed, hhold, hsdast, hstart, hstop] at h

end Sys2Proof.Machine
end

section
/-! PROOFS. What the line engine never does, and that at most one bus event is enabled at a time (46_line_engine.md R140, R155,
R156). -/

namespace Sys2Proof.Machine

theorem flag_stays_clear {s t : State} {f : Flag} (h : t.flag f = true → s.flag f = true) (hs : s.flag f = false) :
    t.flag f = false := by
  rw [← Bool.not_eq_true] at hs ⊢
  exact mt h hs

/-- Settles O52, from the frame of an interleaving point. -/
theorem lineEngineNever : Obligations.LineEngineNever := by
  intro s t h
  have hframe := lePoint_frame h
  have hclear : ∀ f ∈ [Flag.start, .stop, .ack, .stastre, .inten], s.flag f = false → t.flag f = false := by
    simpa using ⟨flag_stays_clear hframe.start, flag_stays_clear hframe.stop, flag_stays_clear hframe.ack,
      hframe.stastre.trans, hframe.inten.trans⟩
  have hset : ∀ f ∈ [Flag.stastr, .negack, .ber], s.flag f = true → t.flag f = true := by
    simpa using ⟨hframe.stastr, hframe.negack, hframe.ber⟩
  exact ⟨hclear, hframe.ctl2, hframe.ctl3, hframe.b0ectl, hframe.b0fifctl, hset, hframe.x,
    hframe.seq.outer.host, hframe.acc, hframe.wire⟩

/-! ## A START request -/

/-- The flags an event may write (R139 to R152). -/
def LeEvent.writes : LeEvent → List Flag
  | .startDone => [.start, .master, .bb]
  | .ber _ => [.ber, .start, .master]
  | .addrAck => [.stastr]
  | .addrNack => [.negack]
  | .txReady => [.sdast]
  | .txAck => []
  | .txNack => [.negack]
  | .rxByte _ => [.sdast, .ack]
  | .stopDone _ => [.stop, .master, .bb, .eoBusy]
  | .lines _ _ => []
  | .foreign _ _ => [.bb, .eoBusy]

/-- It leaves every other flag alone. -/
theorem effect_flag {e : LeEvent} {f : Flag} (s : State) (hf : f ∉ e.writes) : (e.effect s).flag f = s.flag f := by
  have hne : ∀ g ∈ e.writes, g ≠ f := fun g hg h => hf (h ▸ hg)
  cases e with
  | startDone | ber m | txReady | foreign bb eo =>
    simp only [LeEvent.writes, List.forall_mem_cons] at hne
    simp [LeEvent.effect, effStartDone, effBer, effTxReady, effForeign, State.leIdle, hne]
  | addrAck =>
    show (effAddrAck s).flag f = _
    unfold effAddrAck
    split
    · rfl
    · dsimp only
      split <;> simp [hne .stastr (.head _)]
  | addrNack =>
    show (effAddrNack s).flag f = _
    unfold effAddrNack
    split <;> simp [hne .negack (.head _)]
  | txAck =>
    show (effTxAck s).flag f = _
    unfold effTxAck
    split <;> rfl
  | txNack =>
    show (effTxNack s).flag f = _
    unfold effTxNack
    split <;> simp [hne .negack (.head _)]
  | rxByte b =>
    simp only [LeEvent.writes, List.forall_mem_cons] at hne
    show (effRxByte b s).flag f = _
    unfold effRxByte
    dsimp only
    split <;> simp [hne]
  | stopDone eo =>
    simp only [LeEvent.writes, List.forall_mem_cons] at hne
    show (effStopDone eo s).flag f = _
    unfold effStopDone
    dsimp only
    split <;> simp [State.leIdle, hne]
  | lines scl sda => rfl

/-- Only a generated START and a bus error write `START`. -/
theorem fire_start {e : LeEvent} {s t : State} (hstart : e ≠ .startDone) (hber : ∀ m, e ≠ .ber m) (h : fire e s = .ok t) :
    t.flag .start = s.flag .start := by
  have hwrites : Flag.start ∉ e.writes := by
    cases e with
    | startDone => exact absurd rfl hstart
    | ber m => exact absurd rfl (hber m)
    | _ => simp [LeEvent.writes]
  obtain ⟨-, rfl⟩ | ⟨-, -, rfl⟩ := fire_cases h
  · rfl
  · exact effect_flag s hwrites

theorem fireAll_cons_ok {e : LeEvent} {es : List LeEvent} {s t : State} (h : fireAll (e :: es) s = .ok t) :
    ∃ u, fire e s = .ok u ∧ fireAll es u = .ok t := by
  unfold fireAll at h
  split at h
  case h_1 u hu => exact ⟨u, hu, h⟩
  case h_2 => cases h

theorem fireAll_start {es : List LeEvent} {s t : State} (hstart : .startDone ∉ es) (hber : ∀ m, .ber m ∉ es)
    (h : fireAll es s = .ok t) : t.flag .start = s.flag .start := by
  induction es generalizing s with
  | nil => cases h; rfl
  | cons e es ih =>
    obtain ⟨u, hu, ht⟩ := fireAll_cons_ok h
    have hrest := ih (fun hin => hstart (.tail _ hin)) (fun m hin => hber m (.tail _ hin)) ht
    exact hrest.trans (fire_start (fun he => hstart (he ▸ .head _)) (fun m he => hber m (he ▸ .head _)) hu)

/-- Settles O50: with neither of the two events among those that fire, `START` stays as it was. -/
theorem startNeverDropped : Obligations.StartNeverDropped := by
  intro evs s t h hs ht
  by_contra hno
  rw [not_or, not_exists] at hno
  obtain ⟨hstart, hber⟩ := hno
  rw [fireAll_start hstart hber h, hs] at ht
  cases ht

/-! ## One bus event at a time -/

/-- What the line engine has to do next on the bus, if anything (R155): receive a byte, or what the head of the queue, or with an
empty queue the requests and the step owed, call for. -/
def State.due (s : State) : Nat :=
  if s.le.owed = .rxByte ∧ s.flag .start = false ∧ s.flag .stop = false then (LeEvent.rxByte 0).action
  else match s.headKind with
  | some .data => if s.flag .master then LeEvent.txAck.action else (LeEvent.stopDone false).action
  | some .addr =>
    if s.flag .start then (if s.flag .stop then (LeEvent.stopDone false).action else LeEvent.startDone.action)
    else if s.flag .master then LeEvent.addrAck.action else (LeEvent.stopDone false).action
  | none =>
    if s.flag .stop then (LeEvent.stopDone false).action
    else if s.flag .start then LeEvent.startDone.action else LeEvent.txReady.action

theorem headKind_cons {s : State} {b : Byte} {k : TxKind} {rest : List (Byte × TxKind)} (h : s.le.txb = (b, k) :: rest) :
    s.headKind = some k := headKind_iff.2 ⟨b, rest, h⟩

theorem headKind_nil {s : State} (h : s.le.txb = []) : s.headKind = none := by simp [State.headKind, h]

/-- Nothing is owed in the address phase. -/
theorem owed_of_addrPhase {s : State} (h : s.lineConsistent = true) (haddr : s.le.addrPhase = true) : s.le.owed = .none := by
  simp only [State.lineConsistent, haddr, Bool.and_eq_true, Bool.not_true, Bool.false_or, decide_eq_true_eq] at h
  obtain ⟨⟨⟨⟨⟨⟨-, ⟨-, howed⟩, -⟩, -⟩, -⟩, -⟩, -⟩, -⟩ := h
  exact howed

/-- No byte to receive is owed while sending. -/
theorem owed_of_tx {s : State} (h : s.lineConsistent = true) (hdir : s.le.dir = .tx) : s.le.owed ≠ .rxByte := by
  simp only [State.lineConsistent, hdir, Bool.and_eq_true, Bool.or_eq_true, decide_eq_true_eq, reduceCtorEq, or_false] at h
  obtain ⟨⟨⟨⟨⟨-, howed⟩, -⟩, -⟩, -⟩, -⟩ := h
  exact howed

/-- An enabled bus event, other than a bus error, is what is due. -/
theorem action_eq_due {e : LeEvent} {s : State} (hs : s.lineConsistent = true) (hbus : e.isBusEvent = true)
    (hber : ∀ m, e ≠ .ber m) (hg : e.guard s = true) : e.action = s.due := by
  cases e with
  | startDone =>
    obtain ⟨-, hstart, hstop, -, htxb, -⟩ := (guard_startDone_iff s).1 hg
    obtain htxb | ⟨b, rest, htxb⟩ := htxb
    · simp [State.due, hstart, hstop, headKind_nil htxb]
    · simp [State.due, hstart, hstop, headKind_cons htxb]
  | ber m => exact absurd rfl (hber m)
  | addrAck | addrNack =>
    obtain ⟨-, hm, haddr, hstart, -, b, rest, htxb⟩ := (addrGuard_iff s).1 hg
    simp [State.due, owed_of_addrPhase hs haddr, hstart, hm, headKind_cons htxb, LeEvent.action]
  | txReady =>
    obtain ⟨-, -, howed, -, htxb, hstart, hstop⟩ := (guard_txReady_iff s).1 hg
    simp [State.due, howed, hstart, hstop, headKind_nil htxb]
  | txAck | txNack =>
    obtain ⟨-, hm, -, hdir, -, b, rest, htxb⟩ := (txGuard_iff s).1 hg
    simp [State.due, owed_of_tx hs hdir, hm, headKind_cons htxb, LeEvent.action]
  | rxByte b =>
    obtain ⟨-, -, howed, -, -, hstart, hstop⟩ := (guard_rxByte_iff s b).1 hg
    simp [State.due, howed, hstart, hstop, LeEvent.action]
  | stopDone eo =>
    obtain ⟨-, hstop, -, hm | htxb | ⟨hstart, b, rest, htxb⟩⟩ := (guard_stopDone_iff s eo).1 hg
    · unfold State.due
      rw [if_neg (by simp [hstop])]
      split <;> simp [hstop, hm, LeEvent.action]
    · simp [State.due, hstop, headKind_nil htxb, LeEvent.action]
    · simp [State.due, hstop, hstart, headKind_cons htxb, LeEvent.action]
  | lines | foreign => cases hbus

/-- Events of one action differ in the answer or in what the environment draws. -/
theorem eq_or_answers_of_action_eq {e f : LeEvent} (hbus : e.isBusEvent = true) (hber : ∀ m, e ≠ .ber m)
    (h : f.action = e.action) :
    e = f ∨ (e = .addrAck ∧ f = .addrNack) ∨ (e = .addrNack ∧ f = .addrAck) ∨ (e = .txAck ∧ f = .txNack) ∨
      (e = .txNack ∧ f = .txAck) ∨ (∃ b c, e = .rxByte b ∧ f = .rxByte c) ∨ ∃ b c, e = .stopDone b ∧ f = .stopDone c := by
  cases e with
  | ber m => exact absurd rfl (hber m)
  | lines | foreign => cases hbus
  | _ => cases f <;> simp [LeEvent.action] at h ⊢

/-- Settles O51: two enabled bus events both are what is due. -/
theorem oneBusEventAtATime : Obligations.OneBusEventAtATime := by
  intro s e f hs hbe hbf hbere hberf hge hgf
  have he := action_eq_due hs.line hbe hbere hge
  have hf := action_eq_due hs.line hbf hberf hgf
  exact eq_or_answers_of_action_eq hbe hbere (hf.trans he.symm)

end Sys2Proof.Machine
end

section
/-! PROOFS. The toggle pulse of a write of `BRC` (46_line_engine.md R151), and that every command ends, whatever the line engine
does (R158). -/

namespace Sys2Proof.Machine

theorem afterWrite_brc (s : State) (w : Byte) :
    afterWrite s .brc w = if w.getLsbD 5 = true ∧ s.reg.ctl2.getLsbD 0 = true then
        { s with wire := s.wire ++ [.pulse], le := { s.le with pulses := s.le.pulses + 1 } }
      else s := by
  show (if w.getLsbD 5 = true then (if s.reg.ctl2.getLsbD 0 = true then _ else s) else s) = _
  rw [ite_and]
  rfl

/-- Settles O19: the write drives a pulse under just this condition. -/
theorem regWriteToggle : Obligations.RegWriteToggle := by
  intro v w s u hu hw
  rw [execRegWrite_eq (r := .brc) rfl hw hu, afterWrite_brc]
  split <;> rfl

/-- A command whose body ends while polled completes. -/
theorem exec_next_of_ends {i : Instr} {s : State} (hbody : Op.Ends (commandBody i)) (hp : s.polled)
    (hi : s.initialised = true ∨ needsNoInit i = true) : ∃ t, exec i s = .next t := by
  obtain ⟨k, t, hrun, -⟩ := hbody s hp
  rw [exec_eq_commandBody]
  split
  case isTrue => exact ⟨_, runBody_eq hrun⟩
  case isFalse hneeds => exact ⟨_, runInitialised_eq (hi.resolve_right hneeds) hrun⟩

/-- A register command completes, although a register write of the host may leave the engine not polled. -/
theorem exec_next_of_registerCommand {reg : BitVec 4} {d : Byte} {i : Instr} {s : State} (hp : s.polled)
    (hi : i = .regRead reg ∨ i = .regWrite reg d ∨ i = .regSet reg d ∨ i = .regClr reg d) : ∃ t, exec i s = .next t := by
  obtain ⟨hnone, hsome⟩ := registerCommandsCannotFail reg d i s hi
  obtain hreg | hreg := Nat.lt_or_ge 10 reg.toNat
  · exact ⟨_, hnone hreg⟩
  · obtain ⟨t, ht, -⟩ := hsome hreg hp
    exact ⟨t, ht⟩

theorem exec_next_of_polled {i : Instr} {s : State} (hp : s.polled) (hi : s.initialised = true ∨ needsNoInit i = true) :
    ∃ t, exec i s = .next t := by
  cases i with
  | regRead reg => exact exec_next_of_registerCommand (d := 0) hp (.inl rfl)
  | regWrite reg d => exact exec_next_of_registerCommand hp (.inr (.inl rfl))
  | regSet reg d => exact exec_next_of_registerCommand hp (.inr (.inr (.inl rfl)))
  | regClr reg d => exact exec_next_of_registerCommand hp (.inr (.inr (.inr rfl)))
  | init m => exact exec_next_of_ends (initBody_ends m) hp hi
  | setSpeed freq => exact exec_next_of_ends (configure_ends freq.toNat) hp hi
  | sendStart n => exact exec_next_of_ends (inPhase_ends (sendStart_ends n.toNat)) hp hi
  | sendStop n => exact exec_next_of_ends (inPhase_ends (sendStop_ends n.toNat)) hp hi
  | sendAddress stall b => exact exec_next_of_ends (inPhase_ends (sendAddress_ends b stall)) hp hi
  | pollDataReady n => exact exec_next_of_ends (inPhase_ends (pollDataReady_ends n.toNat)) hp hi
  | pollAckCleared n => exact exec_next_of_ends (inPhase_ends (pollAckCleared_ends n.toNat)) hp hi
  | sendByte b => exact exec_next_of_ends (inPhase_ends (sendByteBody_ends b)) hp hi
  | recvByte nackNext => exact exec_next_of_ends (inPhase_ends (recvByteBody_ends nackNext)) hp hi
  | recvLast ackWait => exact exec_next_of_ends (inPhase_ends (recvLastBody_ends ackWait)) hp hi
  | read a len base => exact exec_next_of_ends (readMessage_ends false a len.toNat base) hp hi
  | write a len base => exact exec_next_of_ends (writeMessage_ends a len.toNat base) hp hi
  | exchange ms => exact exec_next_of_ends (exchange_ends ms) hp hi
  | recover a => exact exec_next_of_ends (recover_ends a) hp hi
  | ctrlReset => exact exec_next_of_ends (.bind ctrlReset_ends fun _ => .pure _) hp hi
  | dump => exact exec_next_of_ends (.bind dump_ends fun _ => .pure _) hp hi

/-- Settles O10: polled, the body of every command ends, and its result is a kind of 60_exceptions.md R161. -/
theorem everyCommandCompletes : Obligations.EveryCommandCompletes := by
  intro i s hp hi
  obtain ⟨t, ht⟩ := exec_next_of_polled hp hi
  obtain ⟨k, u, -, rfl⟩ := exec_next ht
  exact ⟨_, ht, k.code_le⟩

end Sys2Proof.Machine
end

section
/-! PROOFS. The results that refuse a command for what it was given (60_exceptions.md R166 to R170): which command ends with
which, for which cause, and that it has made no access. -/

namespace Sys2Proof.Machine

/-! ## From a body to its command -/

/-- A command whose body runs, with an INIT behind it where it needs one, ends with the body's result. -/
theorem exec_of_commandBody {i : Instr} {s t : State} {k : Kind} (hi : s.initialised = true ∨ needsNoInit i = true)
    (h : commandBody i s = .ok (k, t)) : exec i s = .next (t.endedWith k.code) := by
  rw [exec_eq_commandBody]
  split
  case isTrue => exact runBody_eq h
  case isFalse hneeds => exact runInitialised_eq (hi.resolve_right hneeds) h

/-- An illegal command ends with `InvalidArgument` and is completed (30_encoding.md R78). -/
theorem step_of_illegal {s : State} {why : Illegal} {n : Nat} (hw : wholeProgram s.pending = true)
    (hd : decode s.pending = .illegal why n) : step s = complete n (s.setResult .invalidArgument) := by
  unfold step runNext
  rw [if_pos hw, hd]

/-- Results are told apart by their codes (R161). -/
theorem Kind.code_injective {j k : Kind} (h : j.code = k.code) : j = k := by
  revert h
  cases j <;> cases k <;> decide

/-! ## The phase check (10_state.md R17) -/

theorem not_legalStop (p : Phase) : (!legalStop p) = (decide (p = .idle) || decide (p = .stopped)) := by
  cases p <;> rfl

theorem not_legalAddress (p : Phase) : (!legalAddress p) = !decide (p = .started) := by
  cases p <;> rfl

theorem not_legalData (p : Phase) : (!legalData p) = !(decide (p = .addressed) || decide (p = .data)) := by
  cases p <;> rfl

/-! ## A misused command changes nothing (R169) -/

theorem onRegister_none {reg : BitVec 4} (h : 10 < reg.toNat) (body : RegId → Op Kind) (s : State) :
    onRegister reg body s = .ok (.invalidArgument, s) := by
  unfold onRegister
  rw [RegId.ofBits_of_gt h]
  rfl

theorem initBody_of_noModule {m : BitVec 8} {s : State} (h : s.cfg.nModules ≤ m.toNat) :
    initBody m s = .ok (.invalidArgument, s) := by
  unfold initBody
  rw [Op.bind_eq (getCfg_run s), if_pos h]
  rfl

/-- A command in a phase from which it is not legal. -/
theorem inPhase_misused {i : Instr} {legal : Phase → Bool} {s : State} (hi : (!legal s.x.phase) = misused i s)
    (h : misused i s = true) (m : Op Kind) : inPhase legal m s = .ok (.invalidArgument, s) :=
  inPhase_illegal (by simpa [h] using hi)

theorem commandBody_of_misused {i : Instr} {s : State} (h : misused i s = true) :
    commandBody i s = .ok (.invalidArgument, s) := by
  cases i with
  | regRead reg => exact onRegister_none (of_decide_eq_true h) _ s
  | regWrite reg d => exact onRegister_none (of_decide_eq_true h) _ s
  | regSet reg d => exact onRegister_none (of_decide_eq_true h) _ s
  | regClr reg d => exact onRegister_none (of_decide_eq_true h) _ s
  | init m => exact initBody_of_noModule (of_decide_eq_true h)
  | sendStop n => exact inPhase_misused (not_legalStop _) h _
  | sendAddress stall b => exact inPhase_misused (not_legalAddress _) h _
  | pollDataReady n => exact inPhase_misused (not_legalData _) h _
  | pollAckCleared n => exact inPhase_misused (not_legalData _) h _
  | sendByte b => exact inPhase_misused (not_legalData _) h _
  | recvByte nackNext => exact inPhase_misused (not_legalData _) h _
  | recvLast ackWait => exact inPhase_misused (not_legalData _) h _
  | read a len base =>
    obtain rfl : len = 0 := of_decide_eq_true h
    rfl
  | setSpeed | sendStart | write | exchange | recover | ctrlReset | dump => cases h

/-! ## How INIT ends (41_clock_and_init.md R95, R96) -/

/-- The bus has been given up: what INIT has done when it asks for the clock. -/
def State.released (s : State) : State :=
  { s with x := { s.x with started := false, phase := .idle }, initialised := false }

theorem initBody_of_noClock {m : BitVec 8} {s : State} (hm : m.toNat < s.cfg.nModules)
    (hc : s.cfg.clock = none ∨ s.cfg.clock = some 0) : initBody m s = .ok (.clockUnavailable, s.released) := by
  unfold initBody
  rw [Op.bind_eq (getCfg_run s), if_neg (Nat.not_le.2 hm)]
  obtain hc | hc := hc <;> rw [hc] <;> rfl

/-- The ends of INIT. -/
inductive InitEnd (m : BitVec 8) (s t : State) : Kind → Prop
  /-- The module index is out of range. -/
  | noModule (hm : s.cfg.nModules ≤ m.toNat) (ht : t = s) : InitEnd m s t .invalidArgument
  /-- The provider has returned zero or an error. -/
  | noClock (hc : s.cfg.clock = none ∨ s.cfg.clock = some 0) (ht : t = s.released) : InitEnd m s t .clockUnavailable
  /-- The speed has been configured, and if that succeeded the module brought up. -/
  | configured {k : Kind} {clk : BitVec 32}
    (h : orReturn (configure s.cfg.cfgSpeedHz) (initFinish m clk.toNat s.cfg.cfgSpeedHz) (s.initBegun m clk) = .ok (k, t)) :
    InitEnd m s t k

theorem initBody_end {m : BitVec 8} {s t : State} {k : Kind} (h : initBody m s = .ok (k, t)) : InitEnd m s t k := by
  by_cases hm : s.cfg.nModules ≤ m.toNat
  · cases (initBody_of_noModule hm).symm.trans h
    exact .noModule hm rfl
  · replace hm := Nat.lt_of_not_le hm
    by_cases hc : s.cfg.clock = none ∨ s.cfg.clock = some 0
    · cases (initBody_of_noClock hm hc).symm.trans h
      exact .noClock hc rfl
    · obtain ⟨hnone, hzero⟩ := not_or.1 hc
      obtain ⟨clk, hclk⟩ := Option.ne_none_iff_exists'.1 hnone
      have hne : clk ≠ 0 := fun h0 => hzero (h0 ▸ hclk)
      exact .configured ((initBody_eq hm hclk hne).symm.trans h)

/-! ## The checks of `configure` (R88 to R90) -/

theorem configureCheck_of_fast {clk target : Nat} (h : 100000 < target) : configureCheck clk target = .unsupportedSpeed :=
  if_pos h

theorem configureCheck_of_range {clk target : Nat} (hmax : target ≤ 100000)
    (h : target = 0 ∨ clockDivider clk target < 10 ∨ 511 < clockDivider clk target) :
    configureCheck clk target = .frequencyOutOfRange := by
  have hspeed : ¬ Config.maxSpeedHz < target := Nat.not_lt.2 hmax
  rw [configureCheck, if_neg hspeed]
  by_cases hzero : target = 0
  · rw [if_pos hzero]
  · have hrange : ¬ dividerInRange (clockDivider clk target) = true := by
      have hout := h.resolve_left hzero
      rw [dividerInRange, Bool.and_eq_true, decide_eq_true_eq, decide_eq_true_eq, Config.divMin, Config.divMax]
      omega
    rw [if_neg hzero, if_neg hrange]

/-- A failed check ends `configure` before its first access. -/
theorem configure_of_check {s : State} {target : Nat} {k : Kind} (h : configureCheck s.x.inputClk.toNat target = k)
    (hk : k ≠ .ok) : configure target s = .ok (k, s) := by
  unfold configure
  rw [Op.bind_eq (getX_run s), h]
  cases k with
  | ok => exact absurd rfl hk
  | _ => rfl

theorem configureCheck_result (clk target : Nat) : configureCheck clk target = .ok ∨
    configureCheck clk target = .unsupportedSpeed ∨ configureCheck clk target = .frequencyOutOfRange := by
  unfold configureCheck
  split_ifs <;> simp

/-! ## The results of the other operations -/

/-- The results that say that a command was given what it cannot be run with: no clock, a bad argument, a bad count
(R168 to R170). -/
def Kind.rejection : Kind → Bool
  | .clockUnavailable | .invalidArgument | .unsupportedMessageCount => true
  | .ok | .nack | .busError | .timeout | .frequencyOutOfRange | .unsupportedSpeed | .ioError => false

/-- The piece never ends with such a result. -/
def Op.Accepts (m : Op Kind) : Prop := ∀ s k t, m s = .ok (k, t) → k.rejection = false

namespace Op.Accepts

theorem pure {k : Kind} (hk : k.rejection = false) : (Pure.pure k : Op Kind).Accepts := by
  intro s j t h
  cases h
  exact hk

theorem bind {α : Type} {m : Op α} {f : α → Op Kind} (hf : ∀ a, (f a).Accepts) : (m >>= f).Accepts := by
  intro s k u h
  obtain ⟨a, t, -, h⟩ := Op.bind_ok.1 h
  exact hf a t k u h

theorem orReturn {m k : Op Kind} (hm : m.Accepts) (hk : k.Accepts) : (orReturn m k).Accepts := by
  intro s j u h
  obtain ⟨r, t, hr, ⟨-, h⟩ | ⟨-, rfl, -⟩⟩ := orReturn_ok.1 h
  · exact hk t j u h
  · exact hm s _ t hr

theorem sendStart (n : Nat) : (sendStart n).Accepts := by
  intro s k t h
  obtain ⟨u, -, ⟨rfl, -⟩ | ⟨rfl | rfl, -⟩⟩ := sendStart_spec h <;> rfl

theorem sendStop (n : Nat) : (sendStop n).Accepts := by
  intro s k t h
  obtain ⟨rfl, -⟩ | ⟨rfl, -⟩ := (sendStop_spec h).result <;> rfl

theorem sendAddress (b : Byte) (stall : Bool) : (sendAddress b stall).Accepts := by
  intro s k t h
  obtain ⟨u, -, ⟨rfl, -⟩ | ⟨rfl | rfl, -⟩⟩ := sendAddress_spec h <;> rfl

theorem pollDataReady (n : Nat) : (pollDataReady n).Accepts := by
  intro s k t h
  obtain ⟨-, rfl | rfl | rfl | rfl⟩ := pollDataReady_spec h <;> rfl

theorem pollAckCleared (n : Nat) : (pollAckCleared n).Accepts := by
  intro s k t h
  obtain ⟨-, rfl | rfl⟩ := pollAckCleared_spec h <;> rfl

theorem sendByteBody (b : Byte) : (sendByteBody b).Accepts :=
  .bind fun _ => .orReturn (.pollDataReady _) (.bind fun _ => .pure rfl)

theorem recvByteBody (nackNext : Bool) : (recvByteBody nackNext).Accepts := by
  refine .bind fun _ => .orReturn (.pollDataReady _) (.bind fun _ => .bind fun _ => ?_)
  cases nackNext with
  | false => exact .pure rfl
  | true => exact .bind fun _ => .pure rfl

theorem readTail (store : Byte → Op Unit) : (readTail store).Accepts :=
  .bind fun _ => .bind fun _ => .bind fun _ => .bind fun _ => .pure rfl

theorem recvLastBody (ackWait : Bool) : (recvLastBody ackWait).Accepts := by
  refine .bind fun _ => .orReturn ?_ (.readTail _)
  cases ackWait with
  | false => exact .pollDataReady _
  | true => exact .pollAckCleared _

theorem writeMessage (a : Addr7) (len : Nat) (base : BitVec 32) : (writeMessage a len base).Accepts := by
  intro s k t h
  cases (writeMessage_spec h).2 with
  | noStart hk => obtain rfl | rfl := hk <;> rfl
  | started hk => obtain rfl | rfl | rfl | rfl := hk <;> rfl

theorem configure (target : Nat) : (configure target).Accepts := by
  refine .bind fun x => ?_
  dsimp only
  obtain h | h | h := configureCheck_result x.inputClk.toNat target <;> rw [h]
  · exact .bind fun _ => .bind fun _ => .bind fun _ => .bind fun _ => .bind fun _ => .bind fun _ => .pure rfl
  · exact .pure rfl
  · exact .pure rfl

theorem initFinish (m : BitVec 8) (clk target : Nat) : (initFinish m clk target).Accepts :=
  .bind fun _ => .bind fun _ => .bind fun _ => .bind fun _ => .bind fun _ => .pure rfl

end Op.Accepts

/-! ## How a command ends -/

/-- The result of a command, with the cause where it is one of R168 to R170. -/
inductive CommandEnd (i : Instr) (s : State) : Kind → Prop
  /-- The command has run, or a speed has been refused. -/
  | ran {k : Kind} (h : k.rejection = false) : CommandEnd i s k
  /-- `ClockUnavailable` (R168). -/
  | noClock {m : BitVec 8} (hi : i = .init m) (hc : s.cfg.clock = none ∨ s.cfg.clock = some 0) :
    CommandEnd i s .clockUnavailable
  /-- `InvalidArgument` (R169). -/
  | misused (h : misused i s = true) : CommandEnd i s .invalidArgument
  /-- `UnsupportedMessageCount` (R170). -/
  | badCount {ms : List Message} (hi : i = .exchange ms) (h : ¬(ms.length = 1 ∨ ms.length = 2)) :
    CommandEnd i s .unsupportedMessageCount

section Ends
variable {i : Instr} {s t : State} {k : Kind}

theorem Op.Accepts.ends {m : Op Kind} (hm : m.Accepts) (h : m s = .ok (k, t)) : CommandEnd i s k := .ran (hm s k t h)

theorem onRegister_end {reg : BitVec 4} {body : RegId → Op Kind} (hi : misused i s = decide (10 < reg.toNat))
    (hbody : ∀ r, (body r).Accepts) (h : onRegister reg body s = .ok (k, t)) : CommandEnd i s k := by
  by_cases hreg : 10 < reg.toNat
  · cases (onRegister_none hreg body s).symm.trans h
    exact .misused (hi.trans (decide_eq_true hreg))
  · obtain ⟨r, hr⟩ := RegId.ofBits_of_le (Nat.le_of_not_lt hreg)
    rw [onRegister_some hr] at h
    exact (hbody r).ends h

theorem inPhase_end {legal : Phase → Bool} {m : Op Kind} (hi : (!legal s.x.phase) = misused i s) (hm : m.Accepts)
    (h : inPhase legal m s = .ok (k, t)) : CommandEnd i s k := by
  cases hmis : misused i s with
  | true =>
    cases (inPhase_misused hi hmis m).symm.trans h
    exact .misused hmis
  | false =>
    rw [inPhase_legal (by simpa [hmis] using hi)] at h
    exact hm.ends h

theorem initBody_commandEnd {m : BitVec 8} (h : initBody m s = .ok (k, t)) : CommandEnd (.init m) s k := by
  cases initBody_end h with
  | noModule hm => exact .misused (decide_eq_true hm)
  | noClock hc => exact .noClock rfl hc
  | configured h => exact .ran (Op.Accepts.orReturn (.configure _) (.initFinish _ _ _) _ k t h)

theorem readMessage_commandEnd {a : Addr7} {len : BitVec 16} {base : BitVec 32}
    (h : readMessage false a len.toNat base s = .ok (k, t)) : CommandEnd (.read a len base) s k := by
  cases (readMessage_spec h).2 with
  | rejected hlen => exact .misused (decide_eq_true (BitVec.eq_of_toNat_eq hlen))
  | noStart hk => obtain rfl | rfl := hk <;> exact .ran rfl
  | failed hk => obtain rfl | rfl | rfl := hk <;> exact .ran rfl
  | complete => exact .ran rfl

theorem exchange_of_badCount {ms : List Message} (hms : ¬(ms.length = 1 ∨ ms.length = 2)) (s : State) :
    exchange ms s = .ok (.unsupportedMessageCount, s) := by
  unfold exchange
  rw [if_neg hms]
  rfl

theorem exchange_commandEnd {ms : List Message} (h : exchange ms s = .ok (k, t)) : CommandEnd (.exchange ms) s k := by
  by_cases hms : ms.length = 1 ∨ ms.length = 2
  · obtain rfl | rfl := (exchange_spec hms h).result <;> exact .ran rfl
  · cases (exchange_of_badCount hms s).symm.trans h
    exact .badCount rfl hms

theorem commandBody_end (h : commandBody i s = .ok (k, t)) : CommandEnd i s k := by
  cases i with
  | regRead reg => exact onRegister_end rfl (fun _ => .bind fun _ => .bind fun _ => .pure rfl) h
  | regWrite reg d => exact onRegister_end rfl (fun _ => .bind fun _ => .pure rfl) h
  | regSet reg d => exact onRegister_end rfl (fun _ => .bind fun _ => .bind fun _ => .pure rfl) h
  | regClr reg d => exact onRegister_end rfl (fun _ => .bind fun _ => .bind fun _ => .pure rfl) h
  | init m => exact initBody_commandEnd h
  | setSpeed freq => exact (Op.Accepts.configure _).ends h
  | sendStart n => exact inPhase_end rfl (.sendStart _) h
  | sendStop n => exact inPhase_end (not_legalStop _) (.sendStop _) h
  | sendAddress stall b => exact inPhase_end (not_legalAddress _) (.sendAddress b stall) h
  | pollDataReady n => exact inPhase_end (not_legalData _) (.pollDataReady _) h
  | pollAckCleared n => exact inPhase_end (not_legalData _) (.pollAckCleared _) h
  | sendByte b => exact inPhase_end (not_legalData _) (.sendByteBody b) h
  | recvByte nackNext => exact inPhase_end (not_legalData _) (.recvByteBody nackNext) h
  | recvLast ackWait => exact inPhase_end (not_legalData _) (.recvLastBody ackWait) h
  | read a len base => exact readMessage_commandEnd h
  | write a len base => exact (Op.Accepts.writeMessage a _ base).ends h
  | exchange ms => exact exchange_commandEnd h
  | recover a =>
    obtain rfl := (recover_spec h).result
    exact .ran rfl
  | ctrlReset => exact (Op.Accepts.bind fun _ => .pure rfl).ends h
  | dump => exact (Op.Accepts.bind fun _ => .pure rfl).ends h

/-- A command that leaves the code of a result has ended with that result. -/
theorem exec_end (h : exec i s = .next t) (hk : t.x.result = k.code) : CommandEnd i s k := by
  obtain ⟨j, u, hbody, rfl⟩ := exec_next h
  exact Kind.code_injective (show j.code = k.code from hk) ▸ commandBody_end hbody

end Ends

/-! ## A read of length 0 in an exchange -/

/-- A message that reads nothing fails, and so does its exchange. -/
theorem runMessages_emptyRead {ms : List Message} {m : Message} (hm : m ∈ ms) (hdir : m.dir = .read) (hlen : m.len = 0)
    {before : Option Message} {s t : State} {failed : Bool} (h : runMessages before ms s = .ok (failed, t)) :
    failed = true := by
  induction ms generalizing before s failed with
  | nil => cases hm
  | cons m' ms ih =>
    obtain ⟨k, u, hfirst, h⟩ := Op.bind_ok.1 h
    obtain ⟨rest, w, hrest, h⟩ := Op.bind_ok.1 h
    cases h
    obtain rfl | hm := List.mem_cons.1 hm
    · have hnext : nextMessage before m s = .ok (.invalidArgument, s) := by
        unfold nextMessage runMessage
        rw [hdir, hlen]
        rfl
      cases hnext.symm.trans hfirst
      rfl
    · rw [ih hm hrest, Bool.or_true]

theorem exchange_emptyRead {ms : List Message} (hms : ms.length = 1 ∨ ms.length = 2)
    (hread : ∃ m ∈ ms, m.dir = .read ∧ m.len = 0) {s t : State} {k : Kind} (h : exchange ms s = .ok (k, t)) :
    k = .ioError := by
  obtain ⟨m, hm, hdir, hlen⟩ := hread
  obtain ⟨failed, u, htransfer, hend⟩ := (exchange_ok hms).1 h
  obtain ⟨_, v, -, htransfer⟩ := Op.bind_ok.1 htransfer
  obtain ⟨failed', w, hmessages, htransfer⟩ := Op.bind_ok.1 htransfer
  obtain ⟨_, y, -, hpure⟩ := Op.bind_ok.1 htransfer
  cases hpure
  obtain ⟨hnot, -⟩ | ⟨-, hk, -⟩ := hend
  · cases (runMessages_emptyRead hm hdir hlen hmessages).symm.trans hnot
  · exact hk

/-! ## The obligations -/

/-- Settles O8: a misused command ends before it does anything, and no other command ends so; an illegal word is completed like
a command. -/
theorem invalidArgumentCauses : Obligations.InvalidArgumentCauses := by
  refine ⟨fun i s hi h => exec_of_commandBody hi (commandBody_of_misused h), fun i s t h hres => ?_,
    fun s why n hw hd => ?_, fun ms s t hms hread h => ?_⟩
  · cases exec_end (k := .invalidArgument) h hres with
    | ran h => cases h
    | misused h => exact h
  · have hstep : step s = complete n (s.setResult .invalidArgument) := step_of_illegal hw hd
    exact ⟨fun u hu => hstep.trans (betweenCommands_next.2 hu), fun r hr => hstep.trans (betweenCommands_refused.2 hr)⟩
  · obtain ⟨k, u, hbody, rfl⟩ := exec_next h
    obtain rfl := exchange_emptyRead hms hread hbody
    rfl

/-- Settles O11: the count is checked before anything is done, and only there. -/
theorem messageCountChecked : Obligations.MessageCountChecked := by
  refine ⟨fun ms s hi h1 h2 => ?_, fun i s t h hres => ?_⟩
  · exact exec_of_commandBody (i := .exchange ms) (.inl hi) (exchange_of_badCount (not_or.2 ⟨h1, h2⟩) s)
  · cases exec_end (k := .unsupportedMessageCount) h hres with
    | ran h => cases h
    | badCount hi hms => exact ⟨_, hi, not_or.1 hms⟩

/-- The two speed errors, as the check of `configure` gives them. -/
theorem configureCheck_error {clk target div : Nat} {code : BitVec 4}
    (h : (100000 < target ∧ code = 5) ∨
      (target ≤ 100000 ∧ (target = 0 ∨ div < 10 ∨ 511 < div) ∧ div = (clk + 2 * target) / (4 * target) ∧ code = 4)) :
    ∃ k : Kind, k ≠ .ok ∧ k.code = code ∧ configureCheck clk target = k := by
  obtain ⟨hfast, rfl⟩ | ⟨hmax, hrange, rfl, rfl⟩ := h
  · exact ⟨.unsupportedSpeed, by decide, rfl, configureCheck_of_fast hfast⟩
  · exact ⟨.frequencyOutOfRange, by decide, rfl, configureCheck_of_range hmax hrange⟩

/-- Settles O22: the check of `configure` comes before every access, and INIT then stops too. -/
theorem speedErrors : Obligations.SpeedErrors := by
  intro clk target div code h
  obtain ⟨k, hne, rfl, hcheck⟩ := configureCheck_error h
  refine ⟨fun freq s hi hclk htarget => ?_, fun m c s hm hc hzero hclk htarget => ?_⟩
  · subst hclk htarget
    exact exec_of_commandBody (.inl hi) (configure_of_check hcheck hne)
  · subst hclk htarget
    have hconf : configure s.cfg.cfgSpeedHz (s.initBegun m c) = .ok (k, s.initBegun m c) := configure_of_check hcheck hne
    exact exec_of_commandBody (i := .init m) (.inr rfl)
      ((initBody_eq hm hc hzero).trans (orReturn_ok.2 ⟨k, _, hconf, .inr ⟨hne, rfl, rfl⟩⟩))

/-- Settles O23: INIT alone asks for the clock, and gives the bus up before it does. -/
theorem clockUnavailable : Obligations.ClockUnavailable := by
  refine ⟨fun m s hm hc => ?_, fun i s t h hres => ?_⟩
  · exact exec_of_commandBody (i := .init m) (.inr rfl) (initBody_of_noClock hm hc)
  · cases exec_end (k := .clockUnavailable) h hres with
    | ran h => cases h
    | noClock hi hc => exact ⟨_, hi, hc⟩

end Sys2Proof.Machine
end

section
/-! PROOFS. The controller's configuration and its writers: the configured speed, `ENABLE` and the polled mode
(60_exceptions.md R178, R184, 44_recovery_and_diagnostics.md R131). -/

namespace Sys2Proof.Machine

/-! ## Commands that write no configuration field -/

/-- The commands that write a field of the controller's configuration, if only to put it back. -/
def writesConfiguration : Instr → Bool
  | .regWrite _ _ | .regSet _ _ | .regClr _ _ | .init _ | .setSpeed _ | .exchange _ | .recover _ | .ctrlReset => true
  | .regRead _ | .sendStart _ | .sendStop _ | .sendAddress _ _ | .pollDataReady _ | .pollAckCleared _ | .sendByte _
  | .recvByte _ | .recvLast _ | .read _ _ _ | .write _ _ _ | .dump => false

theorem Op.Keeps.inPhase {R : State → State → Prop} (hR : ∀ s, R s s) {legal : Phase → Bool} {m : Op Kind}
    (hm : Op.Keeps R m) : Op.Keeps R (inPhase legal m) := by
  intro s k t h
  by_cases hl : legal s.x.phase = true
  · exact hm s k t ((inPhase_legal hl).symm.trans h)
  · cases (inPhase_illegal (by simpa using hl)).symm.trans h
    exact hR s

theorem Op.Keeps.onRegister {R : State → State → Prop} (hR : ∀ s, R s s) {reg : BitVec 4} {body : RegId → Op Kind}
    (hbody : ∀ r, Op.Keeps R (body r)) : Op.Keeps R (onRegister reg body) := by
  intro s k t h
  by_cases hreg : 10 < reg.toNat
  · cases (onRegister_none hreg body s).symm.trans h
    exact hR s
  · obtain ⟨r, hr⟩ := RegId.ofBits_of_le (Nat.le_of_not_lt hreg)
    rw [onRegister_some hr] at h
    exact hbody r s k t h

theorem regReadBody_config (r : RegId) : Op.Keeps ConfigFrame (regReadBody r) :=
  bind_config (bind_config (rd_config r) fun _ => bind_config getCfg_config fun _ => pure_config _) fun _ =>
    bind_config (modifyX_config _) fun _ => pure_config _

theorem commandBody_config {i : Instr} (hi : writesConfiguration i = false) : Op.Keeps ConfigFrame (commandBody i) := by
  cases i with
  | regRead reg => exact .onRegister ConfigFrame.along.refl regReadBody_config
  | sendStart n => exact .inPhase ConfigFrame.along.refl (sendStart_config _)
  | sendStop n => exact .inPhase ConfigFrame.along.refl (sendStop_config _)
  | sendAddress stall b => exact .inPhase ConfigFrame.along.refl (sendAddress_config b stall)
  | pollDataReady n => exact .inPhase ConfigFrame.along.refl (pollDataReady_config _)
  | pollAckCleared n => exact .inPhase ConfigFrame.along.refl (pollAckCleared_config _)
  | sendByte b => exact .inPhase ConfigFrame.along.refl (sendByteBody_config b)
  | recvByte nackNext => exact .inPhase ConfigFrame.along.refl (recvByteBody_config nackNext)
  | recvLast ackWait => exact .inPhase ConfigFrame.along.refl (recvLastBody_config ackWait)
  | read a len base => exact readMessage_config false a _ base
  | write a len base => exact writeMessage_config a _ base
  | dump => exact bind_config dump_config fun _ => pure_config _
  | regWrite | regSet | regClr | init | setSpeed | exchange | recover | ctrlReset => cases hi

/-! ## The module stays enabled and the engine polled -/

/-- An enabled module is still enabled and a polled engine still polled. -/
structure ModeSurvives (s t : State) : Prop where
  enable : s.flag .enable = true → t.flag .enable = true
  polled : s.polled → t.polled

theorem ConfigFrame.mode {s t : State} (h : ConfigFrame s t) : ModeSurvives s t :=
  ⟨h.enable.trans, State.polled_congr h.inten h.fifoEn⟩

/-- What ends while polled ends polled. -/
theorem Op.Ends.polled_of_ok {α : Type} {m : Op α} (hm : m.Ends) {s t : State} {a : α} (h : m s = .ok (a, t)) (hs : s.polled) :
    t.polled := by
  obtain ⟨b, u, hu, hp⟩ := hm s hs
  cases hu.symm.trans h
  exact hp

/-- Programming the speed puts `ENABLE` back (R92). -/
theorem programSpeed_enable {clk target : Nat} {s t : State} {k : Kind} (h : programSpeed clk target s = .ok (k, t)) :
    t.flag .enable = s.flag .enable := by
  have hquiet := (Op.AsQuieted.programSpeed clk target s k t h).symm.trans (programSpeed_quiet (quieted_quiet s) clk target)
  simp only [Except.ok.injEq, Prod.mk.injEq] at hquiet
  exact (congrArg (fun u => u.flag .enable) hquiet.2).trans (withDividerLo_enable _ _)

/-- The last steps of INIT enable the module (R95). -/
theorem initFinish_enable {m : BitVec 8} {clk target : Nat} {s t : State} {k : Kind}
    (h : initFinish m clk target s = .ok (k, t)) : t.flag .enable = true := by
  have hquiet := (Op.AsQuieted.initFinish m clk target s k t h).symm.trans (initFinish_quiet (quieted_quiet s) m clk target)
  simp only [Except.ok.injEq, Prod.mk.injEq] at hquiet
  exact (congrArg (fun u => u.flag .enable) hquiet.2).trans (broughtUp_enable _ _ _ _)

theorem configure_enable {target : Nat} {s t : State} {k : Kind} (h : configure target s = .ok (k, t)) :
    t.flag .enable = s.flag .enable := by
  by_cases hcheck : configureCheck s.x.inputClk.toNat target = .ok
  · exact programSpeed_enable ((configure_eq hcheck).symm.trans h)
  · cases (configure_of_check rfl hcheck).symm.trans h
    rfl

theorem initBody_enable {m : BitVec 8} {s t : State} {k : Kind} (hs : s.flag .enable = true) (h : initBody m s = .ok (k, t)) :
    t.flag .enable = true := by
  cases initBody_end h with
  | noModule _ ht => exact ht ▸ hs
  | noClock _ ht => exact ht ▸ hs
  | configured h =>
    obtain ⟨r, u, hconf, ⟨-, hfinish⟩ | ⟨-, -, rfl⟩⟩ := orReturn_ok.1 h
    · exact initFinish_enable hfinish
    · exact (configure_enable hconf).trans hs

theorem exchange_enable {ms : List Message} {s t : State} {k : Kind} (hs : s.flag .enable = true)
    (h : exchange ms s = .ok (k, t)) : t.flag .enable = true := by
  by_cases hms : ms.length = 1 ∨ ms.length = 2
  · obtain ⟨failed, u, htransfer, hend⟩ := (exchange_ok hms).1 h
    have hu := (transfer_config ms _ _ _ htransfer).enable.trans hs
    obtain ⟨-, -, rfl⟩ | ⟨-, -, j, hrecover⟩ := hend
    · exact hu
    · exact (recover_baseline hu hrecover).enable
  · cases (exchange_of_badCount hms s).symm.trans h
    exact hs

theorem commandBody_mode {i : Instr} (hi : ∀ r d, i ≠ .regWrite r d ∧ i ≠ .regSet r d ∧ i ≠ .regClr r d) :
    Op.Keeps ModeSurvives (commandBody i) := by
  intro s k t h
  cases hc : writesConfiguration i with
  | false => exact (commandBody_config hc s k t h).mode
  | true =>
    cases i with
    | regWrite r d => exact absurd rfl (hi r d).1
    | regSet r d => exact absurd rfl (hi r d).2.1
    | regClr r d => exact absurd rfl (hi r d).2.2
    | init m => exact ⟨fun hs => initBody_enable hs h, (initBody_ends m).polled_of_ok h⟩
    | setSpeed freq => exact ⟨(configure_enable h).trans, (configure_ends _).polled_of_ok h⟩
    | exchange ms => exact ⟨fun hs => exchange_enable hs h, (exchange_ends ms).polled_of_ok h⟩
    | recover a => exact ⟨fun hs => (recover_baseline hs h).enable, (recover_ends a).polled_of_ok h⟩
    | ctrlReset =>
      obtain ⟨b, u, hreset, hpure⟩ := Op.bind_ok.1 h
      cases hpure
      exact ⟨fun hs => (ctrlReset_baseline hs hreset).enable, ctrlReset_ends.polled_of_ok hreset⟩
    | _ => cases hc

/-! ## The configured speed -/

/-- The commands that set the speed: INIT, SET_SPEED and register writes of the host. -/
def setsSpeed : Instr → Bool
  | .regWrite _ _ | .regSet _ _ | .regClr _ _ | .init _ | .setSpeed _ => true
  | .regRead _ | .sendStart _ | .sendStop _ | .sendAddress _ _ | .pollDataReady _ | .pollAckCleared _ | .sendByte _
  | .recvByte _ | .recvLast _ | .read _ _ _ | .write _ _ _ | .exchange _ | .recover _ | .ctrlReset | .dump => false

theorem commandBody_speed {i : Instr} (hi : setsSpeed i = false) : Op.Keeps SpeedFrame (commandBody i) := by
  intro s k t h
  cases hc : writesConfiguration i with
  | false => exact (commandBody_config hc s k t h).speed
  | true =>
    cases i with
    | exchange ms =>
      by_cases hms : ms.length = 1 ∨ ms.length = 2
      · exact exchange_speed hms h
      · cases (exchange_of_badCount hms s).symm.trans h
        exact SpeedFrame.along.refl s
    | recover a => exact recover_speed a s k t h
    | ctrlReset =>
      obtain ⟨b, u, hreset, hpure⟩ := Op.bind_ok.1 h
      cases hpure
      exact ctrlReset_speed _ _ _ hreset
    | regWrite | regSet | regClr | init | setSpeed => cases hi
    | _ => cases hc

/-- What INIT and SET_SPEED record in the sequencer is as it was: the module, the input clock and the target frequency. -/
structure SameClock (s t : State) : Prop where
  modidx : t.x.modidx = s.x.modidx
  inputClk : t.x.inputClk = s.x.inputClk
  targetHz : t.x.targetHz = s.x.targetHz

theorem SameClock.refl (s : State) : SameClock s s := ⟨rfl, rfl, rfl⟩

/-- The other sequencer registers have been written at most. -/
theorem SameClock.of_x {s t : State} {started : Bool} {phase : Phase} {rdata : Byte}
    (h : t.x = { s.x with started := started, phase := phase, rdata := rdata }) : SameClock s t := by
  constructor <;> rw [h]

theorem SameClock.of_eq {s t : State} (h : t.x = s.x) : SameClock s t := by
  constructor <;> rw [h]

theorem DataExit.clock {i : Instr} {s t : State} {k : Kind} (h : DataExit i s t k) : SameClock s t := by
  cases h with
  | waited hw => exact .of_x hw.x
  | sent _ hx => exact .of_x hx
  | received _ _ hx => exact .of_x hx
  | last _ _ hx => exact .of_x hx

theorem Outstanding.clock {s t : State} (h : Outstanding s t) : SameClock s t := by
  obtain ⟨p, -, hx⟩ := h
  exact .of_x hx

theorem regReadBody_clock (r : RegId) : Op.Keeps SameClock (regReadBody r) := by
  intro s k t h
  obtain ⟨v, u, hrd, h⟩ := Op.bind_ok.1 h
  cases h
  exact .of_x (by rw [State.withX_x, (hostRd_seq _ _ _ _ hrd).x])

theorem sendStart_clock (n : Nat) : Op.Keeps SameClock (sendStart n) := by
  intro s k t h
  obtain ⟨u, hu, ⟨-, rfl⟩ | ⟨-, rfl⟩⟩ := sendStart_spec h
  · exact .of_x (by rw [State.withX_x, hu.x])
  · exact .of_eq hu.x

theorem sendAddress_clock (b : Byte) (stall : Bool) : Op.Keeps SameClock (sendAddress b stall) := by
  intro s k t h
  obtain ⟨u, hu, ⟨-, rfl⟩ | ⟨-, rfl⟩⟩ := sendAddress_spec h
  · exact .of_x (by rw [State.withX_x, hu.x])
  · exact .of_eq hu.x

theorem readMessage_clock (keep : Bool) (a : Addr7) (len : Nat) (base : BitVec 32) :
    Op.Keeps SameClock (readMessage keep a len base) := by
  intro s k t h
  cases (readMessage_spec h).2 with
  | rejected _ ht => exact .of_eq (by rw [ht])
  | noStart _ hx => exact .of_eq hx
  | failed _ ho => exact ho.clock
  | complete hx => exact .of_x hx

theorem writeMessage_clock (a : Addr7) (len : Nat) (base : BitVec 32) : Op.Keeps SameClock (writeMessage a len base) := by
  intro s k t h
  cases (writeMessage_spec h).2 with
  | noStart _ hx => exact .of_eq hx
  | started _ ho => exact ho.clock

theorem exchange_clock (ms : List Message) : Op.Keeps SameClock (exchange ms) := by
  intro s k t h
  by_cases hms : ms.length = 1 ∨ ms.length = 2
  · obtain hx | ⟨-, hx⟩ := (exchange_spec hms h).x
    · exact .of_x hx
    · exact .of_eq hx
  · cases (exchange_of_badCount hms s).symm.trans h
    exact .refl s

theorem recover_clock (a : Addr7) : Op.Keeps SameClock (recover a) := by
  intro s k t h
  obtain hx | hx := (recover_spec h).x
  · exact .of_eq hx
  · exact .of_x hx

theorem commandBody_clock {i : Instr} (hi : setsSpeed i = false) : Op.Keeps SameClock (commandBody i) := by
  cases i with
  | regRead reg => exact .onRegister SameClock.refl regReadBody_clock
  | sendStart n => exact .inPhase SameClock.refl (sendStart_clock _)
  | sendStop n => exact .inPhase SameClock.refl fun s k t h => .of_x (sendStop_spec h).x
  | sendAddress stall b => exact .inPhase SameClock.refl (sendAddress_clock b stall)
  | pollDataReady n => exact .inPhase SameClock.refl fun s k t h => .of_x (pollDataReady_waited h).x
  | pollAckCleared n => exact .inPhase SameClock.refl fun s k t h => .of_x (pollAckCleared_waited h).x
  | sendByte b => exact .inPhase SameClock.refl fun s k t h => (sendByteBody_exit h).clock
  | recvByte nackNext => exact .inPhase SameClock.refl fun s k t h => (recvByteBody_exit h).clock
  | recvLast ackWait => exact .inPhase SameClock.refl fun s k t h => (recvLastBody_exit h).clock
  | read a len base => exact readMessage_clock false a _ base
  | write a len base => exact writeMessage_clock a _ base
  | exchange ms => exact exchange_clock ms
  | recover a => exact recover_clock a
  | ctrlReset =>
    intro s k t h
    obtain ⟨b, u, hreset, hpure⟩ := Op.bind_ok.1 h
    cases hpure
    exact .of_eq (ctrlReset_seq _ _ _ hreset).x
  | dump =>
    intro s k t h
    obtain ⟨b, u, hdump, hpure⟩ := Op.bind_ok.1 h
    cases hpure
    obtain ⟨v, vals, hv, -, rfl⟩ := dump_spec hdump
    exact .of_eq hv.x
  | regWrite | regSet | regClr | init | setSpeed => cases hi

/-- Settles O60: INIT and the controller reset leave an enabled module enabled and a polled engine polled, the controller reset and
SET_SPEED put back the fields of `CTL2` they do not mean to change, and the other commands keep every configuration field. -/
theorem configurationSurvives : Obligations.ConfigurationSurvives := by
  intro i s t h hi
  obtain ⟨k, u, hbody, rfl⟩ := exec_next h
  have hmode := commandBody_mode hi s k u hbody
  refine ⟨hmode.enable, hmode.polled, fun hinit hset => ?_⟩
  have hnot : setsSpeed i = false := by
    cases i with
    | regWrite r d => exact absurd rfl (hi r d).1
    | regSet r d => exact absurd rfl (hi r d).2.1
    | regClr r d => exact absurd rfl (hi r d).2.2
    | init m => exact absurd rfl (hinit m)
    | setSpeed f => exact absurd rfl (hset f)
    | _ => rfl
  have hspeed := commandBody_speed hnot s k u hbody
  have hclock := commandBody_clock hnot s k u hbody
  exact ⟨hspeed.divider, hspeed.ctl3, hspeed.b0ectl, hclock.modidx, hclock.inputClk, hclock.targetHz⟩

end Sys2Proof.Machine
end

section
/-! PROOFS. Power-on (70_reset_and_hazards.md R186): the values it fixes, the drawn ones, and the
invariant. -/

namespace Sys2Proof.Machine

section PowerOn
variable (c : Config) (d : PowerOnDraws)

/-! ## The registers, field by field -/

/-- `ST`, bit by bit. -/
theorem powerOn_stBit (i : Fin 8) :
    (State.powerOn c d).reg.st.getLsbD i = ![false, false, false, d.stastr, d.negack, d.ber, false, false] i := by
  have hbits : ∀ (ber negack stastr : Bool) (i : Fin 8), BitVec.getLsbD (0#1 ++ 0#1 ++ BitVec.ofBool ber ++
    BitVec.ofBool negack ++ BitVec.ofBool stastr ++ 0#3) i = ![false, false, false, stastr, negack, ber, false, false] i := by
    decide
  exact hbits d.ber d.negack d.stastr i

theorem powerOn_st : (State.powerOn c d).flag .master = false ∧ (State.powerOn c d).flag .sdast = false ∧
    (State.powerOn c d).flag .stastr = d.stastr ∧ (State.powerOn c d).flag .negack = d.negack ∧
    (State.powerOn c d).flag .ber = d.ber :=
  ⟨powerOn_stBit c d 1, powerOn_stBit c d 6, powerOn_stBit c d 3, powerOn_stBit c d 4, powerOn_stBit c d 5⟩

theorem powerOn_bb : (State.powerOn c d).flag .bb = d.bb := by
  have hbit : ∀ bb : Bool, BitVec.getLsbD (0#6 ++ BitVec.ofBool bb ++ 0#1) 1 = bb := by decide
  exact hbit d.bb

theorem powerOn_eoBusy : (State.powerOn c d).flag .eoBusy = d.eoBusy := by
  have hbit : ∀ eoBusy : Bool, BitVec.getLsbD (BitVec.ofBool eoBusy ++ 0#7) 7 = eoBusy := by decide
  exact hbit d.eoBusy

theorem powerOn_fifoEn : (State.powerOn c d).flag .fifoEn = d.fifoEn := by
  have hbit : ∀ fifoEn : Bool, BitVec.getLsbD (0#3 ++ BitVec.ofBool fifoEn ++ 0#4) 4 = fifoEn := by decide
  exact hbit d.fifoEn

theorem powerOn_enable : (State.powerOn c d).flag .enable = false :=
  (BitVec.getLsbD_append (x := d.sclfrqLo) (y := 0#1)).trans rfl

theorem powerOn_sclfrqLo : (State.powerOn c d).reg.ctl2.extractLsb' 1 7 = d.sclfrqLo :=
  BitVec.extractLsb'_append_eq_left

theorem powerOn_hldt : (State.powerOn c d).reg.b0ectl.extractLsb' 0 6 = d.hldt :=
  BitVec.extractLsb'_append_eq_right

/-- The bits of `B0_ECTL` above the hold time are reserved. -/
theorem holdTime_reservedZero (h : BitVec 6) : (0#2 ++ h) &&& ~~~storedMask .b0ectl = 0 := by
  have hsplit : (0#2 ++ h) &&& (3#2 ++ 0#6) = (0#2 &&& 3#2) ++ (h &&& 0#6) := BitVec.and_append
  rw [BitVec.and_zero] at hsplit
  exact hsplit

theorem powerOn_reservedZero : (State.powerOn c d).reg.reservedZero = true := by
  have hst : ∀ ber negack stastr : Bool, (0#1 ++ 0#1 ++ BitVec.ofBool ber ++ BitVec.ofBool negack ++ BitVec.ofBool stastr ++
    0#3) &&& ~~~storedMask .st = 0 := by decide
  have hcst : ∀ bb : Bool, (0#6 ++ BitVec.ofBool bb ++ 0#1) &&& ~~~storedMask .cst = 0 := by decide
  have hb0est : ∀ eoBusy : Bool, (BitVec.ofBool eoBusy ++ 0#7) &&& ~~~storedMask .b0est = 0 := by decide
  have hb0fifctl : ∀ fifoEn : Bool, (0#3 ++ BitVec.ofBool fifoEn ++ 0#4) &&& ~~~storedMask .b0fifctl = 0 := by decide
  simp only [HwRegs.reservedZero, Bool.and_eq_true, beq_iff_eq]
  exact ⟨⟨⟨⟨⟨hst d.ber d.negack d.stastr, hcst d.bb⟩, BitVec.zero_and⟩, holdTime_reservedZero d.hldt⟩, hb0est d.eoBusy⟩,
    hb0fifctl d.fifoEn⟩

theorem powerOn_lineConsistent : (State.powerOn c d).lineConsistent = true := by
  obtain ⟨hmaster, hsdast, -⟩ := powerOn_st c d
  unfold State.lineConsistent
  rw [hmaster, hsdast]
  rfl

theorem powerOn_inv : (State.powerOn c d).Inv where
  reserved := powerOn_reservedZero c d
  sequencer := rfl
  notStopped := nofun
  line := powerOn_lineConsistent c d
  memory := ⟨.nil, nofun⟩

end PowerOn

/-- `TGSCL` reads 0 (10_state.md R41). -/
theorem brcByte_tgscl (scl sda : Bool) : (brcByte scl sda).getLsbD 5 = false := by
  cases scl <;> cases sda <;> rfl

/-! ## The obligations -/

/-- Settles O54: the registers field by field, and `BRC` as a read shows the lines to an engine that is not bus master. -/
theorem powerOnValues : Obligations.PowerOnValues := by
  rintro c d s rfl
  obtain ⟨hmaster, hsdast, hstastr, hnegack, hber⟩ := powerOn_st c d
  have hbrc : readValue (State.powerOn c d) .brc = brcByte (decide (d.scl = .high)) (decide (d.sda = .high)) := by
    rw [readValue_brc, brcLevels_not_master hmaster]
    rfl
  refine ⟨rfl, rfl, powerOn_enable c d, rfl, hmaster, hsdast, rfl, rfl, rfl, powerOn_reservedZero c d, rfl, ?_, ?_, ?_, hstastr,
    hnegack, hber, powerOn_bb c d, powerOn_eoBusy c d, powerOn_fifoEn c d, powerOn_sclfrqLo c d, rfl, powerOn_hldt c d, rfl,
    rfl, rfl⟩
  · rw [hbrc, brcByte_tgscl]
  · rw [hbrc, brcByte_sclLvl, decide_eq_true_iff]
    exact .rfl
  · rw [hbrc, brcByte_sdaLvl, decide_eq_true_iff]
    exact .rfl

/-- Settles O55: the line engine idles, not bus master and with no byte ready, and nothing is listed in `BUF`. -/
theorem resetInv : Obligations.ResetInv := ⟨powerOn_inv, powerOn_inv _ _⟩

end Sys2Proof.Machine
end

section
/-! PROOFS. The first INIT (70_reset_and_hazards.md R188, R189): before it no command that needs a Bus Instance
runs; off the bus nothing can refuse it, in FIFO mode neither. -/

namespace Sys2Proof.Machine

/-! ## Interleaving points off the bus -/

/-- The lines and the busy flags may move, in any mode (log entry 11). -/
theorem State.OffBus.fire {s : State} (h : s.OffBus) (ev : LeEvent) : ∃ t, fire ev s = .ok t ∧ t.OffBus := by
  by_cases hg : ev.guard s = true
  · obtain ⟨scl, sda, rfl⟩ | ⟨bb, eo, rfl⟩ := h.guard hg
    · exact ⟨_, (fire_not_busEvent rfl).trans (congrArg _ (if_pos hg)), h.master, h.start, h.stop⟩
    · exact ⟨_, (fire_not_busEvent rfl).trans (congrArg _ (if_pos hg)), h.master, h.start, h.stop⟩
  · exact ⟨s, fire_of_not_guard hg, h⟩

theorem State.OffBus.fireAll (evs : List LeEvent) {s : State} (h : s.OffBus) : ∃ t, fireAll evs s = .ok t ∧ t.OffBus := by
  induction evs generalizing s with
  | nil => exact ⟨s, rfl, h⟩
  | cons ev evs ih =>
    obtain ⟨u, hu, huoff⟩ := h.fire ev
    obtain ⟨t, ht, htoff⟩ := ih huoff
    refine ⟨t, ?_, htoff⟩
    rw [Sys2Proof.Machine.fireAll, hu]
    exact ht

theorem State.OffBus.lePoint {s : State} (h : s.OffBus) : ∃ t, lePoint s = .ok t ∧ t.OffBus := by
  cases henv : s.env with
  | ref e => exact ⟨_, h.refPoint henv, h.master, h.start, h.stop⟩
  | script points =>
    cases points with
    | nil => exact ⟨s, lePoint_quiet henv, h⟩
    | cons evs rest =>
      have hmoved : (s.withEnv (.script rest)).OffBus := ⟨h.master, h.start, h.stop⟩
      obtain ⟨t, ht, hoff⟩ := hmoved.fireAll evs
      refine ⟨t, ?_, hoff⟩
      unfold Sys2Proof.Machine.lePoint
      rw [henv]
      exact ht

/-! ## Pieces of a command that end off the bus -/

/-- Off the bus, the piece ends, in any mode, and the engine is off the bus afterwards. -/
def Op.EndsOffBus {α : Type} (m : Op α) : Prop := ∀ s, s.OffBus → ∃ a t, m s = .ok (a, t) ∧ t.OffBus

namespace Op.EndsOffBus

theorem pure {α : Type} (a : α) : (Pure.pure a : Op α).EndsOffBus := fun s h => ⟨a, s, rfl, h⟩

theorem bind {α β : Type} {m : Op α} {f : α → Op β} (hm : m.EndsOffBus) (hf : ∀ a, (f a).EndsOffBus) :
    (m >>= f).EndsOffBus := by
  intro s h
  obtain ⟨a, t, ht, hoff⟩ := hm s h
  rw [Op.bind_eq ht]
  exact hf a t hoff

theorem rd {r : RegId} (hafter : ∀ s, afterRead s r = s) : (rd r).EndsOffBus := by
  intro s h
  obtain ⟨u, hu, hoff⟩ := h.lePoint
  refine ⟨_, _, rd_eq hu r, ?_⟩
  rw [hafter]
  exact ⟨hoff.master, hoff.start, hoff.stop⟩

theorem wr {r : RegId} {v : Byte} (hafter : ∀ s : State, s.OffBus → (afterWrite s r v).OffBus) : (wr r v).EndsOffBus := by
  intro s h
  obtain ⟨u, hu, hoff⟩ := h.lePoint
  obtain ⟨hmaster, hstart, hstop⟩ := hafter u hoff
  exact ⟨_, _, wr_eq hu r v, hmaster, hstart, hstop⟩

theorem wrCtl2 (v : Byte) : (Sys2Proof.Machine.wr .ctl2 v).EndsOffBus := wr fun s h => by
  rw [afterWrite_ctl2]
  split
  · constructor <;> simp [moduleDisable]
  · exact ⟨h.master, h.start, h.stop⟩

theorem clearCtl1 : (Sys2Proof.Machine.wr .ctl1 0).EndsOffBus := wr fun s h =>
  ⟨h.master, writeStorage_ctl1_flag s 0 .start rfl, writeStorage_ctl1_flag s 0 .stop rfl⟩

/-- A register without an effect on the bus. -/
theorem wrPlain {r : RegId} {v : Byte} (hst : ∀ s : State, (afterWrite s r v).reg.st = s.reg.st)
    (hctl1 : ∀ s : State, (afterWrite s r v).reg.ctl1 = s.reg.ctl1) : (Sys2Proof.Machine.wr r v).EndsOffBus := wr fun s h =>
  ⟨(congrArg (Flag.isSet .master) (hst s)).trans h.master, (congrArg (Flag.isSet .start) (hctl1 s)).trans h.start,
    (congrArg (Flag.isSet .stop) (hctl1 s)).trans h.stop⟩

theorem modifyX (f : SeqRegs → SeqRegs) : (modifyX f).EndsOffBus := fun _ h => ⟨_, _, rfl, h.master, h.start, h.stop⟩

theorem logEvent (e : LogEvent) : (logEvent e).EndsOffBus := fun _ h => ⟨_, _, rfl, h.master, h.start, h.stop⟩

theorem setInitialised (b : Bool) : (setInitialised b).EndsOffBus := fun _ h => ⟨_, _, rfl, h.master, h.start, h.stop⟩

theorem programSpeed (clk target : Nat) : (programSpeed clk target).EndsOffBus :=
  (rd fun _ => rfl).bind fun _ => (wrCtl2 _).bind fun _ => (rd fun _ => rfl).bind fun _ =>
    (wrPlain (fun _ => rfl) fun _ => rfl).bind fun _ => (wrPlain (fun _ => rfl) fun _ => rfl).bind fun _ =>
    (modifyX _).bind fun _ => .pure _

theorem initFinish (m : BitVec 8) (clk target : Nat) : (initFinish m clk target).EndsOffBus :=
  ((rd fun _ => rfl).bind fun _ => wrCtl2 _).bind fun _ =>
    ((rd fun _ => rfl).bind fun _ => wrPlain (fun _ => rfl) fun _ => rfl).bind fun _ => clearCtl1.bind fun _ =>
    (logEvent _).bind fun _ => (setInitialised _).bind fun _ => .pure _

/-- Off the bus, a piece does what it does in an idle environment, up to what the line engine moves. -/
theorem asQuieted {α : Type} {m : Op α} (hends : m.EndsOffBus) (hm : m.AsQuieted) {s w : State} {a : α} (h : s.OffBus)
    (hquiet : m s.quieted = .ok (a, w)) : ∃ t, m s = .ok (a, t) ∧ t.OffBus ∧ t.quieted = w := by
  obtain ⟨b, t, ht, hoff⟩ := hends s h
  obtain ⟨rfl, hw⟩ := Prod.mk.inj (Except.ok.inj ((hm s b t ht).symm.trans hquiet))
  exact ⟨t, ht, hoff, hw⟩

end Op.EndsOffBus

/-! ## INIT off the bus -/

/-- INIT with usable parameters succeeds and clears `CTL1` and `FIFO_EN`, whatever they were. -/
theorem execInit_offBus {m : BitVec 8} {s : State} {clk : BitVec 32} (hoff : s.OffBus) (hm : m.toNat < s.cfg.nModules)
    (hclk : s.cfg.clock = some clk) (hzero : clk ≠ 0) (hcheck : configureCheck clk.toNat s.cfg.cfgSpeedHz = .ok) :
    ∃ t : State, exec (.init m) s = .next (t.setResult .ok) ∧ t.initialised = true ∧ t.polled := by
  have hbegun : (s.initBegun m clk).OffBus := ⟨hoff.master, hoff.start, hoff.stop⟩
  obtain ⟨u, hu, huoff, -⟩ := (Op.EndsOffBus.programSpeed clk.toNat s.cfg.cfgSpeedHz).asQuieted (.programSpeed _ _) hbegun
    (programSpeed_quiet (quieted_quiet _) _ _)
  obtain ⟨t, ht, -, hqt⟩ := (Op.EndsOffBus.initFinish m clk.toNat s.cfg.cfgSpeedHz).asQuieted (.initFinish _ _ _) huoff
    (initFinish_quiet (quieted_quiet u) _ _ _)
  have hfifo : t.flag .fifoEn = false := (congrArg (fun v => v.flag .fifoEn) hqt).trans BitVec.getLsbD_zero
  have hinten : t.flag .inten = false := congrArg (Flag.isSet .inten) (initFinish_ctl1 ht)
  exact ⟨t, execInit_eq hm hclk hzero hcheck hu ht, congrArg State.initialised hqt, (State.polled_iff t).2 ⟨hfifo, hinten⟩⟩

theorem powerOn_offBus (c : Config) (d : PowerOnDraws) (env : Env) : ((State.powerOn c d).withEnv env).OffBus :=
  ⟨(powerOn_st c d).1, BitVec.getLsbD_zero, BitVec.getLsbD_zero⟩

/-- Settles O25: after power-on the engine is off the bus, and INIT keeps it there. -/
theorem initFromPowerOn : Obligations.InitFromPowerOn := by
  intro c d env m clk hm hclk hzero hpos hmax hmin hmaxdiv
  obtain ⟨t, ht, hinit, hp⟩ := execInit_offBus (powerOn_offBus c d env) hm hclk hzero
    (configureCheck_ok hpos hmax hmin hmaxdiv)
  exact ⟨_, ht, rfl, hinit, hp⟩

/-! ## Without a Bus Instance -/

theorem exec_beforeInit {i : Instr} {s : State} (hs : s.initialised = false) (hi : needsNoInit i = false) :
    exec i s = .refused .beforeInit := by
  rw [exec_eq_commandBody, hi, if_neg Bool.false_ne_true]
  unfold runInitialised
  rw [hs]
  rfl

theorem configure_initialised {target : Nat} {s t : State} {k : Kind} (h : configure target s = .ok (k, t)) :
    t.initialised = s.initialised := by
  by_cases hcheck : configureCheck s.x.inputClk.toNat target = .ok
  · have hspeed := (configure_eq hcheck).symm.trans h
    have hquiet := (Op.AsQuieted.programSpeed _ _ s k t hspeed).symm.trans (programSpeed_quiet (quieted_quiet s) _ _)
    have hinit := congrArg State.initialised (Prod.mk.inj (Except.ok.inj hquiet)).2
    exact hinit
  · cases (configure_of_check rfl hcheck).symm.trans h
    rfl

theorem initFinish_succeeds {m : BitVec 8} {clk target : Nat} {s t : State} {k : Kind}
    (h : initFinish m clk target s = .ok (k, t)) : k = .ok ∧ t.initialised = true := by
  have hquiet := (Op.AsQuieted.initFinish m clk target s k t h).symm.trans (initFinish_quiet (quieted_quiet s) m clk target)
  obtain ⟨hk, ht⟩ := Prod.mk.inj (Except.ok.inj hquiet)
  exact ⟨hk, congrArg State.initialised ht⟩

/-- A failed INIT leaves no Bus Instance (41_clock_and_init.md R96). -/
theorem initBody_initialised {m : BitVec 8} {s t : State} {k : Kind} (hs : s.initialised = false)
    (h : initBody m s = .ok (k, t)) : t.initialised = true ↔ k = .ok := by
  cases initBody_end h with
  | noModule _ ht => simp [ht, hs]
  | noClock _ ht => simp [ht, State.released]
  | configured h =>
    obtain ⟨r, u, hconf, ⟨-, hfinish⟩ | ⟨hfailed, rfl, rfl⟩⟩ := orReturn_ok.1 h
    · obtain ⟨hk, ht⟩ := initFinish_succeeds hfinish
      exact iff_of_true ht hk
    · have hnot : t.initialised = false := configure_initialised hconf
      exact iff_of_false (by simp [hnot]) hfailed

/-- Settles O9: the check for an earlier INIT comes first, and only the last steps of a successful INIT let it pass. -/
theorem refusedBeforeInit : Obligations.RefusedBeforeInit := by
  refine ⟨fun i s hs hi => exec_beforeInit hs hi, fun m s t hs h => ?_⟩
  obtain ⟨k, u, hbody, rfl⟩ := exec_next h
  have hcode : (u.setResult k).x.result = 0 ↔ k = .ok :=
    ⟨fun hzero => Kind.code_injective (k := .ok) hzero, fun hk => hk ▸ rfl⟩
  exact (initBody_initialised hs hbody).trans hcode.symm

end Sys2Proof.Machine
end
